-- ==== Sys2Proof/Word.lean ====
section
/-! DEFINITION. The bit vectors and index types of the NB424. -/

namespace Sys2Proof

/-- One byte of the link or of a segment. -/
abbrev Byte := BitVec 8

/-- A value of the time base: microseconds modulo 2^32 (R173). -/
abbrev Time := BitVec 32

/-- A logical target, 0–4095 (R19). -/
abbrev Target := BitVec 12

/-- A 7-bit bus address (R99); a window keeps it within 0x08–0x77 (R22). -/
abbrev BusAddr := BitVec 7

/-- A segment S0–S3. -/
abbrev SegId := Fin 4

/-- A request slot 0–7. -/
abbrev SlotId := Fin 8

/-- A watch unit W0–W3. -/
abbrev UnitId := Fin 4

/-- A route window 0–15. -/
abbrev WindowId := Fin 16

end Sys2Proof
end

