-- ==== Sys2Proof/Syntax.lean ====
section
/-! DEFINITION. The commands of the NB424: one constructor per row of spec/opcode_table.json. -/

namespace Sys2Proof

/-- The levels of one segment's two lines as an engine that drives neither would read them: `true` is high (R92). -/
structure Levels where
  scl : Bool
  sda : Bool
deriving DecidableEq, Repr

/-- The levels of the four segments' lines at the moment of a command. -/
abbrev Wires := Vector Levels 4

/-- What a target did in one byte of a leg (R98): acknowledged or refused a byte the engine sent, or sent a byte. -/
inductive WireByte where
  | ack
  | nack
  | data (b : Byte)
deriving DecidableEq, Repr

/-- Where in a leg a line conflict is met (R108, R109). -/
inductive ConflictPlace where
  /-- At bit `k` (0 is the most significant) of the byte the engine is sending. -/
  | bit (k : Fin 8)
  /-- At step 3 of the repeated START (R96). -/
  | repeatedStart
  /-- At the NACK the engine sends to a byte of a READ. -/
  | readNack
deriving DecidableEq, Repr

/-- What the engine read at the last stop boundary of a leg (R111, R113): no stop field set; cut-requested or orphaned, with
reset-requested clear; or reset-requested. -/
inductive StopRead where
  | noField | cut | reset
deriving DecidableEq, Repr

/-- Where in a leg the stretch limit expires (R105). -/
inductive StretchPlace where
  /-- In bit slot `k` of the current byte; 8 is the acknowledge slot of a byte the engine sends. -/
  | bit (k : Fin 9)
  /-- In the acknowledge slot of a byte received from the target (R106, its last sentence), after this reading at its stop boundary, the
  moment at which the engine set SDA for its acknowledge (R112). -/
  | readAck (read : StopRead)
  /-- At step 2 of the repeated START (R96). -/
  | repeatedStart
  /-- At step 2 of the closing STOP (R107), after this reading at the leg's last stop boundary. -/
  | closingStop (read : StopRead)
deriving DecidableEq, Repr

/-- How a leg ends on the wires (R104), but for the end of its second stretch window, which is a command of its own. -/
inductive LegFinish where
  /-- With its STOP; `sdaHigh` is the sample of step 4 (R97, R110), `read` as in `StretchPlace.closingStop`. -/
  | stop (sdaHigh : Bool) (read : StopRead)
  /-- In a line conflict (R109). -/
  | conflict (place : ConflictPlace)
deriving DecidableEq, Repr

/-- The commands. A request stands for the completion of a good frame with its type: it carries the body's tag and payload (R198).
A command that can start a line check (R118) carries the levels of the lines (`wires`). The end of a bus clear carries the readings of
SDA that the clear has made since its beginning, in order, `true` for high (R120 to R122). -/
inductive Instr where
  -- transfers
  | write (tag : Byte) (payload : List Byte) (wires : Wires)
  | read (tag : Byte) (payload : List Byte) (wires : Wires)
  | probe (tag : Byte) (payload : List Byte) (wires : Wires)
  | cancel (tag : Byte) (payload : List Byte)
  -- route map
  | routeSet (tag : Byte) (payload : List Byte)
  | routeGet (tag : Byte) (payload : List Byte)
  | routeDisable (tag : Byte) (payload : List Byte)
  -- segment requests
  | segConfig (tag : Byte) (payload : List Byte) (wires : Wires)
  | segStatus (tag : Byte) (payload : List Byte)
  | segReset (tag : Byte) (payload : List Byte) (wires : Wires)
  | segResume (tag : Byte) (payload : List Byte) (wires : Wires)
  -- watch requests
  | watchSet (tag : Byte) (payload : List Byte)
  | watchGet (tag : Byte) (payload : List Byte)
  | watchRearm (tag : Byte) (payload : List Byte)
  | watchDisable (tag : Byte) (payload : List Byte)
  -- log requests; the three operations of LOG_CONTROL carry the payload after their operation byte
  | logRead (tag : Byte) (payload : List Byte)
  | setMode (tag : Byte) (rest : List Byte)
  | resume (tag : Byte) (rest : List Byte)
  | clear (tag : Byte) (rest : List Byte)
  -- clock requests
  | clockConfig (tag : Byte) (payload : List Byte)
  | clockSelect (tag : Byte) (payload : List Byte)
  | clockStatus (tag : Byte) (payload : List Byte)
  -- the table's own
  | status (tag : Byte) (payload : List Byte)
  | reset (tag : Byte) (payload : List Byte)
  -- segment events
  | lineCheckEnd (seg : SegId) (wires : Wires)
  | lineCheckTimeout (seg : SegId) (wires : Wires)
  | legEnd (seg : SegId) (bytes : List WireByte) (finish : LegFinish) (wires : Wires)
  | stretchTimeout (seg : SegId) (bytes : List WireByte) (place : StretchPlace)
  | secondStretchWindowEnd (seg : SegId) (wires : Wires)
  | busClearEnd (seg : SegId) (reads : List Bool) (wires : Wires)
  | busClearTimeout (seg : SegId) (reads : List Bool) (wires : Wires)
  -- time and clock events
  | evtTimerExpiry (unit : UnitId)
  | timeBaseTick
  | referenceEdge
  | referenceGood
  | referenceLost (wires : Wires)
  | pauseRequested (seg : SegId)
  | quiescenceReport (seg : SegId) (wires : Wires)
  | withdrawal (seg : SegId)
  -- link events
  | selectBegin
  | selectRelease
  | frameErr
  | messageBegin
  | frameSent
  | powerOnReset
  | byteBoundary (inbound : Byte) (wires : Wires)
  | unknownType (type : Byte) (tag : Byte) (payload : List Byte)
deriving DecidableEq, Repr

end Sys2Proof
end

