-- ==== Sys2Proof/Decode.lean ====
section
/-! DEFINITION. Commands spelled by bits. No row of spec/opcode_table.json gives bits: a request arrives as a frame of the link
(R197, R198), whose bytes BYTE_BOUNDARY takes, and the other commands are events. -/

namespace Sys2Proof

/-- The command a word of the table spells: none, since no row gives bits (log 14). -/
def decodeTableWord (_nbits _w : Nat) : Option Instr := none

end Sys2Proof
end

