-- ==== Sys2Proof/Config.lean ====
section
/-! DEFINITION. The figures the spec fixes for the part (00 §3.3). The NB424 leaves no value to an implementation and no
result of a command open, so there is no free value here. -/

namespace Sys2Proof.Config

/-- Part code 0x4E24 (R14). -/
def partCode : BitVec 16 := 0x4E24#16

/-- Silicon revision code 0x01 (R14). -/
def revisionCode : Byte := 0x01#8

/-- Entries the history log holds (R161). -/
def logCapacity : Nat := 32

/-- Messages the outbound queue is sized for (R189). -/
def outboundCapacity : Nat := 18

/-- Lowest usable bus address (R22). -/
def busLow : Nat := 0x08

/-- Highest usable bus address (R22). -/
def busHigh : Nat := 0x77

/-- Pulses a bus clear gives at most (R121). -/
def maxPulses : Nat := 9

/-- Length of an EVT pulse in microseconds (R148). -/
def evtMicroseconds : Nat := 8

/-- The count at which a notice's count stays (R127, R150, R172). -/
def countLimit : Nat := 255

/-- The marker byte that opens a frame (11 §11.1). -/
def marker : Byte := 0xB7#8

/-- The fill byte the port sends when no frame is going out (R190). -/
def fillByte : Byte := 0x00#8

/-- The good timer of the reference monitor, 2 ms in microseconds (R171). -/
def goodMicroseconds : Nat := 2000

/-- The gap the reference monitor allows, 1.5 µs in tenths of a microsecond (R171). -/
def gapTenths : Nat := 15

end Sys2Proof.Config
end

