-- ==== Sys2Proof/Machine/State.lean ====
section
/-! DEFINITION. The state of the NB424, as plain data, and its value after power-on reset. -/

namespace Sys2Proof.Machine

/-! ### Named values (11 §11.4) -/

/-- States of a request slot (R1). -/
inductive SlotState where
  | free | working | answered
deriving DecidableEq, Repr

/-- The role of a leg (R42). -/
inductive Role where
  | primary | twin
deriving DecidableEq, Repr

/-- The kind of a leg (R42). -/
inductive Kind where
  | read | write | probe
deriving DecidableEq, Repr

/-- States of a leg (R43). -/
inductive LegState where
  | queued | inProgress | done
deriving DecidableEq, Repr

/-- The ten leg outcomes (R42). -/
inductive LegOutcome where
  | acked | addrNack | dataNack | stretchTimeout | lineConflict | cut | notSent | segmentOff | segmentFaulted | segmentReset
deriving DecidableEq, Repr

/-- Twin policies (R19); `noTwin` is the spec's NONE. -/
inductive TwinPolicy where
  | noTwin | mirrorWrites | mirrorFallback | mirrorCompare
deriving DecidableEq, Repr

/-- Result codes (11 §11.4). -/
inductive ResultCode where
  | ok | fromTwin | twinDiverged | compareMismatch | addrNack | dataNack | stretchTimeout | lineConflict | segmentOff
  | segmentFaulted | segmentReset | cancelled | noRoute | directionDenied | tagInUse | badRequest | busy | range | notPresent
  | clockLost | noSuchTag | stillFaulted
deriving DecidableEq, Repr

/-- States of a segment controller (R73). -/
inductive SegState where
  | off | idle | active | clearing | faulted
deriving DecidableEq, Repr

/-- Segment rates (R81). -/
inductive Rate where
  | slow | standard | fast
deriving DecidableEq, Repr

/-- Causes of a fault entry (R72, R125); `noFault` is the spec's NONE. -/
inductive FaultCause where
  | noFault | stuckData | stuckClock
deriving DecidableEq, Repr

/-- Purposes of a bus clear (R120). -/
inductive ClearPurpose where
  | lineCheck | conflict | stopFailed | reset
deriving DecidableEq, Repr

/-- Phases of a leg on the wires (R91). -/
inductive Phase where
  | start | addressW | register | repeatedStart | addressR | data | stop | stretchWait
deriving DecidableEq, Repr

/-- States of a watch unit (R135). -/
inductive WatchState where
  | disabled | waiting | armed | fired
deriving DecidableEq, Repr

/-- Actions of a watch unit (R136). -/
inductive WatchAction where
  | stage | notify | freezeLog | holdSegment | pulse
deriving DecidableEq, Repr

/-- The direction field of a watch setup (R136). -/
inductive Direction where
  | only (k : Kind)
  | any
deriving DecidableEq, Repr

/-- Modes of the history log (R157). -/
inductive LogMode where
  | off | all | exceptions
deriving DecidableEq, Repr

/-- Clock sources (R170). -/
inductive Source where
  | backup | reference
deriving DecidableEq, Repr

/-- Statuses of the reference (R171). -/
inductive RefStatus where
  | absent | starting | present
deriving DecidableEq, Repr

/-- Switch states of the clock unit (R170). -/
inductive SwitchState where
  | steady
  | quiescing (target : Source)
deriving DecidableEq, Repr

/-- The events a CLOCK_EVENT reports (R172). -/
inductive ClockEventKind where
  | referenceLost | referenceGood
deriving DecidableEq, Repr

/-- Reasons of a CLOCK_SWITCH marker (R159). -/
inductive SwitchReason where
  | select | loss
deriving DecidableEq, Repr

/-- Reasons of a READY notice (R195, R196). -/
inductive ReadyReason where
  | powerOn | soft
deriving DecidableEq, Repr

/-- The leg in progress field of a SEG_RESET reply (R132); `noLeg` is the spec's NONE. -/
inductive ResetLeg where
  | noLeg | cut | ended
deriving DecidableEq, Repr

/-! ### Records -/

/-- A segment configuration (R81). -/
structure SegConfig where
  enable : Bool
  rate : Rate
  stretchLimit : Byte
deriving DecidableEq, Repr

/-- A window record of the route map (R19). -/
structure Window where
  enabled : Bool
  base : Target
  sizeExp : Fin 6
  primarySeg : SegId
  primaryBus : BusAddr
  regPhase : Bool
  allowRead : Bool
  allowWrite : Bool
  policy : TwinPolicy
  twinSeg : SegId
  twinBus : BusAddr
deriving DecidableEq, Repr

/-- A watch setup record (R136). Bit n of `segMask` is segment n, bit n of `outcomes` is leg outcome n (11 §11.4). -/
structure WatchSetup where
  segMask : BitVec 4
  addrLow : BusAddr
  addrHigh : BusAddr
  direction : Direction
  regValue : Byte
  regMask : Byte
  dataValue : Byte
  dataMask : Byte
  outcomes : BitVec 10
  invert : Bool
  count : Nat
  action : WatchAction
  chained : Bool
deriving DecidableEq, Repr

/-- The requests with their payload fields decoded (R198). -/
inductive Request where
  | write (target : Target) (reg : Byte) (data : List Byte)
  | read (target : Target) (reg : Byte) (length : Nat)
  | probe (target : Target)
  | cancel (target : Byte)
  | routeSet (index : WindowId) (window : Window)
  | routeGet (index : WindowId)
  | routeDisable (index : WindowId)
  | segConfig (seg : SegId) (config : SegConfig)
  | segStatus (seg : SegId)
  | segReset (seg : SegId)
  | segResume (seg : SegId)
  | watchSet (unit : UnitId) (setup : WatchSetup)
  | watchGet (unit : UnitId)
  | watchRearm (unit : UnitId)
  | watchDisable (unit : UnitId)
  | logRead (asked : Nat)
  | setMode (mode : LogMode)
  | resume (mode : Byte)
  | clear (mode : Byte)
  | clockConfig (megahertz : Nat)
  | clockSelect (target : Source)
  | clockStatus
  | status (clear : Bool)
  | reset
deriving DecidableEq, Repr

/-- A resolution result (R31); `twin` is present when the policy is not NONE. -/
structure Resolution where
  primarySeg : SegId
  primaryAddr : BusAddr
  regPhase : Bool
  policy : TwinPolicy
  twin : Option (SegId × BusAddr)
deriving DecidableEq, Repr

/-- A leg record (R42). Its write data is its slot's. `cutUnderReset` says that reset-requested already stood when CANCEL set
cut-requested, so that no stop boundary reads cut-requested alone (R66, R113; log 4). `delivered` says that its completion record has
reached its slot (R54 step 2). -/
structure LegRecord where
  slot : SlotId
  role : Role
  segment : SegId
  busAddr : BusAddr
  kind : Kind
  regPhase : Bool
  regIndex : Byte
  length : Nat
  state : LegState
  outcome : Option LegOutcome
  bytes : Nat
  readData : List Byte
  cutRequested : Bool
  cutUnderReset : Bool
  delivered : Bool
deriving DecidableEq, Repr

/-- A reference to a leg record in its slot (R75). -/
structure LegRef where
  slot : SlotId
  role : Role
deriving DecidableEq, Repr

/-- A reply (R13): its contents but for the link-status byte. `fields` are the bytes after the result code (R199). -/
structure Reply where
  reqType : Byte
  tag : Byte
  result : ResultCode
  fields : List Byte
deriving DecidableEq, Repr

/-- What a SEG_RESET in progress keeps for its reply (R132). -/
structure ResetAccount where
  legsFailed : Nat
  leg : ResetLeg
deriving DecidableEq, Repr

/-- A slot record (R1), with the resolution result the table stores in it (R31). -/
structure Slot where
  state : SlotState
  tag : Byte
  reqType : Option Byte
  request : Option Request
  writeData : List Byte
  primary : Option LegRecord
  twin : Option LegRecord
  cancelled : Bool
  result : Option ResultCode
  reply : Option Reply
  resolution : Option Resolution
  resetAccount : Option ResetAccount
deriving DecidableEq, Repr

/-- A leg completion record (R51) without its read data: what the watch units, a WATCH_HIT and the log see of it. -/
structure RecordCopy where
  time : Time
  tag : Byte
  slot : SlotId
  role : Role
  segment : SegId
  busAddr : BusAddr
  kind : Kind
  regPhase : Bool
  regIndex : Byte
  length : Nat
  bytes : Nat
  outcome : LegOutcome
  firstByte : Option Byte
deriving DecidableEq, Repr

/-- A leg completion record (R51); its read data goes to the owning slot only. -/
structure CompletionRecord extends RecordCopy where
  readData : List Byte
deriving DecidableEq, Repr

/-- A history log record (R158, R159). The LEG kind keeps neither slot number nor read data. -/
inductive LogEntry where
  | leg (time : Time) (tag : Byte) (role : Role) (segment : SegId) (busAddr : BusAddr) (direction : Kind) (regPhase : Bool)
      (regIndex : Byte) (length : Nat) (bytes : Nat) (outcome : LegOutcome) (firstByte : Option Byte)
  | clockSwitch (time : Time) (source : Source) (reason : SwitchReason)
  | segmentFault (time : Time) (segment : SegId) (cause : FaultCause)
  | segmentReset (time : Time) (segment : SegId) (tag : Byte) (result : ResultCode)
  | watchFire (time : Time) (unit : UnitId) (action : WatchAction) (tag : Byte) (segment : SegId) (busAddr : BusAddr)
deriving DecidableEq, Repr

/-- A notice (R189, R194) with the fields its source gives it. -/
inductive Notice where
  | ready (reason : ReadyReason)
  | watchHit (unit : UnitId) (action : WatchAction) (count : Nat) (record : RecordCopy)
  | segmentAlert (segment : SegId) (cause : FaultCause) (count : Nat) (time : Time)
  | clockEvent (event : ClockEventKind) (source : Source) (status : RefStatus) (count : Nat)
deriving DecidableEq, Repr

/-- The ten notice sources (10 §10.6). -/
inductive NoticeSource where
  | watch (unit : UnitId)
  | segment (seg : SegId)
  | clock
  | reset
deriving DecidableEq, Repr

/-- What a message of the outbound queue is (R189): the reply that its slot holds, or a notice. -/
inductive OutContent where
  | reply (slot : SlotId)
  | notice (n : Notice)
deriving DecidableEq, Repr

/-- An entry of the outbound queue with its begun mark (R189). -/
structure OutMessage where
  content : OutContent
  begun : Bool
deriving DecidableEq, Repr

/-- What the engine keeps of an orphaned leg (R115): its slot was freed, so the leg itself is kept here until it ends. -/
structure OrphanLeg where
  tag : Byte
  leg : LegRecord
  writeData : List Byte
deriving DecidableEq, Repr

/-- The leg in progress and its run record (R91). `orphan` is present when the orphaned field is yes. `resetDropped` says that a soft
reset has cleared reset-requested within this leg, after a stop boundary may have read it (R115; log 4). `secondWindow` says that the
second stretch window has been opened (R106, R107). -/
structure Run where
  leg : LegRef
  phase : Phase
  dataPos : Nat
  bitPos : Nat
  count : Nat
  decided : Option LegOutcome
  rate : Rate
  stretchLimit : Byte
  orphan : Option OrphanLeg
  resetDropped : Bool
  secondWindow : Bool
deriving DecidableEq, Repr

/-- A clear record (R120). -/
structure ClearRecord where
  purpose : ClearPurpose
  pulses : Nat
  rate : Rate
  stretchLimit : Byte
  owner : Option SlotId
deriving DecidableEq, Repr

/-- What the engine drives on its two lines: `true` is pulled low, `false` released (R92). -/
structure LineDrive where
  sclLow : Bool
  sdaLow : Bool
deriving DecidableEq, Repr

/-- What an engine does on the lines of its segment, one symbol after another (R94 to R98, R106, R121, R122). Every symbol but `start`,
`giveUp` and `stopEnd` begins with SCL pulled low and ends with SCL released; whether SCL then rises is the targets' doing. -/
inductive BusSymbol where
  /-- SDA pulled low with SCL high: the START (R95), and step 4 of a repeated START (R96). -/
  | start
  /-- A bit slot in whose low half the engine pulls SDA low, or releases it (R94, R98). -/
  | slot (sdaLow : Bool)
  /-- Steps 1 and 2 of a repeated START: SDA released (R96). -/
  | release
  /-- The end of a stretch limit before the closing STOP: SDA released, SCL kept released (R106). -/
  | giveUp
  /-- Steps 1 and 2 of a STOP: SDA pulled low (R97, R122). -/
  | stopBegin
  /-- Step 3 of a STOP: SDA released with SCL high (R97, R107, R122). -/
  | stopEnd
  /-- A pulse of a bus clear: SDA left released (R121). -/
  | pulse
deriving DecidableEq, Repr

/-- What a segment sends the clock unit (R177). -/
inductive Report where
  | quiescent | withdrawal
deriving DecidableEq, Repr

/-- A segment record (R72) with its clear record, its held-over alert, the setting of pause-requested on its way to it and
its reports on their way to the clock unit (R177). ACTIVE with no leg in progress is the line check (R73). `trace` is what the engine
has done on the lines since the START of the leg in progress, `lastTrace` what it did in the last leg that has ended (R98, R117; log 36);
`clearTrace` is what it did in the last bus clear, noted at that clear's end and kept until the next begins (R121, R122; log 40). -/
structure Segment where
  state : SegState
  queue : List LegRef
  inProgress : Option Run
  stored : SegConfig
  pendingCfg : Option SegConfig
  hold : Bool
  pauseRequested : Bool
  resetRequested : Bool
  lastFault : FaultCause
  clear : Option ClearRecord
  heldAlert : Option Notice
  pauseSetting : Bool
  reports : List Report
  drive : LineDrive
  trace : List BusSymbol
  lastTrace : List BusSymbol
  clearTrace : List BusSymbol
deriving DecidableEq, Repr

/-- A watch unit record (R135); `evtTimer` is absent when stopped. -/
structure WatchUnit where
  setup : WatchSetup
  state : WatchState
  countRemaining : Nat
  evtTimer : Option Nat
  heldHit : Option Notice
deriving DecidableEq, Repr

/-- The history log (R157). -/
structure HistoryLog where
  entries : List LogEntry
  mode : LogMode
  frozen : Bool
  lost : Bool
deriving DecidableEq, Repr

/-- The clock unit (R170) with the timers of its reference monitor (R171): microseconds of the good timer and tenths of a
microsecond of the gap, each absent when not running. -/
structure ClockUnit where
  source : Source
  switch : SwitchState
  awaited : Vector Bool 4
  selectOwner : Option SlotId
  refStatus : RefStatus
  frequency : Nat
  timeBase : Time
  heldEvent : Option Notice
  goodTimer : Option Nat
  gapTimer : Option Nat
deriving DecidableEq, Repr

/-- States of the inbound frame assembler (R185, R186), with what it has stored. -/
inductive Assembler where
  | hunt
  | length
  | body (len : Nat) (bytes : List Byte)
  | crc (len : Nat) (bytes : List Byte) (high : Option Byte)
deriving DecidableEq, Repr

/-- The link flags (R188). -/
structure LinkFlags where
  overrun : Bool
  frameErr : Bool
  truncated : Bool
deriving DecidableEq, Repr

/-- An outbound frame part-way out: its bytes and how many of them the host has sampled (R190). -/
structure OutFrame where
  bytes : List Byte
  sent : Nat
deriving DecidableEq, Repr

/-- The link port (chapter 10). `rstLow` says that RST_N is low: the part is in power-on reset (R195). No row of the table stands for the
fall of RST_N; POWER_ON_RESET is the reset's end, which clears it (log 28). -/
structure LinkPort where
  rstLow : Bool
  assembler : Assembler
  flags : LinkFlags
  queue : List OutMessage
  outFrame : Option OutFrame
  selected : Bool
  resetInSelect : Bool
deriving DecidableEq, Repr

/-- The whole part. `wires` are the levels of the segments' lines as last read; `pending` is the model's queue of commands. -/
structure State where
  slots : Vector Slot 8
  windows : Vector Window 16
  segs : Vector Segment 4
  wires : Wires
  units : Vector WatchUnit 4
  log : HistoryLog
  clock : ClockUnit
  link : LinkPort
  pending : List Instr
deriving DecidableEq, Repr

/-- The machine's faults. The NB424 has none: every request is answered or discarded and every event has its effect or finds
nothing to act on. No meaning raises `neverRaised`; it stands so that the type has a name for the interface (safe). -/
inductive Fault where
  | neverRaised
deriving DecidableEq, Repr

/-- The model's refusals. `notModelled` is for a command whose arm has no meaning yet; no arm uses it (safe). -/
inductive Refusal where
  | notModelled (mnemonic : String)
deriving DecidableEq, Repr

/-! ### Reset values -/

/-- A slot record with every field at its FREE value (R1). -/
def Slot.freed : Slot :=
  { state := .free, tag := 0, reqType := none, request := none, writeData := [], primary := none, twin := none,
    cancelled := false, result := none, reply := none, resolution := none, resetAccount := none }

/-- The zeroed window record (R36). -/
def Window.zeroed : Window :=
  { enabled := false, base := 0, sizeExp := 0, primarySeg := 0, primaryBus := 0, regPhase := false, allowRead := false,
    allowWrite := false, policy := .noTwin, twinSeg := 0, twinBus := 0 }

/-- The zeroed watch setup (R136). -/
def WatchSetup.zeroed : WatchSetup :=
  { segMask := 0, addrLow := 0, addrHigh := 0, direction := .only .read, regValue := 0, regMask := 0, dataValue := 0,
    dataMask := 0, outcomes := 0, invert := false, count := 0, action := .stage, chained := false }

/-- A watch unit after either reset (R156). -/
def WatchUnit.reset : WatchUnit :=
  { setup := WatchSetup.zeroed, state := .disabled, countRemaining := 0, evtTimer := none, heldHit := none }

/-- Both lines released (R92). -/
def LineDrive.released : LineDrive := { sclLow := false, sdaLow := false }

/-- A segment after power-on reset (R89). -/
def Segment.reset : Segment :=
  { state := .idle, queue := [], inProgress := none, stored := { enable := true, rate := .standard, stretchLimit := 100 },
    pendingCfg := none, hold := false, pauseRequested := false, resetRequested := false, lastFault := .noFault, clear := none,
    heldAlert := none, pauseSetting := false, reports := [], drive := LineDrive.released,
    trace := [], lastTrace := [], clearTrace := [] }

/-- The history log after either reset (R169). -/
def HistoryLog.reset : HistoryLog :=
  { entries := [], mode := .exceptions, frozen := false, lost := false }

/-- The clock unit after power-on reset (R183). -/
def ClockUnit.reset : ClockUnit :=
  { source := .backup, switch := .steady, awaited := Vector.replicate 4 false, selectOwner := none, refStatus := .absent,
    frequency := 16, timeBase := 0, heldEvent := none, goodTimer := none, gapTimer := none }

/-- No link flag set (R188). -/
def LinkFlags.none : LinkFlags := { overrun := false, frameErr := false, truncated := false }

/-- The link port after power-on reset (R195): one READY notice with reason POWER_ON is queued. -/
def LinkPort.reset : LinkPort :=
  { rstLow := false, assembler := .hunt, flags := LinkFlags.none, queue := [⟨.notice (.ready .powerOn), false⟩], outFrame := Option.none,
    selected := false, resetInSelect := false }

/-- Both lines high. DESIGN CHOICE for the inputs at power-on, unsafe (log 3). -/
def Levels.high : Levels := { scl := true, sda := true }

/-- The part after power-on reset (R18, R36, R89, R156, R169, R183, R195), with no command waiting. -/
def State.reset : State :=
  { slots := Vector.replicate 8 Slot.freed, windows := Vector.replicate 16 Window.zeroed,
    segs := Vector.replicate 4 Segment.reset, wires := Vector.replicate 4 Levels.high,
    units := Vector.replicate 4 WatchUnit.reset, log := HistoryLog.reset, clock := ClockUnit.reset, link := LinkPort.reset,
    pending := [] }

/-- The part while RST_N is low (R193, R195): no READY notice is queued yet, and LDO and ATTN_N are released. The other blocks stand at
their reset values, DESIGN CHOICE safe (log 28): the end of the reset puts them there whatever they hold. -/
def State.inPowerOnReset : State :=
  { State.reset with link := { LinkPort.reset with rstLow := true, queue := [] } }

end Sys2Proof.Machine
end

