-- ==== Sys2Proof/Machine/Operands.lean ====
section
/-! DEFINITION. The numeric values of the message formats (chapter 11): every named value as its byte, every record as its
bytes, and the decoding of request payloads with the field checks of screening (R5 steps 1, 3 and 4, R198). -/

namespace Sys2Proof.Machine

/-! ### Bytes -/

/-- A count or number as the byte that carries it. -/
def byteOf (n : Nat) : Byte := BitVec.ofNat 8 n

/-- yes/no and present/absent fields (R197). -/
def boolByte (b : Bool) : Byte := if b then 1 else 0

/-- A yes/no byte; any other value is refused (R197). -/
def boolOfByte (b : Byte) : Option Bool := if b = 0 then some false else if b = 1 then some true else none

/-- A 16-bit field, high byte first (R197). -/
def bytes16 (w : BitVec 16) : List Byte := [w.extractLsb' 8 8, w.extractLsb' 0 8]

/-- A 32-bit field, high byte first (R197). -/
def bytes32 (w : BitVec 32) : List Byte :=
  [w.extractLsb' 24 8, w.extractLsb' 16 8, w.extractLsb' 8 8, w.extractLsb' 0 8]

/-- Two bytes of a multi-byte field, high byte first (R197). -/
def word16 (hi lo : Byte) : BitVec 16 := hi ++ lo

/-- A logical target or base, 0–4095 (R38, R23). -/
def targetOf (hi lo : Byte) : Option Target :=
  if (word16 hi lo).toNat ≤ 4095 then some ((word16 hi lo).setWidth 12) else none

/-- A 7-bit bus address, 0x00–0x7F (R23, R151). -/
def busAddrOf (b : Byte) : Option BusAddr := if b.toNat ≤ 0x7F then some (b.setWidth 7) else none

/-- A number below `n`: segment, unit, window index, size exponent. -/
def finOf (n : Nat) (b : Byte) : Option (Fin n) := if h : b.toNat < n then some ⟨b.toNat, h⟩ else none

/-- A number within `lo`–`hi`. -/
def rangeOf (lo hi : Nat) (b : Byte) : Option Nat := if lo ≤ b.toNat ∧ b.toNat ≤ hi then some b.toNat else none

/-- Four flags in bits 0–3 (S0 bit 0 to S3 bit 3). Bits 4–7 of the awaited segments byte of a CLOCK_STATUS reply carry no field; that
they are 0 is a DESIGN CHOICE (log 33). -/
def flagsByte (v : Vector Bool 4) : Byte :=
  boolByte v[0] ||| (boolByte v[1] <<< 1) ||| (boolByte v[2] <<< 2) ||| (boolByte v[3] <<< 3)

/-! ### Named values as bytes (11 §11.4) -/

/-- Result codes. -/
def ResultCode.code : ResultCode → Byte
  | .ok => 0x00 | .fromTwin => 0x01 | .twinDiverged => 0x02 | .compareMismatch => 0x03
  | .addrNack => 0x10 | .dataNack => 0x11 | .stretchTimeout => 0x12 | .lineConflict => 0x13
  | .segmentOff => 0x14 | .segmentFaulted => 0x15 | .segmentReset => 0x16 | .cancelled => 0x17
  | .noRoute => 0x20 | .directionDenied => 0x21 | .tagInUse => 0x22 | .badRequest => 0x23
  | .busy => 0x24 | .range => 0x25 | .notPresent => 0x26 | .clockLost => 0x27
  | .noSuchTag => 0x28 | .stillFaulted => 0x29

/-- Leg outcomes, 0–9. -/
def LegOutcome.number : LegOutcome → Nat
  | .acked => 0 | .addrNack => 1 | .dataNack => 2 | .stretchTimeout => 3 | .lineConflict => 4
  | .cut => 5 | .notSent => 6 | .segmentOff => 7 | .segmentFaulted => 8 | .segmentReset => 9

/-- A leg outcome as its byte. -/
def LegOutcome.code (o : LegOutcome) : Byte := byteOf o.number

/-- Segment states. -/
def SegState.code : SegState → Byte
  | .off => 0 | .idle => 1 | .active => 2 | .clearing => 3 | .faulted => 4

/-- Rates. -/
def Rate.code : Rate → Byte
  | .slow => 0 | .standard => 1 | .fast => 2

/-- A rate byte. -/
def Rate.ofByte (b : Byte) : Option Rate :=
  if b = 0 then some .slow else if b = 1 then some .standard else if b = 2 then some .fast else none

/-- Twin policies. -/
def TwinPolicy.code : TwinPolicy → Byte
  | .noTwin => 0 | .mirrorWrites => 1 | .mirrorFallback => 2 | .mirrorCompare => 3

/-- A twin policy byte. -/
def TwinPolicy.ofByte (b : Byte) : Option TwinPolicy :=
  if b = 0 then some .noTwin else if b = 1 then some .mirrorWrites else if b = 2 then some .mirrorFallback
  else if b = 3 then some .mirrorCompare else none

/-- Roles. ORPHAN, 2, is written where a leg's slot is gone (R87). -/
def Role.code : Role → Byte
  | .primary => 0 | .twin => 1

/-- The role byte of an orphaned leg (11 §11.4). -/
def orphanRole : Byte := 2

/-- Leg kinds. -/
def Kind.code : Kind → Byte
  | .read => 0 | .write => 1 | .probe => 2

/-- Watch directions. -/
def Direction.code : Direction → Byte
  | .only k => k.code
  | .any => 3

/-- A watch direction byte. -/
def Direction.ofByte (b : Byte) : Option Direction :=
  if b = 0 then some (.only .read) else if b = 1 then some (.only .write) else if b = 2 then some (.only .probe)
  else if b = 3 then some .any else none

/-- Watch states. -/
def WatchState.code : WatchState → Byte
  | .disabled => 0 | .waiting => 1 | .armed => 2 | .fired => 3

/-- Watch actions. -/
def WatchAction.code : WatchAction → Byte
  | .stage => 0 | .notify => 1 | .freezeLog => 2 | .holdSegment => 3 | .pulse => 4

/-- A watch action byte. -/
def WatchAction.ofByte (b : Byte) : Option WatchAction :=
  if b = 0 then some .stage else if b = 1 then some .notify else if b = 2 then some .freezeLog
  else if b = 3 then some .holdSegment else if b = 4 then some .pulse else none

/-- Log modes. -/
def LogMode.code : LogMode → Byte
  | .off => 0 | .all => 1 | .exceptions => 2

/-- A log mode byte. -/
def LogMode.ofByte (b : Byte) : Option LogMode :=
  if b = 0 then some .off else if b = 1 then some .all else if b = 2 then some .exceptions else none

/-- Clock sources. -/
def Source.code : Source → Byte
  | .backup => 0 | .reference => 1

/-- A clock source byte. -/
def Source.ofByte (b : Byte) : Option Source :=
  if b = 0 then some .backup else if b = 1 then some .reference else none

/-- Reference statuses. -/
def RefStatus.code : RefStatus → Byte
  | .absent => 0 | .starting => 1 | .present => 2

/-- Switch states. -/
def SwitchState.code : SwitchState → Byte
  | .steady => 0
  | .quiescing _ => 1

/-- The switch target of a CLOCK_STATUS reply, 0x00 when STEADY (R182, R197). -/
def SwitchState.targetByte : SwitchState → Byte
  | .steady => 0
  | .quiescing t => t.code

/-- Clock events. -/
def ClockEventKind.code : ClockEventKind → Byte
  | .referenceLost => 0 | .referenceGood => 1

/-- Fault causes. -/
def FaultCause.code : FaultCause → Byte
  | .noFault => 0 | .stuckData => 1 | .stuckClock => 2

/-- The leg in progress field of a SEG_RESET reply. -/
def ResetLeg.code : ResetLeg → Byte
  | .noLeg => 0 | .cut => 1 | .ended => 2

/-- READY reasons. -/
def ReadyReason.code : ReadyReason → Byte
  | .powerOn => 0 | .soft => 1

/-- CLOCK_SWITCH reasons (R200). -/
def SwitchReason.code : SwitchReason → Byte
  | .select => 0 | .loss => 1

/-- Dispositions of a SEG_CONFIG reply: APPLIED. -/
def dispositionApplied : Byte := 0

/-- Dispositions of a SEG_CONFIG reply: PENDING. -/
def dispositionPending : Byte := 1

/-! ### Records as bytes (11 §11.5) -/

/-- The window fields, 11 bytes. -/
def Window.fieldBytes (w : Window) : List Byte :=
  bytes16 (w.base.setWidth 16) ++
    [byteOf w.sizeExp, byteOf w.primarySeg, w.primaryBus.setWidth 8, boolByte w.regPhase, boolByte w.allowRead,
      boolByte w.allowWrite, w.policy.code, byteOf w.twinSeg, w.twinBus.setWidth 8]

/-- The watch setup record, 14 bytes. -/
def WatchSetup.bytes (w : WatchSetup) : List Byte :=
  [w.segMask.setWidth 8, w.addrLow.setWidth 8, w.addrHigh.setWidth 8, w.direction.code, w.regValue, w.regMask, w.dataValue,
    w.dataMask] ++ bytes16 (w.outcomes.setWidth 16) ++ [boolByte w.invert, byteOf w.count, w.action.code, boolByte w.chained]

/-- A data byte that may be absent, 0x00 where it is (R197, R200). -/
def dataByte (b : Option Byte) : Byte := b.getD 0

/-- The record copy of a WATCH_HIT, 17 bytes (R199). -/
def RecordCopy.bytes17 (r : RecordCopy) : List Byte :=
  bytes32 r.time ++
    [r.tag, byteOf r.slot, r.role.code, byteOf r.segment, r.busAddr.setWidth 8, r.kind.code, boolByte r.regPhase, r.regIndex,
      byteOf r.length, byteOf r.bytes, r.outcome.code, boolByte r.firstByte.isSome, dataByte r.firstByte]

/-- A log entry as its 16 bytes (R200). Bits 2–7 of byte 15 of a LEG entry carry no field; that they are 0 is a DESIGN CHOICE (log 34). -/
def LogEntry.bytes16 : LogEntry → List Byte
  | .leg t tag role seg addr dir reg idx len n o first =>
    bytes32 t ++ [0, tag, role.code, byteOf seg, addr.setWidth 8, dir.code, idx, byteOf len, byteOf n, o.code, dataByte first,
      boolByte reg ||| (boolByte first.isSome <<< 1)]
  | .clockSwitch t src why => bytes32 t ++ [1, 0, 0, 0, 0, src.code, why.code, 0, 0, 0, 0, 0]
  | .segmentFault t seg cause => bytes32 t ++ [2, 0, 0, byteOf seg, 0, 0, cause.code, 0, 0, 0, 0, 0]
  | .segmentReset t seg tag res => bytes32 t ++ [3, tag, 0, byteOf seg, 0, 0, res.code, 0, 0, 0, 0, 0]
  | .watchFire t u act tag seg addr =>
    bytes32 t ++ [4, tag, 0, byteOf seg, addr.setWidth 8, 0, byteOf u, act.code, 0, 0, 0, 0]

/-! ### Request types (R198) -/

/-- The request types the spec lists. LOG_CONTROL's three operations are one type. -/
inductive ReqType where
  | write | read | probe | cancel | routeSet | routeGet | routeDisable | segConfig | segStatus | segReset | segResume
  | watchSet | watchGet | watchRearm | watchDisable | logRead | logControl | clockConfig | clockSelect | clockStatus | status
  | reset
deriving DecidableEq, Repr

/-- The type byte of each request type. -/
def ReqType.code : ReqType → Byte
  | .write => 0x10 | .read => 0x11 | .probe => 0x12 | .cancel => 0x13
  | .routeSet => 0x20 | .routeGet => 0x21 | .routeDisable => 0x22
  | .segConfig => 0x30 | .segStatus => 0x31 | .segReset => 0x32 | .segResume => 0x33
  | .watchSet => 0x40 | .watchGet => 0x41 | .watchRearm => 0x42 | .watchDisable => 0x43
  | .logRead => 0x50 | .logControl => 0x51
  | .clockConfig => 0x60 | .clockSelect => 0x61 | .clockStatus => 0x62
  | .status => 0x70 | .reset => 0x7F

/-- Every request type. -/
def ReqType.all : List ReqType :=
  [.write, .read, .probe, .cancel, .routeSet, .routeGet, .routeDisable, .segConfig, .segStatus, .segReset, .segResume, .watchSet,
    .watchGet, .watchRearm, .watchDisable, .logRead, .logControl, .clockConfig, .clockSelect, .clockStatus, .status, .reset]

/-- The request type of a type byte; none for an unknown type (R5 step 1). -/
def ReqType.ofByte (b : Byte) : Option ReqType := ReqType.all.find? fun t => t.code = b

/-- WRITE, READ and PROBE are the transfers (R6). -/
def transferType (b : Byte) : Bool := b = ReqType.write.code || b = ReqType.read.code || b = ReqType.probe.code

/-! ### Payloads (R198), `none` where R5 steps 3 and 4 refuse with BAD_REQUEST -/

/-- WRITE: target, register index, data length n, n data bytes (R38). -/
def decodeWrite : List Byte → Option (Target × Byte × List Byte)
  | hi :: lo :: reg :: n :: data => do
    let len ← rangeOf 1 32 n
    let t ← targetOf hi lo
    if data.length = len then some (t, reg, data) else none
  | _ => none

/-- READ: target, register index, data length (R39). -/
def decodeRead : List Byte → Option (Target × Byte × Nat)
  | [hi, lo, reg, n] => do
    let len ← rangeOf 1 32 n
    let t ← targetOf hi lo
    some (t, reg, len)
  | _ => none

/-- PROBE: target (R40). -/
def decodeProbe : List Byte → Option Target
  | [hi, lo] => targetOf hi lo
  | _ => none

/-- CANCEL: target tag (R64). -/
def decodeCancel : List Byte → Option Byte
  | [t] => some t
  | _ => none

/-- ROUTE_SET: window index and window fields, with the ranges of R23, as a window that is enabled (R21). -/
def decodeRouteSet : List Byte → Option (WindowId × Window)
  | [i, bh, bl, k, ps, pb, rp, ar, aw, pol, ts, tb] => do
    let index ← finOf 16 i
    let base ← targetOf bh bl
    let sizeExp ← finOf 6 k
    let primarySeg ← finOf 4 ps
    let primaryBus ← busAddrOf pb
    let regPhase ← boolOfByte rp
    let allowRead ← boolOfByte ar
    let allowWrite ← boolOfByte aw
    let policy ← TwinPolicy.ofByte pol
    let twinSeg ← finOf 4 ts
    let twinBus ← busAddrOf tb
    some (index,
      { enabled := true, base, sizeExp, primarySeg, primaryBus, regPhase, allowRead, allowWrite, policy, twinSeg, twinBus })
  | _ => none

/-- A payload of one byte below `n`: the window index, segment or unit of the short requests. -/
def decodeOne (n : Nat) : List Byte → Option (Fin n)
  | [b] => finOf n b
  | _ => none

/-- SEG_CONFIG: segment, enable, rate, stretch limit 1–255 (R81). -/
def decodeSegConfig : List Byte → Option (SegId × SegConfig)
  | [s, e, r, l] => do
    let seg ← finOf 4 s
    let enable ← boolOfByte e
    let rate ← Rate.ofByte r
    if l = 0 then none else some (seg, { enable, rate, stretchLimit := l })
  | _ => none

/-- WATCH_SET: unit and setup record, with the refusals of R151 and R197. -/
def decodeWatchSet : List Byte → Option (UnitId × WatchSetup)
  | [u, sm, al, ah, dir, rv, rm, dv, dm, oh, ol, inv, cnt, act, ch] => do
    let unit ← finOf 4 u
    let segMask ← if sm.toNat < 16 then some (sm.setWidth 4) else none
    let addrLow ← busAddrOf al
    let addrHigh ← busAddrOf ah
    let direction ← Direction.ofByte dir
    let outcomes ← if (word16 oh ol).toNat < 1024 then some ((word16 oh ol).setWidth 10) else none
    let invert ← boolOfByte inv
    let action ← WatchAction.ofByte act
    let chained ← boolOfByte ch
    if addrHigh < addrLow then none
    else if chained && (unit = 0 || unit = 2) then none
    else some (unit,
      { segMask, addrLow, addrHigh, direction, regValue := rv, regMask := rm, dataValue := dv, dataMask := dm, outcomes, invert,
        count := cnt.toNat, action, chained })
  | _ => none

/-- LOG_READ: the number asked for, 1–4 (R163). -/
def decodeLogRead : List Byte → Option Nat
  | [n] => rangeOf 1 4 n
  | _ => none

/-- The mode byte of LOG_CONTROL SET_MODE (R165). -/
def decodeSetMode : List Byte → Option LogMode
  | [m] => LogMode.ofByte m
  | _ => none

/-- The mode byte of LOG_CONTROL RESUME and CLEAR: it must be there, and may hold any value (R164, R197). -/
def decodeAnyMode : List Byte → Option Byte
  | [m] => some m
  | _ => none

/-- CLOCK_CONFIG: 8–25 (R181). -/
def decodeClockConfig : List Byte → Option Nat
  | [f] => rangeOf 8 25 f
  | _ => none

/-- CLOCK_SELECT: the target source (R176). -/
def decodeClockSelect : List Byte → Option Source
  | [s] => Source.ofByte s
  | _ => none

/-- A request without payload: CLOCK_STATUS (R182), RESET (R16). -/
def decodeEmpty : List Byte → Option Unit
  | [] => some ()
  | _ => none

/-- STATUS: clear (R14). -/
def decodeStatus : List Byte → Option Bool
  | [c] => boolOfByte c
  | _ => none

end Sys2Proof.Machine
end

