-- ==== Sys2Proof/Machine/Flags.lean ====
section
/-! DEFINITION. Flags, flag bytes and the output pins that follow from the state. -/

namespace Sys2Proof.Machine

/-- The link flags in bits 0–2: OVERRUN, FRAME_ERR, TRUNCATED (R197). Bits 3–7 of the link flags byte of a STATUS reply carry no field;
that they are 0 is a DESIGN CHOICE (log 33). -/
def LinkFlags.byte (f : LinkFlags) : Byte :=
  boolByte f.overrun ||| (boolByte f.frameErr <<< 1) ||| (boolByte f.truncated <<< 2)

/-- The link-status byte captured when a frame begins: the link flags, and more queued in bit 3 (R190, R197). -/
def State.linkStatus (s : State) : Byte :=
  s.link.flags.byte ||| (boolByte (decide (1 < s.link.queue.length)) <<< 3)

/-- The flags byte of a SEG_STATUS reply: hold bit 0, pause-requested bit 1, reset-requested bit 2 (R199). Bits
3–7 carry no field; that they are 0 is a DESIGN CHOICE (log 33). -/
def Segment.flagsByte (g : Segment) : Byte :=
  boolByte g.hold ||| (boolByte g.pauseRequested <<< 1) ||| (boolByte g.resetRequested <<< 2)

/-- Sets OVERRUN (R188). -/
def State.setOverrun (s : State) : State :=
  { s with link := { s.link with flags := { s.link.flags with overrun := true } } }

/-- Sets FRAME_ERR (R188). -/
def State.setFrameErr (s : State) : State :=
  { s with link := { s.link with flags := { s.link.flags with frameErr := true } } }

/-- Sets TRUNCATED (R188). -/
def State.setTruncated (s : State) : State :=
  { s with link := { s.link with flags := { s.link.flags with truncated := true } } }

/-- Clears the three link flags (R15). -/
def State.clearFlags (s : State) : State :=
  { s with link := { s.link with flags := LinkFlags.none } }

/-- ATTN_N is pulled low while the outbound queue holds a message, and released while RST_N is low (R193). -/
def State.attnLow (s : State) : Bool := !s.link.rstLow && !s.link.queue.isEmpty

/-- EVT is high while some unit's EVT timer runs (R148). -/
def State.evtHigh (s : State) : Bool :=
  s.units[0].evtTimer.isSome || s.units[1].evtTimer.isSome || s.units[2].evtTimer.isSome || s.units[3].evtTimer.isSome

/-- The byte the port is sending on LDO, absent while LDO is released (R184, R190, R195): the next byte of the frame part-way out,
or a fill byte. -/
def State.ldo (s : State) : Option Byte :=
  if s.link.selected && !s.link.rstLow then
    match s.link.outFrame with
    | some f => some (f.bytes[f.sent]?.getD Config.fillByte)
    | none => some Config.fillByte
  else none

/-- A segment is quiescent when it is OFF, IDLE or FAULTED (R80). -/
def SegState.quiescent : SegState → Bool
  | .off => true
  | .idle => true
  | .faulted => true
  | .active => false
  | .clearing => false

/-- An outcome other than ACKED is an exception outcome (R42). -/
def LegOutcome.isException (o : LegOutcome) : Bool := o ≠ .acked

end Sys2Proof.Machine
end

