-- ==== Sys2Proof/Machine/Ops.lean ====
section
/-! DEFINITION. The shared operations on the tables of State, on the outbound queue, on request slots and on the history log. -/

namespace Sys2Proof.Machine

/-! ### One slot, segment or unit -/

/-- Changes one slot record. -/
def State.modSlot (s : State) (k : SlotId) (f : Slot → Slot) : State :=
  { s with slots := s.slots.set k (f s.slots[k]) }

/-- Changes one segment record. -/
def State.modSeg (s : State) (n : SegId) (f : Segment → Segment) : State :=
  { s with segs := s.segs.set n (f s.segs[n]) }

/-- Changes one watch unit record. -/
def State.modUnit (s : State) (u : UnitId) (f : WatchUnit → WatchUnit) : State :=
  { s with units := s.units.set u (f s.units[u]) }

/-- Takes the levels of the segment lines that a command brings (log 3). -/
def State.withWires (s : State) (w : Wires) : State := { s with wires := w }

/-! ### Leg records -/

/-- The leg record of a slot by its role. -/
def Slot.leg (x : Slot) : Role → Option LegRecord
  | .primary => x.primary
  | .twin => x.twin

/-- Changes the leg record of a slot by its role. -/
def Slot.modLeg (x : Slot) (r : Role) (f : LegRecord → LegRecord) : Slot :=
  match r with
  | .primary => { x with primary := x.primary.map f }
  | .twin => { x with twin := x.twin.map f }

/-- The leg record a reference names (R75). -/
def State.legAt (s : State) (r : LegRef) : Option LegRecord := s.slots[r.slot].leg r.role

/-- Changes the leg record a reference names. -/
def State.modLeg (s : State) (r : LegRef) (f : LegRecord → LegRecord) : State :=
  s.modSlot r.slot fun x => x.modLeg r.role f

/-! ### The outbound queue (R189) -/

/-- Appends a message at the tail with its begun mark clear. -/
def State.append (s : State) (c : OutContent) : State :=
  { s with link := { s.link with queue := s.link.queue ++ [{ content := c, begun := false }] } }

/-- The source of a notice. -/
def Notice.source : Notice → NoticeSource
  | .ready _ => .reset
  | .watchHit u _ _ _ => .watch u
  | .segmentAlert n _ _ _ => .segment n
  | .clockEvent _ _ _ _ => .clock

/-- The count a notice carries; a READY carries none. -/
def Notice.count : Notice → Nat
  | .ready _ => 1
  | .watchHit _ _ c _ => c
  | .segmentAlert _ _ c _ => c
  | .clockEvent _ _ _ c => c

/-- A notice with another count. -/
def Notice.withCount (c : Nat) : Notice → Notice
  | .ready r => .ready r
  | .watchHit u a _ r => .watchHit u a c r
  | .segmentAlert n x _ t => .segmentAlert n x c t
  | .clockEvent e x t _ => .clockEvent e x t c

/-- A new event folded into a notice: the count rises by 1, staying at 255, and the latest fields replace the old ones (R194). -/
def Notice.fold (old new : Notice) : Notice := new.withCount (min Config.countLimit (old.count + 1))

/-- Whether a message is a notice of the given source. -/
def OutMessage.isFrom (src : NoticeSource) (m : OutMessage) : Bool :=
  match m.content with
  | .reply _ => false
  | .notice n => n.source = src

/-- The notice a source holds over (R194). READY is never held over. -/
def State.held (s : State) : NoticeSource → Option Notice
  | .watch u => s.units[u].heldHit
  | .segment n => s.segs[n].heldAlert
  | .clock => s.clock.heldEvent
  | .reset => none

/-- Sets the notice a source holds over. -/
def State.setHeld (s : State) (src : NoticeSource) (h : Option Notice) : State :=
  match src with
  | .watch u => s.modUnit u fun x => { x with heldHit := h }
  | .segment n => s.modSeg n fun g => { g with heldAlert := h }
  | .clock => { s with clock := { s.clock with heldEvent := h } }
  | .reset => s

/-- A queued message with a new event of its source folded into it. -/
def OutMessage.refresh (new : Notice) (m : OutMessage) : OutMessage :=
  match m.content with
  | .reply _ => m
  | .notice old => if old.source = new.source then { m with content := .notice (old.fold new) } else m

/-- Folds a new event into the source's held-over notice, made with count 1 if the source has none (R194). -/
def State.holdOver (s : State) (new : Notice) : State :=
  s.setHeld new.source (some (match s.held new.source with
    | none => new
    | some old => old.fold new))

/-- Raises a notice, given with count 1 (R194): appended where its source has none, folded into the queued one where that has not
begun, held over where it has. -/
def State.raise (s : State) (new : Notice) : State :=
  match s.link.queue.find? (OutMessage.isFrom new.source) with
  | none => if (s.held new.source).isSome then s.holdOver new else s.append (.notice new)
  | some m =>
    if m.begun then s.holdOver new
    else { s with link := { s.link with queue := s.link.queue.map (OutMessage.refresh new) } }

/-- Appends the notice a source holds over, if any, and leaves the source holding none (R191, R194). -/
def State.releaseHeld (s : State) (src : NoticeSource) : State :=
  match s.held src with
  | none => s
  | some n => (s.setHeld src none).append (.notice n)

/-! ### Slots -/

/-- The lowest-numbered FREE slot (R3). -/
def State.freeSlot (s : State) : Option SlotId :=
  (List.finRange 8).find? fun k => s.slots[k].state = .free

/-- Builds a slot's reply, appends it and moves the slot to ANSWERED (R11). A slot that is not WORKING is left as it is: its reply
is already fixed, or there is no request (R2). -/
def State.answer (s : State) (k : SlotId) (res : ResultCode) (fields : List Byte) : State :=
  if s.slots[k].state = .working then
    (s.modSlot k fun x =>
      { x with state := .answered, result := some res,
               reply := some { reqType := x.reqType.getD 0, tag := x.tag, result := res, fields } }).append (.reply k)
  else s

/-- A slot that has taken a request, before it is screened (R3). -/
def Slot.taken (type tag : Byte) : Slot :=
  { Slot.freed with state := .working, tag := tag, reqType := some type }

/-- The frame that carries a request is complete: the assembler is back in HUNT (R186). -/
def State.hunting (s : State) : State := { s with link := { s.link with assembler := .hunt } }

/-- A request is delivered (R3): the lowest FREE slot takes it and `screen` goes on with it, or it is discarded with OVERRUN. While
RST_N is low the port takes nothing from the link (R195). -/
def State.deliver (s : State) (type tag : Byte) (screen : SlotId → State → State) : State :=
  if s.link.rstLow then s
  else
    match s.hunting.freeSlot with
    | none => s.hunting.setOverrun
    | some k => screen k (s.hunting.modSlot k fun _ => Slot.taken type tag)

/-- Screening of a request's fields (R5 steps 3 and 4): BAD_REQUEST where they do not decode; else the slot keeps the decoded
request and it is carried out. DESIGN CHOICE (log 37): the request fields of a slot whose request is refused before this are none. -/
def State.screened {α : Type} (k : SlotId) (decoded : Option α) (name : α → Request) (carryOut : α → State → State) (s : State) :
    State :=
  match decoded with
  | none => s.answer k .badRequest []
  | some a => carryOut a (s.modSlot k fun x => { x with request := some (name a) })

/-- A slot that holds a live tag (R6). -/
def Slot.liveTag (x : Slot) : Bool :=
  (match x.reqType with
    | none => false
    | some t => transferType t) &&
  (x.state = .working || (x.state = .answered && x.result ≠ some .tagInUse))

/-- Whether a slot other than `k` holds the tag of slot `k` as a live tag (R6). -/
def State.tagClash (s : State) (k : SlotId) : Bool :=
  (List.finRange 8).any fun j => j ≠ k && s.slots[j].liveTag && s.slots[j].tag = s.slots[k].tag

/-- Releases a slot: FREE, every field at its FREE value (R12, R1). -/
def State.releaseSlot (s : State) (k : SlotId) : State := s.modSlot k fun _ => Slot.freed

/-! ### The history log -/

/-- Whether a mode admits a record (R160). -/
def LogMode.admits : LogMode → LogEntry → Bool
  | .off, _ => false
  | .all, _ => true
  | .exceptions, .leg _ _ _ _ _ _ _ _ _ _ o _ => o.isException
  | .exceptions, .clockSwitch _ _ _ => true
  | .exceptions, .segmentFault _ _ _ => true
  | .exceptions, .segmentReset _ _ _ _ => true
  | .exceptions, .watchFire _ _ _ _ _ _ => true

/-- Writes a record as the newest entry; a full log first loses its oldest and sets lost (R161). -/
def HistoryLog.write (l : HistoryLog) (e : LogEntry) : HistoryLog :=
  if Config.logCapacity ≤ l.entries.length then { l with entries := l.entries.drop 1 ++ [e], lost := true }
  else { l with entries := l.entries ++ [e] }

/-- Offers a record to the log (R160). -/
def HistoryLog.offer (l : HistoryLog) (e : LogEntry) : HistoryLog :=
  if !l.frozen && l.mode.admits e then l.write e else l

/-- Offers a record to the part's log. -/
def State.offer (s : State) (e : LogEntry) : State := { s with log := s.log.offer e }

/-- The log record of a completion record (R158). -/
def RecordCopy.logEntry (r : RecordCopy) : LogEntry :=
  .leg r.time r.tag r.role r.segment r.busAddr r.kind r.regPhase r.regIndex r.length r.bytes r.outcome r.firstByte

end Sys2Proof.Machine
end

