-- ==== Sys2Proof/Machine/WatchOps.lean ====
section
/-! DEFINITION. The watch units as consumers of completion records: matching, counting, firing, chains and actions
(R137 to R150). -/

namespace Sys2Proof.Machine

/-- The successor of a unit in its chain (R143). -/
def successor : UnitId → Option UnitId
  | 0 => some 1
  | 1 => none
  | 2 => some 3
  | 3 => none

/-- The chain partner of a unit (R153). -/
def chainPartner : UnitId → UnitId
  | 0 => 1
  | 1 => 0
  | 2 => 3
  | 3 => 2

/-- W1 and W3 have a predecessor (R143). -/
def hasPredecessor (u : UnitId) : Bool := u = 1 || u = 3

/-- Two bytes agree in every bit set in a mask. -/
def agreeUnder (mask a b : Byte) : Bool := (a &&& mask) = (b &&& mask)

/-- The segment test (R137). -/
def WatchSetup.segmentTest (w : WatchSetup) (r : RecordCopy) : Bool := w.segMask.getLsbD r.segment

/-- The address test (R137). -/
def WatchSetup.addressTest (w : WatchSetup) (r : RecordCopy) : Bool := w.addrLow ≤ r.busAddr && r.busAddr ≤ w.addrHigh

/-- The direction test (R137). -/
def WatchSetup.directionTest (w : WatchSetup) (r : RecordCopy) : Bool :=
  match w.direction with
  | .any => true
  | .only k => k = r.kind

/-- The register test (R137). -/
def WatchSetup.registerTest (w : WatchSetup) (r : RecordCopy) : Bool :=
  w.regMask = 0 || (r.regPhase && agreeUnder w.regMask r.regIndex w.regValue)

/-- The data test (R137). -/
def WatchSetup.dataTest (w : WatchSetup) (r : RecordCopy) : Bool :=
  w.dataMask = 0 ||
    match r.firstByte with
    | none => false
    | some b => agreeUnder w.dataMask b w.dataValue

/-- The outcome test (R137). -/
def WatchSetup.outcomeTest (w : WatchSetup) (r : RecordCopy) : Bool := w.outcomes.getLsbD r.outcome.number

/-- A record meets a setup when all six tests pass (R137). -/
def WatchSetup.meets (w : WatchSetup) (r : RecordCopy) : Bool :=
  w.segmentTest r && w.addressTest r && w.directionTest r && w.registerTest r && w.dataTest r && w.outcomeTest r

/-- A record matches a setup when it meets it, inverted where the setup says so (R138). -/
def WatchSetup.isMatch (w : WatchSetup) (r : RecordCopy) : Bool := w.meets r != w.invert

/-- Step 3 of a fire: a WAITING successor with chained yes goes to ARMED (R142, R143). -/
def State.armSuccessor (s : State) (u : UnitId) : State :=
  match successor u with
  | none => s
  | some v => s.modUnit v fun x => if x.setup.chained && x.state = .waiting then { x with state := .armed } else x

/-- The WATCH_HIT a fire raises, with fire count 1 (R149). -/
def State.raiseHit (s : State) (u : UnitId) (r : RecordCopy) : State :=
  s.raise (.watchHit u s.units[u].setup.action 1 r)

/-- A unit's new state after its fire. -/
def State.setWatchState (s : State) (u : UnitId) (x : WatchState) : State := s.modUnit u fun w => { w with state := x }

/-- The log freezes (R162). -/
def State.freezeLog (s : State) : State := { s with log := { s.log with frozen := true } }

/-- Sets a segment's hold flag (R79). -/
def State.setHold (s : State) (n : SegId) : State := s.modSeg n fun g => { g with hold := true }

/-- Step 4 of a fire: the unit's action (R144 to R147). -/
def State.watchAction (s : State) (u : UnitId) (r : RecordCopy) : State :=
  match s.units[u].setup.action with
  | .stage => s.setWatchState u .fired
  | .notify => (s.raiseHit u r).setWatchState u .fired
  | .freezeLog => ((s.raiseHit u r).freezeLog).setWatchState u .fired
  | .holdSegment => ((s.raiseHit u r).setHold r.segment).setWatchState u .fired
  | .pulse => s

/-- The WATCH_FIRE marker of a fire (R159). -/
def State.fireMarker (s : State) (u : UnitId) (r : RecordCopy) : LogEntry :=
  .watchFire r.time u s.units[u].setup.action r.tag r.segment r.busAddr

/-- A fire's four steps (R142): EVT timer, marker, successor, action. -/
def State.fire (s : State) (u : UnitId) (r : RecordCopy) : State :=
  let s1 := s.modUnit u fun w => { w with evtTimer := some Config.evtMicroseconds }
  let s2 := s1.offer (s1.fireMarker u r)
  (s2.armSuccessor u).watchAction u r

/-- One unit takes a record (R140); `armed` says whether it was ARMED when the record was delivered (R139). -/
def State.watchUnit (r : RecordCopy) (u : UnitId) (armed : Bool) (s : State) : State :=
  if armed && s.units[u].setup.isMatch r then
    if 0 < s.units[u].countRemaining then s.modUnit u fun w => { w with countRemaining := w.countRemaining - 1 }
    else s.fire u r
  else s

/-- Whether a unit is ARMED. -/
def State.isArmed (s : State) (u : UnitId) : Bool := s.units[u].state = .armed

/-- The four units take a record in the order W0, W1, W2, W3 (R139). -/
def State.watchRecord (s : State) (r : RecordCopy) : State :=
  State.watchUnit r 3 (s.isArmed 3) (State.watchUnit r 2 (s.isArmed 2)
    (State.watchUnit r 1 (s.isArmed 1) (State.watchUnit r 0 (s.isArmed 0) s)))

end Sys2Proof.Machine
end

