-- ==== Sys2Proof/Machine/SegOps.lean ====
section
/-! DEFINITION. The segment controllers: states and reports, failing queued legs, the line check, leg starts and bus clears. An
operation that moves legs to DONE answers the state together with the completion records it produced, in their order; they are
delivered by Machine/Delivery.lean. -/

namespace Sys2Proof.Machine

/-- A state and the completion records that are still to be delivered. -/
abbrev Produced := State × List CompletionRecord

/-! ### Segment states -/

/-- The report a change of state sends the clock unit while pause-requested is set (R177): a quiescence report on entering a
quiescent state from one that is not, a withdrawal on leaving. DESIGN CHOICE (log 42): a change from one quiescent state to another sends
none. -/
def Segment.reportFor (g : Segment) (st : SegState) : List Report :=
  if g.pauseRequested then
    if st.quiescent && !g.state.quiescent then [.quiescent]
    else if !st.quiescent && g.state.quiescent then [.withdrawal]
    else []
  else []

/-- Moves a segment to a state (R73), with its report. A clear record exists in CLEARING alone (R120). -/
def Segment.goto (g : Segment) (st : SegState) : Segment :=
  { g with state := st, reports := g.reports ++ g.reportFor st, clear := if st = .clearing then g.clear else none }

/-- Moves a segment to a state and releases both lines (R92). -/
def Segment.rest (g : Segment) (st : SegState) : Segment := { g.goto st with drive := LineDrive.released }

/-- The pending configuration becomes the stored one (R84). -/
def Segment.applyPending (g : Segment) : Segment :=
  match g.pendingCfg with
  | none => g
  | some c => { g with stored := c, pendingCfg := none }

/-- Whether the queue and the flags let a leg start (R77). -/
def Segment.mayStart (g : Segment) : Bool := !g.queue.isEmpty && !g.hold && !g.pauseRequested

/-! ### Legs that end without reaching the wire -/

/-- The completion record of a leg (R51). -/
def State.completionOf (s : State) (r : LegRef) (l : LegRecord) (o : LegOutcome) (bytes : Nat) (first : Option Byte)
    (readData : List Byte) : CompletionRecord :=
  { time := s.clock.timeBase, tag := s.slots[r.slot].tag, slot := r.slot, role := r.role, segment := l.segment,
    busAddr := l.busAddr, kind := l.kind, regPhase := l.regPhase, regIndex := l.regIndex, length := l.length, bytes := bytes,
    outcome := o, firstByte := first, readData := readData }

/-- A leg record moved to DONE (R43). -/
def LegRecord.finish (l : LegRecord) (o : LegOutcome) (bytes : Nat) (readData : List Byte) : LegRecord :=
  { l with state := .done, outcome := some o, bytes := bytes, readData := readData }

/-- A leg that has not reached the wire goes to DONE with bytes transferred 0 and produces its record (R76). -/
def State.failLeg (s : State) (r : LegRef) (o : LegOutcome) : Produced :=
  match s.legAt r with
  | none => (s, [])
  | some l => (s.modLeg r fun x => x.finish o 0 [], [s.completionOf r l o 0 none []])

/-- `failLeg` over several legs, in order. -/
def State.failLegs (o : LegOutcome) : List LegRef → State → Produced
  | [], s => (s, [])
  | r :: rs, s =>
    let p := s.failLeg r o
    let q := State.failLegs o rs p.1
    (q.1, p.2 ++ q.2)

/-- Every QUEUED leg of a segment leaves its queue with an outcome, head first (R76). -/
def State.failQueue (s : State) (n : SegId) (o : LegOutcome) : Produced :=
  State.failLegs o s.segs[n].queue (s.modSeg n fun g => { g with queue := [] })

/-- A segment goes to OFF: its queued legs get SEGMENT_OFF and its lines are released (R78 step 3, R82, R84). -/
def State.switchOff (s : State) (n : SegId) : Produced :=
  (s.modSeg n fun g => g.rest .off).failQueue n .segmentOff

/-! ### Leg start -/

/-- What a line check reads (R118). -/
inductive CheckResult where
  | pass | dataHeld | clockHeld
deriving DecidableEq, Repr

/-- The rows of the line check's table (R118). -/
def checkLines (l : Levels) : CheckResult :=
  if !l.scl then .clockHeld else if !l.sda then .dataHeld else .pass

/-- A bus clear begins (R120): CLEARING, both lines released, rate and stretch limit copied. DESIGN CHOICE (log 32): a pending
configuration found when a clear of purpose CONFLICT, STOP_FAILED or LINE_CHECK begins is applied after that clear, as R84's list of
points says, and not at its beginning, as R84's last sentence can be read; the clear runs at the rate and limit stored until then. -/
def State.beginClear (s : State) (n : SegId) (purpose : ClearPurpose) (owner : Option SlotId) : State :=
  s.modSeg n fun g =>
    { g.rest .clearing with
      clear := some { purpose, pulses := 0, rate := g.stored.rate, stretchLimit := g.stored.stretchLimit, owner },
      clearTrace := [] }

/-- The run record a leg start opens (R91). DESIGN CHOICE (log 38): the bit position is 0 in the START, which is in no byte. -/
def Segment.openRun (g : Segment) (r : LegRef) : Run :=
  { leg := r, phase := .start, dataPos := 0, bitPos := 0, count := 0, decided := none, rate := g.stored.rate,
    stretchLimit := g.stored.stretchLimit, orphan := none, resetDropped := false, secondWindow := false }

/-- Step 3 of a leg start (R77): the head leg leaves the queue and becomes the leg in progress; the START pulls SDA low (R95) and
opens the leg's trace. -/
def State.beginRun (s : State) (n : SegId) : State :=
  match s.segs[n].queue with
  | [] => s
  | r :: rest =>
    (s.modLeg r fun l => { l with state := .inProgress }).modSeg n fun g =>
      { g with queue := rest, inProgress := some (g.openRun r), drive := { sclLow := false, sdaLow := true }, trace := [.start] }

/-- Step 2 of a leg start (R77): ACTIVE and the line check, which passes at once, goes to CLEARING or waits (R118). -/
def State.startLeg (s : State) (n : SegId) : State :=
  let a := s.modSeg n fun g => g.rest .active
  match checkLines s.wires[n] with
  | .pass => a.beginRun n
  | .dataHeld => a.beginClear n .lineCheck none
  | .clockHeld => a

/-- The start decision of an IDLE segment with step 1 of the leg start (R77). -/
def State.startDecision (s : State) (n : SegId) : Produced :=
  if s.segs[n].state = .idle && s.segs[n].mayStart then
    let a := s.modSeg n Segment.applyPending
    if a.segs[n].stored.enable then (a.startLeg n, []) else a.switchOff n
  else (s, [])

/-- The between-legs decision from step 2 (R78). -/
def State.legDecision (s : State) (n : SegId) : Produced :=
  let a := s.modSeg n Segment.applyPending
  if a.segs[n].stored.enable then
    if a.segs[n].mayStart then (a.startLeg n, []) else (a.modSeg n fun g => g.rest .idle, [])
  else a.switchOff n

/-- A built leg is appended to the tail of its segment's queue, and an IDLE segment makes its start decision (R74). -/
def State.appendLeg (s : State) (r : LegRef) (n : SegId) : Produced :=
  (s.modSeg n fun g => { g with queue := g.queue ++ [r] }).startDecision n

/-- A built leg is placed by the state of its segment (R47). -/
def State.placeLeg (s : State) (r : LegRef) : Produced :=
  match s.legAt r with
  | none => (s, [])
  | some l =>
    match s.segs[l.segment].state with
    | .off => s.failLeg r .segmentOff
    | .faulted => s.failLeg r .segmentFaulted
    | .idle => s.appendLeg r l.segment
    | .active => s.appendLeg r l.segment
    | .clearing => s.appendLeg r l.segment

end Sys2Proof.Machine
end

