-- ==== Sys2Proof/Machine/Delivery.lean ====
section
/-! DEFINITION. Building legs, reconciling slots, and the delivery of completion records to their three consumers. -/

namespace Sys2Proof.Machine

/-! ### Building legs (R42, R45) -/

/-- The kind, register index and length a transfer gives its legs; a PROBE leg has index 0 and length 0 (R40). -/
def Request.legShape : Request → Option (Kind × Byte × Nat)
  | .write _ reg data => some (.write, reg, data.length)
  | .read _ reg len => some (.read, reg, len)
  | .probe _ => some (.probe, 0, 0)
  | .cancel _ => none
  | .routeSet _ _ => none
  | .routeGet _ => none
  | .routeDisable _ => none
  | .segConfig _ _ => none
  | .segStatus _ => none
  | .segReset _ => none
  | .segResume _ => none
  | .watchSet _ _ => none
  | .watchGet _ => none
  | .watchRearm _ => none
  | .watchDisable _ => none
  | .logRead _ => none
  | .setMode _ => none
  | .resume _ => none
  | .clear _ => none
  | .clockConfig _ => none
  | .clockSelect _ => none
  | .clockStatus => none
  | .status _ => none
  | .reset => none

/-- A new leg record (R42, R45): QUEUED until it is placed; a PROBE leg has register phase absent. -/
def newLeg (k : SlotId) (role : Role) (seg : SegId) (addr : BusAddr) (regPhase : Bool) (shape : Kind × Byte × Nat) : LegRecord :=
  { slot := k, role, segment := seg, busAddr := addr, kind := shape.1, regPhase := regPhase && shape.1 ≠ .probe,
    regIndex := shape.2.1, length := shape.2.2, state := .queued, outcome := none, bytes := 0, readData := [],
    cutRequested := false, cutUnderReset := false, delivered := false }

/-- Whether a policy builds the twin at acceptance for a kind of request (R45). -/
def TwinPolicy.twinAtAcceptance : TwinPolicy → Kind → Bool
  | .noTwin, _ => false
  | .mirrorWrites, .read => false
  | .mirrorWrites, .write => true
  | .mirrorWrites, .probe => true
  | .mirrorFallback, .read => false
  | .mirrorFallback, .write => true
  | .mirrorFallback, .probe => true
  | .mirrorCompare, _ => true

/-- The twin leg record of a resolution, where it has a twin place. -/
def Resolution.twinLeg (res : Resolution) (k : SlotId) (shape : Kind × Byte × Nat) : Option LegRecord :=
  res.twin.map fun p => newLeg k .twin p.1 p.2 res.regPhase shape

/-! ### Reconciliation (R57 to R63) -/

/-- The result code named after a leg outcome (R58). ACKED gives OK. CUT and NOT_SENT are given by CANCEL, so a slot that has one
is cancelled: CANCELLED (log 12). -/
def LegOutcome.resultCode : LegOutcome → ResultCode
  | .acked => .ok | .addrNack => .addrNack | .dataNack => .dataNack | .stretchTimeout => .stretchTimeout
  | .lineConflict => .lineConflict | .cut => .cancelled | .notSent => .cancelled | .segmentOff => .segmentOff
  | .segmentFaulted => .segmentFaulted | .segmentReset => .segmentReset

/-- Whether a leg is DONE and its record has reached its slot (R54 step 2). -/
def LegRecord.settled (l : LegRecord) : Bool := l.state = .done && l.delivered

/-- Whether every leg a slot holds is settled (R54 step 2). -/
def Slot.allSettled (x : Slot) : Bool :=
  match x.primary with
  | none => false
  | some p =>
    p.settled && match x.twin with
      | none => true
      | some t => t.settled

/-- Whether a leg ended ACKED. -/
def LegRecord.isAcked (l : LegRecord) : Bool := l.outcome = some .acked

/-- The result code named after a leg's outcome. -/
def LegRecord.namedResult (l : LegRecord) : ResultCode :=
  match l.outcome with
  | none => .cancelled
  | some o => o.resultCode

/-- The twin policy a slot's transfer was resolved under. -/
def Slot.policy (x : Slot) : TwinPolicy :=
  match x.resolution with
  | none => .noTwin
  | some r => r.policy

/-- The reconciled result of a slot with these legs (R57 to R61). -/
def reconcile (cancelled : Bool) (policy : TwinPolicy) (p : LegRecord) (twin : Option LegRecord) : ResultCode :=
  if cancelled then .cancelled
  else
    match twin with
    | none => p.namedResult
    | some t =>
      if policy = .mirrorFallback && p.kind = .read then
        if p.isAcked then .ok else if t.isAcked then .fromTwin else p.namedResult
      else if p.isAcked && t.isAcked then
        if p.kind = .read && policy = .mirrorCompare && p.readData ≠ t.readData then .compareMismatch else .ok
      else if p.isAcked || t.isAcked then .twinDiverged
      else p.namedResult

/-- The read data of a transfer reply (R63). -/
def replyData (res : ResultCode) (p : LegRecord) (twin : Option LegRecord) : List Byte :=
  if p.kind ≠ .read then []
  else
    match res, twin with
    | .ok, _ => p.readData
    | .fromTwin, some t => t.readData
    | .twinDiverged, some t => if p.isAcked then p.readData else t.readData
    | .compareMismatch, some t => p.readData ++ t.readData
    | _, _ => []

/-- The byte of a leg's outcome. -/
def LegRecord.outcomeByte (l : LegRecord) : Byte :=
  match l.outcome with
  | none => 0
  | some o => o.code

/-- The fields of a transfer reply after its result (R62, R199). -/
def transferFields (res : ResultCode) (p : LegRecord) (twin : Option LegRecord) : List Byte :=
  [p.outcomeByte, byteOf p.bytes] ++
    (match twin with
      | none => [0]
      | some t => [1, t.outcomeByte, byteOf t.bytes]) ++
    replyData res p twin

/-- Reconciles a WORKING slot all of whose legs are settled, and answers it (R54 steps 2 and 3). -/
def State.reconcileSlot (s : State) (k : SlotId) : State :=
  if s.slots[k].allSettled then
    match s.slots[k].primary with
    | none => s
    | some p =>
      let res := reconcile s.slots[k].cancelled s.slots[k].policy p s.slots[k].twin
      s.answer k res (transferFields res p s.slots[k].twin)
  else s

/-! ### Delivery (R53, R54) -/

/-- Whether a record calls for the twin of a MIRROR_FALLBACK read (R49). -/
def Slot.wantsTwin (x : Slot) (r : CompletionRecord) : Bool :=
  r.role = .primary && r.kind = .read && x.policy = .mirrorFallback && r.outcome ≠ .acked && !x.cancelled && x.twin.isNone &&
    x.state = .working

/-- Step 1 of R54: the twin of a MIRROR_FALLBACK read is built from the stored resolution and placed (R49, R47). -/
def State.buildFallback (s : State) (r : CompletionRecord) : Produced :=
  if s.slots[r.slot].wantsTwin r then
    match s.slots[r.slot].resolution, s.slots[r.slot].request.bind Request.legShape with
    | some res, some shape =>
      match res.twinLeg r.slot shape with
      | none => (s, [])
      | some t => (s.modSlot r.slot fun x => { x with twin := some t }).placeLeg ⟨r.slot, .twin⟩
    | _, _ => (s, [])
  else (s, [])

/-- One record goes to its three consumers: the log, the owning slot and the watch units (R53, R54). Records that the slot's step 1
produces are answered, to be delivered after this one. -/
def State.consume (s : State) (r : CompletionRecord) : Produced :=
  let logged := s.offer r.toRecordCopy.logEntry
  let taken := logged.modLeg ⟨r.slot, r.role⟩ fun l => { l with delivered := true }
  let built := taken.buildFallback r
  ((built.1.reconcileSlot r.slot).watchRecord r.toRecordCopy, built.2)

/-- Delivers records one after another; a record produced while one is being delivered follows it (R53, R139). Each leg produces
one record, so `fuel` above the number of legs is never spent. -/
def State.settle : Nat → List CompletionRecord → State → State
  | 0, _, s => s
  | _ + 1, [], s => s
  | fuel + 1, r :: rs, s => State.settle fuel ((s.consume r).2 ++ rs) (s.consume r).1

/-- Delivers the records an operation produced. -/
def deliverAll (p : Produced) : State := State.settle (p.2.length + 32) p.2 p.1

/-- The start decision with its records delivered. -/
def State.decideStart (s : State) (n : SegId) : State := deliverAll (s.startDecision n)

/-- The between-legs decision from step 2 with its records delivered. -/
def State.decideNext (s : State) (n : SegId) : State := deliverAll (s.legDecision n)

/-- Queued legs of a segment failed and their records delivered. -/
def State.failQueued (s : State) (n : SegId) (o : LegOutcome) : State := deliverAll (s.failQueue n o)

/-! ### The build at acceptance (R41, R45, R47) -/

/-- Stores the legs of an accepted transfer in its slot. -/
def State.storeLegs (s : State) (k : SlotId) (res : Resolution) (shape : Kind × Byte × Nat) : State :=
  s.modSlot k fun x =>
    { x with
      primary := some (newLeg k .primary res.primarySeg res.primaryAddr res.regPhase shape),
      twin := if res.policy.twinAtAcceptance shape.1 then res.twinLeg k shape else none }

/-- Places the primary and then the twin, where the slot holds one (R47). -/
def State.placeLegs (s : State) (k : SlotId) : Produced :=
  let p := s.placeLeg ⟨k, .primary⟩
  let t := p.1.placeLeg ⟨k, .twin⟩
  (t.1, p.2 ++ t.2)

/-- Builds the legs of an accepted transfer and delivers the records of those that got their outcome at once (R41). -/
def State.buildLegs (s : State) (k : SlotId) (res : Resolution) (shape : Kind × Byte × Nat) : State :=
  deliverAll ((s.storeLegs k res shape).placeLegs k)

end Sys2Proof.Machine
end

