-- ==== Sys2Proof/Machine/BusEngine.lean ====
section
/-! DEFINITION. The bus engine's protocol (chapter 5), byte by byte: from what the target answered to a leg's outcome, running
count and read data. -/

namespace Sys2Proof.Machine

/-- The first byte of a leg's phase sequence (R100). -/
def LegRecord.firstPhase (l : LegRecord) : Phase := if l.kind = .read && !l.regPhase then .addressR else .addressW

/-- The phase of the byte the engine sends or receives next. A START belongs to the address byte after it, a repeated START to the
address+R byte after it (R111). -/
def Run.bytePhase (r : Run) (l : LegRecord) : Phase :=
  match r.phase with
  | .start => l.firstPhase
  | .repeatedStart => .addressR
  | .addressW => .addressW
  | .register => .register
  | .addressR => .addressR
  | .data => .data
  | .stop => .stop
  | .stretchWait => .stretchWait

/-- The wire has decided the outcome at an acknowledge bit; the STOP follows (R104). -/
def Run.decide (r : Run) (o : LegOutcome) : Run := { r with phase := .stop, decided := some o, bitPos := 8 }

/-- The engine goes on with the next phase after an acknowledge bit. -/
def Run.goOn (r : Run) (p : Phase) : Run := { r with phase := p, bitPos := 8 }

/-- A data byte completed and counted (R44); the leg is ACKED with its last (R101, R102). -/
def Run.countByte (r : Run) (l : LegRecord) : Run :=
  let c : Run := { r with dataPos := r.dataPos + 1, count := r.count + 1 }
  if c.count = l.length then c.decide .acked else c.goOn .data

/-- One byte of a leg (R98 to R103): the run record and read data buffer after it, or none where the byte cannot come there. -/
def wireByte (l : LegRecord) (r : Run) (buf : List Byte) (w : WireByte) : Option (Run × List Byte) :=
  if r.decided.isSome then none
  else
    match r.bytePhase l, w with
    | .addressW, .ack =>
      some (if l.kind = .probe then r.decide .acked else if l.regPhase then r.goOn .register else r.goOn .data, buf)
    | .addressW, .nack => some (r.decide .addrNack, buf)
    | .register, .ack => some (if l.kind = .read then r.goOn .repeatedStart else r.goOn .data, buf)
    | .register, .nack => some (r.decide .dataNack, buf)
    | .addressR, .ack => some (r.goOn .data, buf)
    | .addressR, .nack => some (r.decide .addrNack, buf)
    | .data, .ack => if l.kind = .write && r.count < l.length then some (r.countByte l, buf) else none
    | .data, .nack =>
      if l.kind = .write && r.count < l.length then some ({ r with dataPos := r.dataPos + 1 }.decide .dataNack, buf) else none
    | .data, .data b => if l.kind = .read && r.count < l.length then some (r.countByte l, buf ++ [b]) else none
    | _, _ => none

/-- The bytes of a leg, in order. -/
def wireBytes (l : LegRecord) : Run → List Byte → List WireByte → Option (Run × List Byte)
  | r, buf, [] => some (r, buf)
  | r, buf, w :: ws =>
    match wireByte l r buf w with
    | none => none
    | some p => wireBytes l p.1 p.2 ws

/-- Whether the engine stands at a stop boundary (R111, R112): after the acknowledge of a byte it sent, or of a byte it received,
but not after an address+R byte that the target acknowledged. -/
def Run.atBoundary (r : Run) (l : LegRecord) : Bool :=
  match r.phase with
  | .start => false
  | .data => !(l.kind = .read && r.count = 0)
  | .addressW => true
  | .register => true
  | .repeatedStart => true
  | .addressR => true
  | .stop => true
  | .stretchWait => false

/-- What stops a leg early, as a stop boundary of the leg can have read it (R111, R113): reset-requested; and cut-requested or orphaned
with reset-requested clear. -/
structure StopFields where
  reset : Bool
  cut : Bool
deriving DecidableEq, Repr

/-- Whether a stop boundary of the leg can have read this (R111). -/
def StopFields.allows (f : StopFields) : StopRead → Bool
  | .noField => true
  | .cut => f.cut
  | .reset => f.reset

/-- The outcome with which a leg goes into its closing STOP (R104, R113, R114), fixed by what the engine read at the leg's last stop
boundary; none where it cannot go there. A field taken after that boundary changes nothing (R114). A leg cut-requested under
reset-requested is never CUT, whichever request came first (R66, R113). Once the second stretch window is open the outcome is decided
(R106, R107). DESIGN CHOICE (log 26): R112 says that an address+R byte answered with NACK ends the leg ADDR_NACK, and
R113 that reset-requested makes a byte ended by NACK SEGMENT_RESET; with reset-requested read at that NACK the model gives
SEGMENT_RESET. -/
def closingOutcome (l : LegRecord) (r : Run) (f : StopFields) (read : StopRead) : Option LegOutcome :=
  if r.secondWindow then r.decided
  else
    match read with
    | .noField => r.decided
    | .cut =>
      if f.cut then
        match r.decided with
        | some o => some o
        | none => if r.atBoundary l then some .cut else none
      else none
    | .reset => if f.reset && r.atBoundary l then some .segmentReset else none

/-- The byte the engine is sending in a phase (R99, R100), where it sends one. -/
def engineByte (l : LegRecord) (r : Run) (writeData : List Byte) : Option Byte :=
  match r.bytePhase l with
  | .addressW => some (l.busAddr ++ 0#1)
  | .addressR => some (l.busAddr ++ 1#1)
  | .register => some l.regIndex
  | .data => if l.kind = .write then writeData[r.count]? else none
  | .start => none
  | .repeatedStart => none
  | .stop => none
  | .stretchWait => none

/-! ### What the engine does on the lines (R95 to R98) -/

/-- The eight data slots of the byte the engine sends or receives next, most significant bit first: it pulls SDA low for a 0 of its own,
and releases it for a 1 and for every bit the target sends (R94, R98). -/
def Run.dataSlots (r : Run) (l : LegRecord) (writeData : List Byte) : List BusSymbol :=
  match engineByte l r writeData with
  | some b => (List.range 8).map fun k => .slot (!b.getMsbD k)
  | none => List.replicate 8 (.slot false)

/-- The repeated START belongs to the byte after it (R96, R111). -/
def Run.lead (r : Run) : List BusSymbol := if r.phase = .repeatedStart then [.release, .start] else []

/-- The ninth slot of a byte (R98, R102): released for the target's acknowledge; for a byte received, pulled low as ACK where another
byte follows, and else `last`. -/
def ninthSlot (last : List BusSymbol) (w : WireByte) (more : List WireByte) : List BusSymbol :=
  match w with
  | .ack => [.slot false]
  | .nack => [.slot false]
  | .data _ => if more.isEmpty then last else [.slot true]

/-- What the engine does on the lines in these bytes of a leg; `last` is the ninth slot of a byte received last. -/
def bytesTrace (l : LegRecord) (writeData : List Byte) (last : List BusSymbol) : Run → List Byte → List WireByte → List BusSymbol
  | _, _, [] => []
  | r, buf, w :: ws =>
    match wireByte l r buf w with
    | none => []
    | some p => r.lead ++ r.dataSlots l writeData ++ ninthSlot last w ws ++ bytesTrace l writeData last p.1 p.2 ws

/-- What the engine does in a byte that breaks off after its first `k` slots; the ninth is the target's acknowledge. -/
def Run.brokenByte (r : Run) (l : LegRecord) (writeData : List Byte) (k : Nat) : List BusSymbol :=
  r.lead ++ (r.dataSlots l writeData ++ [BusSymbol.slot false]).take k

/-- The closing STOP (R97); one held at its step 2 into the second stretch window goes on from step 3 (R107). -/
def Run.closingStop (r : Run) : List BusSymbol :=
  if r.secondWindow && r.phase = .stop then [.stopEnd] else [.stopBegin, .stopEnd]

/-- The acknowledge slot of a byte received (R102, R112): ACK where the leg goes on, NACK at its last byte and where a stop field was
read. -/
def Run.readAckSlot (r : Run) (l : LegRecord) (read : StopRead) : BusSymbol :=
  BusSymbol.slot (read = .noField && r.count ≠ l.length)

/-- What the engine does on the lines in these bytes, `last` as in `bytesTrace`, and then `after`, from the run record that the bytes
leave. -/
def traceThen (l : LegRecord) (r : Run) (writeData : List Byte) (bytes : List WireByte) (last : List BusSymbol)
    (after : Run → List BusSymbol) : List BusSymbol :=
  match wireBytes l r l.readData bytes with
  | none => []
  | some (r1, _) => bytesTrace l writeData last r l.readData bytes ++ after r1

/-- What the engine does on the lines up to the end of a leg (R96, R97, R98, R102, R106, R109): a NACK to the last byte of a READ, and a
STOP but in a conflict, whose slot, or whose first half of the repeated START, is its last. -/
def endTrace (l : LegRecord) (r : Run) (writeData : List Byte) (bytes : List WireByte) : LegFinish → List BusSymbol
  | .stop _ _ => traceThen l r writeData bytes [.slot false] Run.closingStop
  | .conflict (.bit k) => traceThen l r writeData bytes [.slot true] fun r1 => r1.brokenByte l writeData (k + 1)
  | .conflict .repeatedStart => traceThen l r writeData bytes [.slot true] fun _ => [.release]
  | .conflict .readNack => traceThen l r writeData bytes [.slot false] fun _ => []

/-- What the engine does on the lines up to the expiry of the stretch limit (R105, R106, R107), the slot that is held among it. -/
def stretchTrace (l : LegRecord) (r : Run) (writeData : List Byte) (bytes : List WireByte) : StretchPlace → List BusSymbol
  | .bit k => traceThen l r writeData bytes [.slot true] fun r1 => r1.brokenByte l writeData (k + 1) ++ [.giveUp]
  | .readAck read => traceThen l r writeData bytes [] fun r1 => [r1.readAckSlot l read, .giveUp]
  | .repeatedStart => traceThen l r writeData bytes [.slot true] fun _ => [.release, .giveUp]
  | .closingStop _ => traceThen l r writeData bytes [.slot false] fun _ => [.stopBegin]

/-! ### Conflicts, ends and stretches -/

/-- The engine is within a byte of the leg: a data byte begun counts in the data position (R91). -/
def Run.within (r : Run) (l : LegRecord) (bit : Nat) : Run :=
  { r with
    phase := r.bytePhase l, bitPos := bit, dataPos := if r.bytePhase l = .data then r.dataPos + 1 else r.dataPos }

/-- Whether the engine stands at the acknowledge slot of a byte received from the target (R102). -/
def Run.inReadAck (r : Run) (l : LegRecord) : Bool := l.kind = .read && 0 < r.count && !r.secondWindow

/-- A line conflict at a place of the leg (R108, R109): the run record at its end, or none where the engine makes no check there. -/
def conflictAt (l : LegRecord) (r : Run) (f : StopFields) (writeData : List Byte) (place : ConflictPlace) : Option Run :=
  match place with
  | .bit k =>
    if r.decided.isSome then none
    else
      match engineByte l r writeData with
      | none => none
      | some b => if b.getMsbD k then some { r.within l k with decided := some .lineConflict } else none
  | .repeatedStart =>
    if r.decided.isNone && r.phase = .repeatedStart then some { r with bitPos := 0, decided := some .lineConflict } else none
  | .readNack =>
    if r.inReadAck l && (r.count = l.length || f.reset || f.cut) then some { r with bitPos := 8, decided := some .lineConflict }
    else none

/-- How a leg ended: its last run record, its read data, its outcome, and what the segment goes on with. -/
inductive LegEnding where
  /-- A STOP that sampled SDA high (R97). -/
  | stopped
  /-- A line conflict, or a STOP that sampled SDA low (R109, R110): a bus clear of this purpose. -/
  | held (purpose : ClearPurpose)
deriving DecidableEq, Repr

/-- The end of a leg on the wires (R104): none where the leg cannot end so. -/
def legEnding (l : LegRecord) (r : Run) (f : StopFields) (writeData : List Byte) (bytes : List WireByte) (finish : LegFinish) :
    Option (Run × List Byte × LegOutcome × LegEnding) :=
  match wireBytes l r l.readData bytes with
  | none => none
  | some (r1, buf) =>
    match finish with
    | .stop high read =>
      match closingOutcome l r1 f read with
      | none => none
      | some o => some (r1, buf, o, if high then .stopped else .held .stopFailed)
    | .conflict place =>
      match conflictAt l r1 f writeData place with
      | none => none
      | some r2 => some (r2, buf, .lineConflict, .held .conflict)

/-- The stretch limit expires before the closing STOP (R106). -/
def Run.timeout (r : Run) : Run := { r with phase := .stretchWait, decided := some .stretchTimeout, secondWindow := true }

/-- The stretch limit of a leg expires with SCL low (R106, R107): the run record and read data then, or none where no such wait can
be. In the closing STOP the decided outcome is kept. DESIGN CHOICE (log 27): R106 names the phase STRETCH_WAIT for a wait before the
closing STOP and R107 names no phase; in the second window of a closing STOP the model keeps the phase STOP. DESIGN CHOICE (log 38):
where the engine is in no byte, the bit position is 0 at the repeated START and stays 8 in the closing STOP. -/
def stretchAt (l : LegRecord) (r : Run) (f : StopFields) (bytes : List WireByte) (place : StretchPlace) :
    Option (Run × List Byte) :=
  match wireBytes l r l.readData bytes with
  | none => none
  | some (r1, buf) =>
    match place with
    | .bit k =>
      if r1.decided.isSome || (r1.bytePhase l = .data && l.kind = .read && k = 8) then none
      else some ((r1.within l k).timeout, buf)
    | .readAck read => if r1.inReadAck l && f.allows read then some ({ r1 with bitPos := 8 }.timeout, buf) else none
    | .repeatedStart =>
      if r1.decided.isNone && r1.phase = .repeatedStart then some ({ r1 with bitPos := 0 }.timeout, buf) else none
    | .closingStop read =>
      if r1.phase = .stop && r1.secondWindow then none
      else
        match closingOutcome l r1 f read with
        | none => none
        | some o => some ({ r1 with phase := .stop, decided := some o, secondWindow := true }, buf)

/-- The first data byte field of a leg that reached the wire (R52, R117). -/
def firstByteOf (l : LegRecord) (r : Run) (writeData buf : List Byte) : Option Byte :=
  match l.kind with
  | .write => if 0 < r.dataPos then writeData.head? else none
  | .read => buf.head?
  | .probe => none

end Sys2Proof.Machine
end

