-- ==== Sys2Proof/Machine/BusClear.lean ====
section
/-! DEFINITION. The run of a bus clear (R120 to R122): from what it reads on SDA to its pulses and its end. -/

namespace Sys2Proof.Machine

/-- Where a bus clear stands: before a reading of SDA, or at its end. -/
inductive ClearStage where
  /-- SCL has to read high before the first reading of SDA (R120). -/
  | first
  /-- Within a pulse, before its sample (R121). -/
  | pulse
  /-- In its STOP, before the sample of step 4 (R122). -/
  | stop
  /-- Before the final check (R122). -/
  | finalCheck
  /-- The final check read both lines high: the clear has succeeded. -/
  | freed
  /-- SDA was low with nine pulses given: the clear has failed with STUCK_DATA. -/
  | stuckData
deriving DecidableEq, Repr

/-- A bus clear on the wires: its stage and the pulses given (R120). -/
structure ClearRun where
  stage : ClearStage
  pulses : Nat
deriving DecidableEq, Repr

/-- A clear at its beginning (R120). -/
def ClearRun.begun : ClearRun := { stage := .first, pulses := 0 }

/-- SDA reads low: the next pulse begins and is counted, or the clear fails where nine have been given (R120, R121, R122). -/
def ClearRun.pulseOn (c : ClearRun) : ClearRun :=
  if c.pulses < Config.maxPulses then { stage := .pulse, pulses := c.pulses + 1 } else { c with stage := .stuckData }

/-- One reading of SDA (R120, R121, R122): high before the STOP leads to it, high in it to the final check, high there to success; low
anywhere leads to the next pulse. None after the clear has ended. -/
def ClearRun.read (c : ClearRun) (high : Bool) : Option ClearRun :=
  match c.stage with
  | .first => some (if high then { c with stage := .stop } else c.pulseOn)
  | .pulse => some (if high then { c with stage := .stop } else c.pulseOn)
  | .stop => some (if high then { c with stage := .finalCheck } else c.pulseOn)
  | .finalCheck => some (if high then { c with stage := .freed } else c.pulseOn)
  | .freed => none
  | .stuckData => none

/-- Readings of SDA in order. -/
def ClearRun.reads : ClearRun → List Bool → Option ClearRun
  | c, [] => some c
  | c, b :: bs =>
    match c.read b with
    | none => none
    | some d => d.reads bs

/-- How a bus clear ends by its readings, with the pulses given: success, or failure with STUCK_DATA; none where they do not end it. -/
def clearEnding (reads : List Bool) : Option (Nat × Option FaultCause) :=
  match ClearRun.begun.reads reads with
  | none => none
  | some c =>
    match c.stage with
    | .freed => some (c.pulses, none)
    | .stuckData => some (c.pulses, some .stuckData)
    | .first => none
    | .pulse => none
    | .stop => none
    | .finalCheck => none

/-- The pulses given by a bus clear that runs on after its readings, its next one awaiting SCL (R120, R121, R122); none where they end
the clear. -/
def clearWaiting (reads : List Bool) : Option Nat :=
  match ClearRun.begun.reads reads with
  | none => none
  | some c =>
    match c.stage with
    | .freed => none
    | .stuckData => none
    | .first => some c.pulses
    | .pulse => some c.pulses
    | .stop => some c.pulses
    | .finalCheck => some c.pulses

/-! ### What the engine does on the lines (R121, R122) -/

/-- What the engine does before the reading of SDA of a stage: a pulse, or a STOP up to its step 4. -/
def ClearStage.symbols : ClearStage → List BusSymbol
  | .pulse => [.pulse]
  | .stop => [.stopBegin, .stopEnd]
  | .first => []
  | .finalCheck => []
  | .freed => []
  | .stuckData => []

/-- What the engine does in a stage in which SCL stays low: a STOP is held at its step 2. -/
def ClearStage.heldSymbols : ClearStage → List BusSymbol
  | .pulse => [.pulse]
  | .stop => [.stopBegin]
  | .first => []
  | .finalCheck => []
  | .freed => []
  | .stuckData => []

/-- What the engine does on the lines in the course of these readings, and then `after`, from the run that they leave. -/
def ClearRun.trace (after : ClearRun → List BusSymbol) : ClearRun → List Bool → List BusSymbol
  | c, [] => after c
  | c, b :: bs =>
    match c.read b with
    | none => []
    | some d => c.stage.symbols ++ d.trace after bs

/-- What the engine has done on the lines in a bus clear that ends with these readings. -/
def endedClearTrace (reads : List Bool) : List BusSymbol := ClearRun.begun.trace (fun _ => []) reads

/-- What the engine has done on the lines in a bus clear that waits in vain for SCL after these readings. -/
def heldClearTrace (reads : List Bool) : List BusSymbol := ClearRun.begun.trace (fun c => c.stage.heldSymbols) reads

end Sys2Proof.Machine
end

