-- ==== Sys2Proof/Machine/Recovery.lean ====
section
/-! DEFINITION. The leg in progress and its end, fault entry, and the bus clear of a SEG_RESET (chapter 6). -/

namespace Sys2Proof.Machine

/-! ### SEG_RESET in progress -/

/-- Whether a slot holds a WORKING SEG_RESET of a segment. -/
def Slot.isResetOf (x : Slot) (n : SegId) : Bool := x.state = .working && x.request = some (.segReset n)

/-- The slot of the WORKING SEG_RESET of a segment. -/
def State.resetSlot (s : State) (n : SegId) : Option SlotId := (List.finRange 8).find? fun k => s.slots[k].isResetOf n

/-- Whether a SEG_RESET of a segment is WORKING in a slot other than `k` (R128). -/
def State.resetBusy (s : State) (k : SlotId) (n : SegId) : Bool :=
  (List.finRange 8).any fun j => j ≠ k && s.slots[j].isResetOf n

/-- The leg in progress field of the reply of a SEG_RESET whose leg has ended (R132). -/
def State.noteResetLeg (s : State) (n : SegId) (o : LegOutcome) : State :=
  match s.resetSlot n with
  | none => s
  | some k =>
    s.modSlot k fun x =>
      { x with resetAccount := x.resetAccount.map fun a => { a with leg := if o = .segmentReset then .cut else .ended } }

/-- A SEG_RESET ends: its marker is offered and its reply built (R131, R132, R159). -/
def State.finishReset (s : State) (n : SegId) (k : SlotId) (res : ResultCode) (pulses : Nat) (st : SegState) : State :=
  let a := s.slots[k].resetAccount.getD { legsFailed := 0, leg := .noLeg }
  (s.offer (.segmentReset s.clock.timeBase n s.slots[k].tag res)).answer k res
    [byteOf n, byteOf a.legsFailed, a.leg.code, byteOf pulses, st.code]

/-- The clear of a SEG_RESET's own: any pending configuration is applied without its enable taking effect on the state, and a clear
of purpose RESET begins (R129 step 3). DESIGN CHOICE (log 41): legs QUEUED at an application of enable = no that follows the end of a leg
cut by the SEG_RESET wait in the queue, as R130 says, and are not failed with SEGMENT_OFF before the reset's end (R76, R84, R131). -/
def State.beginResetClear (s : State) (n : SegId) (owner : Option SlotId) : State :=
  (s.modSeg n Segment.applyPending).beginClear n .reset owner

/-! ### Fault entry -/

/-- A segment enters FAULTED (R125): state and cause; queued legs failed; marker; SEGMENT_ALERT. Its quiescence report goes with the
change of state. -/
def State.faultEntry (s : State) (n : SegId) (cause : FaultCause) : State :=
  let a := s.modSeg n fun g => { g.rest .faulted with lastFault := cause, inProgress := none }
  let b := a.failQueued n .segmentFaulted
  (b.offer (.segmentFault b.clock.timeBase n cause)).raise (.segmentAlert n cause 1 b.clock.timeBase)

/-! ### The leg in progress -/

/-- The leg record and write data of a leg in progress: the orphan's own copy, or those of its slot (R91, R115). -/
def State.runLeg (s : State) (r : Run) : Option (LegRecord × List Byte) :=
  match r.orphan with
  | some o => some (o.leg, o.writeData)
  | none =>
    match s.legAt r.leg with
    | none => none
    | some l => some (l, s.slots[r.leg.slot].writeData)

/-- What a stop boundary of the leg can have read (R111): reset-requested stands, or stood until a soft reset cleared it (R115);
cut-requested was set before reset-requested, or the leg is an orphan. -/
def stopFields (g : Segment) (r : Run) (l : LegRecord) : StopFields :=
  { reset := g.resetRequested || r.resetDropped, cut := (l.cutRequested && !l.cutUnderReset) || r.orphan.isSome }

/-- The leg in progress is DONE and its record delivered; an orphan's record reaches no consumer (R104, R17). -/
def State.completeRun (s : State) (r : Run) (l : LegRecord) (writeData buf : List Byte) (o : LegOutcome) : State :=
  match r.orphan with
  | some _ => s
  | none =>
    deliverAll (s.modLeg r.leg fun x => x.finish o r.count buf,
      [s.completionOf r.leg l o r.count (firstByteOf l r writeData buf) buf])

/-- Step 1 of the between-legs decision (R78), with the lines released; what the engine did in the leg is kept (R117; log 36). -/
def Segment.endRun (g : Segment) : Segment :=
  { g with inProgress := none, resetRequested := false, drive := LineDrive.released, lastTrace := g.trace, trace := [] }

/-- The leg in progress ends: its record is delivered, a SEG_RESET notes how it ended, and the segment has no leg in progress. -/
def State.endRun (s : State) (n : SegId) (r : Run) (l : LegRecord) (writeData buf : List Byte) (o : LegOutcome) : State :=
  let a := s.completeRun r l writeData buf o
  let b := if s.segs[n].resetRequested then a.noteResetLeg n o else a
  b.modSeg n Segment.endRun

/-- The segment goes on after the end of a leg (R78, R109, R110); under reset-requested as R130 states. DESIGN CHOICE (log 39): a
SEG_CONFIG taken while the SEG_RESET waits for the leg is pending, and is applied when the clear of purpose RESET begins, as the first row
of R130 says of any pending configuration, and not at the reset's end, as R133 says of one taken during the reset. -/
def State.afterLeg (s : State) (n : SegId) (underReset : Bool) : LegEnding → State
  | .stopped => if underReset then s.beginResetClear n (s.resetSlot n) else s.decideNext n
  | .held purpose => s.beginClear n purpose (if underReset then s.resetSlot n else none)

/-- The segment goes on after a second stretch window that ended with SCL low (R106, R130). -/
def State.afterStuckLeg (s : State) (n : SegId) (underReset : Bool) : State :=
  let a := s.faultEntry n .stuckClock
  if underReset then a.beginResetClear n (a.resetSlot n) else a

/-! ### The end of a bus clear -/

/-- Whether a line check runs on a segment: ACTIVE with no leg in progress (R73). -/
def Segment.checking (g : Segment) : Bool := g.state = .active && g.inProgress.isNone

/-- A clear with a reset owner succeeds (R131). The reply's state is the one the segment leaves CLEARING for (R132, log 9). -/
def State.resetSucceeds (s : State) (n : SegId) (k : SlotId) (pulses : Nat) : State :=
  let a := s.modSeg n Segment.applyPending
  if a.segs[n].stored.enable then
    ((a.modSeg n fun g => g.rest .idle).decideStart n).finishReset n k .ok pulses .idle
  else (deliverAll (a.switchOff n)).finishReset n k .ok pulses .off

/-- A bus clear succeeds (R123). -/
def State.clearSucceeds (s : State) (n : SegId) (c : ClearRecord) (pulses : Nat) : State :=
  let a := s.modSeg n fun g => { g with clear := some { c with pulses } }
  match c.owner with
  | none => a.decideNext n
  | some k => a.resetSucceeds n k pulses

/-- A bus clear fails (R123): fault entry, and the end of its SEG_RESET where it has an owner (R131). -/
def State.clearFails (s : State) (n : SegId) (c : ClearRecord) (cause : FaultCause) (pulses : Nat) : State :=
  let a := s.faultEntry n cause
  match c.owner with
  | none => a
  | some k => a.finishReset n k .stillFaulted pulses .faulted

end Sys2Proof.Machine
end

