-- ==== Sys2Proof/Machine/ClockOps.lean ====
section
/-! DEFINITION. The clock unit's shared operations: pause-requested, the end of a change of source, CLOCK_EVENT (R172 to R179). -/

namespace Sys2Proof.Machine

/-- No segment awaited. -/
def noSegments : Vector Bool 4 := Vector.replicate 4 false

/-- Every segment awaited. -/
def allSegments : Vector Bool 4 := Vector.replicate 4 true

/-- Pause-requested cleared on a segment, with a setting still on its way to it and the reports that the ended change no longer
takes (R177, log 8). -/
def Segment.unpause (g : Segment) : Segment := { g with pauseRequested := false, pauseSetting := false, reports := [] }

/-- Pause-requested cleared on all four segments (R178 step 3). -/
def State.unpauseAll (s : State) : State := { s with segs := s.segs.map Segment.unpause }

/-- Each segment makes the start decision (R77, R178 step 3). -/
def State.decideAll (s : State) : State := (((s.decideStart 0).decideStart 1).decideStart 2).decideStart 3

/-- The clock unit is STEADY: no awaited segment, no select owner (R178, R179, R183). -/
def ClockUnit.steady (c : ClockUnit) : ClockUnit := { c with switch := .steady, awaited := noSegments, selectOwner := none }

/-- The fields of a CLOCK_SELECT reply answered OK or CLOCK_LOST (R178, R199). -/
def State.selectFields (s : State) (target : Source) : List Byte :=
  [target.code, s.clock.source.code, s.clock.refStatus.code]

/-- A change of source ends (R175, R178 steps 3 and 4, R179): STEADY, pause-requested cleared, start decisions, reply. -/
def State.endSwitch (s : State) (target : Source) (res : ResultCode) : State :=
  let a := ({ s with clock := s.clock.steady }).unpauseAll.decideAll
  match s.clock.selectOwner with
  | none => a
  | some k => a.answer k res (a.selectFields target)

/-- The active source changes, and the change is marked in the log (R159, R175, R178). -/
def State.setSource (s : State) (src : Source) (why : SwitchReason) : State :=
  ({ s with clock := { s.clock with source := src } }).offer (.clockSwitch s.clock.timeBase src why)

/-- Raises a CLOCK_EVENT with the active source and the reference status as they stand (R172). -/
def State.raiseClockEvent (s : State) (e : ClockEventKind) : State :=
  s.raise (.clockEvent e s.clock.source s.clock.refStatus 1)

/-- The awaited set is empty, and the change is completed (R178). -/
def State.completeSwitch (s : State) (target : Source) : State := (s.setSource target .select).endSwitch target .ok

/-- What a loss of a PRESENT reference does to the active source and to a change in progress (R175, R179). -/
def State.lossFallback (s : State) : State :=
  match s.clock.source, s.clock.switch with
  | .reference, .steady => s.setSource .backup .loss
  | .reference, .quiescing .backup => (s.setSource .backup .loss).endSwitch .backup .ok
  | .reference, .quiescing .reference => s.setSource .backup .loss
  | .backup, .quiescing .reference => s.endSwitch .reference .clockLost
  | .backup, .quiescing .backup => s
  | .backup, .steady => s

end Sys2Proof.Machine
end

