-- ==== Sys2Proof/Machine/LinkOps.lean ====
section
/-! DEFINITION. The link port's shared operations: CRC, the inbound frame assembler, message bodies, frames, and the resets
(chapters 10 and 11). -/

namespace Sys2Proof.Machine

/-! ### CRC (R186) -/

/-- One bit of the CRC: shift left, and subtract the polynomial 0x1021 where a 1 falls out. -/
def crcBit (c : BitVec 16) : BitVec 16 := if c.msb then (c <<< 1) ^^^ 0x1021#16 else c <<< 1

/-- One byte of the CRC, most significant bit first. -/
def crcByte (c : BitVec 16) (b : Byte) : BitVec 16 :=
  crcBit (crcBit (crcBit (crcBit (crcBit (crcBit (crcBit (crcBit (c ^^^ (b.setWidth 16 <<< 8)))))))))

/-- The CRC of a byte sequence from the starting value 0xFFFF. -/
def crc16 (bytes : List Byte) : BitVec 16 := bytes.foldl crcByte 0xFFFF#16

/-! ### The inbound frame assembler (R185, R186) -/

/-- What a complete inbound byte brings about besides the assembler's next state. -/
inductive InboundEvent where
  | nothing
  | frameErr
  | frame (body : List Byte)
deriving DecidableEq, Repr

/-- The assembler takes one complete byte. -/
def Assembler.take (a : Assembler) (b : Byte) : Assembler × InboundEvent :=
  match a with
  | .hunt => (if b = Config.marker then .length else .hunt, .nothing)
  | .length => if 2 ≤ b.toNat ∧ b.toNat ≤ 96 then (.body b.toNat [], .nothing) else (.hunt, .frameErr)
  | .body len bytes =>
    if (bytes ++ [b]).length = len then (.crc len (bytes ++ [b]) none, .nothing) else (.body len (bytes ++ [b]), .nothing)
  | .crc len bytes none => (.crc len bytes (some b), .nothing)
  | .crc len bytes (some hi) =>
    (.hunt, if crc16 (byteOf len :: bytes) = word16 hi b then .frame bytes else .frameErr)

/-- The assembler stands in HUNT (R187). -/
def Assembler.hunting (a : Assembler) : Bool := a = .hunt

/-! ### Message bodies (R197, R199) -/

/-- The body of a reply with its link-status byte. -/
def Reply.body (r : Reply) (status : Byte) : List Byte := [r.reqType, r.tag, status, r.result.code] ++ r.fields

/-- The type byte of a notice (R198). -/
def Notice.typeByte : Notice → Byte
  | .ready _ => 0xA0
  | .watchHit _ _ _ _ => 0xA1
  | .segmentAlert _ _ _ _ => 0xA2
  | .clockEvent _ _ _ _ => 0xA3

/-- The payload of a notice (R199). -/
def Notice.payload : Notice → List Byte
  | .ready why => [why.code] ++ bytes16 Config.partCode ++ [Config.revisionCode]
  | .watchHit u a c r => [byteOf u, a.code, byteOf c] ++ r.bytes17
  | .segmentAlert n cause c t => [byteOf n, cause.code, byteOf c] ++ bytes32 t
  | .clockEvent e src st c => [e.code, src.code, st.code, byteOf c]

/-- The body of a notice; its tag is 0x00. -/
def Notice.body (n : Notice) (status : Byte) : List Byte := [n.typeByte, 0, status] ++ n.payload

/-- The body of a message as it goes out with a link-status byte. -/
def State.messageBody (s : State) (c : OutContent) (status : Byte) : List Byte :=
  match c with
  | .notice n => n.body status
  | .reply k =>
    match s.slots[k].reply with
    | none => []
    | some r => r.body status

/-- The frame around a body: marker, length, body, CRC high byte first (R197). -/
def frameOf (body : List Byte) : List Byte :=
  [Config.marker, byteOf body.length] ++ body ++ bytes16 (crc16 (byteOf body.length :: body))

/-! ### Sending (R190, R191) -/

/-- The head message begins: begun mark, link-status byte, frame, marker (R190 step 2). -/
def State.beginMessage (s : State) : State :=
  match s.link.queue with
  | [] => s
  | m :: rest =>
    { s with link :=
      { s.link with
        queue := { m with begun := true } :: rest,
        outFrame := some { bytes := frameOf (s.messageBody m.content s.linkStatus), sent := 0 } } }

/-- The port chooses a byte with no frame part-way out: the head message begins unless the queue is empty or a soft reset was taken
in this select (R190 steps 2 and 3). -/
def State.chooseByte (s : State) : State :=
  if s.link.selected && s.link.outFrame.isNone && !s.link.resetInSelect then s.beginMessage else s

/-- What the removal of a message brings about: a reply's slot is released, a notice's held-over successor appended (R191). -/
def State.afterRemoval (s : State) : OutContent → State
  | .reply k => s.releaseSlot k
  | .notice n => s.releaseHeld n.source

/-- The last CRC byte of the frame part-way out has been sampled: the message leaves the queue (R191). -/
def State.sendWhole (s : State) : State :=
  match s.link.outFrame with
  | none => s
  | some _ =>
    match s.link.queue with
    | [] => { s with link := { s.link with outFrame := none } }
    | m :: rest => ({ s with link := { s.link with outFrame := none, queue := rest } }).afterRemoval m.content

/-- The host samples one more byte of the frame part-way out. -/
def OutFrame.sample (f : OutFrame) : OutFrame := { f with sent := min (f.sent + 1) f.bytes.length }

/-- Whether the host has sampled every byte of a frame. -/
def OutFrame.whole (f : OutFrame) : Bool := f.sent = f.bytes.length

/-! ### Soft reset (R16, R90, R115, R134, R156, R169, R183, R196) -/

/-- The copy of a leg in progress that its engine keeps when its slot is freed (R115). -/
def State.orphanOf (s : State) (r : Run) : Option OrphanLeg :=
  match r.orphan with
  | some o => some o
  | none =>
    match s.legAt r.leg with
    | none => none
    | some l => some { tag := s.slots[r.leg.slot].tag, leg := l, writeData := s.slots[r.leg.slot].writeData }

/-- A segment after a soft reset (R90): flags, pending configuration and queue cleared; a line check abandoned to IDLE; a leg in
progress orphaned, with a note that its reset-requested has been cleared (log 4); a bus clear without its owner; held-over alert discarded (R134). -/
def State.softSegment (s : State) (g : Segment) : Segment :=
  let a : Segment :=
    { g with
      queue := [], pendingCfg := none, hold := false, pauseRequested := false, resetRequested := false, pauseSetting := false,
      reports := [], heldAlert := none,
      inProgress := g.inProgress.map fun r =>
        { r with orphan := s.orphanOf r, resetDropped := r.resetDropped || g.resetRequested },
      clear := g.clear.map fun c => { c with owner := none } }
  if g.checking then a.rest .idle else a

/-- The link port after a soft reset (R196). -/
def LinkPort.softReset (l : LinkPort) : LinkPort :=
  { l with
    assembler := .hunt, flags := LinkFlags.none, queue := [{ content := .notice (.ready .soft), begun := false }],
    outFrame := none, resetInSelect := l.selected }

/-- The soft reset of the whole part (R16). -/
def State.softReset (s : State) : State :=
  { s with
    slots := Vector.replicate 8 Slot.freed,
    segs := s.segs.map s.softSegment,
    units := Vector.replicate 4 WatchUnit.reset,
    log := HistoryLog.reset,
    clock := { s.clock.steady with heldEvent := none },
    link := s.link.softReset }

end Sys2Proof.Machine
end

