-- ==== Sys2Proof/Machine/Transfers.lean ====
section
/-! DEFINITION. WRITE, READ, PROBE and CANCEL (chapters 2 and 3). -/

namespace Sys2Proof.Machine

/-! ### Resolution (R27 to R31) -/

/-- The logical range of a window holds a target (R20). -/
def Window.covers (w : Window) (t : Target) : Bool :=
  w.base.toNat ≤ t.toNat && t.toNat < w.base.toNat + 2 ^ w.sizeExp.val

/-- The matching window: the enabled one with the lowest index whose range holds the target (R27). -/
def State.matching (s : State) (t : Target) : Option WindowId :=
  (List.finRange 16).find? fun i => s.windows[i].enabled && s.windows[i].covers t

/-- Whether a window permits a kind of transfer (R29). -/
def Window.permits (w : Window) : Kind → Bool
  | .read => w.allowRead
  | .write => w.allowWrite
  | .probe => true

/-- A bus base plus the offset of a target within its window (R28). -/
def Window.place (w : Window) (bus : BusAddr) (t : Target) : BusAddr := bus + BitVec.ofNat 7 (t.toNat - w.base.toNat)

/-- The resolution result of a target through its matching window (R31). -/
def Window.resolve (w : Window) (t : Target) : Resolution :=
  { primarySeg := w.primarySeg, primaryAddr := w.place w.primaryBus t, regPhase := w.regPhase, policy := w.policy,
    twin := if w.policy = .noTwin then none else some (w.twinSeg, w.place w.twinBus t) }

/-! ### Acceptance -/

/-- A transfer whose fields passed screening is resolved and its legs built, or refused NO_ROUTE or DIRECTION_DENIED
(R27, R29, R30, R41). The slot keeps the resolution result and, for a WRITE, its data (R31, R38). -/
def State.acceptTransfer (s : State) (k : SlotId) (t : Target) (shape : Kind × Byte × Nat) (data : List Byte) : State :=
  match s.matching t with
  | none => s.answer k .noRoute []
  | some i =>
    if s.windows[i].permits shape.1 then
      let res := s.windows[i].resolve t
      (s.modSlot k fun x => { x with resolution := some res, writeData := data }).buildLegs k res shape
    else s.answer k .directionDenied []

/-- A transfer is delivered: the tag check (R6), then the field checks, then `carryOut`. DESIGN CHOICE
(log 37): the slot of a transfer refused TAG_IN_USE holds no request fields, whatever its payload. -/
def State.takeTransfer {α : Type} (s : State) (type tag : Byte) (decoded : Option α) (name : α → Request)
    (carryOut : SlotId → α → State → State) : State :=
  s.deliver type tag fun k a =>
    if a.tagClash k then a.answer k .tagInUse [] else State.screened k decoded name (carryOut k) a

/-- A WRITE that passed its field checks (R38). -/
def State.carryWrite (k : SlotId) (f : Target × Byte × List Byte) (s : State) : State :=
  s.acceptTransfer k f.1 (.write, f.2.1, f.2.2.length) f.2.2

/-- A READ that passed its field checks (R39). -/
def State.carryRead (k : SlotId) (f : Target × Byte × Nat) (s : State) : State :=
  s.acceptTransfer k f.1 (.read, f.2.1, f.2.2) []

/-- A PROBE that passed its field checks; its legs carry register index 0 and length 0 (R40). -/
def State.carryProbe (k : SlotId) (t : Target) (s : State) : State := s.acceptTransfer k t (.probe, 0, 0) []

/-- WRITE delivered. -/
def State.takeWrite (tag : Byte) (payload : List Byte) (s : State) : State :=
  s.takeTransfer ReqType.write.code tag (decodeWrite payload) (fun f => .write f.1 f.2.1 f.2.2) State.carryWrite

/-- READ delivered. -/
def State.takeRead (tag : Byte) (payload : List Byte) (s : State) : State :=
  s.takeTransfer ReqType.read.code tag (decodeRead payload) (fun f => .read f.1 f.2.1 f.2.2) State.carryRead

/-- PROBE delivered. -/
def State.takeProbe (tag : Byte) (payload : List Byte) (s : State) : State :=
  s.takeTransfer ReqType.probe.code tag (decodeProbe payload) (fun t => .probe t) State.carryProbe

/-! ### CANCEL (R64 to R67) -/

/-- The WORKING transfer with a tag (R64). -/
def State.findTransfer (s : State) (tag : Byte) : Option SlotId :=
  (List.finRange 8).find? fun j =>
    s.slots[j].state = .working && s.slots[j].tag = tag &&
      match s.slots[j].reqType with
      | none => false
      | some t => transferType t

/-- Cut-requested set on a leg IN_PROGRESS (R65); the first time, it is noted whether reset-requested already stands (R66; log 4). -/
def LegRecord.askCut (l : LegRecord) (underReset : Bool) : LegRecord :=
  { l with cutRequested := true, cutUnderReset := if l.cutRequested then l.cutUnderReset else underReset }

/-- CANCEL's treatment of one leg of a slot (R65): QUEUED is removed as NOT_SENT, IN_PROGRESS is cut-requested, DONE is left. -/
def State.cancelLeg (s : State) (r : LegRef) : Produced :=
  match s.legAt r with
  | none => (s, [])
  | some l =>
    match l.state with
    | .queued => (s.modSeg l.segment fun g => { g with queue := g.queue.erase r }).failLeg r .notSent
    | .inProgress => (s.modLeg r fun x => x.askCut s.segs[l.segment].resetRequested, [])
    | .done => (s, [])

/-- The legs of a cancelled slot, primary first (R65). -/
def State.cancelLegs (s : State) (j : SlotId) : Produced :=
  let p := s.cancelLeg ⟨j, .primary⟩
  let t := p.1.cancelLeg ⟨j, .twin⟩
  (t.1, p.2 ++ t.2)

/-- CANCEL carried out on a WORKING transfer (R65): the slot is marked cancelled, its legs are treated, their records delivered. -/
def State.cancelSlot (s : State) (j : SlotId) : State :=
  deliverAll ((s.modSlot j fun x => { x with cancelled := true }).cancelLegs j)

/-- CANCEL of a target tag (R64, R67). DESIGN CHOICE (log 31): where a SEG_RESET taken before has failed the queued leg that was the last
of its transfer, the slot is ANSWERED and CANCEL finds no such tag (R55, R133), though R76 says of a CANCEL and a SEG_RESET meeting on one
queued leg that the result is CANCELLED in both orders. -/
def State.carryCancel (k : SlotId) (target : Byte) (s : State) : State :=
  match s.findTransfer target with
  | none => s.answer k .noSuchTag [target]
  | some j =>
    let a := s.cancelSlot j
    a.answer k .ok [target, boolByte (a.slots[j].state = .answered)]

/-- CANCEL delivered. -/
def State.takeCancel (tag : Byte) (payload : List Byte) (s : State) : State :=
  s.deliver ReqType.cancel.code tag fun k a =>
    State.screened k (decodeCancel payload) (fun t => .cancel t) (State.carryCancel k) a

/-! ### The commands -/

/-- WRITE (R38). -/
def execWrite (tag : Byte) (payload : List Byte) (wires : Wires) (s : State) : Host.Outcome State Fault Refusal :=
  .next ((s.withWires wires).takeWrite tag payload)

/-- READ (R39). -/
def execRead (tag : Byte) (payload : List Byte) (wires : Wires) (s : State) : Host.Outcome State Fault Refusal :=
  .next ((s.withWires wires).takeRead tag payload)

/-- PROBE (R40). -/
def execProbe (tag : Byte) (payload : List Byte) (wires : Wires) (s : State) : Host.Outcome State Fault Refusal :=
  .next ((s.withWires wires).takeProbe tag payload)

/-- CANCEL (R65). -/
def execCancel (tag : Byte) (payload : List Byte) (s : State) : Host.Outcome State Fault Refusal :=
  .next (s.takeCancel tag payload)

end Sys2Proof.Machine
end

