-- ==== Sys2Proof/Machine/Routes.lean ====
section
/-! DEFINITION. ROUTE_SET, ROUTE_GET and ROUTE_DISABLE (R21 to R25). -/

namespace Sys2Proof.Machine

/-- The placement limits of a window (R22). -/
def Window.placed (w : Window) : Bool :=
  let size := 2 ^ w.sizeExp.val
  w.base.toNat % size = 0 && w.base.toNat + size - 1 ≤ 4095 &&
    Config.busLow ≤ w.primaryBus.toNat && w.primaryBus.toNat + size - 1 ≤ Config.busHigh &&
    (w.policy = .noTwin ||
      (Config.busLow ≤ w.twinBus.toNat && w.twinBus.toNat + size - 1 ≤ Config.busHigh && w.twinSeg ≠ w.primarySeg))

/-- The window as the route map stores it: its twin fields are 0 where the policy is NONE, whatever the request carried (R23). -/
def Window.stored (w : Window) : Window := if w.policy = .noTwin then { w with twinSeg := 0, twinBus := 0 } else w

/-- Replaces one window record. -/
def State.setWindow (s : State) (i : WindowId) (w : Window) : State := { s with windows := s.windows.set i w }

/-- ROUTE_SET of a well-formed window: RANGE where its placement is not allowed (R7, R22), else the record is replaced (R21). -/
def State.carryRouteSet (k : SlotId) (f : WindowId × Window) (s : State) : State :=
  if f.2.placed then
    (s.setWindow f.1 f.2.stored).answer k .ok [byteOf f.1, boolByte s.windows[f.1].enabled]
  else s.answer k .range []

/-- ROUTE_GET (R24). -/
def State.carryRouteGet (k : SlotId) (i : WindowId) (s : State) : State :=
  s.answer k .ok ([byteOf i, boolByte s.windows[i].enabled] ++ s.windows[i].fieldBytes)

/-- ROUTE_DISABLE (R25). -/
def State.carryRouteDisable (k : SlotId) (i : WindowId) (s : State) : State :=
  (s.setWindow i { s.windows[i] with enabled := false }).answer k .ok [byteOf i, boolByte s.windows[i].enabled]

/-- ROUTE_SET delivered. -/
def State.takeRouteSet (tag : Byte) (payload : List Byte) (s : State) : State :=
  s.deliver ReqType.routeSet.code tag fun k a =>
    State.screened k (decodeRouteSet payload) (fun f => .routeSet f.1 f.2) (State.carryRouteSet k) a

/-- ROUTE_GET delivered. -/
def State.takeRouteGet (tag : Byte) (payload : List Byte) (s : State) : State :=
  s.deliver ReqType.routeGet.code tag fun k a =>
    State.screened k (decodeOne 16 payload) (fun i => .routeGet i) (State.carryRouteGet k) a

/-- ROUTE_DISABLE delivered. -/
def State.takeRouteDisable (tag : Byte) (payload : List Byte) (s : State) : State :=
  s.deliver ReqType.routeDisable.code tag fun k a =>
    State.screened k (decodeOne 16 payload) (fun i => .routeDisable i) (State.carryRouteDisable k) a

/-- ROUTE_SET (R21). -/
def execRouteSet (tag : Byte) (payload : List Byte) (s : State) : Host.Outcome State Fault Refusal :=
  .next (s.takeRouteSet tag payload)

/-- ROUTE_GET (R24). -/
def execRouteGet (tag : Byte) (payload : List Byte) (s : State) : Host.Outcome State Fault Refusal :=
  .next (s.takeRouteGet tag payload)

/-- ROUTE_DISABLE (R25). -/
def execRouteDisable (tag : Byte) (payload : List Byte) (s : State) : Host.Outcome State Fault Refusal :=
  .next (s.takeRouteDisable tag payload)

end Sys2Proof.Machine
end

