-- ==== Sys2Proof/Machine/Segments.lean ====
section
/-! DEFINITION. SEG_CONFIG, SEG_STATUS, SEG_RESET and SEG_RESUME (chapters 4 and 6). -/

namespace Sys2Proof.Machine

/-! ### SEG_CONFIG (R82, R83, R86) -/

/-- The fields of a SEG_CONFIG reply answered OK (R86). The state is the segment's when the request has been carried out. -/
def State.configFields (s : State) (n : SegId) (disposition : Byte) (replaced : Bool) (failed : Nat) : List Byte :=
  [byteOf n, disposition, boolByte replaced, byteOf failed, s.segs[n].state.code]

/-- A configuration stored at once; a pending one is removed (R82). -/
def Segment.store (c : SegConfig) (g : Segment) : Segment := { g with stored := c, pendingCfg := none }

/-- SEG_CONFIG of a segment in IDLE or OFF: applied at once (R82). -/
def State.configAtOnce (s : State) (n : SegId) (c : SegConfig) : State :=
  let a := s.modSeg n (Segment.store c)
  if c.enable then a.modSeg n fun g => g.rest .idle else deliverAll (a.switchOff n)

/-- SEG_CONFIG of a segment in ACTIVE or CLEARING: made pending; with enable = no the queued legs fail (R83). -/
def State.configPending (s : State) (n : SegId) (c : SegConfig) : State :=
  let a := s.modSeg n fun g => { g with pendingCfg := some c }
  if c.enable then a else a.failQueued n .segmentOff

/-- The number of queued legs a SEG_CONFIG fails: those it finds, when it disables (R86). -/
def Segment.failedBy (g : Segment) (c : SegConfig) : Nat := if c.enable then 0 else g.queue.length

/-- SEG_CONFIG applied at once, and answered APPLIED. -/
def State.applyConfig (k : SlotId) (n : SegId) (c : SegConfig) (s : State) : State :=
  let a := s.configAtOnce n c
  a.answer k .ok (a.configFields n dispositionApplied s.segs[n].pendingCfg.isSome (s.segs[n].failedBy c))

/-- SEG_CONFIG made pending, and answered PENDING. -/
def State.deferConfig (k : SlotId) (n : SegId) (c : SegConfig) (s : State) : State :=
  let a := s.configPending n c
  a.answer k .ok (a.configFields n dispositionPending s.segs[n].pendingCfg.isSome (s.segs[n].failedBy c))

/-- SEG_CONFIG of a FAULTED segment: STILL_FAULTED with enable = yes; with enable = no stored, and the segment stays FAULTED (R82). -/
def State.configFaulted (k : SlotId) (n : SegId) (c : SegConfig) (s : State) : State :=
  if c.enable then s.answer k .stillFaulted [byteOf n]
  else
    let a := s.modSeg n (Segment.store c)
    a.answer k .ok (a.configFields n dispositionApplied s.segs[n].pendingCfg.isSome 0)

/-- SEG_CONFIG by the state of the segment. -/
def State.carrySegConfig (k : SlotId) (f : SegId × SegConfig) (s : State) : State :=
  match s.segs[f.1].state with
  | .idle => s.applyConfig k f.1 f.2
  | .off => s.applyConfig k f.1 f.2
  | .active => s.deferConfig k f.1 f.2
  | .clearing => s.deferConfig k f.1 f.2
  | .faulted => s.configFaulted k f.1 f.2

/-! ### SEG_STATUS (R87) -/

/-- A configuration as the three bytes of a SEG_STATUS reply. -/
def SegConfig.bytes (c : SegConfig) : List Byte := [boolByte c.enable, c.rate.code, c.stretchLimit]

/-- The pending fields: present, then the configuration or zeros (R197). -/
def Segment.pendingBytes (g : Segment) : List Byte :=
  match g.pendingCfg with
  | none => [0, 0, 0, 0]
  | some c => 1 :: c.bytes

/-- The leg in progress fields: present, tag, role and kind, or zeros. An orphaned leg has the tag it had and role ORPHAN (R87). -/
def State.inProgressBytes (s : State) (g : Segment) : List Byte :=
  match g.inProgress with
  | none => [0, 0, 0, 0]
  | some r =>
    match r.orphan with
    | some o => [1, o.tag, orphanRole, o.leg.kind.code]
    | none =>
      match s.legAt r.leg with
      | none => [0, 0, 0, 0]
      | some l => [1, s.slots[r.leg.slot].tag, r.leg.role.code, l.kind.code]

/-- The queued legs, head first: each its tag and role. -/
def State.queueBytes (s : State) (g : Segment) : List Byte :=
  g.queue.flatMap fun r => [s.slots[r.slot].tag, r.role.code]

/-- The fields of a SEG_STATUS reply (R87, R199). -/
def State.segStatusFields (s : State) (n : SegId) : List Byte :=
  let g := s.segs[n]
  [byteOf n, g.state.code] ++ g.stored.bytes ++ g.pendingBytes ++ [g.flagsByte, g.lastFault.code] ++ s.inProgressBytes g ++
    [byteOf g.queue.length] ++ s.queueBytes g

/-- SEG_STATUS. -/
def State.carrySegStatus (k : SlotId) (n : SegId) (s : State) : State := s.answer k .ok (s.segStatusFields n)

/-! ### SEG_RESET (R128 to R130) -/

/-- Clears a segment's hold flag. -/
def State.clearHold (s : State) (n : SegId) : State := s.modSeg n fun g => { g with hold := false }

/-- Steps 1 and 2 of a SEG_RESET (R129), with the count its reply needs. DESIGN CHOICE (log 31): a queued leg failed here that was the
last of its transfer has its slot answered within this event (R55, R133), and a CANCEL that comes after finds it ANSWERED, though R76
gives CANCELLED in both orders. -/
def State.resetQueue (k : SlotId) (n : SegId) (s : State) : State :=
  let a := s.modSlot k fun x => { x with resetAccount := some { legsFailed := s.segs[n].queue.length, leg := .noLeg } }
  (a.failQueued n .segmentReset).clearHold n

/-- The clear of a SEG_RESET, or its request to the leg in progress (R129 step 3, R130). -/
def State.resetProceed (k : SlotId) (n : SegId) (s : State) : State :=
  if s.segs[n].inProgress.isSome then s.modSeg n fun g => { g with resetRequested := true }
  else if s.segs[n].state = .clearing then
    s.modSeg n fun g => { g with clear := g.clear.map fun c => { c with owner := some k } }
  else s.beginResetClear n (some k)

/-- SEG_RESET: BUSY beside another of the segment, at once on an OFF segment, else taken (R128 to R130). -/
def State.carrySegReset (k : SlotId) (n : SegId) (s : State) : State :=
  if s.resetBusy k n then s.answer k .busy [byteOf n]
  else if s.segs[n].state = .off then
    ((s.modSlot k fun x => { x with resetAccount := some { legsFailed := 0, leg := .noLeg } }).clearHold n).finishReset n k .ok 0 .off
  else (s.resetQueue k n).resetProceed k n

/-! ### SEG_RESUME (R88) -/

/-- SEG_RESUME: hold cleared, start decision, reply. -/
def State.carrySegResume (k : SlotId) (n : SegId) (s : State) : State :=
  ((s.clearHold n).decideStart n).answer k .ok [byteOf n, boolByte s.segs[n].hold]

/-! ### Delivery -/

/-- SEG_CONFIG delivered. -/
def State.takeSegConfig (tag : Byte) (payload : List Byte) (s : State) : State :=
  s.deliver ReqType.segConfig.code tag fun k a =>
    State.screened k (decodeSegConfig payload) (fun f => .segConfig f.1 f.2) (State.carrySegConfig k) a

/-- SEG_STATUS delivered. -/
def State.takeSegStatus (tag : Byte) (payload : List Byte) (s : State) : State :=
  s.deliver ReqType.segStatus.code tag fun k a =>
    State.screened k (decodeOne 4 payload) (fun n => .segStatus n) (State.carrySegStatus k) a

/-- SEG_RESET delivered. -/
def State.takeSegReset (tag : Byte) (payload : List Byte) (s : State) : State :=
  s.deliver ReqType.segReset.code tag fun k a =>
    State.screened k (decodeOne 4 payload) (fun n => .segReset n) (State.carrySegReset k) a

/-- SEG_RESUME delivered. -/
def State.takeSegResume (tag : Byte) (payload : List Byte) (s : State) : State :=
  s.deliver ReqType.segResume.code tag fun k a =>
    State.screened k (decodeOne 4 payload) (fun n => .segResume n) (State.carrySegResume k) a

/-- SEG_CONFIG (R82). -/
def execSegConfig (tag : Byte) (payload : List Byte) (wires : Wires) (s : State) : Host.Outcome State Fault Refusal :=
  .next ((s.withWires wires).takeSegConfig tag payload)

/-- SEG_STATUS (R87). -/
def execSegStatus (tag : Byte) (payload : List Byte) (s : State) : Host.Outcome State Fault Refusal :=
  .next (s.takeSegStatus tag payload)

/-- SEG_RESET (R129). -/
def execSegReset (tag : Byte) (payload : List Byte) (wires : Wires) (s : State) : Host.Outcome State Fault Refusal :=
  .next ((s.withWires wires).takeSegReset tag payload)

/-- SEG_RESUME (R88). -/
def execSegResume (tag : Byte) (payload : List Byte) (wires : Wires) (s : State) : Host.Outcome State Fault Refusal :=
  .next ((s.withWires wires).takeSegResume tag payload)

end Sys2Proof.Machine
end

