-- ==== Sys2Proof/Machine/Watches.lean ====
section
/-! DEFINITION. WATCH_SET, WATCH_GET, WATCH_REARM, WATCH_DISABLE and the expiry of an EVT timer (chapter 7). -/

namespace Sys2Proof.Machine

/-- The state WATCH_SET puts a unit in (R151 step 3). -/
def WatchSetup.initialState (w : WatchSetup) (u : UnitId) : WatchState :=
  if w.chained && hasPredecessor u then .waiting else .armed

/-- A unit after WATCH_SET (R151). -/
def WatchUnit.set (x : WatchUnit) (u : UnitId) (w : WatchSetup) : WatchUnit :=
  { x with setup := w, countRemaining := w.count, state := w.initialState u }

/-- WATCH_SET (R151). -/
def State.carryWatchSet (k : SlotId) (f : UnitId × WatchSetup) (s : State) : State :=
  (s.modUnit f.1 fun x => x.set f.1 f.2).answer k .ok [byteOf f.1, s.units[f.1].state.code, (f.2.initialState f.1).code]

/-- WATCH_GET (R152). -/
def State.carryWatchGet (k : SlotId) (u : UnitId) (s : State) : State :=
  s.answer k .ok ([byteOf u, s.units[u].state.code, byteOf s.units[u].countRemaining] ++ s.units[u].setup.bytes)

/-- The rearm of a unit that is not a chained successor: FIRED becomes ARMED (R153). -/
def WatchState.rearmed : WatchState → WatchState
  | .disabled => .disabled | .waiting => .waiting | .armed => .armed | .fired => .armed

/-- A chained successor is put back to WAITING (R153). -/
def WatchState.rewaited : WatchState → WatchState
  | .disabled => .disabled | .waiting => .waiting | .armed => .waiting | .fired => .waiting

/-- Whether a unit is a successor with chained yes (R143). -/
def State.chainedSuccessor (s : State) (u : UnitId) : Bool := hasPredecessor u && s.units[u].setup.chained

/-- WATCH_REARM's effect on the named unit and, where the chain reaches, its partner (R153). -/
def State.rearm (s : State) (u : UnitId) : State :=
  let v := chainPartner u
  if s.chainedSuccessor u then
    (s.modUnit u fun x => { x with state := x.state.rewaited }).modUnit v fun x => { x with state := x.state.rearmed }
  else if s.chainedSuccessor v then
    (s.modUnit u fun x => { x with state := x.state.rearmed }).modUnit v fun x => { x with state := x.state.rewaited }
  else s.modUnit u fun x => { x with state := x.state.rearmed }

/-- WATCH_REARM: BAD_REQUEST for a DISABLED unit (R8, R153). -/
def State.carryWatchRearm (k : SlotId) (u : UnitId) (s : State) : State :=
  if s.units[u].state = .disabled then s.answer k .badRequest []
  else
    let a := s.rearm u
    a.answer k .ok [byteOf u, a.units[u].state.code, a.units[chainPartner u].state.code]

/-- WATCH_DISABLE (R154). -/
def State.carryWatchDisable (k : SlotId) (u : UnitId) (s : State) : State :=
  (s.setWatchState u .disabled).answer k .ok [byteOf u, s.units[u].state.code]

/-- WATCH_SET delivered. -/
def State.takeWatchSet (tag : Byte) (payload : List Byte) (s : State) : State :=
  s.deliver ReqType.watchSet.code tag fun k a =>
    State.screened k (decodeWatchSet payload) (fun f => .watchSet f.1 f.2) (State.carryWatchSet k) a

/-- WATCH_GET delivered. -/
def State.takeWatchGet (tag : Byte) (payload : List Byte) (s : State) : State :=
  s.deliver ReqType.watchGet.code tag fun k a =>
    State.screened k (decodeOne 4 payload) (fun u => .watchGet u) (State.carryWatchGet k) a

/-- WATCH_REARM delivered. -/
def State.takeWatchRearm (tag : Byte) (payload : List Byte) (s : State) : State :=
  s.deliver ReqType.watchRearm.code tag fun k a =>
    State.screened k (decodeOne 4 payload) (fun u => .watchRearm u) (State.carryWatchRearm k) a

/-- WATCH_DISABLE delivered. -/
def State.takeWatchDisable (tag : Byte) (payload : List Byte) (s : State) : State :=
  s.deliver ReqType.watchDisable.code tag fun k a =>
    State.screened k (decodeOne 4 payload) (fun u => .watchDisable u) (State.carryWatchDisable k) a

/-- WATCH_SET (R151). -/
def execWatchSet (tag : Byte) (payload : List Byte) (s : State) : Host.Outcome State Fault Refusal :=
  .next (s.takeWatchSet tag payload)

/-- WATCH_GET (R152). -/
def execWatchGet (tag : Byte) (payload : List Byte) (s : State) : Host.Outcome State Fault Refusal :=
  .next (s.takeWatchGet tag payload)

/-- WATCH_REARM (R153). -/
def execWatchRearm (tag : Byte) (payload : List Byte) (s : State) : Host.Outcome State Fault Refusal :=
  .next (s.takeWatchRearm tag payload)

/-- WATCH_DISABLE (R154). -/
def execWatchDisable (tag : Byte) (payload : List Byte) (s : State) : Host.Outcome State Fault Refusal :=
  .next (s.takeWatchDisable tag payload)

/-- EVT_TIMER_EXPIRY: a unit's timer that has run down to 0 stops (R148). A timer with time left has not expired, and a stopped one
has nothing to expire (log 1). -/
def execEvtTimerExpiry (u : UnitId) (s : State) : Host.Outcome State Fault Refusal :=
  .next (if s.units[u].evtTimer = some 0 then s.modUnit u fun x => { x with evtTimer := none } else s)

end Sys2Proof.Machine
end

