-- ==== Sys2Proof/Machine/LogRequests.lean ====
section
/-! DEFINITION. LOG_READ and the three operations of LOG_CONTROL (chapter 8). -/

namespace Sys2Proof.Machine

/-- The frozen flag as its byte. DESIGN CHOICE (log 29): 11 section 11.1 gives byte values to yes/no and present/absent fields and R199
none to set/clear ones; a flag that is set goes out as 1, a clear one as 0. -/
def HistoryLog.frozenByte (l : HistoryLog) : Byte := boolByte l.frozen

/-- LOG_READ on the log (R163): the oldest entries leave, and lost is cleared. -/
def HistoryLog.read (l : HistoryLog) (asked : Nat) : HistoryLog := { l with entries := l.entries.drop asked, lost := false }

/-- The fields of a LOG_READ reply (R163, R199); the lost and frozen flags as 1 for set and 0 for clear (log 29). -/
def HistoryLog.readFields (l : HistoryLog) (asked : Nat) : List Byte :=
  [byteOf (min asked l.entries.length), byteOf (l.entries.length - asked), boolByte l.lost, l.frozenByte, l.mode.code] ++
    (l.entries.take asked).flatMap LogEntry.bytes16

/-- LOG_READ (R163). -/
def State.carryLogRead (k : SlotId) (asked : Nat) (s : State) : State :=
  ({ s with log := s.log.read asked }).answer k .ok (s.log.readFields asked)

/-- The fields of a LOG_CONTROL reply: operation, before, and the log as it stands after the operation (R164, R199); the frozen and lost
flags as 1 for set and 0 for clear (log 29). -/
def HistoryLog.controlFields (l : HistoryLog) (operation before : Byte) : List Byte :=
  [operation, before, l.mode.code, l.frozenByte, byteOf l.entries.length, boolByte l.lost]

/-- A LOG_CONTROL operation carried out and answered. -/
def State.controlLog (s : State) (k : SlotId) (after : HistoryLog) (operation before : Byte) : State :=
  ({ s with log := after }).answer k .ok (after.controlFields operation before)

/-- SET_MODE (R165). -/
def State.carrySetMode (k : SlotId) (m : LogMode) (s : State) : State :=
  s.controlLog k { s.log with mode := m } 0 s.log.mode.code

/-- RESUME (R166); the byte before is the frozen flag as it stood, 1 for set (log 29). -/
def State.carryResume (k : SlotId) (_ : Byte) (s : State) : State :=
  s.controlLog k { s.log with frozen := false } 1 s.log.frozenByte

/-- CLEAR (R167). -/
def State.carryClear (k : SlotId) (_ : Byte) (s : State) : State :=
  s.controlLog k { s.log with entries := [], lost := false } 2 (byteOf s.log.entries.length)

/-- LOG_READ delivered. -/
def State.takeLogRead (tag : Byte) (payload : List Byte) (s : State) : State :=
  s.deliver ReqType.logRead.code tag fun k a =>
    State.screened k (decodeLogRead payload) (fun n => .logRead n) (State.carryLogRead k) a

/-- LOG_CONTROL with operation SET_MODE delivered; `rest` is the payload after the operation byte. -/
def State.takeSetMode (tag : Byte) (rest : List Byte) (s : State) : State :=
  s.deliver ReqType.logControl.code tag fun k a =>
    State.screened k (decodeSetMode rest) (fun m => .setMode m) (State.carrySetMode k) a

/-- LOG_CONTROL with operation RESUME delivered. -/
def State.takeResume (tag : Byte) (rest : List Byte) (s : State) : State :=
  s.deliver ReqType.logControl.code tag fun k a =>
    State.screened k (decodeAnyMode rest) (fun m => .resume m) (State.carryResume k) a

/-- LOG_CONTROL with operation CLEAR delivered. -/
def State.takeClear (tag : Byte) (rest : List Byte) (s : State) : State :=
  s.deliver ReqType.logControl.code tag fun k a =>
    State.screened k (decodeAnyMode rest) (fun m => .clear m) (State.carryClear k) a

/-- LOG_READ (R163). -/
def execLogRead (tag : Byte) (payload : List Byte) (s : State) : Host.Outcome State Fault Refusal :=
  .next (s.takeLogRead tag payload)

/-- SET_MODE (R165). -/
def execSetMode (tag : Byte) (rest : List Byte) (s : State) : Host.Outcome State Fault Refusal :=
  .next (s.takeSetMode tag rest)

/-- RESUME (R166). -/
def execResume (tag : Byte) (rest : List Byte) (s : State) : Host.Outcome State Fault Refusal :=
  .next (s.takeResume tag rest)

/-- CLEAR (R167). -/
def execClear (tag : Byte) (rest : List Byte) (s : State) : Host.Outcome State Fault Refusal :=
  .next (s.takeClear tag rest)

end Sys2Proof.Machine
end

