-- ==== Sys2Proof/Machine/Clock.lean ====
section
/-! DEFINITION. The clock requests and the events of the clock unit, the reference monitor and the time base (chapter 9). -/

namespace Sys2Proof.Machine

/-! ### Requests -/

/-- CLOCK_CONFIG (R181): BUSY unless on BACKUP and STEADY. -/
def State.carryClockConfig (k : SlotId) (mhz : Nat) (s : State) : State :=
  if s.clock.source = .backup && s.clock.switch = .steady then
    ({ s with clock := { s.clock with frequency := mhz } }).answer k .ok [byteOf s.clock.frequency, byteOf mhz]
  else s.answer k .busy []

/-- The change of source begins (R176 step 4): every segment is awaited, and the setting of pause-requested goes out to each, which
takes it as an event of its own (R177, log 7). -/
def State.beginSwitch (s : State) (k : SlotId) (target : Source) : State :=
  { s with
    clock := { s.clock with switch := .quiescing target, awaited := allSegments, selectOwner := some k },
    segs := s.segs.map fun g => { g with pauseSetting := true } }

/-- CLOCK_SELECT (R176). -/
def State.carryClockSelect (k : SlotId) (target : Source) (s : State) : State :=
  match s.clock.switch with
  | .quiescing t => s.answer k .busy [t.code]
  | .steady =>
    if target = s.clock.source then s.answer k .ok (s.selectFields target)
    else if target = .reference && s.clock.refStatus ≠ .present then s.answer k .notPresent [s.clock.refStatus.code]
    else s.beginSwitch k target

/-- The fields of a CLOCK_STATUS reply (R182, R199). -/
def ClockUnit.statusFields (c : ClockUnit) : List Byte :=
  [c.source.code, c.switch.code, c.switch.targetByte, flagsByte c.awaited, c.refStatus.code, byteOf c.frequency] ++
    bytes32 c.timeBase

/-- CLOCK_STATUS (R182). -/
def State.carryClockStatus (k : SlotId) (_ : Unit) (s : State) : State := s.answer k .ok s.clock.statusFields

/-- CLOCK_CONFIG delivered. -/
def State.takeClockConfig (tag : Byte) (payload : List Byte) (s : State) : State :=
  s.deliver ReqType.clockConfig.code tag fun k a =>
    State.screened k (decodeClockConfig payload) (fun f => .clockConfig f) (State.carryClockConfig k) a

/-- CLOCK_SELECT delivered. -/
def State.takeClockSelect (tag : Byte) (payload : List Byte) (s : State) : State :=
  s.deliver ReqType.clockSelect.code tag fun k a =>
    State.screened k (decodeClockSelect payload) (fun t => .clockSelect t) (State.carryClockSelect k) a

/-- CLOCK_STATUS delivered. -/
def State.takeClockStatus (tag : Byte) (payload : List Byte) (s : State) : State :=
  s.deliver ReqType.clockStatus.code tag fun k a =>
    State.screened k (decodeEmpty payload) (fun _ => .clockStatus) (State.carryClockStatus k) a

/-- CLOCK_CONFIG (R181). -/
def execClockConfig (tag : Byte) (payload : List Byte) (s : State) : Host.Outcome State Fault Refusal :=
  .next (s.takeClockConfig tag payload)

/-- CLOCK_SELECT (R176). -/
def execClockSelect (tag : Byte) (payload : List Byte) (s : State) : Host.Outcome State Fault Refusal :=
  .next (s.takeClockSelect tag payload)

/-- CLOCK_STATUS (R182). -/
def execClockStatus (tag : Byte) (payload : List Byte) (s : State) : Host.Outcome State Fault Refusal :=
  .next (s.takeClockStatus tag payload)

/-! ### The time base -/

/-- A running EVT timer with one microsecond less left, down to 0 (R148). -/
def WatchUnit.tick (x : WatchUnit) : WatchUnit := { x with evtTimer := x.evtTimer.map fun t => t - 1 }

/-- TIME_BASE_TICK: the count rises by 1 modulo 2^32 (R173), and the EVT timers run down (R148). -/
def execTimeBaseTick (s : State) : Host.Outcome State Fault Refusal :=
  .next { s with clock := { s.clock with timeBase := s.clock.timeBase + 1 }, units := s.units.map WatchUnit.tick }

/-! ### The reference monitor (R171) -/

/-- A reference edge: ABSENT goes to STARTING with the good timer started; in every status the gap is timed afresh. -/
def ClockUnit.edge (c : ClockUnit) : ClockUnit :=
  match c.refStatus with
  | .absent => { c with refStatus := .starting, goodTimer := some Config.goodMicroseconds, gapTimer := some Config.gapTenths }
  | .starting => { c with gapTimer := some Config.gapTenths }
  | .present => { c with gapTimer := some Config.gapTenths }

/-- REFERENCE_EDGE (R171). -/
def execReferenceEdge (s : State) : Host.Outcome State Fault Refusal := .next { s with clock := s.clock.edge }

/-- REFERENCE_GOOD: the good timer runs out in STARTING (R171), and a CLOCK_EVENT is raised (R172). -/
def execReferenceGood (s : State) : Host.Outcome State Fault Refusal :=
  .next (if s.clock.refStatus = .starting then
    ({ s with clock := { s.clock with refStatus := .present, goodTimer := none } }).raiseClockEvent .referenceGood
  else s)

/-- The reference is ABSENT and neither timer of the monitor runs. -/
def ClockUnit.lost (c : ClockUnit) : ClockUnit := { c with refStatus := .absent, goodTimer := none, gapTimer := none }

/-- REFERENCE_LOST: from STARTING quietly; from PRESENT with the forced fallback or the abandonment, and then a CLOCK_EVENT
(R171, R172, R175, R179). -/
def execReferenceLost (wires : Wires) (s : State) : Host.Outcome State Fault Refusal :=
  .next (match s.clock.refStatus with
    | .absent => s
    | .starting => { s with clock := s.clock.lost }
    | .present => ({ s.withWires wires with clock := s.clock.lost }).lossFallback.raiseClockEvent .referenceLost)

/-! ### The change of source (R177) -/

/-- A segment takes the setting of pause-requested, and reports at once if quiescent (R177). -/
def Segment.takePause (g : Segment) : Segment :=
  { g with pauseRequested := true, pauseSetting := false,
           reports := if g.state.quiescent then g.reports ++ [.quiescent] else g.reports }

/-- PAUSE_REQUESTED: a segment takes the setting that is on its way to it (R177, log 7). -/
def execPauseRequested (n : SegId) (s : State) : Host.Outcome State Fault Refusal :=
  .next (if s.segs[n].pauseSetting then s.modSeg n Segment.takePause else s)

/-- The first message on its way from a segment leaves it. -/
def State.dropReport (s : State) (n : SegId) : State := s.modSeg n fun g => { g with reports := g.reports.drop 1 }

/-- Sets whether a segment is awaited. -/
def State.setAwaited (s : State) (n : SegId) (b : Bool) : State :=
  { s with clock := { s.clock with awaited := s.clock.awaited.set n b } }

/-- The clock unit takes a quiescence report (R177): in QUIESCING the segment leaves the awaited set, and an empty set completes the
change (R178). -/
def State.takeReport (s : State) (n : SegId) : State :=
  match s.clock.switch with
  | .steady => s
  | .quiescing target =>
    let a := s.setAwaited n false
    if a.clock.awaited = noSegments then a.completeSwitch target else a

/-- QUIESCENCE_REPORT: the clock unit takes the segment's report, in the order the segment sent (R177). -/
def execQuiescenceReport (n : SegId) (wires : Wires) (s : State) : Host.Outcome State Fault Refusal :=
  .next (if s.segs[n].reports.head? = some .quiescent then ((s.withWires wires).dropReport n).takeReport n else s)

/-- The clock unit takes a withdrawal (R177): in QUIESCING the segment is awaited again. -/
def State.takeWithdrawal (s : State) (n : SegId) : State :=
  match s.clock.switch with
  | .steady => s
  | .quiescing _ => s.setAwaited n true

/-- WITHDRAWAL: the clock unit takes the segment's withdrawal, in the order the segment sent (R177). -/
def execWithdrawal (n : SegId) (s : State) : Host.Outcome State Fault Refusal :=
  .next (if s.segs[n].reports.head? = some .withdrawal then (s.dropReport n).takeWithdrawal n else s)

end Sys2Proof.Machine
end

