-- ==== Sys2Proof/Machine/SegmentEvents.lean ====
section
/-! DEFINITION. The events of a segment on its wires: line checks, legs, bus clears (chapters 5 and 6). An event that cannot happen in
the state it comes in changes nothing (log 1). -/

namespace Sys2Proof.Machine

/-! ### Line checks -/

/-- A waiting line check reads the lines again (R118): it passes and starts the head leg, or decides next where none waits (R119);
it goes to CLEARING; or SCL is still low and it waits. DESIGN CHOICE (log 25): a leg appended after a SEG_CONFIG with enable = no, while
the check still waits, is at the head when the check passes; R77 starts whatever leg is there, R83 and R119 have the check of such a
segment end with no leg to start. The model starts it, and the configuration stays pending until that leg has ended. -/
def State.recheck (s : State) (n : SegId) : State :=
  match checkLines s.wires[n] with
  | .pass => if s.segs[n].queue.isEmpty then s.decideNext n else s.beginRun n
  | .dataHeld => s.beginClear n .lineCheck none
  | .clockHeld => s

/-- LINE_CHECK_END (R118). -/
def execLineCheckEnd (n : SegId) (wires : Wires) (s : State) : Host.Outcome State Fault Refusal :=
  .next (if s.segs[n].checking then (s.withWires wires).recheck n else s)

/-- LINE_CHECK_TIMEOUT (R118): the check fails with clock held, and the segment enters FAULTED. -/
def execLineCheckTimeout (n : SegId) (wires : Wires) (s : State) : Host.Outcome State Fault Refusal :=
  .next (if s.segs[n].checking then (s.withWires wires).faultEntry n .stuckClock else s)

/-! ### Legs -/

/-- The engine of a segment has gone on with its leg: what it did on the lines joins the leg's trace (R98, R117; log 36). -/
def State.traced (s : State) (n : SegId) (t : List BusSymbol) : State := s.modSeg n fun g => { g with trace := g.trace ++ t }

/-- The end of the leg in progress with its run record, leg record and write data (R104). -/
def State.endLeg (s : State) (n : SegId) (r : Run) (leg : LegRecord × List Byte) (bytes : List WireByte) (finish : LegFinish) : State :=
  match legEnding leg.1 r (stopFields s.segs[n] r leg.1) leg.2 bytes finish with
  | none => s
  | some (r1, buf, o, ending) =>
    ((s.traced n (endTrace leg.1 r leg.2 bytes finish)).endRun n r1 leg.1 leg.2 buf o).afterLeg n s.segs[n].resetRequested ending

/-- Does something with the leg in progress of a segment; nothing where there is none. -/
def State.withRun (s : State) (n : SegId) (f : Run → LegRecord × List Byte → State) : State :=
  match s.segs[n].inProgress with
  | none => s
  | some r =>
    match s.runLeg r with
    | none => s
    | some leg => f r leg

/-- LEG_END (R104). -/
def execLegEnd (n : SegId) (bytes : List WireByte) (finish : LegFinish) (wires : Wires) (s : State) :
    Host.Outcome State Fault Refusal :=
  .next (s.withRun n fun r leg => (s.withWires wires).endLeg n r leg bytes finish)

/-- What the engine drives in a second stretch window (R106, R107): both lines released, or SDA still pulled low in a STOP. -/
def Run.stretchDrive (r : Run) : LineDrive :=
  if r.phase = .stop then { sclLow := false, sdaLow := true } else LineDrive.released

/-- The run record and read data of a leg whose stretch limit has expired are kept (R106): the read data in its leg record. -/
def State.storeRun (s : State) (n : SegId) (r : Run) (buf : List Byte) : State :=
  match r.orphan with
  | some o =>
    s.modSeg n fun g =>
      { g with inProgress := some { r with orphan := some { o with leg := { o.leg with readData := buf } } }, drive := r.stretchDrive }
  | none =>
    (s.modLeg r.leg fun l => { l with readData := buf }).modSeg n fun g =>
      { g with inProgress := some r, drive := r.stretchDrive }

/-- STRETCH_TIMEOUT (R106, R107). -/
def execStretchTimeout (n : SegId) (bytes : List WireByte) (place : StretchPlace) (s : State) : Host.Outcome State Fault Refusal :=
  .next (s.withRun n fun r leg =>
    match stretchAt leg.1 r (stopFields s.segs[n] r leg.1) bytes place with
    | none => s
    | some p => (s.traced n (stretchTrace leg.1 r leg.2 bytes place)).storeRun n p.1 p.2)

/-- The end of a leg at the end of its second stretch window, where that is open: the decided outcome stands (R106, R107). -/
def State.endStuckLeg (s : State) (n : SegId) (r : Run) (leg : LegRecord × List Byte) : State :=
  match r.secondWindow, r.decided with
  | true, some o => (s.endRun n r leg.1 leg.2 leg.1.readData o).afterStuckLeg n s.segs[n].resetRequested
  | true, none => s
  | false, _ => s

/-- SECOND_STRETCH_WINDOW_END (R106). -/
def execSecondStretchWindowEnd (n : SegId) (wires : Wires) (s : State) : Host.Outcome State Fault Refusal :=
  .next (s.withRun n fun r leg => (s.withWires wires).endStuckLeg n r leg)

/-! ### Bus clears -/

/-- Does something with the clear record of a segment; nothing where no clear runs. -/
def State.withClear (s : State) (n : SegId) (f : ClearRecord → State) : State :=
  match s.segs[n].clear with
  | none => s
  | some c => if s.segs[n].state = .clearing then f c else s

/-- The levels of a command with one segment's lines high: the final check of a clear has just read them so (R122, R123). -/
def freedWires (w : Wires) (n : SegId) : Wires := w.set n Levels.high

/-- A bus clear has ended: what the engine did on the lines in it is kept (R121, R122; log 40). -/
def State.clearTraced (s : State) (n : SegId) (t : List BusSymbol) : State := s.modSeg n fun g => { g with clearTrace := t }

/-- BUS_CLEAR_END (R122, R123): the end that the clear's readings of SDA bring. Readings that do not end a clear only note the lines as
read (log 1). -/
def execBusClearEnd (n : SegId) (reads : List Bool) (wires : Wires) (s : State) : Host.Outcome State Fault Refusal :=
  .next (s.withClear n fun c =>
    match clearEnding reads with
    | none => s.withWires wires
    | some (pulses, none) => ((s.withWires (freedWires wires n)).clearTraced n (endedClearTrace reads)).clearSucceeds n c pulses
    | some (pulses, some cause) => ((s.withWires wires).clearTraced n (endedClearTrace reads)).clearFails n c cause pulses)

/-- BUS_CLEAR_TIMEOUT (R120, R121, R122): a wait for SCL expires after these readings of SDA, and the clear fails with STUCK_CLOCK.
Readings that end the clear leave no wait (log 1). -/
def execBusClearTimeout (n : SegId) (reads : List Bool) (wires : Wires) (s : State) : Host.Outcome State Fault Refusal :=
  .next (s.withClear n fun c =>
    match clearWaiting reads with
    | none => s.withWires wires
    | some pulses => ((s.withWires wires).clearTraced n (heldClearTrace reads)).clearFails n c .stuckClock pulses)

end Sys2Proof.Machine
end

