-- ==== Sys2Proof/Machine/TableRequests.lean ====
section
/-! DEFINITION. STATUS, RESET, UNKNOWN_TYPE and POWER_ON_RESET (chapter 1, R195). -/

namespace Sys2Proof.Machine

/-- The number of FREE slots (R14). -/
def State.freeCount (s : State) : Nat := (List.finRange 8).countP fun k => s.slots[k].state = .free

/-- The fields of a STATUS reply (R14, R199). -/
def State.statusFields (s : State) : List Byte :=
  bytes16 Config.partCode ++
    [Config.revisionCode, byteOf s.freeCount, byteOf s.link.queue.length, s.link.flags.byte, s.clock.source.code,
      s.segs[0].state.code, s.segs[1].state.code, s.segs[2].state.code, s.segs[3].state.code]

/-- STATUS (R14, R15): the fields are captured, then the link flags cleared where it asks for it. -/
def State.carryStatus (k : SlotId) (clear : Bool) (s : State) : State :=
  (if clear then s.clearFlags else s).answer k .ok s.statusFields

/-- RESET: the soft reset; no reply (R16). -/
def State.carryReset (_ : SlotId) (_ : Unit) (s : State) : State := s.softReset

/-- STATUS delivered. -/
def State.takeStatus (tag : Byte) (payload : List Byte) (s : State) : State :=
  s.deliver ReqType.status.code tag fun k a =>
    State.screened k (decodeStatus payload) (fun c => .status c) (State.carryStatus k) a

/-- RESET delivered. -/
def State.takeReset (tag : Byte) (payload : List Byte) (s : State) : State :=
  s.deliver ReqType.reset.code tag fun k a =>
    State.screened k (decodeEmpty payload) (fun _ => .reset) (State.carryReset k) a

/-- A good frame whose type byte is not a listed request type: taken into a slot and answered BAD_REQUEST at once (R5 step 1). -/
def State.takeUnknown (type tag : Byte) (s : State) : State :=
  s.deliver type tag fun k a => a.answer k .badRequest []

/-- STATUS (R14). -/
def execStatus (tag : Byte) (payload : List Byte) (s : State) : Host.Outcome State Fault Refusal :=
  .next (s.takeStatus tag payload)

/-- RESET (R16). -/
def execReset (tag : Byte) (payload : List Byte) (s : State) : Host.Outcome State Fault Refusal :=
  .next (s.takeReset tag payload)

/-- UNKNOWN_TYPE (R5): the payload of an unknown type is not looked at. A command whose type byte is a listed one spells no frame of
this row and changes nothing (log 1). -/
def execUnknownType (type tag : Byte) (_ : List Byte) (s : State) : Host.Outcome State Fault Refusal :=
  .next (if (ReqType.ofByte type).isNone then s.takeUnknown type tag else s)

/-- POWER_ON_RESET (R195): power-on reset ends with every block at its reset value. The segment lines and the model's queue are outside
the part (log 17). -/
def execPowerOnReset (s : State) : Host.Outcome State Fault Refusal :=
  .next { State.reset with wires := s.wires, pending := s.pending }

end Sys2Proof.Machine
end

