-- ==== Sys2Proof/Machine/LinkEvents.lean ====
section
/-! DEFINITION. The events of the link port: selects, byte boundaries, discarded frames, messages begun and sent (chapter 10). -/

namespace Sys2Proof.Machine

/-- A LOG_CONTROL delivered as a frame: by its operation byte; any other, or none, is BAD_REQUEST (R164). -/
def State.takeLogControl (tag : Byte) (payload : List Byte) (s : State) : State :=
  match payload with
  | [] => s.takeUnknown ReqType.logControl.code tag
  | op :: rest =>
    if op = 0 then s.takeSetMode tag rest
    else if op = 1 then s.takeResume tag rest
    else if op = 2 then s.takeClear tag rest
    else s.takeUnknown ReqType.logControl.code tag

/-- The request that a body's type byte names is delivered (R5 step 1, R186). -/
def State.takeRequest (t : ReqType) (tag : Byte) (payload : List Byte) (s : State) : State :=
  match t with
  | .write => s.takeWrite tag payload
  | .read => s.takeRead tag payload
  | .probe => s.takeProbe tag payload
  | .cancel => s.takeCancel tag payload
  | .routeSet => s.takeRouteSet tag payload
  | .routeGet => s.takeRouteGet tag payload
  | .routeDisable => s.takeRouteDisable tag payload
  | .segConfig => s.takeSegConfig tag payload
  | .segStatus => s.takeSegStatus tag payload
  | .segReset => s.takeSegReset tag payload
  | .segResume => s.takeSegResume tag payload
  | .watchSet => s.takeWatchSet tag payload
  | .watchGet => s.takeWatchGet tag payload
  | .watchRearm => s.takeWatchRearm tag payload
  | .watchDisable => s.takeWatchDisable tag payload
  | .logRead => s.takeLogRead tag payload
  | .logControl => s.takeLogControl tag payload
  | .clockConfig => s.takeClockConfig tag payload
  | .clockSelect => s.takeClockSelect tag payload
  | .clockStatus => s.takeClockStatus tag payload
  | .status => s.takeStatus tag payload
  | .reset => s.takeReset tag payload

/-- The body of a good frame is delivered to the transaction table (R186, R3). -/
def State.takeBody (body : List Byte) (s : State) : State :=
  match body with
  | type :: tag :: payload =>
    match ReqType.ofByte type with
    | none => s.takeUnknown type tag
    | some t => s.takeRequest t tag payload
  | _ => s

/-- What a complete inbound byte brings about (R185, R186). -/
def State.takeInbound (s : State) : InboundEvent → State
  | .nothing => s
  | .frameErr => s.setFrameErr
  | .frame body => s.takeBody body

/-- The inbound byte taken by the assembler, with what it brings about (R185, R186). -/
def State.inboundByte (s : State) (b : Byte) : State :=
  let p := s.link.assembler.take b
  ({ s with link := { s.link with assembler := p.1 } }).takeInbound p.2

/-- The outbound byte sampled by the host (R184). -/
def State.outboundByte (s : State) : State :=
  { s with link := { s.link with outFrame := s.link.outFrame.map OutFrame.sample } }

/-- BYTE_BOUNDARY (R184, R185): within a select, one byte in and one byte out; nothing while RST_N is low (R195). -/
def execByteBoundary (b : Byte) (wires : Wires) (s : State) : Host.Outcome State Fault Refusal :=
  .next (if s.link.selected && !s.link.rstLow then ((s.withWires wires).outboundByte).inboundByte b else s)

/-- SELECT_BEGIN (R184, R190): a select begins and the port chooses its first outbound byte. A fall of LSEL_N while RST_N is low begins
none (R195). -/
def execSelectBegin (s : State) : Host.Outcome State Fault Refusal :=
  .next (if s.link.selected || s.link.rstLow then s
    else ({ s with link := { s.link with selected := true, resetInSelect := false, outFrame := none } }).chooseByte)

/-- A partial inbound frame is discarded with TRUNCATED (R187). -/
def State.truncate (s : State) : State := if s.link.assembler.hunting then s else s.hunting.setTruncated

/-- The outbound frame at a select release: one whose every byte has been sampled is sent whole (R191); any other is cut, and its
message stays at the head of the queue, begun (R192). -/
def State.releaseFrame (s : State) : State :=
  match s.link.outFrame with
  | none => s
  | some f => if f.whole then s.sendWhole else { s with link := { s.link with outFrame := none } }

/-- SELECT_RELEASE (R187, R192). -/
def execSelectRelease (s : State) : Host.Outcome State Fault Refusal :=
  .next (if s.link.selected then
    let a := s.truncate.releaseFrame
    { a with link := { a.link with selected := false, resetInSelect := false } }
  else s)

/-- FRAME_ERR (R185, R186): an inbound frame is discarded, FRAME_ERR is set and the assembler returns to HUNT; none comes while RST_N
is low (R195). DESIGN CHOICE (log 35): the command stands for the event whatever `selected` is, as a request command does (log 5), though
R184 has the port ignore the link while LSEL_N is high; within bytes (BYTE_BOUNDARY) the event comes inside a select only. -/
def execFrameErr (s : State) : Host.Outcome State Fault Refusal :=
  .next (if s.link.rstLow then s else s.hunting.setFrameErr)

/-- MESSAGE_BEGIN (R190 step 2): within a select with no frame part-way out, the head message begins. -/
def execMessageBegin (s : State) : Host.Outcome State Fault Refusal := .next s.chooseByte

/-- FRAME_SENT (R191): the last CRC byte of the frame part-way out has been sampled. -/
def execFrameSent (s : State) : Host.Outcome State Fault Refusal := .next s.sendWhole

end Sys2Proof.Machine
end

