-- ==== Sys2Proof/Machine/Dispatch.lean ====
section
/-! DEFINITION. One arm per command. -/

namespace Sys2Proof.Machine

def exec (i : Instr) (s : State) : Host.Outcome State Fault Refusal :=
  match i with
  | .write tag payload wires => Sys2Proof.Machine.execWrite tag payload wires s
  | .read tag payload wires => Sys2Proof.Machine.execRead tag payload wires s
  | .probe tag payload wires => Sys2Proof.Machine.execProbe tag payload wires s
  | .cancel tag payload => Sys2Proof.Machine.execCancel tag payload s
  | .routeSet tag payload => Sys2Proof.Machine.execRouteSet tag payload s
  | .routeGet tag payload => Sys2Proof.Machine.execRouteGet tag payload s
  | .routeDisable tag payload => Sys2Proof.Machine.execRouteDisable tag payload s
  | .segConfig tag payload wires => Sys2Proof.Machine.execSegConfig tag payload wires s
  | .segStatus tag payload => Sys2Proof.Machine.execSegStatus tag payload s
  | .segReset tag payload wires => Sys2Proof.Machine.execSegReset tag payload wires s
  | .segResume tag payload wires => Sys2Proof.Machine.execSegResume tag payload wires s
  | .watchSet tag payload => Sys2Proof.Machine.execWatchSet tag payload s
  | .watchGet tag payload => Sys2Proof.Machine.execWatchGet tag payload s
  | .watchRearm tag payload => Sys2Proof.Machine.execWatchRearm tag payload s
  | .watchDisable tag payload => Sys2Proof.Machine.execWatchDisable tag payload s
  | .logRead tag payload => Sys2Proof.Machine.execLogRead tag payload s
  | .setMode tag rest => Sys2Proof.Machine.execSetMode tag rest s
  | .resume tag rest => Sys2Proof.Machine.execResume tag rest s
  | .clear tag rest => Sys2Proof.Machine.execClear tag rest s
  | .clockConfig tag payload => Sys2Proof.Machine.execClockConfig tag payload s
  | .clockSelect tag payload => Sys2Proof.Machine.execClockSelect tag payload s
  | .clockStatus tag payload => Sys2Proof.Machine.execClockStatus tag payload s
  | .status tag payload => Sys2Proof.Machine.execStatus tag payload s
  | .reset tag payload => Sys2Proof.Machine.execReset tag payload s
  | .lineCheckEnd n wires => Sys2Proof.Machine.execLineCheckEnd n wires s
  | .lineCheckTimeout n wires => Sys2Proof.Machine.execLineCheckTimeout n wires s
  | .legEnd n bytes finish wires => Sys2Proof.Machine.execLegEnd n bytes finish wires s
  | .stretchTimeout n bytes place => Sys2Proof.Machine.execStretchTimeout n bytes place s
  | .secondStretchWindowEnd n wires => Sys2Proof.Machine.execSecondStretchWindowEnd n wires s
  | .busClearEnd n reads wires => Sys2Proof.Machine.execBusClearEnd n reads wires s
  | .busClearTimeout n reads wires => Sys2Proof.Machine.execBusClearTimeout n reads wires s
  | .evtTimerExpiry unit => Sys2Proof.Machine.execEvtTimerExpiry unit s
  | .timeBaseTick => Sys2Proof.Machine.execTimeBaseTick s
  | .referenceEdge => Sys2Proof.Machine.execReferenceEdge s
  | .referenceGood => Sys2Proof.Machine.execReferenceGood s
  | .referenceLost wires => Sys2Proof.Machine.execReferenceLost wires s
  | .pauseRequested n => Sys2Proof.Machine.execPauseRequested n s
  | .quiescenceReport n wires => Sys2Proof.Machine.execQuiescenceReport n wires s
  | .withdrawal n => Sys2Proof.Machine.execWithdrawal n s
  | .selectBegin => Sys2Proof.Machine.execSelectBegin s
  | .selectRelease => Sys2Proof.Machine.execSelectRelease s
  | .frameErr => Sys2Proof.Machine.execFrameErr s
  | .messageBegin => Sys2Proof.Machine.execMessageBegin s
  | .frameSent => Sys2Proof.Machine.execFrameSent s
  | .powerOnReset => Sys2Proof.Machine.execPowerOnReset s
  | .byteBoundary inbound wires => Sys2Proof.Machine.execByteBoundary inbound wires s
  | .unknownType type tag payload => Sys2Proof.Machine.execUnknownType type tag payload s

end Sys2Proof.Machine
end

