-- ==== Sys2Proof/Machine/Step.lean ====
section
/-! DEFINITION. One step: the command at the front of the queue. -/

namespace Sys2Proof.Machine

/-- The part takes the command at the front of its queue; with none waiting it idles (log 2). -/
def step (s : State) : Host.Outcome State Fault Refusal :=
  match s.pending with
  | [] => .next s
  | c :: rest => exec c { s with pending := rest }

/-- A command put at the front of the queue. -/
def State.withFront (s : State) (c : Instr) : State := { s with pending := c :: s.pending }

/-- The command a table word spells, put at the front of the queue; the state unchanged where the word spells none (log 14). -/
def State.withFetchWord (s : State) (nbits w : Nat) : State :=
  match decodeTableWord nbits w with
  | none => s
  | some c => s.withFront c

end Sys2Proof.Machine
end

