-- ==== Sys2Proof/Safety.lean ====
section
/-! DEFINITION. What the spec calls laws, as predicates of State, and the words the statements are written in. -/

namespace Sys2Proof.Machine

/-! ### The laws -/

/-- The placement limits of a window (R22), in numbers. -/
def Window.Lawful (w : Window) : Prop :=
  w.base.toNat % 2 ^ w.sizeExp.val = 0 ∧ w.base.toNat + 2 ^ w.sizeExp.val - 1 ≤ 4095 ∧
  0x08 ≤ w.primaryBus.toNat ∧ w.primaryBus.toNat + 2 ^ w.sizeExp.val - 1 ≤ 0x77 ∧
  (w.policy ≠ .noTwin →
    0x08 ≤ w.twinBus.toNat ∧ w.twinBus.toNat + 2 ^ w.sizeExp.val - 1 ≤ 0x77 ∧ w.twinSeg ≠ w.primarySeg)

/-- Every enabled window keeps the placement limits (the law of R22). -/
def RouteLaw (s : State) : Prop := ∀ i : WindowId, s.windows[i].enabled = true → s.windows[i].Lawful

/-- The history log holds at most 32 records (R161). -/
def LogLaw (s : State) : Prop := s.log.entries.length ≤ 32

/-- A watch unit: its count remaining never exceeds the count last loaded (R140), a FIRED unit shows 0 (R141), only a chained
successor waits (R143), and its EVT timer has at most 8 µs left (R148). -/
def WatchUnit.Lawful (x : WatchUnit) (u : UnitId) : Prop :=
  x.countRemaining ≤ x.setup.count ∧ x.setup.count ≤ 255 ∧
  (x.state = .fired → x.countRemaining = 0) ∧
  (x.state = .waiting → x.setup.chained = true) ∧
  (x.setup.chained = true → u = 1 ∨ u = 3) ∧
  (∀ t, x.evtTimer = some t → t ≤ 8)

/-- Every watch unit keeps its law. -/
def WatchLaw (s : State) : Prop := ∀ u : UnitId, s.units[u].Lawful u

/-- A segment that no change of source pauses: the flag is clear, no setting and no report is on its way. -/
def Segment.Unpaused (g : Segment) : Prop := g.pauseRequested = false ∧ g.pauseSetting = false ∧ g.reports = []

/-- The clock unit and its reference monitor: the select owner is present and the awaited set may be filled while QUIESCING only
(R170); QUIESCING has a target other than the active source, and with target REFERENCE the reference is PRESENT (R176, R179);
REFERENCE is the active source only while the reference is PRESENT (R175); the timers run by the status (R171); the configured
frequency is 8–25 (R181). -/
def ClockUnit.Lawful (c : ClockUnit) : Prop :=
  (c.switch = .steady ↔ c.selectOwner = none) ∧
  (c.switch = .steady → c.awaited = Vector.replicate 4 false) ∧
  (∀ t, c.switch = .quiescing t → t ≠ c.source ∧ (t = .reference → c.refStatus = .present)) ∧
  (c.source = .reference → c.refStatus = .present) ∧
  (c.goodTimer.isSome = true ↔ c.refStatus = .starting) ∧
  (c.gapTimer.isSome = true ↔ c.refStatus ≠ .absent) ∧
  8 ≤ c.frequency ∧ c.frequency ≤ 25

/-- The law of the clock unit, and no segment paused while it is STEADY (R178, R179, R183). -/
def ClockLaw (s : State) : Prop :=
  s.clock.Lawful ∧ (s.clock.switch = .steady → ∀ n : SegId, s.segs[n].Unpaused)

/-- A segment: OFF and FAULTED have an empty queue and no leg in progress (R73); a clear record exists in CLEARING alone (R120); a
leg in progress makes it ACTIVE (R73); OFF, IDLE and FAULTED release both lines (R92); reset-requested needs a leg in progress
(R72); in service the stored enable is yes, in OFF it is no, and neither OFF nor IDLE has a pending configuration (R82, R84). -/
def Segment.Lawful (g : Segment) : Prop :=
  (g.state = .off ∨ g.state = .faulted → g.queue = []) ∧
  (g.inProgress.isSome = true → g.state = .active) ∧
  (g.clear.isSome = true ↔ g.state = .clearing) ∧
  (g.state = .off ∨ g.state = .idle ∨ g.state = .faulted → g.drive = LineDrive.released) ∧
  (g.resetRequested = true → g.inProgress.isSome = true) ∧
  (g.state = .idle ∨ g.state = .active → g.stored.enable = true) ∧
  (g.state = .off → g.stored.enable = false) ∧
  (g.state = .off ∨ g.state = .idle → g.pendingCfg = none)

/-- Every segment keeps its law. -/
def SegLaw (s : State) : Prop := ∀ n : SegId, s.segs[n].Lawful

/-- A slot record: FREE has every field at its FREE value, and any other state has a request type (R1); a reply is there exactly when ANSWERED, and it carries the slot's tag,
type and result (R1, R13). -/
def Slot.Lawful (x : Slot) : Prop :=
  (x.state = .free → x = Slot.freed) ∧
  (x.state ≠ .free → x.reqType.isSome = true) ∧
  (x.state = .answered ↔ x.reply.isSome = true) ∧
  (∀ r, x.reply = some r → r.tag = x.tag ∧ x.reqType = some r.reqType ∧ x.result = some r.result)

/-- Every slot keeps its law. -/
def SlotLaw (s : State) : Prop := ∀ k : SlotId, s.slots[k].Lawful

/-- A slot holds a live tag (R6): its request is a transfer, and it is WORKING or ANSWERED with a result other than TAG_IN_USE. -/
def Slot.HoldsLiveTag (x : Slot) : Prop :=
  (x.reqType = some 0x10 ∨ x.reqType = some 0x11 ∨ x.reqType = some 0x12) ∧
  (x.state = .working ∨ (x.state = .answered ∧ x.result ≠ some .tagInUse))

/-- No two slots hold the same live tag (the law of R6). -/
def LiveTagLaw (s : State) : Prop :=
  ∀ j k : SlotId, j ≠ k → s.slots[j].HoldsLiveTag → s.slots[k].HoldsLiveTag → s.slots[j].tag ≠ s.slots[k].tag

/-- The number of messages in the outbound queue that are the reply of a slot. -/
def State.replyCount (s : State) (k : SlotId) : Nat := s.link.queue.countP fun m => decide (m.content = .reply k)

/-- The number of notices of a source in the outbound queue. -/
def State.noticeCount (s : State) (src : NoticeSource) : Nat := s.link.queue.countP (OutMessage.isFrom src)

/-- The outbound queue (R189, R192, R194): one reply for each ANSWERED slot and no other reply; at most one notice of each source;
begun marks at the head alone; a notice held over only while a begun notice of its source is queued; counts 1–255. -/
def OutboundLaw (s : State) : Prop :=
  (∀ k : SlotId, s.replyCount k = if s.slots[k].state = .answered then 1 else 0) ∧
  (∀ src : NoticeSource, s.noticeCount src ≤ 1) ∧
  (∀ m ∈ s.link.queue.drop 1, m.begun = false) ∧
  (∀ src n, s.held src = some n →
    n.source = src ∧ 1 ≤ n.count ∧ n.count ≤ 255 ∧ ∃ m ∈ s.link.queue, OutMessage.isFrom src m = true ∧ m.begun = true) ∧
  (∀ m ∈ s.link.queue, ∀ n, m.content = .notice n → 1 ≤ n.count ∧ n.count ≤ 255)

/-- A reference names a leg of a WORKING slot that is on a segment and in a state (R42, R43, R75). -/
def State.LegIn (s : State) (r : LegRef) (n : SegId) (st : LegState) : Prop :=
  s.slots[r.slot].state = .working ∧ ∃ l : LegRecord, s.legAt r = some l ∧ l.segment = n ∧ l.state = st

/-- The legs of slot `k`: each names its slot and role (R42); two are never on one segment, and the stored resolution result that their
segments come from has its twin segment, where it has one, apart from its primary segment (R31, R45, R46); only a transfer has legs or a
resolution result (R1, R31); every leg of an ANSWERED slot is DONE (R55). -/
def Slot.LegsLawful (x : Slot) (k : SlotId) : Prop :=
  (∀ role l, x.leg role = some l → l.slot = k ∧ l.role = role) ∧
  (∀ p t, x.primary = some p → x.twin = some t → p.segment ≠ t.segment) ∧
  (∀ p res, x.primary = some p → x.resolution = some res →
    p.segment = res.primarySeg ∧ ∀ n a, res.twin = some (n, a) → n ≠ res.primarySeg) ∧
  (x.request.bind Request.legShape = none → x.primary = none ∧ x.twin = none ∧ x.resolution = none) ∧
  (x.state = .answered → ∀ role l, x.leg role = some l → l.state = .done)

/-- The legs: each queue holds QUEUED legs of its own segment, none twice (R72, R75); a leg in progress that is no orphan is IN_PROGRESS
on its segment (R72, R75); every slot keeps the law of its legs; the owner of a bus clear is the WORKING SEG_RESET of its segment (R129,
R130, R132), and the owner of a change of source a WORKING CLOCK_SELECT (R176). -/
def LegLaw (s : State) : Prop :=
  (∀ n : SegId, s.segs[n].queue.Nodup ∧ ∀ r ∈ s.segs[n].queue, s.LegIn r n .queued) ∧
  (∀ (n : SegId) (r : Run), s.segs[n].inProgress = some r → r.orphan = none → s.LegIn r.leg n .inProgress) ∧
  (∀ k : SlotId, s.slots[k].LegsLawful k) ∧
  (∀ (n : SegId) (c : ClearRecord) (k : SlotId), s.segs[n].clear = some c → c.owner = some k →
    s.slots[k].state = .working ∧ s.slots[k].request = some (.segReset n)) ∧
  (∀ k : SlotId, s.clock.selectOwner = some k →
    s.slots[k].state = .working ∧ ∃ t : Source, s.slots[k].request = some (.clockSelect t))

/-! ### The words of the statements: resets -/

/-- The part after power-on reset in the spec's own values (R18, R36, R89, R156, R169, R183, R195): the lines as they stand and the
model's queue of commands are outside the part. -/
def afterPowerOn (wires : Wires) (pending : List Instr) : State :=
  { slots := Vector.replicate 8
      { state := .free, tag := 0, reqType := none, request := none, writeData := [], primary := none, twin := none,
        cancelled := false, result := none, reply := none, resolution := none, resetAccount := none },
    windows := Vector.replicate 16
      { enabled := false, base := 0, sizeExp := 0, primarySeg := 0, primaryBus := 0, regPhase := false, allowRead := false,
        allowWrite := false, policy := .noTwin, twinSeg := 0, twinBus := 0 },
    segs := Vector.replicate 4
      { state := .idle, queue := [], inProgress := none, stored := { enable := true, rate := .standard, stretchLimit := 100 },
        pendingCfg := none, hold := false, pauseRequested := false, resetRequested := false, lastFault := .noFault,
        clear := none, heldAlert := none, pauseSetting := false, reports := [], drive := { sclLow := false, sdaLow := false },
        trace := [], lastTrace := [], clearTrace := [] },
    wires := wires,
    units := Vector.replicate 4
      { setup :=
          { segMask := 0, addrLow := 0, addrHigh := 0, direction := .only .read, regValue := 0, regMask := 0, dataValue := 0,
            dataMask := 0, outcomes := 0, invert := false, count := 0, action := .stage, chained := false },
        state := .disabled, countRemaining := 0, evtTimer := none, heldHit := none },
    log := { entries := [], mode := .exceptions, frozen := false, lost := false },
    clock :=
      { source := .backup, switch := .steady, awaited := Vector.replicate 4 false, selectOwner := none, refStatus := .absent,
        frequency := 16, timeBase := 0, heldEvent := none, goodTimer := none, gapTimer := none },
    link :=
      { rstLow := false, assembler := .hunt, flags := { overrun := false, frameErr := false, truncated := false },
        queue := [{ content := .notice (.ready .powerOn), begun := false }], outFrame := none, selected := false,
        resetInSelect := false },
    pending := pending }

/-! ### The words of the statements: requests -/

/-- A request can be taken into slot `k`: RST_N is high (R195), slot `k` is FREE and no lower-numbered slot is (R3). -/
def State.LowestFree (s : State) (k : SlotId) : Prop :=
  s.link.rstLow = false ∧ s.slots[k].state = .free ∧ ∀ j : SlotId, j < k → s.slots[j].state ≠ .free

/-- RST_N is high (R195) and no slot is FREE. -/
def State.NoneFree (s : State) : Prop := s.link.rstLow = false ∧ ∀ k : SlotId, s.slots[k].state ≠ .free

/-- The part with a request WORKING in slot `k`, and the assembler back in HUNT. -/
def State.took (s : State) (k : SlotId) (type tag : Byte) (req : Option Request) : State :=
  { s with
    slots := s.slots.set k { Slot.freed with state := .working, tag := tag, reqType := some type, request := req },
    link := { s.link with assembler := .hunt } }

/-- The part with a request answered in slot `k`: the slot ANSWERED, its reply at the tail of the outbound queue (R11), the
assembler back in HUNT. A request refused before its fields are decoded has none in the slot (log 37). -/
def State.replied (s : State) (k : SlotId) (type tag : Byte) (req : Option Request) (res : ResultCode) (fields : List Byte) :
    State :=
  { s with
    slots := s.slots.set k
      { Slot.freed with
        state := .answered, tag := tag, reqType := some type, request := req, result := some res,
        reply := some { reqType := type, tag := tag, result := res, fields := fields } },
    link :=
      { s.link with assembler := .hunt, queue := s.link.queue ++ [{ content := .reply k, begun := false }] } }

/-- A slot record whose reply has just been built (R11). -/
def Slot.answered (x : Slot) (res : ResultCode) (fields : List Byte) : Slot :=
  { x with
    state := .answered, result := some res,
    reply := some { reqType := x.reqType.getD 0, tag := x.tag, result := res, fields := fields } }

/-- The part with slot `k` answered as `x` with a result and fields, its reply at the tail of the outbound queue (R11). -/
def State.closes (s : State) (k : SlotId) (x : Slot) (res : ResultCode) (fields : List Byte) : State :=
  { s with
    slots := s.slots.set k (x.answered res fields),
    link := { s.link with queue := s.link.queue ++ [{ content := .reply k, begun := false }] } }

/-- The part with one segment record replaced. -/
def State.withSeg (s : State) (n : SegId) (g : Segment) : State := { s with segs := s.segs.set n g }

/-- The part with one watch unit record replaced. -/
def State.withUnit (s : State) (u : UnitId) (x : WatchUnit) : State := { s with units := s.units.set u x }

/-- The part with one slot record replaced. -/
def State.withSlot (s : State) (k : SlotId) (x : Slot) : State := { s with slots := s.slots.set k x }

end Sys2Proof.Machine

namespace Sys2Proof

/-- The levels a command brings, where it brings some. -/
def Instr.wires : Instr → Option Wires
  | .write _ _ w => some w
  | .read _ _ w => some w
  | .probe _ _ w => some w
  | .segConfig _ _ w => some w
  | .segReset _ _ w => some w
  | .segResume _ _ w => some w
  | _ => none

/-- The type, tag and payload of the frame body that a request command stands for (R198). A LOG_CONTROL's payload begins with its
operation byte. -/
def Instr.frameBody : Instr → Option (Byte × Byte × List Byte)
  | .write t p _ => some (0x10, t, p)
  | .read t p _ => some (0x11, t, p)
  | .probe t p _ => some (0x12, t, p)
  | .cancel t p => some (0x13, t, p)
  | .routeSet t p => some (0x20, t, p)
  | .routeGet t p => some (0x21, t, p)
  | .routeDisable t p => some (0x22, t, p)
  | .segConfig t p _ => some (0x30, t, p)
  | .segStatus t p => some (0x31, t, p)
  | .segReset t p _ => some (0x32, t, p)
  | .segResume t p _ => some (0x33, t, p)
  | .watchSet t p => some (0x40, t, p)
  | .watchGet t p => some (0x41, t, p)
  | .watchRearm t p => some (0x42, t, p)
  | .watchDisable t p => some (0x43, t, p)
  | .logRead t p => some (0x50, t, p)
  | .setMode t p => some (0x51, t, 0 :: p)
  | .resume t p => some (0x51, t, 1 :: p)
  | .clear t p => some (0x51, t, 2 :: p)
  | .clockConfig t p => some (0x60, t, p)
  | .clockSelect t p => some (0x61, t, p)
  | .clockStatus t p => some (0x62, t, p)
  | .status t p => some (0x70, t, p)
  | .reset t p => some (0x7F, t, p)
  | _ => none

end Sys2Proof

namespace Sys2Proof.Machine

/-- The part with the levels a command brings. -/
def State.reads (s : State) (c : Instr) : State :=
  match c.wires with
  | none => s
  | some w => { s with wires := w }

/-- Some slot holds a tag as a live tag (R6). -/
def State.TagLive (s : State) (tag : Byte) : Prop := ∃ j : SlotId, s.slots[j].HoldsLiveTag ∧ s.slots[j].tag = tag

/-- A setup that WATCH_SET accepts on a unit: a count a byte can carry, addresses in order, chained on W1 and W3 alone (R136, R143,
R151). -/
def WatchSetup.Settable (w : WatchSetup) (u : UnitId) : Prop :=
  w.count ≤ 255 ∧ w.addrLow ≤ w.addrHigh ∧ (w.chained = true → u = 1 ∨ u = 3)

/-- The listed request types (R198). -/
def requestTypes : List Byte :=
  [0x10, 0x11, 0x12, 0x13, 0x20, 0x21, 0x22, 0x30, 0x31, 0x32, 0x33, 0x40, 0x41, 0x42, 0x43, 0x50, 0x51, 0x60, 0x61, 0x62, 0x70,
    0x7F]

/-! ### The words of the statements: transfers -/

/-- The type byte of a kind of transfer (R198). -/
def Kind.typeByte : Kind → Byte
  | .read => 0x11
  | .write => 0x10
  | .probe => 0x12

/-- The parts of a transfer request: its kind, target, register index, the data of a WRITE and the data length of a READ. -/
structure TransferForm where
  kind : Kind
  target : Target
  reg : Byte
  data : List Byte
  asked : Nat

/-- The data lengths the spec allows (R38, R39). -/
def TransferForm.Fits (f : TransferForm) : Prop :=
  (f.kind = .write → 1 ≤ f.data.length ∧ f.data.length ≤ 32) ∧ (f.kind = .read → 1 ≤ f.asked ∧ f.asked ≤ 32)

/-- The payload of the request (R198). -/
def TransferForm.payload (f : TransferForm) : List Byte :=
  match f.kind with
  | .write => bytes16 (f.target.setWidth 16) ++ [f.reg, byteOf f.data.length] ++ f.data
  | .read => bytes16 (f.target.setWidth 16) ++ [f.reg, byteOf f.asked]
  | .probe => bytes16 (f.target.setWidth 16)

/-- The command that brings a transfer of a kind with a payload. -/
def Kind.command (k : Kind) (tag : Byte) (payload : List Byte) (wires : Wires) : Instr :=
  match k with
  | .write => .write tag payload wires
  | .read => .read tag payload wires
  | .probe => .probe tag payload wires

/-- The command that brings the request (R198). -/
def TransferForm.command (f : TransferForm) (tag : Byte) (wires : Wires) : Instr := f.kind.command tag f.payload wires

/-- Its decoded fields. -/
def TransferForm.request (f : TransferForm) : Request :=
  match f.kind with
  | .write => .write f.target f.reg f.data
  | .read => .read f.target f.reg f.asked
  | .probe => .probe f.target

/-- The data a slot keeps of it: a WRITE's (R38). -/
def TransferForm.kept (f : TransferForm) : List Byte := if f.kind = .write then f.data else []

/-- The register index its legs carry: 0 for a PROBE (R40). -/
def TransferForm.legIndex (f : TransferForm) : Byte := if f.kind = .probe then 0 else f.reg

/-- The length its legs carry: 0 for a PROBE (R42). -/
def TransferForm.legLength (f : TransferForm) : Nat :=
  match f.kind with
  | .write => f.data.length
  | .read => f.asked
  | .probe => 0

/-- A window holds a target (R20). -/
def Window.Holds (w : Window) (t : Target) : Prop := w.base.toNat ≤ t.toNat ∧ t.toNat ≤ w.base.toNat + 2 ^ w.sizeExp.val - 1

/-- Window `i` is the matching window of a target (R27). -/
def State.Matches (s : State) (t : Target) (i : WindowId) : Prop :=
  (s.windows[i].enabled = true ∧ s.windows[i].Holds t) ∧
    ∀ j : WindowId, j < i → ¬ (s.windows[j].enabled = true ∧ s.windows[j].Holds t)

/-- No enabled window holds a target. -/
def State.Unrouted (s : State) (t : Target) : Prop := ∀ i : WindowId, ¬ (s.windows[i].enabled = true ∧ s.windows[i].Holds t)

/-- A window permits a kind of transfer (R29). -/
def Window.Permits (w : Window) (k : Kind) : Prop := (k = .write → w.allowWrite = true) ∧ (k = .read → w.allowRead = true)

/-- A bus base plus the offset of a target (R28). -/
def Window.addressOf (w : Window) (bus : BusAddr) (t : Target) : BusAddr := BitVec.ofNat 7 (bus.toNat + (t.toNat - w.base.toNat))

/-- The resolution result of a target through a window (R31). -/
def Window.resolutionOf (w : Window) (t : Target) : Resolution :=
  { primarySeg := w.primarySeg, primaryAddr := w.addressOf w.primaryBus t, regPhase := w.regPhase, policy := w.policy,
    twin := if w.policy = .noTwin then none else some (w.twinSeg, w.addressOf w.twinBus t) }

/-- A leg of a transfer as it is built (R42). -/
def TransferForm.leg (f : TransferForm) (k : SlotId) (role : Role) (seg : SegId) (addr : BusAddr) (regPhase : Bool) : LegRecord :=
  { slot := k, role := role, segment := seg, busAddr := addr, kind := f.kind,
    regPhase := if f.kind = .probe then false else regPhase,
    regIndex := f.legIndex, length := f.legLength, state := .queued, outcome := none, bytes := 0, readData := [],
    cutRequested := false, cutUnderReset := false, delivered := false }

/-- The slot of an accepted transfer with its legs (R31, R38). -/
def TransferForm.slot (f : TransferForm) (tag : Byte) (res : Resolution) (primary : LegRecord) (twin : Option LegRecord) : Slot :=
  { Slot.freed with
    state := .working, tag := tag, reqType := some f.kind.typeByte, request := some f.request, writeData := f.kept,
    primary := some primary, twin := twin, resolution := some res }

/-- The transfer builds its primary alone at acceptance (R45). -/
def TransferForm.Single (f : TransferForm) (p : TwinPolicy) : Prop :=
  p = .noTwin ∨ (f.kind = .read ∧ (p = .mirrorWrites ∨ p = .mirrorFallback))

/-- A segment that takes a leg into its queue and starts none (R47, R74). -/
def Segment.Waits (g : Segment) : Prop :=
  g.state = .active ∨ g.state = .clearing ∨ (g.state = .idle ∧ (g.hold = true ∨ g.pauseRequested = true))

/-- An IDLE segment in service on which an appended leg starts at once (R74, R77): its queue is empty, nothing keeps it and no
configuration is pending. -/
def Segment.Startable (g : Segment) : Prop :=
  g.state = .idle ∧ g.queue = [] ∧ g.hold = false ∧ g.pauseRequested = false ∧ g.pendingCfg = none ∧ g.stored.enable = true

/-- A segment that is out of service gives a leg its outcome at once, and the result of that name (R47, R58). -/
def Segment.Refuses (g : Segment) (o : LegOutcome) (res : ResultCode) : Prop :=
  (g.state = .off ∧ o = .segmentOff ∧ res = .segmentOff) ∨ (g.state = .faulted ∧ o = .segmentFaulted ∧ res = .segmentFaulted)

/-- A segment with its head leg started (R77, R91, R95): the run record opened, the START's SDA pulled low, which
opens the trace (log 36); the bit position is 0 (log 38). -/
def Segment.started (g : Segment) (r : LegRef) (rest : List LegRef) : Segment :=
  { g with
    state := .active, queue := rest, clear := none,
    inProgress := some
      { leg := r, phase := .start, dataPos := 0, bitPos := 0, count := 0, decided := none, rate := g.stored.rate,
        stretchLimit := g.stored.stretchLimit, orphan := none, resetDropped := false, secondWindow := false },
    drive := { sclLow := false, sdaLow := true }, trace := [.start] }

/-- A segment in CLEARING with a clear just begun (R120), which opens its trace (log 40). -/
def Segment.clearing (g : Segment) (purpose : ClearPurpose) (owner : Option SlotId) : Segment :=
  { g with
    state := .clearing,
    clear := some { purpose := purpose, pulses := 0, rate := g.stored.rate, stretchLimit := g.stored.stretchLimit, owner := owner },
    drive := { sclLow := false, sdaLow := false }, clearTrace := [] }

/-- The copy of a leg's completion record that the log and the watch units see (R51). -/
def LegRecord.copy (l : LegRecord) (time : Time) (tag : Byte) (bytes : Nat) (outcome : LegOutcome) (first : Option Byte) :
    RecordCopy :=
  { time := time, tag := tag, slot := l.slot, role := l.role, segment := l.segment, busAddr := l.busAddr, kind := l.kind,
    regPhase := l.regPhase, regIndex := l.regIndex, length := l.length, bytes := bytes, outcome := outcome, firstByte := first }

/-- A leg record that ended with an outcome and whose completion record has reached its slot (R43, R54). -/
def LegRecord.ended (l : LegRecord) (o : LegOutcome) (bytes : Nat) (readData : List Byte) : LegRecord :=
  { l with state := .done, outcome := some o, bytes := bytes, readData := readData, delivered := true }

/-- A leg record that ended with an outcome before it reached the wire and whose completion record has not reached its slot yet (R43,
R47, R54). -/
def LegRecord.failed (l : LegRecord) (o : LegOutcome) : LegRecord :=
  { l with state := .done, outcome := some o, bytes := 0, readData := [] }

/-- A WORKING transfer that a CANCEL of a tag names (R64). -/
def Slot.Cancellable (x : Slot) (tag : Byte) : Prop :=
  x.state = .working ∧ x.tag = tag ∧ (x.reqType = some 0x10 ∨ x.reqType = some 0x11 ∨ x.reqType = some 0x12)

/-- A leg IN_PROGRESS as a CANCEL leaves it (R65): cut-requested, and the first time noted whether its segment was reset-requested
already (R66; log 4). -/
def State.cuts (s : State) (l : LegRecord) : LegRecord :=
  { l with
    cutRequested := true,
    cutUnderReset := if l.cutRequested = true then l.cutUnderReset else s.segs[l.segment].resetRequested }

/-- A leg as a CANCEL leaves it when it is not QUEUED (R65). -/
def State.cutsIfRunning (s : State) (l : LegRecord) : LegRecord := if l.state = .inProgress then s.cuts l else l

/-! ### The words of the statements: segments -/

/-- A segment with the lines released in OFF, IDLE or FAULTED (R73, R92); a paused segment that was not quiescent reports that it is
(R177), and one that was reports nothing more (log 42). -/
def Segment.rests (g : Segment) (st : SegState) : Segment :=
  { g with
    state := st, clear := none, drive := { sclLow := false, sdaLow := false },
    reports := g.reports ++ if g.pauseRequested = true ∧ (g.state = .active ∨ g.state = .clearing) then [.quiescent] else [] }

/-- A segment whose pending configuration, if any, has been applied (R84). -/
def Segment.configured (g : Segment) : Segment := { g with stored := g.pendingCfg.getD g.stored, pendingCfg := none }

/-- A paused segment that leaves a quiescent state reports its withdrawal (R177). -/
def Segment.withdrawn (g : Segment) : Segment :=
  { g with reports := g.reports ++
      if g.pauseRequested = true ∧ (g.state = .off ∨ g.state = .idle ∨ g.state = .faulted) then [.withdrawal] else [] }

/-- Nothing keeps a segment from starting its head leg (R77). -/
def Segment.Free (g : Segment) : Prop := g.hold = false ∧ g.pauseRequested = false

/-- A leg start from step 2 (R77, R118): with SCL low the line check waits in ACTIVE, with SDA low it takes the segment to CLEARING,
else the head leg starts. -/
def State.legStarts (s : State) (n : SegId) (r : LegRef) (rest : List LegRef) : State :=
  if s.wires[n].scl = false then
    s.withSeg n { s.segs[n] with state := .active, clear := none, drive := { sclLow := false, sdaLow := false } }
  else if s.wires[n].sda = false then s.withSeg n (s.segs[n].clearing .lineCheck none)
  else (s.withSlot r.slot (s.slots[r.slot].modLeg r.role fun l => { l with state := .inProgress })).withSeg n (s.segs[n].started r rest)

/-- A built leg joins its segment (R47, R74): one that is IDLE with nothing to keep it starts the leg, any other queues it at its tail. -/
def State.accepts (s : State) (n : SegId) (r : LegRef) : State :=
  if s.segs[n].state = .idle ∧ s.segs[n].hold = false ∧ s.segs[n].pauseRequested = false then
    (s.withSeg n { s.segs[n] with queue := [r] }).legStarts n r []
  else s.withSeg n { s.segs[n] with queue := s.segs[n].queue ++ [r] }

/-- A QUEUED leg leaves the queue of its segment (R65). -/
def State.unqueues (s : State) (l : LegRecord) : State :=
  s.withSeg l.segment { s.segs[l.segment] with queue := s.segs[l.segment].queue.erase { slot := l.slot, role := l.role } }

/-- The slot of a SEG_RESET in progress (R10, R132). -/
def resetSlotOf (tag : Byte) (n : SegId) (failed : Nat) : Slot :=
  { Slot.freed with
    state := .working, tag := tag, reqType := some 0x32, request := some (.segReset n),
    resetAccount := some { legsFailed := failed, leg := .noLeg } }

/-- A segment enters FAULTED (R125): its lines released, the cause kept, its queued legs failed, a marker offered and an alert
raised. -/
def State.faults (s : State) (n : SegId) (cause : FaultCause) : State :=
  let a := (s.withSeg n { s.segs[n].rests .faulted with lastFault := cause, inProgress := none }).failQueued n .segmentFaulted
  (a.offer (.segmentFault s.clock.timeBase n cause)).raise (.segmentAlert n cause 1 s.clock.timeBase)

/-- A SEG_RESET ends (R131, R132, R159): its marker is offered and its slot answered. -/
def State.resetEnds (s : State) (n : SegId) (k : SlotId) (res : ResultCode) (pulses : Nat) (st : SegState) : State :=
  (s.offer (.segmentReset s.clock.timeBase n s.slots[k].tag res)).answer k res
    (match s.slots[k].resetAccount with
      | none => [byteOf n, 0, 0, byteOf pulses, st.code]
      | some a => [byteOf n, byteOf a.legsFailed, a.leg.code, byteOf pulses, st.code])

/-- What a bus clear does on the lines before its reading after `m` pulses: the last of them, if it has given any (R121). -/
def lastPulse (m : Nat) : List BusSymbol := if m = 0 then [] else [.pulse]

/-- What a bus clear does on the lines in its tries, `m` pulses given before the first of them: a pulse, but not before the very first
reading (R120, R121), and a STOP where that reads SDA high (R122). -/
def triesTrace : Nat → List (List Bool) → List BusSymbol
  | _, [] => []
  | m, t :: ts => lastPulse m ++ (if t = [false] then [] else [.stopBegin, .stopEnd]) ++ triesTrace (m + 1) ts

/-- The readings of SDA with which a bus clear comes to its next pulse `m` times (R120, R121, R122): SDA low at the first reading or at a
pulse's sample; high there and low at step 4 of the STOP; or high at both and low at the final check. What the engine does on the lines in
them. -/
def ClearReturns (m : Nat) (reads : List Bool) (trace : List BusSymbol) : Prop :=
  ∃ tries : List (List Bool), tries.length = m ∧
    (∀ t ∈ tries, t = [false] ∨ t = [true, false] ∨ t = [true, true, false]) ∧ reads = tries.flatten ∧ trace = triesTrace 0 tries

/-- The readings of SDA of a bus clear that succeeds after `m` pulses (R121, R122): high before the STOP, at its step 4 and at the final
check. -/
def ClearFrees (m : Nat) (reads : List Bool) (trace : List BusSymbol) : Prop :=
  m ≤ 9 ∧ ∃ before done, ClearReturns m before done ∧ reads = before ++ [true, true, true] ∧
    trace = done ++ lastPulse m ++ [.stopBegin, .stopEnd]

/-- The readings of SDA of a bus clear that waits for SCL with `m` pulses given: at its beginning or in a pulse, at step 2 of its STOP, or
at its final check (R120, R121, R122). -/
def ClearRunsOn (m : Nat) (reads : List Bool) (trace : List BusSymbol) : Prop :=
  m ≤ 9 ∧ ∃ before done after stop, ClearReturns m before done ∧
    ((after = [] ∧ stop = []) ∨ (after = [true] ∧ stop = [.stopBegin]) ∨ (after = [true, true] ∧ stop = [.stopBegin, .stopEnd])) ∧
    reads = before ++ after ∧ trace = done ++ lastPulse m ++ stop

/-- A change of source is over (R175, R178, R179): STEADY, no segment awaited, pause-requested cleared on all four, which then make
the start decision, and the CLOCK_SELECT answered. -/
def State.switchEnded (s : State) (target : Source) (res : ResultCode) : State :=
  let a : State := { s with
    clock := { s.clock with switch := .steady, awaited := Vector.replicate 4 false, selectOwner := none },
    segs := s.segs.map fun g => { g with pauseRequested := false, pauseSetting := false, reports := [] } }
  let b := (((a.decideStart 0).decideStart 1).decideStart 2).decideStart 3
  match s.clock.selectOwner with
  | none => b
  | some k => b.answer k res [target.code, b.clock.source.code, b.clock.refStatus.code]

/-- The leg in progress with its write data: the engine's own copy of an orphan, else the slot's (R115). -/
def State.Runs (s : State) (r : Run) (l : LegRecord) (writeData : List Byte) : Prop :=
  (∃ o : OrphanLeg, r.orphan = some o ∧ l = o.leg ∧ writeData = o.writeData) ∨
    (r.orphan = none ∧ s.legAt r.leg = some l ∧ writeData = s.slots[r.leg.slot].writeData)

/-- The leg in progress of a segment has ended with an outcome (R104, R17, R78 step 1): its record is delivered, unless it is an
orphan's; a SEG_RESET notes how it ended; the segment has no leg in progress, releases the lines and keeps what the engine did in the
leg as its last trace (log 36). -/
def State.runEnded (s : State) (n : SegId) (r : Run) (l : LegRecord) (first : Option Byte) (buf : List Byte) (o : LegOutcome) : State :=
  let a := match r.orphan with
    | some _ => s
    | none =>
      deliverAll (s.modLeg r.leg fun x => { x with state := .done, outcome := some o, bytes := r.count, readData := buf },
        [{ l.copy s.clock.timeBase s.slots[r.leg.slot].tag r.count o first with
          slot := r.leg.slot, role := r.leg.role, readData := buf }])
  let b := if s.segs[n].resetRequested = true then a.noteResetLeg n o else a
  b.withSeg n { b.segs[n] with
    inProgress := none, resetRequested := false, drive := { sclLow := false, sdaLow := false },
    lastTrace := b.segs[n].trace, trace := [] }

/-- The second stretch window is open on the leg in progress (R106, R107): its run record and read data are kept, SCL is released, and SDA
is low in a closing STOP only. -/
def State.stretched (s : State) (n : SegId) (r : Run) (buf : List Byte) : State :=
  match r.orphan with
  | none =>
    (s.modLeg r.leg fun x => { x with readData := buf }).withSeg n
      { s.segs[n] with inProgress := some r, drive := { sclLow := false, sdaLow := r.phase = .stop } }
  | some o =>
    s.withSeg n
      { s.segs[n] with
        inProgress := some { r with orphan := some { o with leg := { o.leg with readData := buf } } },
        drive := { sclLow := false, sdaLow := r.phase = .stop } }

/-- A run record at the start of its leg (R91). -/
def Run.Fresh (r : Run) : Prop :=
  r.phase = .start ∧ r.dataPos = 0 ∧ r.count = 0 ∧ r.decided = none ∧ r.secondWindow = false

/-- The bytes that open a leg, each acknowledged: the address byte, the register index where there is a register phase, and for a READ
with one the address byte after the repeated START (R100). -/
def LegRecord.opening (l : LegRecord) : List WireByte :=
  match l.kind, l.regPhase with
  | .read, true => [.ack, .ack, .ack]
  | .read, false => [.ack]
  | .write, true => [.ack, .ack]
  | .write, false => [.ack]
  | .probe, _ => [.ack]

/-- The nine slots of a byte the engine sends (R98): SDA low for each 0, the most significant bit first, and released for the target's
acknowledge. -/
def sendSlots (b : Byte) : List BusSymbol :=
  [.slot (!b.getLsbD 7), .slot (!b.getLsbD 6), .slot (!b.getLsbD 5), .slot (!b.getLsbD 4), .slot (!b.getLsbD 3),
    .slot (!b.getLsbD 2), .slot (!b.getLsbD 1), .slot (!b.getLsbD 0), .slot false]

/-- The nine slots of a byte the engine receives (R98, R102): SDA released for the target's bits, and low for its ACK. -/
def receiveSlots (ack : Bool) : List BusSymbol := List.replicate 8 (.slot false) ++ [.slot ack]

/-- The slots of the first address byte of a leg (R99, R100). -/
def LegRecord.addressSlots (l : LegRecord) : List BusSymbol :=
  sendSlots (l.busAddr ++ (if l.kind = .read ∧ l.regPhase = false then 1#1 else 0#1))

/-- The slots of the bytes that open a leg (R96, R100), as in `LegRecord.opening`. -/
def LegRecord.openingSlots (l : LegRecord) : List BusSymbol :=
  match l.kind, l.regPhase with
  | .read, true => l.addressSlots ++ sendSlots l.regIndex ++ [.release, .start] ++ sendSlots (l.busAddr ++ 1#1)
  | .read, false => l.addressSlots
  | .write, true => l.addressSlots ++ sendSlots l.regIndex
  | .write, false => l.addressSlots
  | .probe, _ => l.addressSlots

/-! ### The words of the statements: the link -/

/-- The body of a message with a link-status byte (R197). -/
def State.Carries (s : State) (m : OutMessage) (status : Byte) (body : List Byte) : Prop :=
  (∃ (k : SlotId) (r : Reply), m.content = .reply k ∧ s.slots[k].reply = some r ∧
    body = [r.reqType, r.tag, status, r.result.code] ++ r.fields) ∨
  (∃ (n : Notice) (type : Byte), m.content = .notice n ∧
    ((∃ x, n = .ready x ∧ type = 0xA0) ∨ (∃ u a c x, n = .watchHit u a c x ∧ type = 0xA1) ∨
      (∃ g x c t, n = .segmentAlert g x c t ∧ type = 0xA2) ∨ (∃ e x t c, n = .clockEvent e x t c ∧ type = 0xA3)) ∧
    body = [type, 0, status] ++ n.payload)

/-- The head message begins with a body (R190): its begun mark is set and its frame goes out from the marker: marker, length, body and
the CRC of length and body (R197). -/
def State.begins (s : State) (m : OutMessage) (rest : List OutMessage) (body : List Byte) : State :=
  { s with link := { s.link with
    queue := { m with begun := true } :: rest,
    outFrame := some
      { bytes := [0xB7, byteOf body.length] ++ body ++ bytes16 (crc16 (byteOf body.length :: body)), sent := 0 } } }

/-- A message leaves the queue (R191): the slot of a reply is FREE again; a notice's held-over successor is appended. -/
def State.sent (s : State) (m : OutMessage) (rest : List OutMessage) : State :=
  match m.content with
  | .reply k => { s with slots := s.slots.set k Slot.freed, link := { s.link with queue := rest, outFrame := none } }
  | .notice n =>
    match s.held n.source with
    | none => { s with link := { s.link with queue := rest, outFrame := none } }
    | some h =>
      ({ s with link := { s.link with queue := rest ++ [{ content := .notice h, begun := false }], outFrame := none } } :
        State).setHeld n.source none

end Sys2Proof.Machine
end

