-- ==== Sys2Proof/Certificates/Slice0/Obligations.lean ====
section
/-! DEFINITION. The statements for the provers. A request statement says what the command does in the lowest FREE slot, as an
equation of whole states: whatever it does not name is unchanged; the slot of a request refused before its fields are decoded holds none
of them (log 37). The words of Safety.lean name the logs they rest on. -/

section

open Sys2Proof Sys2Proof.Machine

/-! ### The machine -/

/-- A step takes the command at the front of the queue and runs it on the state with the queue's rest; with no command waiting the
part idles (log 2). -/
def Obligations.StepTakesTheFrontCommandOrIdles : Prop :=
  (∀ (c : Instr) (rest : List Instr) (s : State), s.pending = c :: rest → step s = exec c { s with pending := rest }) ∧
  (∀ s : State, s.pending = [] → step s = .next s)

/-- Every command ends in a next state and leaves the waiting commands as they are (the model's choice: in states that no run reaches a
command has the nearest harmless effect, log 22; no meaning faults or refuses, log 24; POWER_ON_RESET too leaves the commands, log 17). -/
def Obligations.EveryCommandAnswersAndKeepsTheQueue : Prop :=
  ∀ (c : Instr) (s : State), ∃ t : State, exec c s = .next t ∧ t.pending = s.pending

/-- POWER_ON_RESET puts every block at its reset value (R18, R36, R89, R156, R169, R183, R195), and State.reset is the part in that
state, with high lines (log 3) and no command waiting; the reset itself leaves the lines and the waiting commands (log 17). While RST_N is
low ATTN_N and LDO are released; a request command does nothing but bring its line levels, and UNKNOWN_TYPE, BYTE_BOUNDARY, SELECT_BEGIN
and FRAME_ERR do nothing (R193, R195; log 28); the reset's end makes of the part with RST_N low the reset state. -/
def Obligations.PowerOnResetPutsEveryBlockAtItsResetValue : Prop :=
  (∀ s : State, exec .powerOnReset s = .next (afterPowerOn s.wires s.pending)) ∧
  State.reset = afterPowerOn (Vector.replicate 4 { scl := true, sda := true }) [] ∧
  (∀ s : State, s.link.rstLow = true →
    (s.attnLow = false ∧ s.ldo = none) ∧
    (∀ (c : Instr) (type tag : Byte) (payload : List Byte), c.frameBody = some (type, tag, payload) →
      exec c s = .next (s.reads c)) ∧
    (∀ (type tag : Byte) (payload : List Byte), exec (.unknownType type tag payload) s = .next s) ∧
    (∀ (b : Byte) (wires : Wires), exec (.byteBoundary b wires) s = .next s) ∧
    exec .selectBegin s = .next s ∧ exec .frameErr s = .next s) ∧
  (State.inPowerOnReset.link.rstLow = true ∧ exec .powerOnReset State.inPowerOnReset = .next State.reset)

/-! ### The transaction table -/

/-- A request delivered with no slot FREE is discarded: OVERRUN is set and nothing else changes, but that the assembler is in HUNT
again and the lines stand as the command brings them (R3; logs 3 and 5). -/
def Obligations.FullTableDiscardsTheRequestWithOverrun : Prop :=
  (∀ (c : Instr) (type tag : Byte) (payload : List Byte) (s : State), c.frameBody = some (type, tag, payload) → s.NoneFree →
    exec c s = .next { s.reads c with
      link := { s.link with assembler := .hunt, flags := { s.link.flags with overrun := true } } }) ∧
  (∀ (type tag : Byte) (payload : List Byte) (s : State), type ∉ requestTypes → s.NoneFree →
    exec (.unknownType type tag payload) s = .next { s with
      link := { s.link with assembler := .hunt, flags := { s.link.flags with overrun := true } } })

/-- A request of an unlisted type is taken into the lowest FREE slot and answered BAD_REQUEST at once, whatever its payload (R5 step 1); the
command UNKNOWN_TYPE with a listed type spells no frame of its row and changes nothing (log 1). The slot of a request refused before its
fields are decoded holds none of them (the model's choice, log 37). -/
def Obligations.UnknownTypeIsAnsweredBadRequest : Prop :=
  (∀ (type tag : Byte) (payload : List Byte) (s : State) (k : SlotId), type ∉ requestTypes → s.LowestFree k →
    exec (.unknownType type tag payload) s = .next (s.replied k type tag none .badRequest [])) ∧
  (∀ (type tag : Byte) (payload : List Byte) (s : State), type ∈ requestTypes → exec (.unknownType type tag payload) s = .next s)

/-- A transfer whose tag another slot holds as a live tag is answered TAG_IN_USE, whatever its payload (R5 step 2, R6). The slot of a
request refused before its fields are decoded holds none of them (the model's choice, log 37). -/
def Obligations.TransferWithALiveTagIsRefused : Prop :=
  ∀ (kind : Kind) (tag : Byte) (payload : List Byte) (wires : Wires) (s : State) (k : SlotId), s.LowestFree k → s.TagLive tag →
    exec (kind.command tag payload wires) s =
      .next (({ s with wires := wires }).replied k kind.typeByte tag none .tagInUse [])

/-- A transfer whose payload spells no fields of its kind within their ranges (a target above 4095, a data length outside 1–32, a payload of
another length) is answered BAD_REQUEST (R38, R39, R40). The slot of a request refused before its fields are decoded holds none of them
(the model's choice, log 37). -/
def Obligations.MalformedTransferIsRefused : Prop :=
  ∀ (kind : Kind) (tag : Byte) (payload : List Byte) (wires : Wires) (s : State) (k : SlotId), s.LowestFree k → ¬ s.TagLive tag →
    (∀ f : TransferForm, f.kind = kind → f.Fits → payload ≠ f.payload) →
    exec (kind.command tag payload wires) s =
      .next (({ s with wires := wires }).replied k kind.typeByte tag none .badRequest [])

/-- STATUS with clear no or yes is answered OK with the part code, the revision, the FREE slots, the outbound count, the link flags, the
active source and the four segment states as they stand when it is taken, its own slot counted as taken; with clear yes the link flags
are cleared after that. Any other payload is BAD_REQUEST (R14, R15). That bits 3 to 7 of the link flags byte are 0 is the model's choice
(log 33). The slot of a request refused before its fields are decoded holds none of them (the model's choice, log 37). -/
def Obligations.StatusReportsAndClearsTheFlags : Prop :=
  ∀ (tag : Byte) (payload : List Byte) (s : State) (k : SlotId), s.LowestFree k →
    (∀ clear : Bool, payload = [boolByte clear] →
      exec (.status tag payload) s = .next
        (State.replied
          { s with link := { s.link with
              flags := if clear then { overrun := false, frameErr := false, truncated := false } else s.link.flags } }
          k 0x70 tag (some (.status clear)) .ok
          [0x4E, 0x24, 0x01, byteOf ((List.finRange 8).countP (fun j : SlotId => s.slots[j].state = .free) - 1),
            byteOf s.link.queue.length, s.link.flags.byte, s.clock.source.code, s.segs[0].state.code, s.segs[1].state.code,
            s.segs[2].state.code, s.segs[3].state.code])) ∧
    ((∀ clear : Bool, payload ≠ [boolByte clear]) →
      exec (.status tag payload) s = .next (s.replied k 0x70 tag none .badRequest []))

/-- RESET without payload is the soft reset (R16, R90, R115, R134, R156, R169, R183, R196): every slot FREE, the outbound queue READY alone,
the watch units, the log and the link flags at their reset values; the route map, the stored configurations, the last faults, the active
source, the reference status, the configured frequency and the time base are kept; a line check ends in IDLE, a leg in progress runs on
as an orphan, a bus clear loses its owner. A RESET with a payload is BAD_REQUEST. That settings and reports on their way are dropped is
the model's choice (log 8), and so are the copy of tag, leg record and write data that an orphan keeps (log 18), the note that its
reset-requested has been cleared (log 4) and the traces that run on (logs 36 and 40). The slot of a request refused before its fields
are decoded holds none of them (the model's choice, log 37). -/
def Obligations.ResetIsTheSoftReset : Prop :=
  ∀ (tag : Byte) (payload : List Byte) (s : State) (k : SlotId), s.LowestFree k →
    (payload ≠ [] → exec (.reset tag payload) s = .next (s.replied k 0x7F tag none .badRequest [])) ∧
    (payload = [] → ∃ t : State, exec (.reset tag payload) s = .next t ∧
      (t.slots = Vector.replicate 8 Slot.freed ∧ t.windows = s.windows ∧ t.wires = s.wires ∧ t.pending = s.pending) ∧
      (∀ u : UnitId, t.units[u] = WatchUnit.reset) ∧
      (t.log = { entries := [], mode := .exceptions, frozen := false, lost := false }) ∧
      (t.clock = { s.clock with
        switch := .steady, awaited := Vector.replicate 4 false, selectOwner := none, heldEvent := none }) ∧
      (t.link = { s.link with
        assembler := .hunt, flags := { overrun := false, frameErr := false, truncated := false },
        queue := [{ content := .notice (.ready .soft), begun := false }], outFrame := none, resetInSelect := s.link.selected }) ∧
      (∀ n : SegId,
        (t.segs[n].queue = [] ∧ t.segs[n].pendingCfg = none ∧ t.segs[n].hold = false ∧ t.segs[n].pauseRequested = false ∧
          t.segs[n].resetRequested = false ∧ t.segs[n].heldAlert = none ∧ t.segs[n].pauseSetting = false ∧
          t.segs[n].reports = [] ∧ t.segs[n].stored = s.segs[n].stored ∧ t.segs[n].lastFault = s.segs[n].lastFault ∧
          t.segs[n].trace = s.segs[n].trace ∧ t.segs[n].lastTrace = s.segs[n].lastTrace ∧
          t.segs[n].clearTrace = s.segs[n].clearTrace) ∧
        (s.segs[n].state = .active ∧ s.segs[n].inProgress = none →
          t.segs[n].state = .idle ∧ t.segs[n].inProgress = none ∧ t.segs[n].drive = { sclLow := false, sdaLow := false }) ∧
        (¬ (s.segs[n].state = .active ∧ s.segs[n].inProgress = none) →
          t.segs[n].state = s.segs[n].state ∧ t.segs[n].drive = s.segs[n].drive ∧
          t.segs[n].clear = s.segs[n].clear.map fun c => { c with owner := none }) ∧
        (∀ (r : Run) (l : LegRecord), s.segs[n].inProgress = some r → r.orphan = none → r.leg.slot ≠ k →
          s.slots[r.leg.slot].leg r.leg.role = some l →
          t.segs[n].inProgress = some { r with
            resetDropped := r.resetDropped || s.segs[n].resetRequested,
            orphan := some { tag := s.slots[r.leg.slot].tag, leg := l, writeData := s.slots[r.leg.slot].writeData } }) ∧
        (∀ r : Run, s.segs[n].inProgress = some r → r.orphan.isSome = true →
          t.segs[n].inProgress = some { r with resetDropped := r.resetDropped || s.segs[n].resetRequested })))

/-! ### The route map -/

/-- ROUTE_SET of well-formed fields replaces the whole window, enabled, with twin fields 0 under policy NONE, and answers OK with the index
and whether it was enabled before; fields that break a placement limit are answered RANGE, and fields outside their ranges BAD_REQUEST
(R7, R21, R22, R23). The slot holds the fields as the request carried them (R1); the slot of a request refused before its fields are
decoded holds none of them (the model's choice, log 37). -/
def Obligations.RouteSetReplacesTheWindow : Prop :=
  ∀ (tag : Byte) (payload : List Byte) (s : State) (k : SlotId), s.LowestFree k →
    (∀ (i : WindowId) (w v : Window), w.enabled = true → payload = byteOf i :: w.fieldBytes →
      v = (if w.policy = .noTwin then { w with twinSeg := 0, twinBus := 0 } else w) →
      (w.Lawful → exec (.routeSet tag payload) s = .next
        (State.replied { s with windows := s.windows.set i v } k 0x20 tag (some (.routeSet i w)) .ok
          [byteOf i, boolByte s.windows[i].enabled])) ∧
      (¬ w.Lawful → exec (.routeSet tag payload) s = .next (s.replied k 0x20 tag (some (.routeSet i w)) .range []))) ∧
    ((∀ (i : WindowId) (w : Window), payload ≠ byteOf i :: w.fieldBytes) →
      exec (.routeSet tag payload) s = .next (s.replied k 0x20 tag none .badRequest []))

/-- ROUTE_GET answers OK with the index and the whole window as it stands, and changes no window; an index outside 0–15, or a payload of
another length, is BAD_REQUEST (R24). The slot of a request refused before its fields are decoded holds none of them (the model's
choice, log 37). -/
def Obligations.RouteGetReturnsTheWindow : Prop :=
  ∀ (tag : Byte) (payload : List Byte) (s : State) (k : SlotId), s.LowestFree k →
    (∀ i : WindowId, payload = [byteOf i] →
      exec (.routeGet tag payload) s = .next
        (s.replied k 0x21 tag (some (.routeGet i)) .ok (byteOf i :: boolByte s.windows[i].enabled :: s.windows[i].fieldBytes))) ∧
    ((∀ i : WindowId, payload ≠ [byteOf i]) →
      exec (.routeGet tag payload) s = .next (s.replied k 0x21 tag none .badRequest []))

/-- ROUTE_DISABLE sets enabled to no, keeps every other field of the window, and answers OK with the index and whether the window was
enabled before; an index outside 0–15, or a payload of another length, is BAD_REQUEST (R25). The slot of a request refused before its
fields are decoded holds none of them (the model's choice, log 37). -/
def Obligations.RouteDisableKeepsTheOtherFields : Prop :=
  ∀ (tag : Byte) (payload : List Byte) (s : State) (k : SlotId), s.LowestFree k →
    (∀ i : WindowId, payload = [byteOf i] →
      exec (.routeDisable tag payload) s = .next
        (State.replied { s with windows := s.windows.set i { s.windows[i] with enabled := false } } k 0x22 tag
          (some (.routeDisable i)) .ok [byteOf i, boolByte s.windows[i].enabled])) ∧
    ((∀ i : WindowId, payload ≠ [byteOf i]) →
      exec (.routeDisable tag payload) s = .next (s.replied k 0x22 tag none .badRequest []))

/-- A transfer is answered NO_ROUTE where no enabled window holds its target, and DIRECTION_DENIED where the matching window, the
enabled one of lowest index, does not permit it; no leg is built (R27, R29, R30). -/
def Obligations.UnmappedOrForbiddenTransferBuildsNoLeg : Prop :=
  ∀ (f : TransferForm) (tag : Byte) (wires : Wires) (s : State) (k : SlotId), f.Fits → s.LowestFree k → ¬ s.TagLive tag →
    (s.Unrouted f.target → exec (f.command tag wires) s =
      .next (({ s with wires := wires }).replied k f.kind.typeByte tag (some f.request) .noRoute [])) ∧
    (∀ i : WindowId, s.Matches f.target i → ¬ s.windows[i].Permits f.kind → exec (f.command tag wires) s =
      .next (({ s with wires := wires }).replied k f.kind.typeByte tag (some f.request) .directionDenied []))

/-! ### Transfers -/

/-- An accepted transfer whose segments take legs without starting them is WORKING with its legs at the tails of their queues: the
primary alone under NONE and for the reads of MIRROR_WRITES and MIRROR_FALLBACK, else primary and twin (R31, R41, R42, R45, R47, R74). -/
def Obligations.TransferLegsJoinTheirQueues : Prop :=
  ∀ (f : TransferForm) (tag : Byte) (wires : Wires) (s : State) (k : SlotId) (i : WindowId), f.Fits → s.LowestFree k →
    ¬ s.TagLive tag → s.Matches f.target i → s.windows[i].Permits f.kind → s.segs[s.windows[i].primarySeg].Waits →
    (f.Single s.windows[i].policy →
      exec (f.command tag wires) s = .next
        { s with
          wires := wires,
          slots := s.slots.set k (f.slot tag (s.windows[i].resolutionOf f.target)
            (f.leg k .primary s.windows[i].primarySeg (s.windows[i].addressOf s.windows[i].primaryBus f.target)
              s.windows[i].regPhase) none),
          segs := s.segs.set s.windows[i].primarySeg
            { s.segs[s.windows[i].primarySeg] with
              queue := s.segs[s.windows[i].primarySeg].queue ++ [{ slot := k, role := .primary }] },
          link := { s.link with assembler := .hunt } }) ∧
    (¬ f.Single s.windows[i].policy → s.windows[i].twinSeg ≠ s.windows[i].primarySeg → s.segs[s.windows[i].twinSeg].Waits →
      exec (f.command tag wires) s = .next
        { s with
          wires := wires,
          slots := s.slots.set k (f.slot tag (s.windows[i].resolutionOf f.target)
            (f.leg k .primary s.windows[i].primarySeg (s.windows[i].addressOf s.windows[i].primaryBus f.target)
              s.windows[i].regPhase)
            (some (f.leg k .twin s.windows[i].twinSeg (s.windows[i].addressOf s.windows[i].twinBus f.target)
              s.windows[i].regPhase))),
          segs := (s.segs.set s.windows[i].primarySeg
              { s.segs[s.windows[i].primarySeg] with
                queue := s.segs[s.windows[i].primarySeg].queue ++ [{ slot := k, role := .primary }] }).set
            s.windows[i].twinSeg
              { s.segs[s.windows[i].twinSeg] with
                queue := s.segs[s.windows[i].twinSeg].queue ++ [{ slot := k, role := .twin }] },
          link := { s.link with assembler := .hunt } })

/-- A single leg appended to an IDLE segment in service, with an empty queue and nothing pending, starts at once (R74, R77, R91, R95,
R118): on free lines it is IN_PROGRESS, with SDA held the segment clears the bus first, with SCL held its line check waits. The two legs
of a twin transfer join their two segments, the primary first, each started in the same way where its segment can start it and queued
where it waits (R45, R46, R47). -/
def Obligations.TransferStartsOnAnIdleSegment : Prop :=
  ∀ (f : TransferForm) (tag : Byte) (wires : Wires) (s : State) (k : SlotId) (i : WindowId) (n : SegId), f.Fits → s.LowestFree k →
    ¬ s.TagLive tag → s.Matches f.target i → s.windows[i].Permits f.kind → s.windows[i].primarySeg = n →
    (f.Single s.windows[i].policy → s.segs[n].state = .idle → s.segs[n].queue = [] → s.segs[n].Free →
      s.segs[n].pendingCfg = none → s.segs[n].stored.enable = true →
      exec (f.command tag wires) s = .next
        (State.legStarts
          { s with
            wires := wires,
            slots := s.slots.set k (f.slot tag (s.windows[i].resolutionOf f.target)
              (f.leg k .primary n (s.windows[i].addressOf s.windows[i].primaryBus f.target) s.windows[i].regPhase) none),
            segs := s.segs.set n { s.segs[n] with queue := [{ slot := k, role := .primary }] },
            link := { s.link with assembler := .hunt } }
          n { slot := k, role := .primary } [])) ∧
    (∀ m : SegId, ¬ f.Single s.windows[i].policy → s.windows[i].twinSeg = m → m ≠ n →
      (s.segs[n].Waits ∨ s.segs[n].Startable) → (s.segs[m].Waits ∨ s.segs[m].Startable) →
      exec (f.command tag wires) s = .next
        (((State.withSlot { s with wires := wires, link := { s.link with assembler := .hunt } } k
            (f.slot tag (s.windows[i].resolutionOf f.target)
              (f.leg k .primary n (s.windows[i].addressOf s.windows[i].primaryBus f.target) s.windows[i].regPhase)
              (some (f.leg k .twin m (s.windows[i].addressOf s.windows[i].twinBus f.target) s.windows[i].regPhase)))).accepts
          n { slot := k, role := .primary }).accepts m { slot := k, role := .twin }))

/-- A single leg on a segment that is OFF or FAULTED ends at once with SEGMENT_OFF or SEGMENT_FAULTED: its record goes to the log, its
slot is answered with the result of that name, and the watch units take the record (R41, R47, R53, R54, R58, R62). For a
MIRROR_FALLBACK read the record builds the twin instead, which joins the queue of its segment, or starts there, and the slot stays
WORKING (R49, R50). Of the two legs of a twin transfer one may end so while the other joins its segment, and the slot stays WORKING; where
both end so, a fallback twin among them, the primary's record is delivered before the twin's, which answers the slot (R47, R50, R60, R61;
log 13). -/
def Obligations.LegOnASegmentOutOfServiceEndsAtOnce : Prop :=
  ∀ (f : TransferForm) (tag : Byte) (wires : Wires) (s : State) (k : SlotId) (i : WindowId) (n m : SegId) (o x : LegOutcome)
    (res other : ResultCode) (a : State) (l t : LegRecord), f.Fits → s.LowestFree k → ¬ s.TagLive tag → s.Matches f.target i →
    s.windows[i].Permits f.kind → s.windows[i].primarySeg = n → s.windows[i].twinSeg = m →
    a = { s with wires := wires, link := { s.link with assembler := .hunt } } →
    l = f.leg k .primary n (s.windows[i].addressOf s.windows[i].primaryBus f.target) s.windows[i].regPhase →
    t = f.leg k .twin m (s.windows[i].addressOf s.windows[i].twinBus f.target) s.windows[i].regPhase →
    (f.Single s.windows[i].policy → s.segs[n].Refuses o res →
      (s.windows[i].policy ≠ .mirrorFallback →
        exec (f.command tag wires) s = .next
          (((a.offer (l.copy s.clock.timeBase tag 0 o none).logEntry).closes
              k (f.slot tag (s.windows[i].resolutionOf f.target) (l.ended o 0 []) none) res [o.code, 0, 0]).watchRecord
            (l.copy s.clock.timeBase tag 0 o none))) ∧
      (s.windows[i].policy = .mirrorFallback → (s.segs[m].Waits ∨ s.segs[m].Startable) →
        exec (f.command tag wires) s = .next
          (State.watchRecord
            (((a.offer (l.copy s.clock.timeBase tag 0 o none).logEntry).withSlot k
                (f.slot tag (s.windows[i].resolutionOf f.target) (l.ended o 0 []) (some t))).accepts m { slot := k, role := .twin })
            (l.copy s.clock.timeBase tag 0 o none)))) ∧
    (¬ f.Single s.windows[i].policy → s.segs[n].Refuses o res → (s.segs[m].Waits ∨ s.segs[m].Startable) →
      exec (f.command tag wires) s = .next
        (State.watchRecord
          (State.offer
            ((a.withSlot k (f.slot tag (s.windows[i].resolutionOf f.target) (l.ended o 0 []) (some t))).accepts
              m { slot := k, role := .twin })
            (l.copy s.clock.timeBase tag 0 o none).logEntry)
          (l.copy s.clock.timeBase tag 0 o none))) ∧
    (¬ f.Single s.windows[i].policy → (s.segs[n].Waits ∨ s.segs[n].Startable) → s.segs[m].Refuses x other →
      exec (f.command tag wires) s = .next
        (State.watchRecord
          (State.offer
            ((a.withSlot k (f.slot tag (s.windows[i].resolutionOf f.target) l (some (t.ended x 0 [])))).accepts
              n { slot := k, role := .primary })
            (t.copy s.clock.timeBase tag 0 x none).logEntry)
          (t.copy s.clock.timeBase tag 0 x none))) ∧
    (¬ f.Single s.windows[i].policy ∨ s.windows[i].policy = .mirrorFallback → s.segs[n].Refuses o res → s.segs[m].Refuses x other →
      exec (f.command tag wires) s = .next
        ((((State.watchRecord
            ((a.offer (l.copy s.clock.timeBase tag 0 o none).logEntry).withSlot k
              (f.slot tag (s.windows[i].resolutionOf f.target) (l.ended o 0 []) (some (t.failed x))))
            (l.copy s.clock.timeBase tag 0 o none)).offer (t.copy s.clock.timeBase tag 0 x none).logEntry).closes
          k (f.slot tag (s.windows[i].resolutionOf f.target) (l.ended o 0 []) (some (t.ended x 0 []))) res
            [o.code, 0, 1, x.code, 0]).watchRecord (t.copy s.clock.timeBase tag 0 x none)))

/-- CANCEL of a tag that no WORKING transfer holds is answered NO_SUCH_TAG. CANCEL of a WORKING transfer marks it cancelled: legs
IN_PROGRESS are cut-requested and the reply says that it is not yet answered; a QUEUED leg leaves its queue as NOT_SENT, and its record
is delivered, the primary's before the twin's; with no leg left running the transfer is answered CANCELLED, and the CANCEL after it.
Another payload length is BAD_REQUEST (R57, R62, R64, R65, R67; log 13). The model's choice: a cut-requested leg notes whether it was
reset-requested already (log 4), and a slot that a SEG_RESET has answered is no longer there to cancel (R76, R133; log 31). The slot of
a request refused before its fields are decoded holds none of them (the model's choice, log 37). -/
def Obligations.CancelEndsOrCutsTheTransfer : Prop :=
  ∀ (tag : Byte) (payload : List Byte) (s : State) (k : SlotId), s.LowestFree k →
    (payload.length ≠ 1 → exec (.cancel tag payload) s = .next (s.replied k 0x13 tag none .badRequest [])) ∧
    (∀ x : Byte, payload = [x] →
      ((∀ j : SlotId, ¬ s.slots[j].Cancellable x) →
        exec (.cancel tag payload) s = .next (s.replied k 0x13 tag (some (.cancel x)) .noSuchTag [x])) ∧
      (∀ j : SlotId, s.slots[j].Cancellable x → (∀ i : SlotId, i ≠ j → ¬ s.slots[i].Cancellable x) →
        ((∀ (role : Role) (l : LegRecord), s.slots[j].leg role = some l → l.state ≠ .queued) →
          exec (.cancel tag payload) s = .next
            ((s.withSlot j
                { s.slots[j] with
                  cancelled := true, primary := s.slots[j].primary.map s.cutsIfRunning,
                  twin := s.slots[j].twin.map s.cutsIfRunning }).replied
              k 0x13 tag (some (.cancel x)) .ok [x, 0])) ∧
        (∀ l : LegRecord, s.slots[j].primary = some l → s.slots[j].twin = none → l.state = .queued → l.slot = j →
          l.role = .primary →
          ∃ t : State,
            t = State.watchRecord
              (((State.withSeg (s.took k 0x13 tag (some (.cancel x))) l.segment
                    { s.segs[l.segment] with queue := s.segs[l.segment].queue.erase { slot := j, role := .primary } }).offer
                  (l.copy s.clock.timeBase x 0 .notSent none).logEntry).closes j
                { s.slots[j] with cancelled := true, primary := some (l.ended .notSent 0 []) } .cancelled [6, 0, 0])
              (l.copy s.clock.timeBase x 0 .notSent none) ∧
            exec (.cancel tag payload) s = .next (t.closes k t.slots[k] .ok [x, 1])) ∧
        (∀ (p w : LegRecord) (a : State) (rp rw : RecordCopy), s.slots[j].primary = some p → s.slots[j].twin = some w →
          p.slot = j → p.role = .primary → w.slot = j → w.role = .twin → a = s.took k 0x13 tag (some (.cancel x)) →
          rp = p.copy s.clock.timeBase x 0 .notSent none → rw = w.copy s.clock.timeBase x 0 .notSent none →
          (p.state = .queued → w.state = .queued → w.delivered = false → ∃ t : State,
            t = State.watchRecord
              (((State.watchRecord
                  ((((a.unqueues p).unqueues w).withSlot j
                    { s.slots[j] with
                      cancelled := true, primary := some (p.ended .notSent 0 []), twin := some (w.failed .notSent) }).offer
                    rp.logEntry) rp).offer rw.logEntry).closes j
                { s.slots[j] with
                  cancelled := true, primary := some (p.ended .notSent 0 []), twin := some (w.ended .notSent 0 []) }
                .cancelled [6, 0, 1, 6, 0]) rw ∧
            exec (.cancel tag payload) s = .next (t.closes k t.slots[k] .ok [x, 1])) ∧
          (p.state = .queued → w.state = .inProgress → ∃ t : State,
            t = State.watchRecord
              (((a.unqueues p).withSlot j
                { s.slots[j] with
                  cancelled := true, primary := some (p.ended .notSent 0 []), twin := some (s.cuts w) }).offer
                rp.logEntry) rp ∧
            exec (.cancel tag payload) s = .next (t.closes k t.slots[k] .ok [x, 0])) ∧
          (p.state = .inProgress → w.state = .queued → ∃ t : State,
            t = State.watchRecord
              (((a.unqueues w).withSlot j
                { s.slots[j] with
                  cancelled := true, primary := some (s.cuts p), twin := some (w.ended .notSent 0 []) }).offer
                rw.logEntry) rw ∧
            exec (.cancel tag payload) s = .next (t.closes k t.slots[k] .ok [x, 0])) ∧
          (∀ o : LegOutcome, p.state = .done → p.delivered = true → p.outcome = some o → w.state = .queued → ∃ t : State,
            t = State.watchRecord
              (((a.unqueues w).offer rw.logEntry).closes j
                { s.slots[j] with cancelled := true, twin := some (w.ended .notSent 0 []) }
                .cancelled [o.code, byteOf p.bytes, 1, 6, 0]) rw ∧
            exec (.cancel tag payload) s = .next (t.closes k t.slots[k] .ok [x, 1])) ∧
          (∀ o : LegOutcome, w.state = .done → w.delivered = true → w.outcome = some o → p.state = .queued → ∃ t : State,
            t = State.watchRecord
              (((a.unqueues p).offer rp.logEntry).closes j
                { s.slots[j] with cancelled := true, primary := some (p.ended .notSent 0 []) }
                .cancelled [6, 0, 1, o.code, byteOf w.bytes]) rp ∧
            exec (.cancel tag payload) s = .next (t.closes k t.slots[k] .ok [x, 1])))))

/-! ### Segments -/

/-- The between-legs decision (R78 from step 2) and the start decision of an IDLE segment (R77): a pending configuration is applied;
with the stored enable no the segment goes to OFF and its queued legs fail; else it starts its head leg where nothing keeps it, and
else it goes to, or stays in, IDLE. -/
def Obligations.LegDecisionFollowsItsOrder : Prop :=
  ∀ (s : State) (n : SegId) (g : Segment), g = s.segs[n].configured →
    (g.stored.enable = false → s.decideNext n = (s.withSeg n (g.rests .off)).failQueued n .segmentOff) ∧
    (g.stored.enable = true →
      (∀ (r : LegRef) (rest : List LegRef), g.queue = r :: rest → g.Free →
        s.decideNext n = (s.withSeg n g).legStarts n r rest) ∧
      (g.queue = [] ∨ ¬ g.Free → s.decideNext n = s.withSeg n (g.rests .idle))) ∧
    (g.state = .idle →
      (g.queue = [] ∨ ¬ g.Free → s.decideStart n = s) ∧
      (∀ (r : LegRef) (rest : List LegRef), g.queue = r :: rest → g.Free → s.decideStart n = s.decideNext n)) ∧
    (g.state ≠ .idle → s.decideStart n = s)

/-- QUEUED legs that an event fails leave their queue; each is DONE with the event's outcome, 0 bytes and no read data, and their
records are produced in queue order (R76, R51). -/
def Obligations.FailedQueuedLegsAreRecordedInQueueOrder : Prop :=
  ∀ (s : State) (n : SegId) (o : LegOutcome) (legs : List LegRecord),
    (s.segs[n].queue = legs.map fun l => { slot := l.slot, role := l.role }) → s.segs[n].queue.Nodup →
    (∀ l ∈ legs, s.legAt { slot := l.slot, role := l.role } = some l) →
    ((s.failQueue n o).1.segs[n] = { s.segs[n] with queue := [] }) ∧
    ((s.failQueue n o).2.map CompletionRecord.toRecordCopy =
      legs.map fun l => l.copy s.clock.timeBase s.slots[l.slot].tag 0 o none) ∧
    (∀ l ∈ legs, (s.failQueue n o).1.legAt { slot := l.slot, role := l.role } =
      some { l with state := .done, outcome := some o, bytes := 0, readData := [] }) ∧
    (s.segs[n].queue = [] → s.failQueued n o = s)

/-- SEG_CONFIG by the state of its segment (R82, R83, R86): applied at once in IDLE and OFF, pending in ACTIVE and CLEARING; with enable no
the queued legs fail with SEGMENT_OFF; in FAULTED answered STILL_FAULTED with enable yes and stored with enable no. The reply tells
whether a pending configuration was replaced, the legs failed and the segment's state. Any other payload is BAD_REQUEST (R81). The
model's choice: a paused segment that goes from IDLE to OFF or from OFF to IDLE sends no further report (R80; log 42), and the slot of a
request refused before its fields are decoded holds none of them (log 37). -/
def Obligations.SegConfigGoesByTheSegmentState : Prop :=
  ∀ (tag : Byte) (payload : List Byte) (wires : Wires) (s : State) (k : SlotId), s.LowestFree k →
    ((∀ (n : SegId) (c : SegConfig), c.stretchLimit ≠ 0 →
        payload ≠ [byteOf n, boolByte c.enable, c.rate.code, c.stretchLimit]) →
      exec (.segConfig tag payload wires) s = .next (({ s with wires := wires }).replied k 0x30 tag none .badRequest [])) ∧
    (∀ (n : SegId) (c : SegConfig) (g : Segment) (stored pending : Segment), c.stretchLimit ≠ 0 →
      payload = [byteOf n, boolByte c.enable, c.rate.code, c.stretchLimit] → g = s.segs[n] →
      stored = { g with stored := c, pendingCfg := none } → pending = { g with pendingCfg := some c } →
      (g.state = .faulted → c.enable = true → exec (.segConfig tag payload wires) s = .next
        (({ s with wires := wires }).replied k 0x30 tag (some (.segConfig n c)) .stillFaulted [byteOf n])) ∧
      (g.state = .faulted → c.enable = false → exec (.segConfig tag payload wires) s = .next
        ((State.withSeg { s with wires := wires } n stored).replied k 0x30 tag (some (.segConfig n c)) .ok
          [byteOf n, 0, boolByte g.pendingCfg.isSome, 0, 4])) ∧
      (g.state = .idle ∨ g.state = .off → c.enable = true → exec (.segConfig tag payload wires) s = .next
        ((State.withSeg { s with wires := wires } n (stored.rests .idle)).replied k 0x30 tag (some (.segConfig n c)) .ok
          [byteOf n, 0, boolByte g.pendingCfg.isSome, 0, 1])) ∧
      (g.state = .active ∨ g.state = .clearing → c.enable = true → exec (.segConfig tag payload wires) s = .next
        ((State.withSeg { s with wires := wires } n pending).replied k 0x30 tag (some (.segConfig n c)) .ok
          [byteOf n, 1, boolByte g.pendingCfg.isSome, 0, g.state.code])) ∧
      (g.state = .idle ∨ g.state = .off → c.enable = false → ∃ t : State,
        t = ((State.took { s with wires := wires } k 0x30 tag (some (.segConfig n c))).withSeg n
          (stored.rests .off)).failQueued n .segmentOff ∧
        exec (.segConfig tag payload wires) s = .next (t.closes k t.slots[k] .ok
          [byteOf n, 0, boolByte g.pendingCfg.isSome, byteOf g.queue.length, t.segs[n].state.code])) ∧
      (g.state = .active ∨ g.state = .clearing → c.enable = false → ∃ t : State,
        t = ((State.took { s with wires := wires } k 0x30 tag (some (.segConfig n c))).withSeg n pending).failQueued n .segmentOff ∧
        exec (.segConfig tag payload wires) s = .next (t.closes k t.slots[k] .ok
          [byteOf n, 1, boolByte g.pendingCfg.isSome, byteOf g.queue.length, t.segs[n].state.code])))

/-- SEG_STATUS answers OK with the segment's state, stored and pending configurations, flags, last fault, leg in progress and queue, and
changes nothing; another payload is BAD_REQUEST (R87). That bits 3 to 7 of the flags byte are 0 is the model's choice (log 33). The slot
of a request refused before its fields are decoded holds none of them (the model's choice, log 37). -/
def Obligations.SegStatusShowsTheSegment : Prop :=
  ∀ (tag : Byte) (payload : List Byte) (s : State) (k : SlotId), s.LowestFree k →
    (∀ (n : SegId) (g : Segment) (a : State), payload = [byteOf n] → g = s.segs[n] → a = s.took k 0x31 tag (some (.segStatus n)) →
      exec (.segStatus tag payload) s = .next (s.replied k 0x31 tag (some (.segStatus n)) .ok
        ([byteOf n, g.state.code, boolByte g.stored.enable, g.stored.rate.code, g.stored.stretchLimit] ++
          (match g.pendingCfg with
            | none => [0, 0, 0, 0]
            | some c => [1, boolByte c.enable, c.rate.code, c.stretchLimit]) ++
          [boolByte g.hold ||| (boolByte g.pauseRequested <<< 1) ||| (boolByte g.resetRequested <<< 2), g.lastFault.code] ++
          (match g.inProgress with
            | none => [0, 0, 0, 0]
            | some r =>
              match r.orphan, a.legAt r.leg with
              | some o, _ => [1, o.tag, 2, o.leg.kind.code]
              | none, none => [0, 0, 0, 0]
              | none, some l => [1, a.slots[r.leg.slot].tag, r.leg.role.code, l.kind.code]) ++
          [byteOf g.queue.length] ++ g.queue.flatMap fun r => [a.slots[r.slot].tag, r.role.code]))) ∧
    ((∀ n : SegId, payload ≠ [byteOf n]) →
      exec (.segStatus tag payload) s = .next (s.replied k 0x31 tag none .badRequest []))

/-- SEG_RESET is answered BUSY beside another SEG_RESET of the segment, and OK at once on an OFF segment, whose hold it clears (R128, R129,
R132). Otherwise its queued legs fail with SEGMENT_RESET and hold is cleared; a leg in progress is then asked to end, a bus clear
running gets it as its owner, and else a clear of its own begins, with a pending configuration applied (R129, R130). That a slot whose
last leg fails so is answered at once, and is not there for a CANCEL to come, is the model's choice (R76, R133; log 31). The slot of a
request refused before its fields are decoded holds none of them (the model's choice, log 37). -/
def Obligations.SegResetFailsTheQueueAndClearsTheBus : Prop :=
  ∀ (tag : Byte) (payload : List Byte) (wires : Wires) (s : State) (k : SlotId), s.LowestFree k →
    ((∀ n : SegId, payload ≠ [byteOf n]) → exec (.segReset tag payload wires) s =
      .next (({ s with wires := wires }).replied k 0x32 tag none .badRequest [])) ∧
    (∀ n : SegId, payload = [byteOf n] →
      ((∃ j : SlotId, s.slots[j].state = .working ∧ s.slots[j].request = some (.segReset n)) →
        exec (.segReset tag payload wires) s =
          .next (({ s with wires := wires }).replied k 0x32 tag (some (.segReset n)) .busy [byteOf n])) ∧
      ((∀ j : SlotId, ¬ (s.slots[j].state = .working ∧ s.slots[j].request = some (.segReset n))) →
        (s.segs[n].state = .off → exec (.segReset tag payload wires) s = .next
          ((((State.withSeg { s with wires := wires, link := { s.link with assembler := .hunt } } n
            { s.segs[n] with hold := false }).offer (.segmentReset s.clock.timeBase n tag .ok)).closes k (resetSlotOf tag n 0) .ok
              [byteOf n, 0, 0, 0, 0]))) ∧
        (s.segs[n].state ≠ .off → ∃ (a : State) (g : Segment),
          a = (State.withSlot { s with wires := wires, link := { s.link with assembler := .hunt } } k
            (resetSlotOf tag n s.segs[n].queue.length)).failQueued n .segmentReset ∧
          g = { a.segs[n] with hold := false } ∧
          (g.inProgress.isSome = true → exec (.segReset tag payload wires) s =
            .next (a.withSeg n { g with resetRequested := true })) ∧
          (g.inProgress = none → g.state = .clearing → exec (.segReset tag payload wires) s =
            .next (a.withSeg n { g with clear := g.clear.map fun c => { c with owner := some k } })) ∧
          (g.inProgress = none → g.state ≠ .clearing → exec (.segReset tag payload wires) s =
            .next (a.withSeg n (g.configured.withdrawn.clearing .reset (some k)))))))

/-- SEG_RESUME clears hold, the segment makes the start decision, and the reply tells whether hold was set; another payload is BAD_REQUEST
(R88). The slot of a request refused before its fields are decoded holds none of them (the model's choice, log 37). -/
def Obligations.SegResumeClearsHold : Prop :=
  ∀ (tag : Byte) (payload : List Byte) (wires : Wires) (s : State) (k : SlotId), s.LowestFree k →
    ((∀ n : SegId, payload ≠ [byteOf n]) → exec (.segResume tag payload wires) s =
      .next (({ s with wires := wires }).replied k 0x33 tag none .badRequest [])) ∧
    (∀ n : SegId, payload = [byteOf n] → ∃ t : State,
      t = ((State.took { s with wires := wires } k 0x33 tag (some (.segResume n))).withSeg n
        { s.segs[n] with hold := false }).decideStart n ∧
      exec (.segResume tag payload wires) s = .next (t.closes k t.slots[k] .ok [byteOf n, boolByte s.segs[n].hold]))

/-! ### Watch units -/

/-- WATCH_SET loads the setup and its count, and puts the unit in WAITING where it is a chained successor and in ARMED otherwise; the EVT
timer and a held-over hit stay. The reply carries the states before and after. Any other payload is BAD_REQUEST (R151, R143). The slot
of a request refused before its fields are decoded holds none of them (the model's choice, log 37). -/
def Obligations.WatchSetLoadsTheUnit : Prop :=
  ∀ (tag : Byte) (payload : List Byte) (s : State) (k : SlotId), s.LowestFree k →
    (∀ (u : UnitId) (w : WatchSetup) (st : WatchState), w.Settable u → payload = byteOf u :: w.bytes →
      st = (if w.chained = true then .waiting else .armed) →
      exec (.watchSet tag payload) s = .next
        ((s.withUnit u { s.units[u] with setup := w, countRemaining := w.count, state := st }).replied k 0x40 tag
          (some (.watchSet u w)) .ok [byteOf u, s.units[u].state.code, st.code])) ∧
    ((∀ (u : UnitId) (w : WatchSetup), w.Settable u → payload ≠ byteOf u :: w.bytes) →
      exec (.watchSet tag payload) s = .next (s.replied k 0x40 tag none .badRequest []))

/-- WATCH_GET is answered OK in every state of the unit with its state, count remaining and whole setup, and changes nothing; any other
payload is BAD_REQUEST (R152). The slot of a request refused before its fields are decoded holds none of them (the model's choice, log
37). -/
def Obligations.WatchGetReturnsTheUnit : Prop :=
  ∀ (tag : Byte) (payload : List Byte) (s : State) (k : SlotId), s.LowestFree k →
    (∀ u : UnitId, payload = [byteOf u] → exec (.watchGet tag payload) s = .next
      (s.replied k 0x41 tag (some (.watchGet u)) .ok
        (byteOf u :: s.units[u].state.code :: byteOf s.units[u].countRemaining :: s.units[u].setup.bytes))) ∧
    ((∀ u : UnitId, payload ≠ [byteOf u]) →
      exec (.watchGet tag payload) s = .next (s.replied k 0x41 tag none .badRequest []))

/-- WATCH_REARM (R153): BAD_REQUEST for a DISABLED unit and for any other payload; else it acts on the named unit and, where the chain
reaches, on its partner by the table of R153, leaves every setup, count remaining and EVT timer, and answers with the new states of the
unit and of its partner. The slot of a request refused before its fields are decoded holds none of them (the model's choice, log 37). -/
def Obligations.WatchRearmFollowsTheChain : Prop :=
  ∀ (tag : Byte) (payload : List Byte) (s : State) (k : SlotId), s.LowestFree k →
    ((∀ u : UnitId, payload ≠ [byteOf u]) →
      exec (.watchRearm tag payload) s = .next (s.replied k 0x42 tag none .badRequest [])) ∧
    (∀ u : UnitId, payload = [byteOf u] → s.units[u].state = .disabled →
      exec (.watchRearm tag payload) s = .next (s.replied k 0x42 tag (some (.watchRearm u)) .badRequest [])) ∧
    (∀ (first second : UnitId), (first = 0 ∧ second = 1) ∨ (first = 2 ∧ second = 3) →
      (∀ (x y : WatchUnit),
        x = { s.units[first] with state := if s.units[first].state = .fired then .armed else s.units[first].state } →
        y = { s.units[second] with
          state := if s.units[second].setup.chained = true then
              (if s.units[second].state = .armed ∨ s.units[second].state = .fired then .waiting else s.units[second].state)
            else (if s.units[second].state = .fired then .armed else s.units[second].state) } →
        (s.units[second].setup.chained = true →
          (payload = [byteOf first] → s.units[first].state ≠ .disabled → exec (.watchRearm tag payload) s = .next
            (((s.withUnit first x).withUnit second y).replied k 0x42 tag (some (.watchRearm first)) .ok
              [byteOf first, x.state.code, y.state.code])) ∧
          (payload = [byteOf second] → s.units[second].state ≠ .disabled → exec (.watchRearm tag payload) s = .next
            (((s.withUnit second y).withUnit first x).replied k 0x42 tag (some (.watchRearm second)) .ok
              [byteOf second, y.state.code, x.state.code]))) ∧
        (s.units[second].setup.chained = false →
          (payload = [byteOf first] → s.units[first].state ≠ .disabled →
            exec (.watchRearm tag payload) s = .next
              ((s.withUnit first x).replied k 0x42 tag (some (.watchRearm first)) .ok
                [byteOf first, x.state.code, s.units[second].state.code])) ∧
          (payload = [byteOf second] → s.units[second].state ≠ .disabled → exec (.watchRearm tag payload) s = .next
            ((s.withUnit second y).replied k 0x42 tag (some (.watchRearm second)) .ok
              [byteOf second, y.state.code, s.units[first].state.code])))))

/-- WATCH_DISABLE puts the unit in DISABLED in every state, keeps its setup, count remaining, EVT timer and held-over hit, and answers OK
with the previous state; any other payload is BAD_REQUEST (R154). The slot of a request refused before its fields are decoded holds none
of them (the model's choice, log 37). -/
def Obligations.WatchDisableKeepsTheSetup : Prop :=
  ∀ (tag : Byte) (payload : List Byte) (s : State) (k : SlotId), s.LowestFree k →
    (∀ u : UnitId, payload = [byteOf u] → exec (.watchDisable tag payload) s = .next
      ((s.withUnit u { s.units[u] with state := .disabled }).replied k 0x43 tag (some (.watchDisable u)) .ok
        [byteOf u, s.units[u].state.code])) ∧
    ((∀ u : UnitId, payload ≠ [byteOf u]) →
      exec (.watchDisable tag payload) s = .next (s.replied k 0x43 tag none .badRequest []))

/-- A tick of the time base adds 1 to its count modulo 2^32 and takes 1 µs off every running EVT timer (R148, R173). A timer that has
run down stops at its expiry, and the EVT pin is high while some timer runs; the expiry of a timer that has time left, or is stopped,
cannot happen and changes nothing (log 1). -/
def Obligations.TimeBaseTickAndEvtTimers : Prop :=
  (∀ s : State, exec .timeBaseTick s = .next
    { s with
      clock := { s.clock with timeBase := s.clock.timeBase + 1 },
      units := s.units.map fun x => { x with evtTimer := x.evtTimer.map fun t => t - 1 } }) ∧
  (∀ (u : UnitId) (s : State),
    (s.units[u].evtTimer = some 0 → exec (.evtTimerExpiry u) s = .next (s.withUnit u { s.units[u] with evtTimer := none })) ∧
    (s.units[u].evtTimer ≠ some 0 → exec (.evtTimerExpiry u) s = .next s)) ∧
  (∀ s : State, s.evtHigh = true ↔ ∃ u : UnitId, s.units[u].evtTimer.isSome = true)

/-- A record meets a setup when it passes the six tests of R137, and matches it when it meets it with invert no, or fails a test with
invert yes (R137, R138). -/
def Obligations.MatchIsTheSixTestsInvertedAsAWhole : Prop :=
  ∀ (w : WatchSetup) (r : RecordCopy),
    (w.meets r = true ↔
      w.segMask.getLsbD r.segment = true ∧ (w.addrLow.toNat ≤ r.busAddr.toNat ∧ r.busAddr.toNat ≤ w.addrHigh.toNat) ∧
      (w.direction = .any ∨ w.direction = .only r.kind) ∧
      (w.regMask = 0 ∨ (r.regPhase = true ∧ r.regIndex &&& w.regMask = w.regValue &&& w.regMask)) ∧
      (w.dataMask = 0 ∨ ∃ b : Byte, r.firstByte = some b ∧ b &&& w.dataMask = w.dataValue &&& w.dataMask) ∧
      w.outcomes.getLsbD r.outcome.number = true) ∧
    (w.invert = false → (w.isMatch r = true ↔ w.meets r = true)) ∧
    (w.invert = true → (w.isMatch r = true ↔ ¬ w.meets r = true))

/-- A unit takes a record (R140, R142, R144 to R147): one that was not ARMED, or whose setup the record does not match, is left; a match
above count 0 lowers the count by 1; a match at count 0 fires: the EVT timer starts at 8 µs, a WATCH_FIRE marker is offered, a WAITING
chained successor goes to ARMED, and the action follows: a WATCH_HIT for NOTIFY, FREEZE_LOG and HOLD_SEGMENT, the log frozen, the
record's segment held, and the unit FIRED for every action but PULSE. -/
def Obligations.MatchingRecordCountsOrFires : Prop :=
  ∀ (s : State) (u : UnitId) (r : RecordCopy) (armed : Bool),
    (armed = false ∨ s.units[u].setup.isMatch r = false → State.watchUnit r u armed s = s) ∧
    (armed = true → s.units[u].setup.isMatch r = true →
      (0 < s.units[u].countRemaining →
        State.watchUnit r u armed s = s.withUnit u { s.units[u] with countRemaining := s.units[u].countRemaining - 1 }) ∧
      (s.units[u].countRemaining = 0 →
        ∃ (w : WatchUnit) (a b c : State),
          w = { s.units[u] with evtTimer := some 8 } ∧
          a = (s.withUnit u w).offer (.watchFire r.time u w.setup.action r.tag r.segment r.busAddr) ∧
          (((u = 1 ∨ u = 3) → b = a) ∧
            (∀ v : UnitId, (u = 0 ∧ v = 1) ∨ (u = 2 ∧ v = 3) →
              (s.units[v].setup.chained = true ∧ s.units[v].state = .waiting → b = a.withUnit v { s.units[v] with state := .armed }) ∧
              (¬ (s.units[v].setup.chained = true ∧ s.units[v].state = .waiting) → b = a))) ∧
          (w.setup.action = .stage ∨ w.setup.action = .pulse → c = b) ∧
          (w.setup.action = .notify → c = b.raise (.watchHit u .notify 1 r)) ∧
          (w.setup.action = .freezeLog →
            c = { b.raise (.watchHit u .freezeLog 1 r) with log := { b.log with frozen := true } }) ∧
          (w.setup.action = .holdSegment →
            c = (b.raise (.watchHit u .holdSegment 1 r)).withSeg r.segment
              { (b.raise (.watchHit u .holdSegment 1 r)).segs[r.segment] with hold := true }) ∧
          (w.setup.action = .pulse → State.watchUnit r u armed s = c) ∧
          (w.setup.action ≠ .pulse → State.watchUnit r u armed s = c.withUnit u { c.units[u] with state := .fired })))

/-- A record reaches the four units in the order W0, W1, W2, W3, each taken as ARMED or not as it stood when the record was delivered
(R139): a successor armed by the record does not compare it. -/
def Obligations.UnitsTakeARecordInOrder : Prop :=
  ∀ (s : State) (r : RecordCopy),
    s.watchRecord r =
      State.watchUnit r 3 (decide (s.units[3].state = .armed))
        (State.watchUnit r 2 (decide (s.units[2].state = .armed))
          (State.watchUnit r 1 (decide (s.units[1].state = .armed))
            (State.watchUnit r 0 (decide (s.units[0].state = .armed)) s)))

/-! ### The history log -/

/-- LOG_READ of 1–4 records takes the oldest entries out of the log, as many as it holds of those asked for, clears the lost flag, and
answers OK in every mode with their number, the entries left, the lost flag as it stood, the frozen flag, the mode and the records of 16
bytes each; any other payload is BAD_REQUEST (R163). That a set flag goes out as 1, and that bits 2 to 7 of byte 15 of a leg's record
are 0, is the model's choice (logs 29 and 34). The slot of a request refused before its fields are decoded holds none of them (the
model's choice, log 37). -/
def Obligations.LogReadTakesTheOldestEntries : Prop :=
  ∀ (tag : Byte) (payload : List Byte) (s : State) (k : SlotId), s.LowestFree k →
    (∀ n : Nat, 1 ≤ n → n ≤ 4 → payload = [byteOf n] → exec (.logRead tag payload) s = .next
      (State.replied { s with log := { s.log with entries := s.log.entries.drop n, lost := false } } k 0x50 tag
        (some (.logRead n)) .ok
        ([byteOf (min n s.log.entries.length), byteOf (s.log.entries.length - n), boolByte s.log.lost, boolByte s.log.frozen,
          s.log.mode.code] ++ (s.log.entries.take n).flatMap LogEntry.bytes16))) ∧
    ((∀ n : Nat, 1 ≤ n → n ≤ 4 → payload ≠ [byteOf n]) →
      exec (.logRead tag payload) s = .next (s.replied k 0x50 tag none .badRequest [])) ∧
    (∀ e : LogEntry, e.bytes16.length = 16)

/-- LOG_CONTROL: SET_MODE sets the mode, RESUME clears frozen, CLEAR empties the log and clears lost; each keeps the rest and answers OK
with the operation, what stood before it, and the log's mode, frozen flag, entries and lost flag after it. The mode byte of RESUME and
CLEAR may hold any value; a mode other than the three, or a payload of another length, is BAD_REQUEST (R164, R165, R166, R167). That a
set flag goes out as 1 is the model's choice (log 29). The slot of a request refused before its fields are decoded holds none of them
(the model's choice, log 37). -/
def Obligations.LogControlOperations : Prop :=
  ∀ (tag : Byte) (rest : List Byte) (s : State) (k : SlotId), s.LowestFree k →
    (∀ m : LogMode, rest = [m.code] → exec (.setMode tag rest) s = .next
      (State.replied { s with log := { s.log with mode := m } } k 0x51 tag (some (.setMode m)) .ok
        [0, s.log.mode.code, m.code, boolByte s.log.frozen, byteOf s.log.entries.length, boolByte s.log.lost])) ∧
    ((∀ m : LogMode, rest ≠ [m.code]) →
      exec (.setMode tag rest) s = .next (s.replied k 0x51 tag none .badRequest [])) ∧
    (∀ m : Byte, rest = [m] →
      exec (.resume tag rest) s = .next
        (State.replied { s with log := { s.log with frozen := false } } k 0x51 tag (some (.resume m)) .ok
          [1, boolByte s.log.frozen, s.log.mode.code, 0, byteOf s.log.entries.length, boolByte s.log.lost]) ∧
      exec (.clear tag rest) s = .next
        (State.replied { s with log := { s.log with entries := [], lost := false } } k 0x51 tag (some (.clear m)) .ok
          [2, byteOf s.log.entries.length, s.log.mode.code, boolByte s.log.frozen, 0, 0])) ∧
    (rest.length ≠ 1 →
      exec (.resume tag rest) s = .next (s.replied k 0x51 tag none .badRequest []) ∧
      exec (.clear tag rest) s = .next (s.replied k 0x51 tag none .badRequest []))

/-- An offered record is dropped while the log is frozen, in mode OFF, and in EXCEPTIONS where it is a leg's that ended ACKED; else it
becomes the newest entry, and a log of 32 first loses its oldest and sets lost (R160, R161). -/
def Obligations.OfferedRecordIsWrittenOrDropped : Prop :=
  ∀ (s : State) (e : LogEntry) (admitted : Bool),
    (admitted = true ↔
      (s.log.mode = .all ∨ (s.log.mode = .exceptions ∧
        ¬ ∃ t tag role seg addr dir rp idx len n first, e = .leg t tag role seg addr dir rp idx len n .acked first))) →
    (s.log.frozen = true ∨ admitted = false → s.offer e = s) ∧
    (s.log.frozen = false → admitted = true →
      (s.log.entries.length < 32 → s.offer e = { s with log := { s.log with entries := s.log.entries ++ [e] } }) ∧
      (32 ≤ s.log.entries.length →
        s.offer e = { s with log := { s.log with entries := s.log.entries.drop 1 ++ [e], lost := true } }))

/-! ### The clock unit -/

/-- CLOCK_CONFIG of 8–25 MHz replaces the configured frequency and answers with the old and the new one on BACKUP in STEADY, and is answered
BUSY otherwise; any other payload is BAD_REQUEST (R181). The slot of a request refused before its fields are decoded holds none of them
(the model's choice, log 37). -/
def Obligations.ClockConfigReplacesTheFrequency : Prop :=
  ∀ (tag : Byte) (payload : List Byte) (s : State) (k : SlotId), s.LowestFree k →
    (∀ m : Nat, 8 ≤ m → m ≤ 25 → payload = [byteOf m] →
      (s.clock.source = .backup ∧ s.clock.switch = .steady → exec (.clockConfig tag payload) s = .next
        (State.replied { s with clock := { s.clock with frequency := m } } k 0x60 tag (some (.clockConfig m)) .ok
          [byteOf s.clock.frequency, byteOf m])) ∧
      (¬ (s.clock.source = .backup ∧ s.clock.switch = .steady) → exec (.clockConfig tag payload) s = .next
        (s.replied k 0x60 tag (some (.clockConfig m)) .busy []))) ∧
    ((∀ m : Nat, 8 ≤ m → m ≤ 25 → payload ≠ [byteOf m]) →
      exec (.clockConfig tag payload) s = .next (s.replied k 0x60 tag none .badRequest []))

/-- CLOCK_SELECT (R176): BUSY with the target under way while QUIESCING; OK at once for the active source; NOT_PRESENT for a REFERENCE that
is not PRESENT; else QUIESCING begins with all four segments awaited, the slot as owner, and pause-requested on its way to each segment
(R177; log 7). Any other payload is BAD_REQUEST. The slot of a request refused before its fields are decoded holds none of them (the
model's choice, log 37). -/
def Obligations.ClockSelectBeginsTheChange : Prop :=
  ∀ (tag : Byte) (payload : List Byte) (s : State) (k : SlotId), s.LowestFree k →
    (∀ t : Source, payload = [t.code] →
      (∀ u : Source, s.clock.switch = .quiescing u → exec (.clockSelect tag payload) s = .next
        (s.replied k 0x61 tag (some (.clockSelect t)) .busy [u.code])) ∧
      (s.clock.switch = .steady →
        (t = s.clock.source → exec (.clockSelect tag payload) s = .next
          (s.replied k 0x61 tag (some (.clockSelect t)) .ok [t.code, s.clock.source.code, s.clock.refStatus.code])) ∧
        (t ≠ s.clock.source → t = .reference → s.clock.refStatus ≠ .present → exec (.clockSelect tag payload) s = .next
          (s.replied k 0x61 tag (some (.clockSelect t)) .notPresent [s.clock.refStatus.code])) ∧
        (t ≠ s.clock.source → (t = .reference → s.clock.refStatus = .present) → exec (.clockSelect tag payload) s = .next
          (State.took
            { s with
              clock := { s.clock with switch := .quiescing t, awaited := Vector.replicate 4 true, selectOwner := some k },
              segs := s.segs.map fun g => { g with pauseSetting := true } }
            k 0x61 tag (some (.clockSelect t)))))) ∧
    ((∀ t : Source, payload ≠ [t.code]) →
      exec (.clockSelect tag payload) s = .next (s.replied k 0x61 tag none .badRequest []))

/-- CLOCK_STATUS without payload is answered OK in every state of the clock unit with its seven fields, and changes nothing; with a payload
it is BAD_REQUEST (R182). That bits 4 to 7 of the awaited segments byte are 0 is the model's choice (log 33). The slot of a request
refused before its fields are decoded holds none of them (the model's choice, log 37). -/
def Obligations.ClockStatusShowsTheClockUnit : Prop :=
  ∀ (tag : Byte) (payload : List Byte) (s : State) (k : SlotId), s.LowestFree k →
    (payload = [] → exec (.clockStatus tag payload) s = .next
      (s.replied k 0x62 tag (some .clockStatus) .ok
        ([s.clock.source.code] ++
          (match s.clock.switch with
            | .steady => [0, 0]
            | .quiescing t => [1, t.code]) ++
          [boolByte s.clock.awaited[0] ||| (boolByte s.clock.awaited[1] <<< 1) ||| (boolByte s.clock.awaited[2] <<< 2) |||
              (boolByte s.clock.awaited[3] <<< 3),
            s.clock.refStatus.code, byteOf s.clock.frequency] ++ bytes32 s.clock.timeBase))) ∧
    (payload ≠ [] → exec (.clockStatus tag payload) s = .next (s.replied k 0x62 tag none .badRequest []))

/-- The reference monitor (R171, R172): an edge takes ABSENT to STARTING with the good timer at 2 ms, and times the gap of 1.5 µs afresh
in every status; the good timer's end takes STARTING to PRESENT and raises a CLOCK_EVENT. The model's choice: the good timer's end is
believed when it comes (log 10), and it cannot come, and changes nothing, in another status (log 1). -/
def Obligations.ReferenceEdgesMakeItPresent : Prop :=
  ∀ s : State,
    (s.clock.refStatus = .absent → exec .referenceEdge s = .next
      { s with clock := { s.clock with refStatus := .starting, goodTimer := some 2000, gapTimer := some 15 } }) ∧
    (s.clock.refStatus ≠ .absent → exec .referenceEdge s = .next { s with clock := { s.clock with gapTimer := some 15 } }) ∧
    (s.clock.refStatus = .starting → exec .referenceGood s = .next
      (State.raise { s with clock := { s.clock with refStatus := .present, goodTimer := none } }
        (.clockEvent .referenceGood s.clock.source .present 1))) ∧
    (s.clock.refStatus ≠ .starting → exec .referenceGood s = .next s)

/-- The loss of the reference (R171, R172, R175, R179): from STARTING quietly; from PRESENT with a CLOCK_EVENT, after the forced
fallback with its marker where REFERENCE was active, the end of a change to BACKUP, or the abandonment of a change to REFERENCE with
CLOCK_LOST. The model's choice: in ABSENT the event cannot come and changes nothing (log 1), and the end of a change drops the settings
and reports still on their way (log 8). -/
def Obligations.ReferenceLossFallsBack : Prop :=
  ∀ (s a : State) (wires : Wires),
    (s.clock.refStatus = .absent → exec (.referenceLost wires) s = .next s) ∧
    (s.clock.refStatus = .starting → exec (.referenceLost wires) s = .next
      { s with clock := { s.clock with refStatus := .absent, goodTimer := none, gapTimer := none } }) ∧
    (s.clock.refStatus = .present →
      a = { s with wires := wires, clock := { s.clock with refStatus := .absent, goodTimer := none, gapTimer := none } } →
      (s.clock.source = .backup → s.clock.switch = .steady → exec (.referenceLost wires) s = .next
        (a.raise (.clockEvent .referenceLost .backup .absent 1))) ∧
      (s.clock.source = .reference → s.clock.switch = .steady → exec (.referenceLost wires) s = .next
        ((State.offer { a with clock := { a.clock with source := .backup } }
          (.clockSwitch s.clock.timeBase .backup .loss)).raise (.clockEvent .referenceLost .backup .absent 1))) ∧
      (s.clock.source = .reference → s.clock.switch = .quiescing .backup → exec (.referenceLost wires) s = .next
        (((State.offer { a with clock := { a.clock with source := .backup } }
          (.clockSwitch s.clock.timeBase .backup .loss)).switchEnded .backup .ok).raise
            (.clockEvent .referenceLost .backup .absent 1))) ∧
      (s.clock.source = .backup → s.clock.switch = .quiescing .reference → exec (.referenceLost wires) s = .next
        ((a.switchEnded .reference .clockLost).raise (.clockEvent .referenceLost .backup .absent 1))))

/-- The change of source (R177, R178; logs 7 and 8): a segment takes the setting of pause-requested, and reports at once where it is
quiescent; the clock unit takes its reports in order: a quiescence report takes it out of the awaited set, a withdrawal puts it back,
and the report that empties the set completes the change with its marker. A message that is not the first on its way changes
nothing. -/
def Obligations.ReportsCompleteTheChangeOfSource : Prop :=
  ∀ (s : State) (n : SegId) (wires : Wires),
    (s.segs[n].pauseSetting = true → exec (.pauseRequested n) s = .next (s.withSeg n
      { s.segs[n] with
        pauseRequested := true, pauseSetting := false,
        reports := s.segs[n].reports ++
          if s.segs[n].state = .off ∨ s.segs[n].state = .idle ∨ s.segs[n].state = .faulted then [.quiescent] else [] })) ∧
    (s.segs[n].pauseSetting = false → exec (.pauseRequested n) s = .next s) ∧
    (s.segs[n].reports.head? ≠ some .quiescent → exec (.quiescenceReport n wires) s = .next s) ∧
    (s.segs[n].reports.head? ≠ some .withdrawal → exec (.withdrawal n) s = .next s) ∧
    (∀ (rest : List Report) (a : State), a = s.withSeg n { s.segs[n] with reports := rest } →
      (s.segs[n].reports = .withdrawal :: rest →
        (s.clock.switch = .steady → exec (.withdrawal n) s = .next a) ∧
        (∀ t : Source, s.clock.switch = .quiescing t → exec (.withdrawal n) s = .next
          { a with clock := { s.clock with awaited := s.clock.awaited.set n true } })) ∧
      (s.segs[n].reports = .quiescent :: rest →
        (s.clock.switch = .steady → exec (.quiescenceReport n wires) s = .next { a with wires := wires }) ∧
        (∀ t : Source, s.clock.switch = .quiescing t →
          (s.clock.awaited.set n false ≠ Vector.replicate 4 false → exec (.quiescenceReport n wires) s = .next
            { a with wires := wires, clock := { s.clock with awaited := s.clock.awaited.set n false } }) ∧
          (s.clock.awaited.set n false = Vector.replicate 4 false → exec (.quiescenceReport n wires) s = .next
            ((State.offer
              { a with wires := wires, clock := { s.clock with source := t, awaited := s.clock.awaited.set n false } }
              (.clockSwitch s.clock.timeBase t .select)).switchEnded t .ok)))))

/-! ### Segment events -/

/-- A waiting line check reads the lines again (R118, R119): on free lines it starts the head leg, or makes the between-legs decision
where none waits; with SDA held it goes to CLEARING; with SCL held it waits on. The model's choice: it starts the head leg also where
that was appended after a SEG_CONFIG with enable = no (R77, R83; log 25), the clear runs at the rate and limit stored, not at those of a
pending configuration (R84; log 32), and LINE_CHECK_END of a segment in no line check changes nothing (log 1). -/
def Obligations.LineCheckReadsTheLines : Prop :=
  ∀ (s : State) (n : SegId) (wires : Wires),
    (¬ (s.segs[n].state = .active ∧ s.segs[n].inProgress = none) → exec (.lineCheckEnd n wires) s = .next s) ∧
    (s.segs[n].state = .active → s.segs[n].inProgress = none →
      (wires[n].scl = false → exec (.lineCheckEnd n wires) s = .next { s with wires := wires }) ∧
      (wires[n].scl = true → wires[n].sda = false → exec (.lineCheckEnd n wires) s = .next
        (State.withSeg { s with wires := wires } n (s.segs[n].clearing .lineCheck none))) ∧
      (wires[n].scl = true → wires[n].sda = true →
        (s.segs[n].queue = [] → exec (.lineCheckEnd n wires) s = .next (State.decideNext { s with wires := wires } n)) ∧
        (∀ (r : LegRef) (rest : List LegRef), s.segs[n].queue = r :: rest → exec (.lineCheckEnd n wires) s = .next
          ((State.withSlot { s with wires := wires } r.slot
            (s.slots[r.slot].modLeg r.role fun l => { l with state := .inProgress })).withSeg n
              { s.segs[n].started r rest with clear := s.segs[n].clear }))))

/-- Fault entries (R118, R120 to R123, R125, R131): the expiry of a line check's wait with SCL low, a bus clear that reads SDA low with
nine pulses given and one whose wait for SCL expires take the segment to FAULTED; where the clear has an owner its SEG_RESET is then
answered STILL_FAULTED with the pulses given. Readings that do not bring the event about change nothing but the lines as read, and the
same events of a segment in no line check or no clear nothing (log 1). The model's choice: a clear comes as its readings of SDA (log 30),
and at its end the segment holds what the engine did on the lines in it, its pulses and STOPs (R121, R122; log 40). -/
def Obligations.FailedChecksAndClearsEnterFaulted : Prop :=
  ∀ (s : State) (n : SegId) (wires : Wires) (reads : List Bool),
    (s.segs[n].state = .active → s.segs[n].inProgress = none →
      exec (.lineCheckTimeout n wires) s = .next (State.faults { s with wires := wires } n .stuckClock)) ∧
    (¬ (s.segs[n].state = .active ∧ s.segs[n].inProgress = none) → exec (.lineCheckTimeout n wires) s = .next s) ∧
    (∀ c : ClearRecord, s.segs[n].state = .clearing → s.segs[n].clear = some c →
      (∀ (trace : List BusSymbol) (a : State),
        a = State.withSeg { s with wires := wires } n { s.segs[n] with clearTrace := trace } →
        (ClearReturns 10 reads trace →
          (c.owner = none → exec (.busClearEnd n reads wires) s = .next (a.faults n .stuckData)) ∧
          (∀ k : SlotId, c.owner = some k →
            exec (.busClearEnd n reads wires) s = .next ((a.faults n .stuckData).resetEnds n k .stillFaulted 9 .faulted))) ∧
        (∀ pulses : Nat, ClearRunsOn pulses reads trace →
          (c.owner = none → exec (.busClearTimeout n reads wires) s = .next (a.faults n .stuckClock)) ∧
          (∀ k : SlotId, c.owner = some k →
            exec (.busClearTimeout n reads wires) s = .next
              ((a.faults n .stuckClock).resetEnds n k .stillFaulted pulses .faulted)))) ∧
      ((∀ trace, ¬ ClearReturns 10 reads trace) → (∀ pulses trace, ¬ ClearFrees pulses reads trace) →
        exec (.busClearEnd n reads wires) s = .next { s with wires := wires }) ∧
      ((∀ pulses trace, ¬ ClearRunsOn pulses reads trace) →
        exec (.busClearTimeout n reads wires) s = .next { s with wires := wires })) ∧
    (¬ (s.segs[n].state = .clearing ∧ s.segs[n].clear.isSome = true) →
      exec (.busClearEnd n reads wires) s = .next s ∧ exec (.busClearTimeout n reads wires) s = .next s)

/-- A bus clear that reads SDA high before its STOP, in it and at the final check succeeds with the pulses it has given (R121, R122); it
leaves the segment's lines high and ends in the between-legs decision (R78, R123); with an owner the pending configuration is applied,
the segment goes to IDLE and makes the start decision, or to OFF with the stored enable no, and its SEG_RESET is answered OK with that
state and the pulses (R131, R132; logs 9, 16 and 30). The segment holds what the engine did on the lines in the clear, the last of it the
STOP (log 40). -/
def Obligations.SuccessfulClearReturnsToService : Prop :=
  ∀ (s : State) (n : SegId) (wires : Wires) (reads : List Bool) (pulses : Nat) (trace : List BusSymbol) (c : ClearRecord)
    (a : State) (g : Segment),
    s.segs[n].state = .clearing → s.segs[n].clear = some c → ClearFrees pulses reads trace →
    a = State.withSeg { s with wires := wires.set n { scl := true, sda := true } } n
      { s.segs[n] with clear := some { c with pulses := pulses }, clearTrace := trace } →
    g = { s.segs[n].configured with clear := some { c with pulses := pulses }, clearTrace := trace } →
    (c.owner = none → exec (.busClearEnd n reads wires) s = .next (a.decideNext n)) ∧
    (∀ k : SlotId, c.owner = some k →
      (g.stored.enable = true → exec (.busClearEnd n reads wires) s = .next
        (((a.withSeg n (g.rests .idle)).decideStart n).resetEnds n k .ok pulses .idle)) ∧
      (g.stored.enable = false → exec (.busClearEnd n reads wires) s = .next
        (((a.withSeg n (g.rests .off)).failQueued n .segmentOff).resetEnds n k .ok pulses .off)))

/-- LEG_END (R66, R78, R98, R104, R109, R110, R113, R115, R130): where the bytes and the finish are an end of the leg in progress, what the
engine did on the lines joins the trace, which is kept as the last leg's (log 36), its record is delivered and the leg ends; after a
STOP that freed the lines the between-legs decision follows, or the clear of the SEG_RESET that asked for the end; after a conflict or a
failed STOP a bus clear begins, owned by that SEG_RESET, at the rate and limit stored (log 32). An end that cannot be changes nothing
but the lines as read, and one of no leg nothing (logs 1 and 4): so ends CUT of a leg whose CANCEL came after its SEG_RESET. The slots
the engine sends from the START of a leg: SDA low for each 0 of the address bytes, the register index and the data of a WRITE, released
for a 1, for the target's acknowledge and for the bits of a READ, whose bytes it answers with ACK but the last, which it answers with
NACK (R98 to R103); SCL and SDA released before the START of a repeated START, in a conflict there the last (R96, R109); then the STOP,
of which a leg held at its step 2 has only step 3 left (R97, R107). A SEG_CONFIG taken while the leg is cut is applied as the clear of
its SEG_RESET begins (R130; log 39), and with enable = no the legs then queued wait for the reset's end (R130, R131; log 41). -/
def Obligations.LegEndDeliversAndGoesOn : Prop :=
  (∀ (s : State) (n : SegId) (bytes : List WireByte) (finish : LegFinish) (wires : Wires),
    (s.segs[n].inProgress = none → exec (.legEnd n bytes finish wires) s = .next s) ∧
    (∀ (r : Run) (l : LegRecord) (writeData : List Byte) (fields : StopFields), s.segs[n].inProgress = some r →
      s.Runs r l writeData →
      fields =
        { reset := s.segs[n].resetRequested || r.resetDropped,
          cut := (l.cutRequested && !l.cutUnderReset) || r.orphan.isSome } →
      (legEnding l r fields writeData bytes finish = none →
        exec (.legEnd n bytes finish wires) s = .next { s with wires := wires }) ∧
      (∀ high : Bool, r.secondWindow = false →
        (finish = .stop high .cut → r.orphan = none → l.cutRequested = false ∨ l.cutUnderReset = true →
          exec (.legEnd n bytes finish wires) s = .next { s with wires := wires }) ∧
        (finish = .stop high .reset → s.segs[n].resetRequested = false → r.resetDropped = false →
          exec (.legEnd n bytes finish wires) s = .next { s with wires := wires })) ∧
      (∀ (r' : Run) (buf : List Byte) (o : LegOutcome) (ending : LegEnding) (a b : State),
        legEnding l r fields writeData bytes finish = some (r', buf, o, ending) →
        a = State.withSeg { s with wires := wires } n
          { s.segs[n] with trace := s.segs[n].trace ++ endTrace l r writeData bytes finish } →
        b = a.runEnded n r' l (firstByteOf l r' writeData buf) buf o →
        (ending = .stopped → s.segs[n].resetRequested = false →
          exec (.legEnd n bytes finish wires) s = .next (b.decideNext n)) ∧
        (ending = .stopped → s.segs[n].resetRequested = true →
          exec (.legEnd n bytes finish wires) s = .next
            (b.withSeg n (b.segs[n].configured.withdrawn.clearing .reset (b.resetSlot n)))) ∧
        (∀ p : ClearPurpose, ending = .held p →
          exec (.legEnd n bytes finish wires) s = .next
            (b.withSeg n (b.segs[n].withdrawn.clearing p (if s.segs[n].resetRequested then b.resetSlot n else none))))))) ∧
  (∀ (l : LegRecord) (r : Run) (writeData data : List Byte) (high : Bool) (read : StopRead) (last : WireByte), r.Fresh →
    l.readData = [] → last = .ack ∨ last = .nack →
    (∀ r' : Run, r'.secondWindow = true →
      (r'.phase ≠ .stop → endTrace l r' writeData [] (.stop high read) = [.stopBegin, .stopEnd]) ∧
      (r'.phase = .stop → endTrace l r' writeData [] (.stop high read) = [.stopEnd])) ∧
    (∀ k : Fin 8, endTrace l r writeData [] (.conflict (.bit k)) = l.addressSlots.take (k.val + 1)) ∧
    (endTrace l r writeData [last] (.stop high read) = l.addressSlots ++ [.stopBegin, .stopEnd]) ∧
    (l.kind ≠ .probe → l.regPhase = true →
      (∀ k : Fin 8, endTrace l r writeData [.ack] (.conflict (.bit k)) = l.addressSlots ++ (sendSlots l.regIndex).take (k.val + 1)) ∧
      (endTrace l r writeData [.ack, last] (.stop high read) = l.addressSlots ++ sendSlots l.regIndex ++ [.stopBegin, .stopEnd])) ∧
    (l.kind = .read → l.regPhase = true →
      (endTrace l r writeData [.ack, .ack] (.conflict .repeatedStart) = l.addressSlots ++ sendSlots l.regIndex ++ [.release]) ∧
      (∀ k : Fin 8, endTrace l r writeData [.ack, .ack] (.conflict (.bit k)) =
        l.addressSlots ++ sendSlots l.regIndex ++ [.release, .start] ++ (sendSlots (l.busAddr ++ 1#1)).take (k.val + 1)) ∧
      (endTrace l r writeData [.ack, .ack, .nack] (.stop high read) = l.openingSlots ++ [.stopBegin, .stopEnd])) ∧
    (∀ m : Nat, l.kind = .write → l.length = writeData.length → m < l.length →
      (endTrace l r writeData (l.opening ++ List.replicate m .ack ++ [last]) (.stop high read) =
        l.openingSlots ++ (writeData.take (m + 1)).flatMap sendSlots ++ [.stopBegin, .stopEnd]) ∧
      (∀ (k : Fin 8) (b : Byte), writeData[m]? = some b →
        endTrace l r writeData (l.opening ++ List.replicate m .ack) (.conflict (.bit k)) =
          l.openingSlots ++ (writeData.take m).flatMap sendSlots ++ (sendSlots b).take (k.val + 1))) ∧
    (l.kind = .read → 1 ≤ data.length → data.length ≤ l.length →
      (endTrace l r writeData (l.opening ++ data.map WireByte.data) (.stop high read) =
        l.openingSlots ++ (List.replicate (data.length - 1) (receiveSlots true)).flatten ++ receiveSlots false ++ [.stopBegin, .stopEnd]) ∧
      (endTrace l r writeData (l.opening ++ data.map WireByte.data) (.conflict .readNack) =
        l.openingSlots ++ (List.replicate (data.length - 1) (receiveSlots true)).flatten ++ receiveSlots false)))

/-- The outcomes of a leg on the wires. A NACK to the address is ADDR_NACK and to the register index DATA_NACK, with no data; a PROBE
acknowledged is ACKED; a WRITE is ACKED with all its data bytes acknowledged and DATA_NACK at the first that is not, its count the bytes
acknowledged; a READ is ACKED with all its bytes received, in order (R44, R101, R102, R103). Where the engine read a stop field at the
last stop boundary, a leg the wire has not decided is CUT, and every leg is SEGMENT_RESET for reset-requested; the acknowledge of an
address+R byte is no such boundary (R66, R111 to R114; log 26). A failed STOP keeps the outcome (R110). A 1 of the engine's that reads low
is LINE_CONFLICT, with the data bytes completed before it (R108, R109; log 19). That a leg comes as the answers of its target and the
reading at its last stop boundary is the model's choice (log 4). -/
def Obligations.WireAnswersDecideTheOutcome : Prop :=
  ∀ (l : LegRecord) (r : Run) (writeData data : List Byte) (high : Bool) (read : StopRead) (fields : StopFields)
    (ending : LegEnding) (wire : LegOutcome → LegOutcome) (early : LegOutcome), r.Fresh → l.readData = [] →
    ending = (if high then .stopped else .held .stopFailed) →
    (∀ o : LegOutcome, wire o = if read = .reset then .segmentReset else o) →
    early = (if read = .reset then .segmentReset else .cut) →
    ((read = .cut → fields.cut = true) → (read = .reset → fields.reset = true) →
      (∀ pre : List WireByte, pre = [] ∨ (l.kind = .read ∧ l.regPhase = true ∧ pre = [.ack, .ack]) →
        ∃ r' : Run, legEnding l r fields writeData (pre ++ [.nack]) (.stop high read) = some (r', [], wire .addrNack, ending) ∧
          r'.count = 0 ∧ r'.dataPos = 0) ∧
      (l.kind ≠ .probe → l.regPhase = true →
        ∃ r' : Run, legEnding l r fields writeData [.ack, .nack] (.stop high read) = some (r', [], wire .dataNack, ending) ∧
          r'.count = 0 ∧ r'.dataPos = 0) ∧
      (l.kind = .probe →
        ∃ r' : Run, legEnding l r fields writeData l.opening (.stop high read) = some (r', [], wire .acked, ending) ∧
          r'.count = 0) ∧
      (l.kind = .write → 1 ≤ l.length →
        (∃ r' : Run, legEnding l r fields writeData (l.opening ++ List.replicate l.length .ack) (.stop high read) =
          some (r', [], wire .acked, ending) ∧ r'.count = l.length ∧ r'.dataPos = l.length) ∧
        (∀ m : Nat, m < l.length →
          ∃ r' : Run, legEnding l r fields writeData (l.opening ++ List.replicate m .ack ++ [.nack]) (.stop high read) =
            some (r', [], wire .dataNack, ending) ∧ r'.count = m ∧ r'.dataPos = m + 1)) ∧
      (l.kind = .read → 1 ≤ l.length → data.length = l.length →
        ∃ r' : Run, legEnding l r fields writeData (l.opening ++ data.map WireByte.data) (.stop high read) =
          some (r', data, wire .acked, ending) ∧ r'.count = l.length) ∧
      (read ≠ .noField →
        (l.kind ≠ .probe → l.regPhase = true → ∀ pre : List WireByte, pre = [.ack] ∨ pre = [.ack, .ack] →
          ∃ r' : Run, legEnding l r fields writeData pre (.stop high read) = some (r', [], early, ending) ∧
            r'.count = 0 ∧ r'.dataPos = 0) ∧
        (l.kind = .write → ∀ m : Nat, m < l.length →
          ∃ r' : Run, legEnding l r fields writeData (l.opening ++ List.replicate m .ack) (.stop high read) =
            some (r', [], early, ending) ∧ r'.count = m ∧ r'.dataPos = m) ∧
        (l.kind = .read → 1 ≤ data.length → data.length < l.length →
          ∃ r' : Run, legEnding l r fields writeData (l.opening ++ data.map WireByte.data) (.stop high read) =
            some (r', data, early, ending) ∧ r'.count = data.length) ∧
        (l.kind = .read → legEnding l r fields writeData l.opening (.stop high read) = none)) ∧
      (read = .noField → (l.kind = .write ∨ l.kind = .read) → 1 ≤ l.length →
        legEnding l r fields writeData l.opening (.stop high read) = none)) ∧
    (legEnding l r fields writeData [] (.stop high read) = none) ∧
    ((read = .cut ∧ fields.cut = false) ∨ (read = .reset ∧ fields.reset = false) →
      ∀ bytes : List WireByte, legEnding l r fields writeData bytes (.stop high read) = none) ∧
    (∀ (pre : List WireByte) (sent : Byte) (m : Nat) (k : Fin 8),
      (pre = [] ∧ sent = l.busAddr ++ (if l.kind = .read ∧ l.regPhase = false then 1#1 else 0#1) ∧ m = 0) ∨
        (l.kind ≠ .probe ∧ l.regPhase = true ∧ pre = [.ack] ∧ sent = l.regIndex ∧ m = 0) ∨
        (l.kind = .read ∧ l.regPhase = true ∧ pre = [.ack, .ack] ∧ sent = l.busAddr ++ 1#1 ∧ m = 0) ∨
        (l.kind = .write ∧ m < l.length ∧ pre = l.opening ++ List.replicate m .ack ∧ writeData[m]? = some sent) →
      (sent.getMsbD k = true →
        ∃ r' : Run, legEnding l r fields writeData pre (.conflict (.bit k)) =
          some (r', [], .lineConflict, .held .conflict) ∧ r'.count = m) ∧
      (sent.getMsbD k = false → legEnding l r fields writeData pre (.conflict (.bit k)) = none)) ∧
    (l.kind = .read → l.regPhase = true →
      ∃ r' : Run, legEnding l r fields writeData [.ack, .ack] (.conflict .repeatedStart) =
        some (r', [], .lineConflict, .held .conflict) ∧ r'.count = 0) ∧
    (l.kind = .read → 1 ≤ data.length → data.length ≤ l.length →
      (data.length = l.length ∨ fields.cut = true ∨ fields.reset = true →
        ∃ r' : Run, legEnding l r fields writeData (l.opening ++ data.map WireByte.data) (.conflict .readNack) =
          some (r', data, .lineConflict, .held .conflict) ∧ r'.count = data.length) ∧
      (∀ k : Fin 8, legEnding l r fields writeData (l.opening ++ data.map WireByte.data) (.conflict (.bit k)) = none))

/-- STRETCH_TIMEOUT completes (R106, R107): a leg whose target answered these bytes and then holds SCL low keeps its run record with the
second stretch window open. Before the closing STOP the phase is STRETCH_WAIT, both lines are released and the outcome is
STRETCH_TIMEOUT, whatever stop field is set (R113), with the bytes completed before as the count, in the bits of a byte, in the
acknowledge slot of a READ byte, ACK or NACK by what its stop boundary read (R112), and at the repeated START. In the closing STOP the
outcome is the one with which the leg went into it, the wire's or the one fixed at its last stop boundary, with SDA still low (logs 4, 11
and 27). The bit position is the model's choice where the engine is in no byte: 0 at the repeated START, as it was in the STOP (log 38).
Run record and read data are the bytes' but for that, and what the engine did joins the trace, the slot held among it, and before the
closing STOP the release of SDA (R98, R106; log 36). From the start of a leg: the first byte at bit `k`, a WRITE's data byte, a READ's
acknowledge slot, the repeated START, and the STOP after an outcome the wire decided. A wait that cannot be, or of no leg, changes nothing
(log 1). -/
def Obligations.StretchTimeoutOpensTheSecondWindow : Prop :=
  (∀ (s : State) (n : SegId) (bytes : List WireByte) (place : StretchPlace),
    (s.segs[n].inProgress = none → exec (.stretchTimeout n bytes place) s = .next s) ∧
    (∀ (r : Run) (l : LegRecord) (writeData : List Byte) (fields : StopFields) (a : State), s.segs[n].inProgress = some r →
      s.Runs r l writeData →
      fields =
        { reset := s.segs[n].resetRequested || r.resetDropped,
          cut := (l.cutRequested && !l.cutUnderReset) || r.orphan.isSome } →
      a = s.withSeg n { s.segs[n] with trace := s.segs[n].trace ++ stretchTrace l r writeData bytes place } →
      (stretchAt l r fields bytes place = none → exec (.stretchTimeout n bytes place) s = .next s) ∧
      (wireBytes l r l.readData bytes = none → exec (.stretchTimeout n bytes place) s = .next s) ∧
      (∀ (r1 : Run) (buf : List Byte), wireBytes l r l.readData bytes = some (r1, buf) →
        (∀ k : Fin 9, place = .bit k → r1.decided = none → ¬ (r1.bytePhase l = .data ∧ l.kind = .read ∧ k = 8) →
          exec (.stretchTimeout n bytes place) s = .next (a.stretched n
            { r1 with
              phase := .stretchWait, bitPos := k, dataPos := if r1.bytePhase l = .data then r1.dataPos + 1 else r1.dataPos,
              decided := some .stretchTimeout, secondWindow := true } buf)) ∧
        (∀ read : StopRead, place = .readAck read → l.kind = .read → 0 < r1.count → r1.secondWindow = false →
          (read = .cut → fields.cut = true) → (read = .reset → fields.reset = true) →
          exec (.stretchTimeout n bytes place) s = .next (a.stretched n
            { r1 with phase := .stretchWait, bitPos := 8, decided := some .stretchTimeout, secondWindow := true } buf)) ∧
        (place = .repeatedStart → r1.decided = none → r1.phase = .repeatedStart →
          exec (.stretchTimeout n bytes place) s = .next (a.stretched n
            { r1 with phase := .stretchWait, bitPos := 0, decided := some .stretchTimeout, secondWindow := true } buf)) ∧
        (∀ (read : StopRead) (o : LegOutcome), place = .closingStop read → ¬ (r1.phase = .stop ∧ r1.secondWindow = true) →
          (closingOutcome l r1 fields read = some o ∨ (r1.secondWindow = true ∧ r1.decided = some o) ∨
            (read = .noField ∧ r1.decided = some o) ∨ (read = .cut ∧ fields.cut = true ∧ r1.decided = some o)) →
          exec (.stretchTimeout n bytes place) s = .next (a.stretched n
            { r1 with phase := .stop, decided := some o, secondWindow := true } buf))) ∧
      (r.Fresh → l.readData = [] →
        (∀ k : Fin 9, bytes = [] → place = .bit k → exec (.stretchTimeout n bytes place) s = .next (a.stretched n
          { r with phase := .stretchWait, bitPos := k, decided := some .stretchTimeout, secondWindow := true } [])) ∧
        (∀ (k : Fin 9) (m : Nat), l.kind = .write → m < l.length → bytes = l.opening ++ List.replicate m .ack → place = .bit k →
          exec (.stretchTimeout n bytes place) s = .next (a.stretched n
            { r with
              phase := .stretchWait, dataPos := m + 1, bitPos := k, count := m, decided := some .stretchTimeout,
              secondWindow := true } [])) ∧
        (∀ (data : List Byte) (read : StopRead), l.kind = .read → 1 ≤ data.length → data.length ≤ l.length →
          bytes = l.opening ++ data.map WireByte.data → place = .readAck read →
          (read = .cut → fields.cut = true) → (read = .reset → fields.reset = true) →
          exec (.stretchTimeout n bytes place) s = .next (a.stretched n
            { r with
              phase := .stretchWait, dataPos := data.length, bitPos := 8, count := data.length, decided := some .stretchTimeout,
              secondWindow := true } data)) ∧
        (l.kind = .read → l.regPhase = true → bytes = [.ack, .ack] → place = .repeatedStart →
          exec (.stretchTimeout n bytes place) s = .next (a.stretched n
            { r with phase := .stretchWait, bitPos := 0, decided := some .stretchTimeout, secondWindow := true } [])) ∧
        (bytes = [.nack] → place = .closingStop .noField →
          exec (.stretchTimeout n bytes place) s = .next (a.stretched n
            { r with phase := .stop, bitPos := 8, decided := some .addrNack, secondWindow := true } [])) ∧
        (l.kind = .write → 1 ≤ l.length → bytes = l.opening ++ List.replicate l.length .ack → place = .closingStop .noField →
          exec (.stretchTimeout n bytes place) s = .next (a.stretched n
            { r with
              phase := .stop, dataPos := l.length, bitPos := 8, count := l.length, decided := some .acked,
              secondWindow := true } []))))) ∧
  (∀ (l : LegRecord) (r : Run) (writeData data : List Byte) (read : StopRead), r.Fresh → l.readData = [] →
    (∀ k : Fin 9, stretchTrace l r writeData [] (.bit k) = l.addressSlots.take (k.val + 1) ++ [.giveUp]) ∧
    (stretchTrace l r writeData [.nack] (.closingStop read) = l.addressSlots ++ [.stopBegin]) ∧
    (l.kind = .read → l.regPhase = true →
      stretchTrace l r writeData [.ack, .ack] .repeatedStart = l.addressSlots ++ sendSlots l.regIndex ++ [.release, .giveUp]) ∧
    (l.kind = .write → l.length = writeData.length →
      (∀ (m : Nat) (k : Fin 9) (b : Byte), writeData[m]? = some b →
        stretchTrace l r writeData (l.opening ++ List.replicate m .ack) (.bit k) =
          l.openingSlots ++ (writeData.take m).flatMap sendSlots ++ (sendSlots b).take (k.val + 1) ++ [.giveUp]) ∧
      (1 ≤ l.length →
        stretchTrace l r writeData (l.opening ++ List.replicate l.length .ack) (.closingStop read) =
          l.openingSlots ++ writeData.flatMap sendSlots ++ [.stopBegin])) ∧
    (l.kind = .read → 1 ≤ data.length → data.length ≤ l.length →
      (stretchTrace l r writeData (l.opening ++ data.map WireByte.data) (.readAck read) =
        l.openingSlots ++ (List.replicate (data.length - 1) (receiveSlots true)).flatten ++
          receiveSlots (if read = .noField ∧ data.length < l.length then true else false) ++ [.giveUp]) ∧
      (∀ k : Fin 8, data.length < l.length →
        stretchTrace l r writeData (l.opening ++ data.map WireByte.data) (.bit k.castSucc) =
          l.openingSlots ++ (List.replicate data.length (receiveSlots true)).flatten ++ List.replicate (k.val + 1) (.slot false) ++ [.giveUp])))

/-- SECOND_STRETCH_WINDOW_END (R106, R125, R130): with the window open the decided outcome stands, the leg's record is delivered and the
segment enters FAULTED with STUCK_CLOCK; where a SEG_RESET asked for the end, its clear then begins. With no window open it changes
nothing but the lines as read, and of no leg nothing (log 1). A SEG_CONFIG made pending while the leg was cut is applied as that clear
begins (the model's choice, log 39). -/
def Obligations.SecondWindowEndEntersFaulted : Prop :=
  ∀ (s : State) (n : SegId) (wires : Wires),
    (s.segs[n].inProgress = none → exec (.secondStretchWindowEnd n wires) s = .next s) ∧
    (∀ (r : Run) (l : LegRecord) (writeData : List Byte), s.segs[n].inProgress = some r → s.Runs r l writeData →
      (r.secondWindow = false ∨ r.decided = none → exec (.secondStretchWindowEnd n wires) s = .next { s with wires := wires }) ∧
      (∀ (o : LegOutcome) (b : State), r.secondWindow = true → r.decided = some o →
        b = (State.runEnded { s with wires := wires } n r l (firstByteOf l r writeData l.readData) l.readData o).faults n
          .stuckClock →
        (s.segs[n].resetRequested = false → exec (.secondStretchWindowEnd n wires) s = .next b) ∧
        (s.segs[n].resetRequested = true → exec (.secondStretchWindowEnd n wires) s = .next
          (b.withSeg n (b.segs[n].configured.withdrawn.clearing .reset (b.resetSlot n))))))

/-! ### The link -/

/-- A select begins (R184, R190): no frame is part-way out, and the head message begins, if there is one. MESSAGE_BEGIN, the port's
choice of a byte within a select, begins the head message unless a frame is part-way out or a soft reset was taken in this select. The
link-status byte is captured then: OVERRUN, FRAME_ERR, TRUNCATED and more queued in bits 0 to 3 (log 6). A fall of LSEL_N while RST_N
is low begins no select (R195; log 28). The model's choice: a SELECT_BEGIN within a select, and a MESSAGE_BEGIN where none can come,
change nothing (log 1). -/
def Obligations.SelectAndMessageBeginSendTheHead : Prop :=
  ∀ s a : State,
    a = { s with link := { s.link with selected := true, resetInSelect := false, outFrame := none } } →
    (s.link.selected = true ∨ s.link.rstLow = true → exec .selectBegin s = .next s) ∧
    (s.link.selected = false → s.link.rstLow = false → s.link.queue = [] → exec .selectBegin s = .next a) ∧
    (s.link.selected = false ∨ s.link.outFrame.isSome = true ∨ s.link.resetInSelect = true ∨ s.link.queue = [] →
      exec .messageBegin s = .next s) ∧
    (∀ (m : OutMessage) (rest : List OutMessage) (status : Byte) (body : List Byte), s.link.queue = m :: rest →
      status = boolByte s.link.flags.overrun ||| (boolByte s.link.flags.frameErr <<< 1) |||
        (boolByte s.link.flags.truncated <<< 2) ||| (boolByte (decide (rest ≠ [])) <<< 3) →
      s.Carries m status body →
      (s.link.selected = false → s.link.rstLow = false → exec .selectBegin s = .next (a.begins m rest body)) ∧
      (s.link.selected = true → s.link.outFrame = none → s.link.resetInSelect = false →
        exec .messageBegin s = .next (s.begins m rest body)))

/-- FRAME_SENT takes the head message out of the queue: the slot of a reply is released, a notice held over by its source is appended
(R12, R191). SELECT_RELEASE discards a partial inbound frame with TRUNCATED and ends the outbound frame: one sampled whole is sent, any
other is cut and its message stays at the head (R187, R192; log 6). The model's choice: FRAME_SENT with no frame part-way out, and
SELECT_RELEASE with no select, cannot come and change nothing (log 1); a frame part-way out with an empty queue, which no run reaches, is
only dropped (log 22). -/
def Obligations.MessageLeavesWhenItsFrameIsSent : Prop :=
  ∀ (s a : State) (f : OutFrame) (m : OutMessage) (rest : List OutMessage),
    (s.link.outFrame = none → exec .frameSent s = .next s) ∧
    (s.link.outFrame = some f → s.link.queue = [] →
      exec .frameSent s = .next { s with link := { s.link with outFrame := none } }) ∧
    (s.link.outFrame = some f → s.link.queue = m :: rest → exec .frameSent s = .next (s.sent m rest)) ∧
    (s.link.selected = false → exec .selectRelease s = .next s) ∧
    (s.link.selected = true →
      a = { s with link := { s.link with
        assembler := .hunt,
        flags := { s.link.flags with truncated := s.link.flags.truncated || decide (s.link.assembler ≠ .hunt) } } } →
      (s.link.outFrame = none →
        exec .selectRelease s = .next { a with link := { a.link with selected := false, resetInSelect := false } }) ∧
      (s.link.outFrame = some f → f.sent ≠ f.bytes.length →
        exec .selectRelease s = .next
          { a with link := { a.link with outFrame := none, selected := false, resetInSelect := false } }) ∧
      (s.link.outFrame = some f → f.sent = f.bytes.length → s.link.queue = m :: rest →
        exec .selectRelease s = .next
          { a.sent m rest with link := { (a.sent m rest).link with selected := false, resetInSelect := false } }) ∧
      (s.link.outFrame = some f → f.sent = f.bytes.length → s.link.queue = [] →
        exec .selectRelease s = .next
          { a with link := { a.link with outFrame := none, selected := false, resetInSelect := false } }))

/-- BYTE_BOUNDARY within a select advances the outbound frame by a byte and gives the inbound byte to the assembler: HUNT looks for the
marker, LENGTH takes 2–96, BODY that many bytes, CRC two; a length out of range and a wrong CRC set FRAME_ERR, as the event FRAME_ERR
does, and return it to HUNT (R184, R185, R186; log 6). Outside a select, and while RST_N is low, a byte changes nothing (R184, R195; logs 1
and 28); that the event FRAME_ERR is taken outside a select too is the model's choice (log 35). -/
def Obligations.InboundBytesBuildFrames : Prop :=
  ∀ (b : Byte) (wires : Wires) (s a bad : State) (take : Assembler → State),
    a = { s with
      wires := wires,
      link := { s.link with outFrame := s.link.outFrame.map fun f => { f with sent := min (f.sent + 1) f.bytes.length } } } →
    bad = { a with link := { a.link with assembler := .hunt, flags := { a.link.flags with frameErr := true } } } →
    (∀ m : Assembler, take m = { a with link := { a.link with assembler := m } }) →
    (s.link.rstLow = false → exec .frameErr s = .next
      { s with link := { s.link with assembler := .hunt, flags := { s.link.flags with frameErr := true } } }) ∧
    (s.link.rstLow = true → exec .frameErr s = .next s) ∧
    (s.link.selected = false ∨ s.link.rstLow = true → exec (.byteBoundary b wires) s = .next s) ∧
    (s.link.selected = true → s.link.rstLow = false →
      (s.link.assembler = .hunt → b = 0xB7 → exec (.byteBoundary b wires) s = .next (take .length)) ∧
      (s.link.assembler = .hunt → b ≠ 0xB7 → exec (.byteBoundary b wires) s = .next (take .hunt)) ∧
      (s.link.assembler = .length → 2 ≤ b.toNat → b.toNat ≤ 96 →
        exec (.byteBoundary b wires) s = .next (take (.body b.toNat []))) ∧
      (s.link.assembler = .length → b.toNat < 2 ∨ 96 < b.toNat → exec (.byteBoundary b wires) s = .next bad) ∧
      (∀ (len : Nat) (bytes : List Byte), s.link.assembler = .body len bytes →
        (bytes.length + 1 ≠ len → exec (.byteBoundary b wires) s = .next (take (.body len (bytes ++ [b])))) ∧
        (bytes.length + 1 = len → exec (.byteBoundary b wires) s = .next (take (.crc len (bytes ++ [b]) none)))) ∧
      (∀ (len : Nat) (bytes : List Byte), s.link.assembler = .crc len bytes none →
        exec (.byteBoundary b wires) s = .next (take (.crc len bytes (some b)))) ∧
      (∀ (len : Nat) (bytes : List Byte) (hi : Byte), s.link.assembler = .crc len bytes (some hi) →
        crc16 (byteOf len :: bytes) ≠ hi ++ b → exec (.byteBoundary b wires) s = .next bad))

/-- The byte that completes a good frame delivers its body within that event (R186): it does what the command of its request does, or
UNKNOWN_TYPE for an unlisted type; a LOG_CONTROL of another operation, or of none, is answered BAD_REQUEST, or discarded with OVERRUN
(R3, R5, R164; log 5). The CRC gives the spec's check value. -/
def Obligations.GoodFrameIsItsRequest : Prop :=
  (∀ (b hi type tag : Byte) (payload : List Byte) (len : Nat) (wires : Wires) (s a : State), s.link.selected = true →
    s.link.rstLow = false → s.link.assembler = .crc len (type :: tag :: payload) (some hi) →
    crc16 (byteOf len :: type :: tag :: payload) = hi ++ b →
    a = { s with
      wires := wires,
      link := { s.link with outFrame := s.link.outFrame.map fun f => { f with sent := min (f.sent + 1) f.bytes.length } } } →
    (∀ c : Instr, c.frameBody = some (type, tag, payload) → (∀ w : Wires, c.wires = some w → w = wires) →
      exec (.byteBoundary b wires) s = exec c a) ∧
    (type ∉ requestTypes → exec (.byteBoundary b wires) s = exec (.unknownType type tag payload) a) ∧
    (type = 0x51 → (∀ (op : Byte) (rest : List Byte), payload = op :: rest → 3 ≤ op.toNat) →
      (a.NoneFree → exec (.byteBoundary b wires) s = .next
        { a with link := { a.link with assembler := .hunt, flags := { a.link.flags with overrun := true } } }) ∧
      (∀ k : SlotId, a.LowestFree k →
        exec (.byteBoundary b wires) s = .next (a.replied k 0x51 tag none .badRequest [])))) ∧
  crc16 [0x31, 0x32, 0x33, 0x34, 0x35, 0x36, 0x37, 0x38, 0x39] = 0x29B1

/-- A raised notice (R194, R127, R150, R172): appended with its count where its source has none queued or held over; folded into the
queued one where that has not begun, the count rising by 1 and staying at 255; held over, or folded into the held-over one, where it
has. ATTN_N is low exactly while the queue holds a message and RST_N is high (R193). -/
def Obligations.RaisedNoticeIsAppendedFoldedOrHeld : Prop :=
  ∀ (s : State) (n : Notice),
    (s.noticeCount n.source = 0 → s.held n.source = none →
      s.raise n = { s with link := { s.link with queue := s.link.queue ++ [{ content := .notice n, begun := false }] } }) ∧
    (∀ (front back : List OutMessage) (m : OutMessage) (old : Notice), s.link.queue = front ++ m :: back →
      m.content = .notice old → old.source = n.source → (∀ x ∈ front ++ back, OutMessage.isFrom n.source x = false) →
      (m.begun = false → s.raise n = { s with link := { s.link with
        queue := front ++ { content := .notice (n.withCount (min 255 (old.count + 1))), begun := false } :: back } }) ∧
      (m.begun = true →
        (s.held n.source = none → s.raise n = s.setHeld n.source (some n)) ∧
        (∀ h : Notice, s.held n.source = some h →
          s.raise n = s.setHeld n.source (some (n.withCount (min 255 (h.count + 1))))))) ∧
    (s.attnLow = true ↔ s.link.queue ≠ [] ∧ s.link.rstLow = false)

/-! ### The delivery of a record -/

/-- A completion record that calls for no fallback twin goes first to the log, then to its slot, then to the watch units (R53, R54): the
slot stays WORKING while a leg of it is not DONE and delivered, and else is answered with its reconciled result and fields, its reply
queued before any notice of a watch unit (log 13). The record of a primary that calls for the twin of a MIRROR_FALLBACK read has it built
from the stored resolution between the log and the watch units, and the slot stays WORKING: the twin joins its segment, or ends at once
where that is out of service, and then its own record is delivered next (R49, R50, R54). -/
def Obligations.RecordIsLoggedReconciledAndWatched : Prop :=
  ∀ (s b : State) (r : CompletionRecord) (x : Slot), s.slots[r.slot].state = .working →
    x = s.slots[r.slot].modLeg r.role (fun l => { l with delivered := true }) →
    b = (s.offer r.toRecordCopy.logEntry).withSlot r.slot x →
    (¬ (r.role = .primary ∧ r.kind = .read ∧ x.policy = .mirrorFallback ∧ r.outcome ≠ .acked ∧ x.cancelled = false ∧
        x.twin = none) →
      ((∃ (role : Role) (l : LegRecord), x.leg role = some l ∧ ¬ (l.state = .done ∧ l.delivered = true)) →
        deliverAll (s, [r]) = b.watchRecord r.toRecordCopy) ∧
      (∀ p : LegRecord, x.primary = some p →
        (∀ (role : Role) (l : LegRecord), x.leg role = some l → l.state = .done ∧ l.delivered = true) →
        deliverAll (s, [r]) =
          (b.closes r.slot x (reconcile x.cancelled x.policy p x.twin)
            (transferFields (reconcile x.cancelled x.policy p x.twin) p x.twin)).watchRecord r.toRecordCopy)) ∧
    (∀ (p t : LegRecord) (res : Resolution) (n : SegId) (addr : BusAddr) (target : Target) (reg : Byte) (length : Nat),
      r.role = .primary → r.kind = .read → r.outcome ≠ .acked → x.primary = some p → x.twin = none → x.cancelled = false →
      x.resolution = some res → res.policy = .mirrorFallback → res.twin = some (n, addr) →
      x.request = some (.read target reg length) →
      t = { slot := r.slot, role := .twin, segment := n, busAddr := addr, kind := .read, regPhase := res.regPhase, regIndex := reg,
            length := length, state := .queued, outcome := none, bytes := 0, readData := [], cutRequested := false,
            cutUnderReset := false, delivered := false } →
      ((s.segs[n].Waits ∨ s.segs[n].Startable) →
        deliverAll (s, [r]) =
          ((b.withSlot r.slot { x with twin := some t }).accepts n { slot := r.slot, role := .twin }).watchRecord
            r.toRecordCopy) ∧
      (∀ (o : LegOutcome) (code : ResultCode), s.segs[n].Refuses o code →
        deliverAll (s, [r]) =
          deliverAll ((b.withSlot r.slot { x with twin := some (t.failed o) }).watchRecord r.toRecordCopy,
            [{ t.copy s.clock.timeBase x.tag 0 o none with readData := [] }])))

/-- The tables of reconciliation: CANCELLED for a cancelled slot (R57); a single leg gives the code named after its outcome (R58); a
fallback read FROM_TWIN where its twin succeeds, else the primary's code (R61); two legs OK, COMPARE_MISMATCH on unequal data,
TWIN_DIVERGED where one succeeds, else the primary's code (R59, R60); the reply's fields and the read data by the result (R62, R63). -/
def Obligations.ReconciliationFollowsTheTables : Prop :=
  ∀ (policy : TwinPolicy) (p : LegRecord) (po : LegOutcome), p.outcome = some po →
    (∀ twin : Option LegRecord, reconcile true policy p twin = .cancelled) ∧
    (∀ named : ResultCode,
      (po, named) ∈
        [(LegOutcome.acked, ResultCode.ok), (.addrNack, .addrNack), (.dataNack, .dataNack), (.stretchTimeout, .stretchTimeout),
          (.lineConflict, .lineConflict), (.segmentOff, .segmentOff), (.segmentFaulted, .segmentFaulted),
          (.segmentReset, .segmentReset)] →
      (reconcile false policy p none = named) ∧
      (∀ (t : LegRecord) (tw : LegOutcome), t.outcome = some tw →
        (policy = .mirrorFallback → p.kind = .read → po ≠ .acked →
          (tw = .acked → reconcile false policy p (some t) = .fromTwin) ∧
          (tw ≠ .acked → reconcile false policy p (some t) = named)) ∧
        (¬ (policy = .mirrorFallback ∧ p.kind = .read) →
          (po = .acked → tw = .acked →
            (p.kind = .read ∧ policy = .mirrorCompare ∧ p.readData ≠ t.readData →
              reconcile false policy p (some t) = .compareMismatch) ∧
            (¬ (p.kind = .read ∧ policy = .mirrorCompare ∧ p.readData ≠ t.readData) →
              reconcile false policy p (some t) = .ok)) ∧
          (¬ (po = .acked ↔ tw = .acked) → reconcile false policy p (some t) = .twinDiverged) ∧
          (po ≠ .acked → tw ≠ .acked → reconcile false policy p (some t) = named)))) ∧
    (∀ res : ResultCode, transferFields res p none = [po.code, byteOf p.bytes, 0] ++ replyData res p none) ∧
    (∀ (t : LegRecord) (tw : LegOutcome), t.outcome = some tw →
      (∀ res : ResultCode,
        transferFields res p (some t) =
          [po.code, byteOf p.bytes, 1, tw.code, byteOf t.bytes] ++ replyData res p (some t)) ∧
      (p.kind = .read →
        replyData .fromTwin p (some t) = t.readData ∧ replyData .compareMismatch p (some t) = p.readData ++ t.readData ∧
        replyData .twinDiverged p (some t) = if po = .acked then p.readData else t.readData)) ∧
    (∀ (res : ResultCode) (twin : Option LegRecord),
      (p.kind ≠ .read → replyData res p twin = []) ∧
      (p.kind = .read → res = .ok → replyData res p twin = p.readData) ∧
      (res ≠ .ok → res ≠ .fromTwin → res ≠ .twinDiverged → res ≠ .compareMismatch → replyData res p twin = []))

/-! ### The laws -/

/-- The state after power-on reset meets every law. -/
def Obligations.ResetStateMeetsEveryLaw : Prop :=
  RouteLaw State.reset ∧ LogLaw State.reset ∧ WatchLaw State.reset ∧ ClockLaw State.reset ∧ SegLaw State.reset ∧
    SlotLaw State.reset ∧ LiveTagLaw State.reset ∧ OutboundLaw State.reset ∧ LegLaw State.reset

/-- Every step keeps the placement limits of the enabled windows (R22), the log within 32 records (R161) and the laws of the watch units
(R140, R141, R143, R148). -/
def Obligations.EveryStepKeepsTheRouteLogAndWatchLaws : Prop :=
  ∀ s t : State, step s = .next t →
    (RouteLaw s → RouteLaw t) ∧ (LogLaw s → LogLaw t) ∧ (WatchLaw s → WatchLaw t)

/-- Every step keeps the law of the clock unit and of the segments it pauses (R170, R171, R175, R176, R178, R179, R181). -/
def Obligations.EveryStepKeepsTheClockLaw : Prop := ∀ s t : State, step s = .next t → ClockLaw s → ClockLaw t

/-- Every step keeps the law of the segments (R72, R73, R82, R84, R92, R120) and, where the enabled windows keep the placement limits of
R22 and the outbound queue its law, the law of the legs: two legs of a transaction are never on one segment (R46), a queue holds QUEUED
legs of its own segment, and a leg in progress that is no orphan is IN_PROGRESS on its segment (R72). Of every state that keeps the law
of the legs: a queue holds at most 8 legs; a leg stands in at most one queue, and there at most once; a leg in progress stands in no
queue and is in progress on one segment alone (R48, R75). -/
def Obligations.EveryStepKeepsTheSegmentLaw : Prop :=
  (∀ s t : State, step s = .next t → (SegLaw s → SegLaw t) ∧ (RouteLaw s → OutboundLaw s → LegLaw s → LegLaw t)) ∧
    ∀ s : State, LegLaw s →
      (∀ n : SegId, s.segs[n].queue.length ≤ 8) ∧
      (∀ (n : SegId) (r : LegRef), s.segs[n].queue.count r ≤ 1) ∧
      (∀ (m n : SegId) (r : LegRef), m ≠ n → r ∈ s.segs[m].queue → r ∉ s.segs[n].queue) ∧
      (∀ (m : SegId) (r : Run), s.segs[m].inProgress = some r → r.orphan = none →
        (∀ n : SegId, r.leg ∉ s.segs[n].queue) ∧
        ∀ (n : SegId) (q : Run), s.segs[n].inProgress = some q → q.orphan = none → q.leg = r.leg → n = m)

/-- Every step keeps the slot records well formed (R1), no tag live in two slots (R6), and the law of the outbound queue (R189, R192,
R194). Where the law of the legs holds too, a reply is queued only when every leg of its slot is DONE, and none of them then stands in a
queue or is in progress (R55). -/
def Obligations.EveryStepKeepsTheSlotAndOutboundLaws : Prop :=
  (∀ s t : State, step s = .next t →
    (SlotLaw s → SlotLaw t) ∧ (LiveTagLaw s → LiveTagLaw t) ∧ (OutboundLaw s → OutboundLaw t)) ∧
    ∀ s : State, OutboundLaw s → LegLaw s → ∀ k : SlotId, s.slots[k].state = .answered ∨ 0 < s.replyCount k →
      (∀ (role : Role) (l : LegRecord), s.slots[k].leg role = some l → l.state = .done) ∧
      ∀ n : SegId, (∀ r ∈ s.segs[n].queue, r.slot ≠ k) ∧
        ∀ q : Run, s.segs[n].inProgress = some q → q.orphan = none → q.leg.slot ≠ k

/-- The outbound queue never holds more than 18 messages: eight replies and ten notices (R189). -/
def Obligations.OutboundQueueHoldsAtMostEighteen : Prop := ∀ s : State, OutboundLaw s → s.link.queue.length ≤ 18

end
end

