-- ==== Sys2Proof/Laws/State.lean ====
section
/-! SUPPORT. One lemma per field and update of State: what an update leaves as it was, and what it makes of the field it changes. -/

namespace Sys2Proof.Machine

/-! ### What an update leaves as it was -/

@[simp] theorem State.modSlot_windows (s : State) (k : SlotId) (f : Slot → Slot) : (s.modSlot k f).windows = s.windows := rfl
@[simp] theorem State.modSlot_segs (s : State) (k : SlotId) (f : Slot → Slot) : (s.modSlot k f).segs = s.segs := rfl
@[simp] theorem State.modSlot_wires (s : State) (k : SlotId) (f : Slot → Slot) : (s.modSlot k f).wires = s.wires := rfl
@[simp] theorem State.modSlot_units (s : State) (k : SlotId) (f : Slot → Slot) : (s.modSlot k f).units = s.units := rfl
@[simp] theorem State.modSlot_log (s : State) (k : SlotId) (f : Slot → Slot) : (s.modSlot k f).log = s.log := rfl
@[simp] theorem State.modSlot_clock (s : State) (k : SlotId) (f : Slot → Slot) : (s.modSlot k f).clock = s.clock := rfl
@[simp] theorem State.modSlot_link (s : State) (k : SlotId) (f : Slot → Slot) : (s.modSlot k f).link = s.link := rfl
@[simp] theorem State.modSlot_pending (s : State) (k : SlotId) (f : Slot → Slot) : (s.modSlot k f).pending = s.pending := rfl

@[simp] theorem State.modSeg_slots (s : State) (n : SegId) (f : Segment → Segment) : (s.modSeg n f).slots = s.slots := rfl
@[simp] theorem State.modSeg_windows (s : State) (n : SegId) (f : Segment → Segment) : (s.modSeg n f).windows = s.windows := rfl
@[simp] theorem State.modSeg_wires (s : State) (n : SegId) (f : Segment → Segment) : (s.modSeg n f).wires = s.wires := rfl
@[simp] theorem State.modSeg_units (s : State) (n : SegId) (f : Segment → Segment) : (s.modSeg n f).units = s.units := rfl
@[simp] theorem State.modSeg_log (s : State) (n : SegId) (f : Segment → Segment) : (s.modSeg n f).log = s.log := rfl
@[simp] theorem State.modSeg_clock (s : State) (n : SegId) (f : Segment → Segment) : (s.modSeg n f).clock = s.clock := rfl
@[simp] theorem State.modSeg_link (s : State) (n : SegId) (f : Segment → Segment) : (s.modSeg n f).link = s.link := rfl
@[simp] theorem State.modSeg_pending (s : State) (n : SegId) (f : Segment → Segment) : (s.modSeg n f).pending = s.pending := rfl

@[simp] theorem State.modUnit_slots (s : State) (u : UnitId) (f : WatchUnit → WatchUnit) : (s.modUnit u f).slots = s.slots := rfl
@[simp] theorem State.modUnit_windows (s : State) (u : UnitId) (f : WatchUnit → WatchUnit) : (s.modUnit u f).windows = s.windows := rfl
@[simp] theorem State.modUnit_segs (s : State) (u : UnitId) (f : WatchUnit → WatchUnit) : (s.modUnit u f).segs = s.segs := rfl
@[simp] theorem State.modUnit_wires (s : State) (u : UnitId) (f : WatchUnit → WatchUnit) : (s.modUnit u f).wires = s.wires := rfl
@[simp] theorem State.modUnit_log (s : State) (u : UnitId) (f : WatchUnit → WatchUnit) : (s.modUnit u f).log = s.log := rfl
@[simp] theorem State.modUnit_clock (s : State) (u : UnitId) (f : WatchUnit → WatchUnit) : (s.modUnit u f).clock = s.clock := rfl
@[simp] theorem State.modUnit_link (s : State) (u : UnitId) (f : WatchUnit → WatchUnit) : (s.modUnit u f).link = s.link := rfl
@[simp] theorem State.modUnit_pending (s : State) (u : UnitId) (f : WatchUnit → WatchUnit) : (s.modUnit u f).pending = s.pending := rfl

@[simp] theorem State.withWires_slots (s : State) (w : Wires) : (s.withWires w).slots = s.slots := rfl
@[simp] theorem State.withWires_windows (s : State) (w : Wires) : (s.withWires w).windows = s.windows := rfl
@[simp] theorem State.withWires_segs (s : State) (w : Wires) : (s.withWires w).segs = s.segs := rfl
@[simp] theorem State.withWires_units (s : State) (w : Wires) : (s.withWires w).units = s.units := rfl
@[simp] theorem State.withWires_log (s : State) (w : Wires) : (s.withWires w).log = s.log := rfl
@[simp] theorem State.withWires_clock (s : State) (w : Wires) : (s.withWires w).clock = s.clock := rfl
@[simp] theorem State.withWires_link (s : State) (w : Wires) : (s.withWires w).link = s.link := rfl
@[simp] theorem State.withWires_pending (s : State) (w : Wires) : (s.withWires w).pending = s.pending := rfl

@[simp] theorem State.modLeg_windows (s : State) (r : LegRef) (f : LegRecord → LegRecord) : (s.modLeg r f).windows = s.windows := rfl
@[simp] theorem State.modLeg_segs (s : State) (r : LegRef) (f : LegRecord → LegRecord) : (s.modLeg r f).segs = s.segs := rfl
@[simp] theorem State.modLeg_wires (s : State) (r : LegRef) (f : LegRecord → LegRecord) : (s.modLeg r f).wires = s.wires := rfl
@[simp] theorem State.modLeg_units (s : State) (r : LegRef) (f : LegRecord → LegRecord) : (s.modLeg r f).units = s.units := rfl
@[simp] theorem State.modLeg_log (s : State) (r : LegRef) (f : LegRecord → LegRecord) : (s.modLeg r f).log = s.log := rfl
@[simp] theorem State.modLeg_clock (s : State) (r : LegRef) (f : LegRecord → LegRecord) : (s.modLeg r f).clock = s.clock := rfl
@[simp] theorem State.modLeg_link (s : State) (r : LegRef) (f : LegRecord → LegRecord) : (s.modLeg r f).link = s.link := rfl
@[simp] theorem State.modLeg_pending (s : State) (r : LegRef) (f : LegRecord → LegRecord) : (s.modLeg r f).pending = s.pending := rfl

@[simp] theorem State.append_slots (s : State) (c : OutContent) : (s.append c).slots = s.slots := rfl
@[simp] theorem State.append_windows (s : State) (c : OutContent) : (s.append c).windows = s.windows := rfl
@[simp] theorem State.append_segs (s : State) (c : OutContent) : (s.append c).segs = s.segs := rfl
@[simp] theorem State.append_wires (s : State) (c : OutContent) : (s.append c).wires = s.wires := rfl
@[simp] theorem State.append_units (s : State) (c : OutContent) : (s.append c).units = s.units := rfl
@[simp] theorem State.append_log (s : State) (c : OutContent) : (s.append c).log = s.log := rfl
@[simp] theorem State.append_clock (s : State) (c : OutContent) : (s.append c).clock = s.clock := rfl
@[simp] theorem State.append_pending (s : State) (c : OutContent) : (s.append c).pending = s.pending := rfl

@[simp] theorem State.setOverrun_slots (s : State) : (s.setOverrun).slots = s.slots := rfl
@[simp] theorem State.setOverrun_windows (s : State) : (s.setOverrun).windows = s.windows := rfl
@[simp] theorem State.setOverrun_segs (s : State) : (s.setOverrun).segs = s.segs := rfl
@[simp] theorem State.setOverrun_wires (s : State) : (s.setOverrun).wires = s.wires := rfl
@[simp] theorem State.setOverrun_units (s : State) : (s.setOverrun).units = s.units := rfl
@[simp] theorem State.setOverrun_log (s : State) : (s.setOverrun).log = s.log := rfl
@[simp] theorem State.setOverrun_clock (s : State) : (s.setOverrun).clock = s.clock := rfl
@[simp] theorem State.setOverrun_pending (s : State) : (s.setOverrun).pending = s.pending := rfl

@[simp] theorem State.setFrameErr_slots (s : State) : (s.setFrameErr).slots = s.slots := rfl
@[simp] theorem State.setFrameErr_windows (s : State) : (s.setFrameErr).windows = s.windows := rfl
@[simp] theorem State.setFrameErr_segs (s : State) : (s.setFrameErr).segs = s.segs := rfl
@[simp] theorem State.setFrameErr_wires (s : State) : (s.setFrameErr).wires = s.wires := rfl
@[simp] theorem State.setFrameErr_units (s : State) : (s.setFrameErr).units = s.units := rfl
@[simp] theorem State.setFrameErr_log (s : State) : (s.setFrameErr).log = s.log := rfl
@[simp] theorem State.setFrameErr_clock (s : State) : (s.setFrameErr).clock = s.clock := rfl
@[simp] theorem State.setFrameErr_pending (s : State) : (s.setFrameErr).pending = s.pending := rfl

@[simp] theorem State.setTruncated_slots (s : State) : (s.setTruncated).slots = s.slots := rfl
@[simp] theorem State.setTruncated_windows (s : State) : (s.setTruncated).windows = s.windows := rfl
@[simp] theorem State.setTruncated_segs (s : State) : (s.setTruncated).segs = s.segs := rfl
@[simp] theorem State.setTruncated_wires (s : State) : (s.setTruncated).wires = s.wires := rfl
@[simp] theorem State.setTruncated_units (s : State) : (s.setTruncated).units = s.units := rfl
@[simp] theorem State.setTruncated_log (s : State) : (s.setTruncated).log = s.log := rfl
@[simp] theorem State.setTruncated_clock (s : State) : (s.setTruncated).clock = s.clock := rfl
@[simp] theorem State.setTruncated_pending (s : State) : (s.setTruncated).pending = s.pending := rfl

@[simp] theorem State.clearFlags_slots (s : State) : (s.clearFlags).slots = s.slots := rfl
@[simp] theorem State.clearFlags_windows (s : State) : (s.clearFlags).windows = s.windows := rfl
@[simp] theorem State.clearFlags_segs (s : State) : (s.clearFlags).segs = s.segs := rfl
@[simp] theorem State.clearFlags_wires (s : State) : (s.clearFlags).wires = s.wires := rfl
@[simp] theorem State.clearFlags_units (s : State) : (s.clearFlags).units = s.units := rfl
@[simp] theorem State.clearFlags_log (s : State) : (s.clearFlags).log = s.log := rfl
@[simp] theorem State.clearFlags_clock (s : State) : (s.clearFlags).clock = s.clock := rfl
@[simp] theorem State.clearFlags_pending (s : State) : (s.clearFlags).pending = s.pending := rfl

@[simp] theorem State.hunting_slots (s : State) : (s.hunting).slots = s.slots := rfl
@[simp] theorem State.hunting_windows (s : State) : (s.hunting).windows = s.windows := rfl
@[simp] theorem State.hunting_segs (s : State) : (s.hunting).segs = s.segs := rfl
@[simp] theorem State.hunting_wires (s : State) : (s.hunting).wires = s.wires := rfl
@[simp] theorem State.hunting_units (s : State) : (s.hunting).units = s.units := rfl
@[simp] theorem State.hunting_log (s : State) : (s.hunting).log = s.log := rfl
@[simp] theorem State.hunting_clock (s : State) : (s.hunting).clock = s.clock := rfl
@[simp] theorem State.hunting_pending (s : State) : (s.hunting).pending = s.pending := rfl

@[simp] theorem State.releaseSlot_windows (s : State) (k : SlotId) : (s.releaseSlot k).windows = s.windows := rfl
@[simp] theorem State.releaseSlot_segs (s : State) (k : SlotId) : (s.releaseSlot k).segs = s.segs := rfl
@[simp] theorem State.releaseSlot_wires (s : State) (k : SlotId) : (s.releaseSlot k).wires = s.wires := rfl
@[simp] theorem State.releaseSlot_units (s : State) (k : SlotId) : (s.releaseSlot k).units = s.units := rfl
@[simp] theorem State.releaseSlot_log (s : State) (k : SlotId) : (s.releaseSlot k).log = s.log := rfl
@[simp] theorem State.releaseSlot_clock (s : State) (k : SlotId) : (s.releaseSlot k).clock = s.clock := rfl
@[simp] theorem State.releaseSlot_link (s : State) (k : SlotId) : (s.releaseSlot k).link = s.link := rfl
@[simp] theorem State.releaseSlot_pending (s : State) (k : SlotId) : (s.releaseSlot k).pending = s.pending := rfl

@[simp] theorem State.offer_slots (s : State) (e : LogEntry) : (s.offer e).slots = s.slots := rfl
@[simp] theorem State.offer_windows (s : State) (e : LogEntry) : (s.offer e).windows = s.windows := rfl
@[simp] theorem State.offer_segs (s : State) (e : LogEntry) : (s.offer e).segs = s.segs := rfl
@[simp] theorem State.offer_wires (s : State) (e : LogEntry) : (s.offer e).wires = s.wires := rfl
@[simp] theorem State.offer_units (s : State) (e : LogEntry) : (s.offer e).units = s.units := rfl
@[simp] theorem State.offer_clock (s : State) (e : LogEntry) : (s.offer e).clock = s.clock := rfl
@[simp] theorem State.offer_link (s : State) (e : LogEntry) : (s.offer e).link = s.link := rfl
@[simp] theorem State.offer_pending (s : State) (e : LogEntry) : (s.offer e).pending = s.pending := rfl

@[simp] theorem State.freezeLog_slots (s : State) : (s.freezeLog).slots = s.slots := rfl
@[simp] theorem State.freezeLog_windows (s : State) : (s.freezeLog).windows = s.windows := rfl
@[simp] theorem State.freezeLog_segs (s : State) : (s.freezeLog).segs = s.segs := rfl
@[simp] theorem State.freezeLog_wires (s : State) : (s.freezeLog).wires = s.wires := rfl
@[simp] theorem State.freezeLog_units (s : State) : (s.freezeLog).units = s.units := rfl
@[simp] theorem State.freezeLog_clock (s : State) : (s.freezeLog).clock = s.clock := rfl
@[simp] theorem State.freezeLog_link (s : State) : (s.freezeLog).link = s.link := rfl
@[simp] theorem State.freezeLog_pending (s : State) : (s.freezeLog).pending = s.pending := rfl

@[simp] theorem State.setWatchState_slots (s : State) (u : UnitId) (x : WatchState) : (s.setWatchState u x).slots = s.slots := rfl
@[simp] theorem State.setWatchState_windows (s : State) (u : UnitId) (x : WatchState) : (s.setWatchState u x).windows = s.windows := rfl
@[simp] theorem State.setWatchState_segs (s : State) (u : UnitId) (x : WatchState) : (s.setWatchState u x).segs = s.segs := rfl
@[simp] theorem State.setWatchState_wires (s : State) (u : UnitId) (x : WatchState) : (s.setWatchState u x).wires = s.wires := rfl
@[simp] theorem State.setWatchState_log (s : State) (u : UnitId) (x : WatchState) : (s.setWatchState u x).log = s.log := rfl
@[simp] theorem State.setWatchState_clock (s : State) (u : UnitId) (x : WatchState) : (s.setWatchState u x).clock = s.clock := rfl
@[simp] theorem State.setWatchState_link (s : State) (u : UnitId) (x : WatchState) : (s.setWatchState u x).link = s.link := rfl
@[simp] theorem State.setWatchState_pending (s : State) (u : UnitId) (x : WatchState) : (s.setWatchState u x).pending = s.pending := rfl

@[simp] theorem State.setHold_slots (s : State) (n : SegId) : (s.setHold n).slots = s.slots := rfl
@[simp] theorem State.setHold_windows (s : State) (n : SegId) : (s.setHold n).windows = s.windows := rfl
@[simp] theorem State.setHold_wires (s : State) (n : SegId) : (s.setHold n).wires = s.wires := rfl
@[simp] theorem State.setHold_units (s : State) (n : SegId) : (s.setHold n).units = s.units := rfl
@[simp] theorem State.setHold_log (s : State) (n : SegId) : (s.setHold n).log = s.log := rfl
@[simp] theorem State.setHold_clock (s : State) (n : SegId) : (s.setHold n).clock = s.clock := rfl
@[simp] theorem State.setHold_link (s : State) (n : SegId) : (s.setHold n).link = s.link := rfl
@[simp] theorem State.setHold_pending (s : State) (n : SegId) : (s.setHold n).pending = s.pending := rfl

@[simp] theorem State.clearHold_slots (s : State) (n : SegId) : (s.clearHold n).slots = s.slots := rfl
@[simp] theorem State.clearHold_windows (s : State) (n : SegId) : (s.clearHold n).windows = s.windows := rfl
@[simp] theorem State.clearHold_wires (s : State) (n : SegId) : (s.clearHold n).wires = s.wires := rfl
@[simp] theorem State.clearHold_units (s : State) (n : SegId) : (s.clearHold n).units = s.units := rfl
@[simp] theorem State.clearHold_log (s : State) (n : SegId) : (s.clearHold n).log = s.log := rfl
@[simp] theorem State.clearHold_clock (s : State) (n : SegId) : (s.clearHold n).clock = s.clock := rfl
@[simp] theorem State.clearHold_link (s : State) (n : SegId) : (s.clearHold n).link = s.link := rfl
@[simp] theorem State.clearHold_pending (s : State) (n : SegId) : (s.clearHold n).pending = s.pending := rfl

@[simp] theorem State.beginClear_slots (s : State) (n : SegId) (p : ClearPurpose) (o : Option SlotId) : (s.beginClear n p o).slots = s.slots := rfl
@[simp] theorem State.beginClear_windows (s : State) (n : SegId) (p : ClearPurpose) (o : Option SlotId) : (s.beginClear n p o).windows = s.windows := rfl
@[simp] theorem State.beginClear_wires (s : State) (n : SegId) (p : ClearPurpose) (o : Option SlotId) : (s.beginClear n p o).wires = s.wires := rfl
@[simp] theorem State.beginClear_units (s : State) (n : SegId) (p : ClearPurpose) (o : Option SlotId) : (s.beginClear n p o).units = s.units := rfl
@[simp] theorem State.beginClear_log (s : State) (n : SegId) (p : ClearPurpose) (o : Option SlotId) : (s.beginClear n p o).log = s.log := rfl
@[simp] theorem State.beginClear_clock (s : State) (n : SegId) (p : ClearPurpose) (o : Option SlotId) : (s.beginClear n p o).clock = s.clock := rfl
@[simp] theorem State.beginClear_link (s : State) (n : SegId) (p : ClearPurpose) (o : Option SlotId) : (s.beginClear n p o).link = s.link := rfl
@[simp] theorem State.beginClear_pending (s : State) (n : SegId) (p : ClearPurpose) (o : Option SlotId) : (s.beginClear n p o).pending = s.pending := rfl

@[simp] theorem State.setWindow_slots (s : State) (i : WindowId) (w : Window) : (s.setWindow i w).slots = s.slots := rfl
@[simp] theorem State.setWindow_segs (s : State) (i : WindowId) (w : Window) : (s.setWindow i w).segs = s.segs := rfl
@[simp] theorem State.setWindow_wires (s : State) (i : WindowId) (w : Window) : (s.setWindow i w).wires = s.wires := rfl
@[simp] theorem State.setWindow_units (s : State) (i : WindowId) (w : Window) : (s.setWindow i w).units = s.units := rfl
@[simp] theorem State.setWindow_log (s : State) (i : WindowId) (w : Window) : (s.setWindow i w).log = s.log := rfl
@[simp] theorem State.setWindow_clock (s : State) (i : WindowId) (w : Window) : (s.setWindow i w).clock = s.clock := rfl
@[simp] theorem State.setWindow_link (s : State) (i : WindowId) (w : Window) : (s.setWindow i w).link = s.link := rfl
@[simp] theorem State.setWindow_pending (s : State) (i : WindowId) (w : Window) : (s.setWindow i w).pending = s.pending := rfl

@[simp] theorem State.unpauseAll_slots (s : State) : (s.unpauseAll).slots = s.slots := rfl
@[simp] theorem State.unpauseAll_windows (s : State) : (s.unpauseAll).windows = s.windows := rfl
@[simp] theorem State.unpauseAll_wires (s : State) : (s.unpauseAll).wires = s.wires := rfl
@[simp] theorem State.unpauseAll_units (s : State) : (s.unpauseAll).units = s.units := rfl
@[simp] theorem State.unpauseAll_log (s : State) : (s.unpauseAll).log = s.log := rfl
@[simp] theorem State.unpauseAll_clock (s : State) : (s.unpauseAll).clock = s.clock := rfl
@[simp] theorem State.unpauseAll_link (s : State) : (s.unpauseAll).link = s.link := rfl
@[simp] theorem State.unpauseAll_pending (s : State) : (s.unpauseAll).pending = s.pending := rfl

@[simp] theorem State.setAwaited_slots (s : State) (n : SegId) (b : Bool) : (s.setAwaited n b).slots = s.slots := rfl
@[simp] theorem State.setAwaited_windows (s : State) (n : SegId) (b : Bool) : (s.setAwaited n b).windows = s.windows := rfl
@[simp] theorem State.setAwaited_segs (s : State) (n : SegId) (b : Bool) : (s.setAwaited n b).segs = s.segs := rfl
@[simp] theorem State.setAwaited_wires (s : State) (n : SegId) (b : Bool) : (s.setAwaited n b).wires = s.wires := rfl
@[simp] theorem State.setAwaited_units (s : State) (n : SegId) (b : Bool) : (s.setAwaited n b).units = s.units := rfl
@[simp] theorem State.setAwaited_log (s : State) (n : SegId) (b : Bool) : (s.setAwaited n b).log = s.log := rfl
@[simp] theorem State.setAwaited_link (s : State) (n : SegId) (b : Bool) : (s.setAwaited n b).link = s.link := rfl
@[simp] theorem State.setAwaited_pending (s : State) (n : SegId) (b : Bool) : (s.setAwaited n b).pending = s.pending := rfl

@[simp] theorem State.dropReport_slots (s : State) (n : SegId) : (s.dropReport n).slots = s.slots := rfl
@[simp] theorem State.dropReport_windows (s : State) (n : SegId) : (s.dropReport n).windows = s.windows := rfl
@[simp] theorem State.dropReport_wires (s : State) (n : SegId) : (s.dropReport n).wires = s.wires := rfl
@[simp] theorem State.dropReport_units (s : State) (n : SegId) : (s.dropReport n).units = s.units := rfl
@[simp] theorem State.dropReport_log (s : State) (n : SegId) : (s.dropReport n).log = s.log := rfl
@[simp] theorem State.dropReport_clock (s : State) (n : SegId) : (s.dropReport n).clock = s.clock := rfl
@[simp] theorem State.dropReport_link (s : State) (n : SegId) : (s.dropReport n).link = s.link := rfl
@[simp] theorem State.dropReport_pending (s : State) (n : SegId) : (s.dropReport n).pending = s.pending := rfl

@[simp] theorem State.beginSwitch_slots (s : State) (k : SlotId) (x : Source) : (s.beginSwitch k x).slots = s.slots := rfl
@[simp] theorem State.beginSwitch_windows (s : State) (k : SlotId) (x : Source) : (s.beginSwitch k x).windows = s.windows := rfl
@[simp] theorem State.beginSwitch_wires (s : State) (k : SlotId) (x : Source) : (s.beginSwitch k x).wires = s.wires := rfl
@[simp] theorem State.beginSwitch_units (s : State) (k : SlotId) (x : Source) : (s.beginSwitch k x).units = s.units := rfl
@[simp] theorem State.beginSwitch_log (s : State) (k : SlotId) (x : Source) : (s.beginSwitch k x).log = s.log := rfl
@[simp] theorem State.beginSwitch_link (s : State) (k : SlotId) (x : Source) : (s.beginSwitch k x).link = s.link := rfl
@[simp] theorem State.beginSwitch_pending (s : State) (k : SlotId) (x : Source) : (s.beginSwitch k x).pending = s.pending := rfl

@[simp] theorem State.setSource_slots (s : State) (x : Source) (w : SwitchReason) : (s.setSource x w).slots = s.slots := rfl
@[simp] theorem State.setSource_windows (s : State) (x : Source) (w : SwitchReason) : (s.setSource x w).windows = s.windows := rfl
@[simp] theorem State.setSource_segs (s : State) (x : Source) (w : SwitchReason) : (s.setSource x w).segs = s.segs := rfl
@[simp] theorem State.setSource_wires (s : State) (x : Source) (w : SwitchReason) : (s.setSource x w).wires = s.wires := rfl
@[simp] theorem State.setSource_units (s : State) (x : Source) (w : SwitchReason) : (s.setSource x w).units = s.units := rfl
@[simp] theorem State.setSource_link (s : State) (x : Source) (w : SwitchReason) : (s.setSource x w).link = s.link := rfl
@[simp] theorem State.setSource_pending (s : State) (x : Source) (w : SwitchReason) : (s.setSource x w).pending = s.pending := rfl

@[simp] theorem State.withFront_slots (s : State) (c : Instr) : (s.withFront c).slots = s.slots := rfl
@[simp] theorem State.withFront_windows (s : State) (c : Instr) : (s.withFront c).windows = s.windows := rfl
@[simp] theorem State.withFront_segs (s : State) (c : Instr) : (s.withFront c).segs = s.segs := rfl
@[simp] theorem State.withFront_wires (s : State) (c : Instr) : (s.withFront c).wires = s.wires := rfl
@[simp] theorem State.withFront_units (s : State) (c : Instr) : (s.withFront c).units = s.units := rfl
@[simp] theorem State.withFront_log (s : State) (c : Instr) : (s.withFront c).log = s.log := rfl
@[simp] theorem State.withFront_clock (s : State) (c : Instr) : (s.withFront c).clock = s.clock := rfl
@[simp] theorem State.withFront_link (s : State) (c : Instr) : (s.withFront c).link = s.link := rfl

/-! ### What an update makes of its field -/

@[simp] theorem State.modSlot_get (s : State) (k j : SlotId) (f : Slot → Slot) :
    (s.modSlot k f).slots[j] = if j = k then f s.slots[k] else s.slots[j] := by
  simp [State.modSlot, Vector.getElem_set, Fin.ext_iff, eq_comm]

@[simp] theorem State.modSeg_get (s : State) (n m : SegId) (f : Segment → Segment) :
    (s.modSeg n f).segs[m] = if m = n then f s.segs[n] else s.segs[m] := by
  simp [State.modSeg, Vector.getElem_set, Fin.ext_iff, eq_comm]

@[simp] theorem State.modUnit_get (s : State) (u v : UnitId) (f : WatchUnit → WatchUnit) :
    (s.modUnit u f).units[v] = if v = u then f s.units[u] else s.units[v] := by
  simp [State.modUnit, Vector.getElem_set, Fin.ext_iff, eq_comm]

@[simp] theorem State.setWindow_get (s : State) (i j : WindowId) (w : Window) :
    (s.setWindow i w).windows[j] = if j = i then w else s.windows[j] := by
  simp [State.setWindow, Vector.getElem_set, Fin.ext_iff, eq_comm]

@[simp] theorem State.unpauseAll_get (s : State) (n : SegId) : s.unpauseAll.segs[n] = s.segs[n].unpause := by
  simp [State.unpauseAll]

@[simp] theorem State.modSlot_get_val (s : State) (k j : SlotId) (f : Slot → Slot) :
    (s.modSlot k f).slots[j.val] = if j = k then f s.slots[k.val] else s.slots[j.val] := State.modSlot_get s k j f

@[simp] theorem State.modSeg_get_val (s : State) (n m : SegId) (f : Segment → Segment) :
    (s.modSeg n f).segs[m.val] = if m = n then f s.segs[n.val] else s.segs[m.val] := State.modSeg_get s n m f

@[simp] theorem State.modUnit_get_val (s : State) (u v : UnitId) (f : WatchUnit → WatchUnit) :
    (s.modUnit u f).units[v.val] = if v = u then f s.units[u.val] else s.units[v.val] := State.modUnit_get s u v f

@[simp] theorem State.setWindow_get_val (s : State) (i j : WindowId) (w : Window) :
    (s.setWindow i w).windows[j.val] = if j = i then w else s.windows[j.val] := State.setWindow_get s i j w

@[simp] theorem State.unpauseAll_get_val (s : State) (n : SegId) : s.unpauseAll.segs[n.val] = s.segs[n.val].unpause :=
  State.unpauseAll_get s n

@[simp] theorem State.withWires_wires (s : State) (w : Wires) : (s.withWires w).wires = w := rfl

@[simp] theorem State.append_queue (s : State) (c : OutContent) :
    (s.append c).link.queue = s.link.queue ++ [{ content := c, begun := false }] := rfl

@[simp] theorem State.append_flags (s : State) (c : OutContent) : (s.append c).link.flags = s.link.flags := rfl

@[simp] theorem State.append_assembler (s : State) (c : OutContent) : (s.append c).link.assembler = s.link.assembler := rfl

@[simp] theorem State.append_outFrame (s : State) (c : OutContent) : (s.append c).link.outFrame = s.link.outFrame := rfl

@[simp] theorem State.append_selected (s : State) (c : OutContent) : (s.append c).link.selected = s.link.selected := rfl

@[simp] theorem State.append_resetInSelect (s : State) (c : OutContent) :
    (s.append c).link.resetInSelect = s.link.resetInSelect := rfl

@[simp] theorem State.hunting_link (s : State) : s.hunting.link = { s.link with assembler := .hunt } := rfl

@[simp] theorem State.setOverrun_link (s : State) :
    s.setOverrun.link = { s.link with flags := { s.link.flags with overrun := true } } := rfl

@[simp] theorem State.setFrameErr_link (s : State) :
    s.setFrameErr.link = { s.link with flags := { s.link.flags with frameErr := true } } := rfl

@[simp] theorem State.setTruncated_link (s : State) :
    s.setTruncated.link = { s.link with flags := { s.link.flags with truncated := true } } := rfl

@[simp] theorem State.clearFlags_link (s : State) : s.clearFlags.link = { s.link with flags := LinkFlags.none } := rfl

@[simp] theorem State.offer_log (s : State) (e : LogEntry) : (s.offer e).log = s.log.offer e := rfl

@[simp] theorem State.freezeLog_log (s : State) : s.freezeLog.log = { s.log with frozen := true } := rfl

@[simp] theorem State.setSource_source (s : State) (x : Source) (w : SwitchReason) :
    (s.setSource x w).clock = { s.clock with source := x } := rfl

/-! ### Updates one after the other -/

@[simp] theorem State.modSlot_modSlot (s : State) (k : SlotId) (f g : Slot → Slot) :
    (s.modSlot k f).modSlot k g = s.modSlot k (g ∘ f) := by simp [State.modSlot]

@[simp] theorem State.modSeg_modSeg (s : State) (n : SegId) (f g : Segment → Segment) :
    (s.modSeg n f).modSeg n g = s.modSeg n (g ∘ f) := by simp [State.modSeg]

@[simp] theorem State.modUnit_modUnit (s : State) (u : UnitId) (f g : WatchUnit → WatchUnit) :
    (s.modUnit u f).modUnit u g = s.modUnit u (g ∘ f) := by simp [State.modUnit]

/-! ### Leg records -/

@[simp] theorem Slot.modLeg_state (x : Slot) (r : Role) (f : LegRecord → LegRecord) : (x.modLeg r f).state = x.state := by
  cases r <;> rfl

@[simp] theorem Slot.modLeg_tag (x : Slot) (r : Role) (f : LegRecord → LegRecord) : (x.modLeg r f).tag = x.tag := by
  cases r <;> rfl

@[simp] theorem Slot.modLeg_reqType (x : Slot) (r : Role) (f : LegRecord → LegRecord) :
    (x.modLeg r f).reqType = x.reqType := by cases r <;> rfl

@[simp] theorem Slot.modLeg_request (x : Slot) (r : Role) (f : LegRecord → LegRecord) :
    (x.modLeg r f).request = x.request := by cases r <;> rfl

@[simp] theorem Slot.modLeg_result (x : Slot) (r : Role) (f : LegRecord → LegRecord) :
    (x.modLeg r f).result = x.result := by cases r <;> rfl

@[simp] theorem Slot.modLeg_reply (x : Slot) (r : Role) (f : LegRecord → LegRecord) :
    (x.modLeg r f).reply = x.reply := by cases r <;> rfl

@[simp] theorem Slot.modLeg_cancelled (x : Slot) (r : Role) (f : LegRecord → LegRecord) :
    (x.modLeg r f).cancelled = x.cancelled := by cases r <;> rfl

@[simp] theorem Slot.modLeg_resolution (x : Slot) (r : Role) (f : LegRecord → LegRecord) :
    (x.modLeg r f).resolution = x.resolution := by cases r <;> rfl

@[simp] theorem Slot.modLeg_writeData (x : Slot) (r : Role) (f : LegRecord → LegRecord) :
    (x.modLeg r f).writeData = x.writeData := by cases r <;> rfl

@[simp] theorem Slot.modLeg_resetAccount (x : Slot) (r : Role) (f : LegRecord → LegRecord) :
    (x.modLeg r f).resetAccount = x.resetAccount := by cases r <;> rfl

@[simp] theorem Slot.modLeg_leg (x : Slot) (r q : Role) (f : LegRecord → LegRecord) :
    (x.modLeg r f).leg q = if q = r then (x.leg r).map f else x.leg q := by
  cases r <;> cases q <;> rfl

@[simp] theorem Slot.modLeg_freed (r : Role) (f : LegRecord → LegRecord) : Slot.freed.modLeg r f = Slot.freed := by
  cases r <;> rfl

theorem State.modLeg_get (s : State) (r : LegRef) (f : LegRecord → LegRecord) (k : SlotId) :
    (s.modLeg r f).slots[k] = if k = r.slot then s.slots[k].modLeg r.role f else s.slots[k] := by
  unfold State.modLeg
  rw [State.modSlot_get]
  split
  · next h => subst h; rfl
  · rfl

end Sys2Proof.Machine
end

