-- ==== Sys2Proof/Laws/Frames.lean ====
section
/-! SUPPORT. What the composed operations leave as it was, field by field. -/

namespace Sys2Proof.Machine

/-! ### Notices and replies -/

@[simp] theorem State.setHeld_slots (s : State) (src : NoticeSource) (h : Option Notice) : (s.setHeld src h).slots = s.slots := by
  unfold State.setHeld; (repeat' split) <;> simp

@[simp] theorem State.setHeld_windows (s : State) (src : NoticeSource) (h : Option Notice) : (s.setHeld src h).windows = s.windows := by
  unfold State.setHeld; (repeat' split) <;> simp

@[simp] theorem State.setHeld_wires (s : State) (src : NoticeSource) (h : Option Notice) : (s.setHeld src h).wires = s.wires := by
  unfold State.setHeld; (repeat' split) <;> simp

@[simp] theorem State.setHeld_log (s : State) (src : NoticeSource) (h : Option Notice) : (s.setHeld src h).log = s.log := by
  unfold State.setHeld; (repeat' split) <;> simp

@[simp] theorem State.setHeld_link (s : State) (src : NoticeSource) (h : Option Notice) : (s.setHeld src h).link = s.link := by
  unfold State.setHeld; (repeat' split) <;> simp

@[simp] theorem State.setHeld_pending (s : State) (src : NoticeSource) (h : Option Notice) : (s.setHeld src h).pending = s.pending := by
  unfold State.setHeld; (repeat' split) <;> simp

@[simp] theorem State.holdOver_slots (s : State) (x : Notice) : (s.holdOver x).slots = s.slots := by
  unfold State.holdOver; (repeat' split) <;> simp

@[simp] theorem State.holdOver_windows (s : State) (x : Notice) : (s.holdOver x).windows = s.windows := by
  unfold State.holdOver; (repeat' split) <;> simp

@[simp] theorem State.holdOver_wires (s : State) (x : Notice) : (s.holdOver x).wires = s.wires := by
  unfold State.holdOver; (repeat' split) <;> simp

@[simp] theorem State.holdOver_log (s : State) (x : Notice) : (s.holdOver x).log = s.log := by
  unfold State.holdOver; (repeat' split) <;> simp

@[simp] theorem State.holdOver_link (s : State) (x : Notice) : (s.holdOver x).link = s.link := by
  unfold State.holdOver; (repeat' split) <;> simp

@[simp] theorem State.holdOver_pending (s : State) (x : Notice) : (s.holdOver x).pending = s.pending := by
  unfold State.holdOver; (repeat' split) <;> simp

@[simp] theorem State.raise_slots (s : State) (x : Notice) : (s.raise x).slots = s.slots := by
  unfold State.raise; (repeat' split) <;> simp

@[simp] theorem State.raise_windows (s : State) (x : Notice) : (s.raise x).windows = s.windows := by
  unfold State.raise; (repeat' split) <;> simp

@[simp] theorem State.raise_wires (s : State) (x : Notice) : (s.raise x).wires = s.wires := by
  unfold State.raise; (repeat' split) <;> simp

@[simp] theorem State.raise_log (s : State) (x : Notice) : (s.raise x).log = s.log := by
  unfold State.raise; (repeat' split) <;> simp

@[simp] theorem State.raise_pending (s : State) (x : Notice) : (s.raise x).pending = s.pending := by
  unfold State.raise; (repeat' split) <;> simp

@[simp] theorem State.releaseHeld_slots (s : State) (src : NoticeSource) : (s.releaseHeld src).slots = s.slots := by
  unfold State.releaseHeld; (repeat' split) <;> simp

@[simp] theorem State.releaseHeld_windows (s : State) (src : NoticeSource) : (s.releaseHeld src).windows = s.windows := by
  unfold State.releaseHeld; (repeat' split) <;> simp

@[simp] theorem State.releaseHeld_wires (s : State) (src : NoticeSource) : (s.releaseHeld src).wires = s.wires := by
  unfold State.releaseHeld; (repeat' split) <;> simp

@[simp] theorem State.releaseHeld_log (s : State) (src : NoticeSource) : (s.releaseHeld src).log = s.log := by
  unfold State.releaseHeld; (repeat' split) <;> simp

@[simp] theorem State.releaseHeld_pending (s : State) (src : NoticeSource) : (s.releaseHeld src).pending = s.pending := by
  unfold State.releaseHeld; (repeat' split) <;> simp

@[simp] theorem State.answer_windows (s : State) (k : SlotId) (res : ResultCode) (fields : List Byte) : (s.answer k res fields).windows = s.windows := by
  unfold State.answer; (repeat' split) <;> simp

@[simp] theorem State.answer_segs (s : State) (k : SlotId) (res : ResultCode) (fields : List Byte) : (s.answer k res fields).segs = s.segs := by
  unfold State.answer; (repeat' split) <;> simp

@[simp] theorem State.answer_wires (s : State) (k : SlotId) (res : ResultCode) (fields : List Byte) : (s.answer k res fields).wires = s.wires := by
  unfold State.answer; (repeat' split) <;> simp

@[simp] theorem State.answer_units (s : State) (k : SlotId) (res : ResultCode) (fields : List Byte) : (s.answer k res fields).units = s.units := by
  unfold State.answer; (repeat' split) <;> simp

@[simp] theorem State.answer_log (s : State) (k : SlotId) (res : ResultCode) (fields : List Byte) : (s.answer k res fields).log = s.log := by
  unfold State.answer; (repeat' split) <;> simp

@[simp] theorem State.answer_clock (s : State) (k : SlotId) (res : ResultCode) (fields : List Byte) : (s.answer k res fields).clock = s.clock := by
  unfold State.answer; (repeat' split) <;> simp

@[simp] theorem State.answer_pending (s : State) (k : SlotId) (res : ResultCode) (fields : List Byte) : (s.answer k res fields).pending = s.pending := by
  unfold State.answer; (repeat' split) <;> simp

/-! ### Watch units -/

@[simp] theorem State.armSuccessor_slots (s : State) (u : UnitId) : (s.armSuccessor u).slots = s.slots := by
  unfold State.armSuccessor; (repeat' split) <;> simp

@[simp] theorem State.armSuccessor_windows (s : State) (u : UnitId) : (s.armSuccessor u).windows = s.windows := by
  unfold State.armSuccessor; (repeat' split) <;> simp

@[simp] theorem State.armSuccessor_segs (s : State) (u : UnitId) : (s.armSuccessor u).segs = s.segs := by
  unfold State.armSuccessor; (repeat' split) <;> simp

@[simp] theorem State.armSuccessor_wires (s : State) (u : UnitId) : (s.armSuccessor u).wires = s.wires := by
  unfold State.armSuccessor; (repeat' split) <;> simp

@[simp] theorem State.armSuccessor_log (s : State) (u : UnitId) : (s.armSuccessor u).log = s.log := by
  unfold State.armSuccessor; (repeat' split) <;> simp

@[simp] theorem State.armSuccessor_clock (s : State) (u : UnitId) : (s.armSuccessor u).clock = s.clock := by
  unfold State.armSuccessor; (repeat' split) <;> simp

@[simp] theorem State.armSuccessor_link (s : State) (u : UnitId) : (s.armSuccessor u).link = s.link := by
  unfold State.armSuccessor; (repeat' split) <;> simp

@[simp] theorem State.armSuccessor_pending (s : State) (u : UnitId) : (s.armSuccessor u).pending = s.pending := by
  unfold State.armSuccessor; (repeat' split) <;> simp

theorem State.setHeld_segs_of (s : State) (src : NoticeSource) (o : Option Notice) (h : ∀ n, src ≠ .segment n) :
    (s.setHeld src o).segs = s.segs := by
  cases src <;> first | rfl | simp_all

theorem State.holdOver_segs_of (s : State) (x : Notice) (h : ∀ n, x.source ≠ .segment n) : (s.holdOver x).segs = s.segs := by
  unfold State.holdOver; exact State.setHeld_segs_of s _ _ h

theorem State.raise_segs_of (s : State) (x : Notice) (h : ∀ n, x.source ≠ .segment n) : (s.raise x).segs = s.segs := by
  unfold State.raise; (repeat' split) <;> simp [State.holdOver_segs_of s x h]

theorem State.setHeld_units_of (s : State) (src : NoticeSource) (o : Option Notice) (h : ∀ u, src ≠ .watch u) :
    (s.setHeld src o).units = s.units := by
  cases src <;> first | rfl | simp_all

theorem State.holdOver_units_of (s : State) (x : Notice) (h : ∀ u, x.source ≠ .watch u) : (s.holdOver x).units = s.units := by
  unfold State.holdOver; exact State.setHeld_units_of s _ _ h

theorem State.raise_units_of (s : State) (x : Notice) (h : ∀ u, x.source ≠ .watch u) : (s.raise x).units = s.units := by
  unfold State.raise; (repeat' split) <;> simp [State.holdOver_units_of s x h]

theorem State.setHeld_clock_of (s : State) (src : NoticeSource) (o : Option Notice) (h : src ≠ .clock) :
    (s.setHeld src o).clock = s.clock := by
  cases src <;> first | rfl | simp_all

theorem State.holdOver_clock_of (s : State) (x : Notice) (h : x.source ≠ .clock) : (s.holdOver x).clock = s.clock := by
  unfold State.holdOver; exact State.setHeld_clock_of s _ _ h

theorem State.raise_clock_of (s : State) (x : Notice) (h : x.source ≠ .clock) : (s.raise x).clock = s.clock := by
  unfold State.raise; (repeat' split) <;> simp [State.holdOver_clock_of s x h]

@[simp] theorem State.raiseHit_segs (s : State) (u : UnitId) (r : RecordCopy) : (s.raiseHit u r).segs = s.segs := by
  unfold State.raiseHit; rw [State.raise_segs_of]; simp [Notice.source]

@[simp] theorem State.raiseHit_clock (s : State) (u : UnitId) (r : RecordCopy) : (s.raiseHit u r).clock = s.clock := by
  unfold State.raiseHit; rw [State.raise_clock_of]; simp [Notice.source]

@[simp] theorem State.raiseHit_slots (s : State) (u : UnitId) (r : RecordCopy) : (s.raiseHit u r).slots = s.slots := by
  unfold State.raiseHit; (repeat' split) <;> simp

@[simp] theorem State.raiseHit_windows (s : State) (u : UnitId) (r : RecordCopy) : (s.raiseHit u r).windows = s.windows := by
  unfold State.raiseHit; (repeat' split) <;> simp

@[simp] theorem State.raiseHit_wires (s : State) (u : UnitId) (r : RecordCopy) : (s.raiseHit u r).wires = s.wires := by
  unfold State.raiseHit; (repeat' split) <;> simp

@[simp] theorem State.raiseHit_log (s : State) (u : UnitId) (r : RecordCopy) : (s.raiseHit u r).log = s.log := by
  unfold State.raiseHit; (repeat' split) <;> simp

@[simp] theorem State.raiseHit_pending (s : State) (u : UnitId) (r : RecordCopy) : (s.raiseHit u r).pending = s.pending := by
  unfold State.raiseHit; (repeat' split) <;> simp

@[simp] theorem State.watchAction_slots (s : State) (u : UnitId) (r : RecordCopy) : (s.watchAction u r).slots = s.slots := by
  unfold State.watchAction; (repeat' split) <;> simp

@[simp] theorem State.watchAction_windows (s : State) (u : UnitId) (r : RecordCopy) : (s.watchAction u r).windows = s.windows := by
  unfold State.watchAction; (repeat' split) <;> simp

@[simp] theorem State.watchAction_wires (s : State) (u : UnitId) (r : RecordCopy) : (s.watchAction u r).wires = s.wires := by
  unfold State.watchAction; (repeat' split) <;> simp

@[simp] theorem State.watchAction_clock (s : State) (u : UnitId) (r : RecordCopy) : (s.watchAction u r).clock = s.clock := by
  unfold State.watchAction; (repeat' split) <;> simp

@[simp] theorem State.watchAction_pending (s : State) (u : UnitId) (r : RecordCopy) : (s.watchAction u r).pending = s.pending := by
  unfold State.watchAction; (repeat' split) <;> simp

@[simp] theorem State.fire_slots (s : State) (u : UnitId) (r : RecordCopy) : (s.fire u r).slots = s.slots := by
  simp [State.fire]

@[simp] theorem State.fire_windows (s : State) (u : UnitId) (r : RecordCopy) : (s.fire u r).windows = s.windows := by
  simp [State.fire]

@[simp] theorem State.fire_wires (s : State) (u : UnitId) (r : RecordCopy) : (s.fire u r).wires = s.wires := by
  simp [State.fire]

@[simp] theorem State.fire_clock (s : State) (u : UnitId) (r : RecordCopy) : (s.fire u r).clock = s.clock := by
  simp [State.fire]

@[simp] theorem State.fire_pending (s : State) (u : UnitId) (r : RecordCopy) : (s.fire u r).pending = s.pending := by
  simp [State.fire]

@[simp] theorem State.watchUnit_slots (s : State) (r : RecordCopy) (u : UnitId) (armed : Bool) : (State.watchUnit r u armed s).slots = s.slots := by
  unfold State.watchUnit; (repeat' split) <;> simp

@[simp] theorem State.watchUnit_windows (s : State) (r : RecordCopy) (u : UnitId) (armed : Bool) : (State.watchUnit r u armed s).windows = s.windows := by
  unfold State.watchUnit; (repeat' split) <;> simp

@[simp] theorem State.watchUnit_wires (s : State) (r : RecordCopy) (u : UnitId) (armed : Bool) : (State.watchUnit r u armed s).wires = s.wires := by
  unfold State.watchUnit; (repeat' split) <;> simp

@[simp] theorem State.watchUnit_clock (s : State) (r : RecordCopy) (u : UnitId) (armed : Bool) : (State.watchUnit r u armed s).clock = s.clock := by
  unfold State.watchUnit; (repeat' split) <;> simp

@[simp] theorem State.watchUnit_pending (s : State) (r : RecordCopy) (u : UnitId) (armed : Bool) : (State.watchUnit r u armed s).pending = s.pending := by
  unfold State.watchUnit; (repeat' split) <;> simp

@[simp] theorem State.watchRecord_slots (s : State) (r : RecordCopy) : (s.watchRecord r).slots = s.slots := by
  simp [State.watchRecord]

@[simp] theorem State.watchRecord_windows (s : State) (r : RecordCopy) : (s.watchRecord r).windows = s.windows := by
  simp [State.watchRecord]

@[simp] theorem State.watchRecord_wires (s : State) (r : RecordCopy) : (s.watchRecord r).wires = s.wires := by
  simp [State.watchRecord]

@[simp] theorem State.watchRecord_clock (s : State) (r : RecordCopy) : (s.watchRecord r).clock = s.clock := by
  simp [State.watchRecord]

@[simp] theorem State.watchRecord_pending (s : State) (r : RecordCopy) : (s.watchRecord r).pending = s.pending := by
  simp [State.watchRecord]

/-! ### Failing legs, starting legs -/

@[simp] theorem State.failLeg_windows (s : State) (r : LegRef) (o : LegOutcome) : ((s.failLeg r o).1).windows = s.windows := by
  unfold State.failLeg; (repeat' split) <;> simp

@[simp] theorem State.failLeg_segs (s : State) (r : LegRef) (o : LegOutcome) : ((s.failLeg r o).1).segs = s.segs := by
  unfold State.failLeg; (repeat' split) <;> simp

@[simp] theorem State.failLeg_wires (s : State) (r : LegRef) (o : LegOutcome) : ((s.failLeg r o).1).wires = s.wires := by
  unfold State.failLeg; (repeat' split) <;> simp

@[simp] theorem State.failLeg_units (s : State) (r : LegRef) (o : LegOutcome) : ((s.failLeg r o).1).units = s.units := by
  unfold State.failLeg; (repeat' split) <;> simp

@[simp] theorem State.failLeg_log (s : State) (r : LegRef) (o : LegOutcome) : ((s.failLeg r o).1).log = s.log := by
  unfold State.failLeg; (repeat' split) <;> simp

@[simp] theorem State.failLeg_clock (s : State) (r : LegRef) (o : LegOutcome) : ((s.failLeg r o).1).clock = s.clock := by
  unfold State.failLeg; (repeat' split) <;> simp

@[simp] theorem State.failLeg_link (s : State) (r : LegRef) (o : LegOutcome) : ((s.failLeg r o).1).link = s.link := by
  unfold State.failLeg; (repeat' split) <;> simp

@[simp] theorem State.failLeg_pending (s : State) (r : LegRef) (o : LegOutcome) : ((s.failLeg r o).1).pending = s.pending := by
  unfold State.failLeg; (repeat' split) <;> simp

@[simp] theorem State.failLegs_windows (o : LegOutcome) (rs : List LegRef) (s : State) : (State.failLegs o rs s).1.windows = s.windows := by
  induction rs generalizing s with
  | nil => rfl
  | cons r rs ih => simp [State.failLegs, ih]

@[simp] theorem State.failLegs_segs (o : LegOutcome) (rs : List LegRef) (s : State) : (State.failLegs o rs s).1.segs = s.segs := by
  induction rs generalizing s with
  | nil => rfl
  | cons r rs ih => simp [State.failLegs, ih]

@[simp] theorem State.failLegs_wires (o : LegOutcome) (rs : List LegRef) (s : State) : (State.failLegs o rs s).1.wires = s.wires := by
  induction rs generalizing s with
  | nil => rfl
  | cons r rs ih => simp [State.failLegs, ih]

@[simp] theorem State.failLegs_units (o : LegOutcome) (rs : List LegRef) (s : State) : (State.failLegs o rs s).1.units = s.units := by
  induction rs generalizing s with
  | nil => rfl
  | cons r rs ih => simp [State.failLegs, ih]

@[simp] theorem State.failLegs_log (o : LegOutcome) (rs : List LegRef) (s : State) : (State.failLegs o rs s).1.log = s.log := by
  induction rs generalizing s with
  | nil => rfl
  | cons r rs ih => simp [State.failLegs, ih]

@[simp] theorem State.failLegs_clock (o : LegOutcome) (rs : List LegRef) (s : State) : (State.failLegs o rs s).1.clock = s.clock := by
  induction rs generalizing s with
  | nil => rfl
  | cons r rs ih => simp [State.failLegs, ih]

@[simp] theorem State.failLegs_link (o : LegOutcome) (rs : List LegRef) (s : State) : (State.failLegs o rs s).1.link = s.link := by
  induction rs generalizing s with
  | nil => rfl
  | cons r rs ih => simp [State.failLegs, ih]

@[simp] theorem State.failLegs_pending (o : LegOutcome) (rs : List LegRef) (s : State) : (State.failLegs o rs s).1.pending = s.pending := by
  induction rs generalizing s with
  | nil => rfl
  | cons r rs ih => simp [State.failLegs, ih]

@[simp] theorem State.failQueue_windows (s : State) (n : SegId) (o : LegOutcome) : ((s.failQueue n o).1).windows = s.windows := by
  simp [State.failQueue]

@[simp] theorem State.failQueue_wires (s : State) (n : SegId) (o : LegOutcome) : ((s.failQueue n o).1).wires = s.wires := by
  simp [State.failQueue]

@[simp] theorem State.failQueue_units (s : State) (n : SegId) (o : LegOutcome) : ((s.failQueue n o).1).units = s.units := by
  simp [State.failQueue]

@[simp] theorem State.failQueue_log (s : State) (n : SegId) (o : LegOutcome) : ((s.failQueue n o).1).log = s.log := by
  simp [State.failQueue]

@[simp] theorem State.failQueue_clock (s : State) (n : SegId) (o : LegOutcome) : ((s.failQueue n o).1).clock = s.clock := by
  simp [State.failQueue]

@[simp] theorem State.failQueue_link (s : State) (n : SegId) (o : LegOutcome) : ((s.failQueue n o).1).link = s.link := by
  simp [State.failQueue]

@[simp] theorem State.failQueue_pending (s : State) (n : SegId) (o : LegOutcome) : ((s.failQueue n o).1).pending = s.pending := by
  simp [State.failQueue]

@[simp] theorem State.switchOff_windows (s : State) (n : SegId) : ((s.switchOff n).1).windows = s.windows := by
  simp [State.switchOff]

@[simp] theorem State.switchOff_wires (s : State) (n : SegId) : ((s.switchOff n).1).wires = s.wires := by
  simp [State.switchOff]

@[simp] theorem State.switchOff_units (s : State) (n : SegId) : ((s.switchOff n).1).units = s.units := by
  simp [State.switchOff]

@[simp] theorem State.switchOff_log (s : State) (n : SegId) : ((s.switchOff n).1).log = s.log := by
  simp [State.switchOff]

@[simp] theorem State.switchOff_clock (s : State) (n : SegId) : ((s.switchOff n).1).clock = s.clock := by
  simp [State.switchOff]

@[simp] theorem State.switchOff_link (s : State) (n : SegId) : ((s.switchOff n).1).link = s.link := by
  simp [State.switchOff]

@[simp] theorem State.switchOff_pending (s : State) (n : SegId) : ((s.switchOff n).1).pending = s.pending := by
  simp [State.switchOff]

@[simp] theorem State.beginRun_windows (s : State) (n : SegId) : (s.beginRun n).windows = s.windows := by
  unfold State.beginRun; (repeat' split) <;> simp

@[simp] theorem State.beginRun_wires (s : State) (n : SegId) : (s.beginRun n).wires = s.wires := by
  unfold State.beginRun; (repeat' split) <;> simp

@[simp] theorem State.beginRun_units (s : State) (n : SegId) : (s.beginRun n).units = s.units := by
  unfold State.beginRun; (repeat' split) <;> simp

@[simp] theorem State.beginRun_log (s : State) (n : SegId) : (s.beginRun n).log = s.log := by
  unfold State.beginRun; (repeat' split) <;> simp

@[simp] theorem State.beginRun_clock (s : State) (n : SegId) : (s.beginRun n).clock = s.clock := by
  unfold State.beginRun; (repeat' split) <;> simp

@[simp] theorem State.beginRun_link (s : State) (n : SegId) : (s.beginRun n).link = s.link := by
  unfold State.beginRun; (repeat' split) <;> simp

@[simp] theorem State.beginRun_pending (s : State) (n : SegId) : (s.beginRun n).pending = s.pending := by
  unfold State.beginRun; (repeat' split) <;> simp

@[simp] theorem State.startLeg_windows (s : State) (n : SegId) : (s.startLeg n).windows = s.windows := by
  unfold State.startLeg; dsimp only; split <;> simp

@[simp] theorem State.startLeg_wires (s : State) (n : SegId) : (s.startLeg n).wires = s.wires := by
  unfold State.startLeg; dsimp only; split <;> simp

@[simp] theorem State.startLeg_units (s : State) (n : SegId) : (s.startLeg n).units = s.units := by
  unfold State.startLeg; dsimp only; split <;> simp

@[simp] theorem State.startLeg_log (s : State) (n : SegId) : (s.startLeg n).log = s.log := by
  unfold State.startLeg; dsimp only; split <;> simp

@[simp] theorem State.startLeg_clock (s : State) (n : SegId) : (s.startLeg n).clock = s.clock := by
  unfold State.startLeg; dsimp only; split <;> simp

@[simp] theorem State.startLeg_link (s : State) (n : SegId) : (s.startLeg n).link = s.link := by
  unfold State.startLeg; dsimp only; split <;> simp

@[simp] theorem State.startLeg_pending (s : State) (n : SegId) : (s.startLeg n).pending = s.pending := by
  unfold State.startLeg; dsimp only; split <;> simp

@[simp] theorem State.startDecision_windows (s : State) (n : SegId) : ((s.startDecision n).1).windows = s.windows := by
  unfold State.startDecision; dsimp only; (repeat' split) <;> simp

@[simp] theorem State.startDecision_wires (s : State) (n : SegId) : ((s.startDecision n).1).wires = s.wires := by
  unfold State.startDecision; dsimp only; (repeat' split) <;> simp

@[simp] theorem State.startDecision_units (s : State) (n : SegId) : ((s.startDecision n).1).units = s.units := by
  unfold State.startDecision; dsimp only; (repeat' split) <;> simp

@[simp] theorem State.startDecision_log (s : State) (n : SegId) : ((s.startDecision n).1).log = s.log := by
  unfold State.startDecision; dsimp only; (repeat' split) <;> simp

@[simp] theorem State.startDecision_clock (s : State) (n : SegId) : ((s.startDecision n).1).clock = s.clock := by
  unfold State.startDecision; dsimp only; (repeat' split) <;> simp

@[simp] theorem State.startDecision_link (s : State) (n : SegId) : ((s.startDecision n).1).link = s.link := by
  unfold State.startDecision; dsimp only; (repeat' split) <;> simp

@[simp] theorem State.startDecision_pending (s : State) (n : SegId) : ((s.startDecision n).1).pending = s.pending := by
  unfold State.startDecision; dsimp only; (repeat' split) <;> simp

@[simp] theorem State.legDecision_windows (s : State) (n : SegId) : ((s.legDecision n).1).windows = s.windows := by
  unfold State.legDecision; dsimp only; (repeat' split) <;> simp

@[simp] theorem State.legDecision_wires (s : State) (n : SegId) : ((s.legDecision n).1).wires = s.wires := by
  unfold State.legDecision; dsimp only; (repeat' split) <;> simp

@[simp] theorem State.legDecision_units (s : State) (n : SegId) : ((s.legDecision n).1).units = s.units := by
  unfold State.legDecision; dsimp only; (repeat' split) <;> simp

@[simp] theorem State.legDecision_log (s : State) (n : SegId) : ((s.legDecision n).1).log = s.log := by
  unfold State.legDecision; dsimp only; (repeat' split) <;> simp

@[simp] theorem State.legDecision_clock (s : State) (n : SegId) : ((s.legDecision n).1).clock = s.clock := by
  unfold State.legDecision; dsimp only; (repeat' split) <;> simp

@[simp] theorem State.legDecision_link (s : State) (n : SegId) : ((s.legDecision n).1).link = s.link := by
  unfold State.legDecision; dsimp only; (repeat' split) <;> simp

@[simp] theorem State.legDecision_pending (s : State) (n : SegId) : ((s.legDecision n).1).pending = s.pending := by
  unfold State.legDecision; dsimp only; (repeat' split) <;> simp

@[simp] theorem State.appendLeg_windows (s : State) (r : LegRef) (n : SegId) : ((s.appendLeg r n).1).windows = s.windows := by
  simp [State.appendLeg]

@[simp] theorem State.appendLeg_wires (s : State) (r : LegRef) (n : SegId) : ((s.appendLeg r n).1).wires = s.wires := by
  simp [State.appendLeg]

@[simp] theorem State.appendLeg_units (s : State) (r : LegRef) (n : SegId) : ((s.appendLeg r n).1).units = s.units := by
  simp [State.appendLeg]

@[simp] theorem State.appendLeg_log (s : State) (r : LegRef) (n : SegId) : ((s.appendLeg r n).1).log = s.log := by
  simp [State.appendLeg]

@[simp] theorem State.appendLeg_clock (s : State) (r : LegRef) (n : SegId) : ((s.appendLeg r n).1).clock = s.clock := by
  simp [State.appendLeg]

@[simp] theorem State.appendLeg_link (s : State) (r : LegRef) (n : SegId) : ((s.appendLeg r n).1).link = s.link := by
  simp [State.appendLeg]

@[simp] theorem State.appendLeg_pending (s : State) (r : LegRef) (n : SegId) : ((s.appendLeg r n).1).pending = s.pending := by
  simp [State.appendLeg]

@[simp] theorem State.placeLeg_windows (s : State) (r : LegRef) : ((s.placeLeg r).1).windows = s.windows := by
  unfold State.placeLeg; (repeat' split) <;> simp

@[simp] theorem State.placeLeg_wires (s : State) (r : LegRef) : ((s.placeLeg r).1).wires = s.wires := by
  unfold State.placeLeg; (repeat' split) <;> simp

@[simp] theorem State.placeLeg_units (s : State) (r : LegRef) : ((s.placeLeg r).1).units = s.units := by
  unfold State.placeLeg; (repeat' split) <;> simp

@[simp] theorem State.placeLeg_log (s : State) (r : LegRef) : ((s.placeLeg r).1).log = s.log := by
  unfold State.placeLeg; (repeat' split) <;> simp

@[simp] theorem State.placeLeg_clock (s : State) (r : LegRef) : ((s.placeLeg r).1).clock = s.clock := by
  unfold State.placeLeg; (repeat' split) <;> simp

@[simp] theorem State.placeLeg_link (s : State) (r : LegRef) : ((s.placeLeg r).1).link = s.link := by
  unfold State.placeLeg; (repeat' split) <;> simp

@[simp] theorem State.placeLeg_pending (s : State) (r : LegRef) : ((s.placeLeg r).1).pending = s.pending := by
  unfold State.placeLeg; (repeat' split) <;> simp

/-! ### Delivery -/

@[simp] theorem State.reconcileSlot_windows (s : State) (k : SlotId) : (s.reconcileSlot k).windows = s.windows := by
  unfold State.reconcileSlot; (repeat' split) <;> simp

@[simp] theorem State.reconcileSlot_segs (s : State) (k : SlotId) : (s.reconcileSlot k).segs = s.segs := by
  unfold State.reconcileSlot; (repeat' split) <;> simp

@[simp] theorem State.reconcileSlot_wires (s : State) (k : SlotId) : (s.reconcileSlot k).wires = s.wires := by
  unfold State.reconcileSlot; (repeat' split) <;> simp

@[simp] theorem State.reconcileSlot_units (s : State) (k : SlotId) : (s.reconcileSlot k).units = s.units := by
  unfold State.reconcileSlot; (repeat' split) <;> simp

@[simp] theorem State.reconcileSlot_log (s : State) (k : SlotId) : (s.reconcileSlot k).log = s.log := by
  unfold State.reconcileSlot; (repeat' split) <;> simp

@[simp] theorem State.reconcileSlot_clock (s : State) (k : SlotId) : (s.reconcileSlot k).clock = s.clock := by
  unfold State.reconcileSlot; (repeat' split) <;> simp

@[simp] theorem State.reconcileSlot_pending (s : State) (k : SlotId) : (s.reconcileSlot k).pending = s.pending := by
  unfold State.reconcileSlot; (repeat' split) <;> simp

@[simp] theorem State.buildFallback_windows (s : State) (r : CompletionRecord) : ((s.buildFallback r).1).windows = s.windows := by
  unfold State.buildFallback; (repeat' split) <;> simp

@[simp] theorem State.buildFallback_wires (s : State) (r : CompletionRecord) : ((s.buildFallback r).1).wires = s.wires := by
  unfold State.buildFallback; (repeat' split) <;> simp

@[simp] theorem State.buildFallback_units (s : State) (r : CompletionRecord) : ((s.buildFallback r).1).units = s.units := by
  unfold State.buildFallback; (repeat' split) <;> simp

@[simp] theorem State.buildFallback_log (s : State) (r : CompletionRecord) : ((s.buildFallback r).1).log = s.log := by
  unfold State.buildFallback; (repeat' split) <;> simp

@[simp] theorem State.buildFallback_clock (s : State) (r : CompletionRecord) : ((s.buildFallback r).1).clock = s.clock := by
  unfold State.buildFallback; (repeat' split) <;> simp

@[simp] theorem State.buildFallback_link (s : State) (r : CompletionRecord) : ((s.buildFallback r).1).link = s.link := by
  unfold State.buildFallback; (repeat' split) <;> simp

@[simp] theorem State.buildFallback_pending (s : State) (r : CompletionRecord) : ((s.buildFallback r).1).pending = s.pending := by
  unfold State.buildFallback; (repeat' split) <;> simp

@[simp] theorem State.consume_windows (s : State) (r : CompletionRecord) : ((s.consume r).1).windows = s.windows := by
  simp [State.consume]

@[simp] theorem State.consume_wires (s : State) (r : CompletionRecord) : ((s.consume r).1).wires = s.wires := by
  simp [State.consume]

@[simp] theorem State.consume_clock (s : State) (r : CompletionRecord) : ((s.consume r).1).clock = s.clock := by
  simp [State.consume]

@[simp] theorem State.consume_pending (s : State) (r : CompletionRecord) : ((s.consume r).1).pending = s.pending := by
  simp [State.consume]

@[simp] theorem State.settle_windows (fuel : Nat) (rs : List CompletionRecord) (s : State) : (State.settle fuel rs s).windows = s.windows := by
  induction fuel generalizing rs s with
  | zero => rfl
  | succ n ih => cases rs <;> simp [State.settle, ih]

@[simp] theorem State.settle_wires (fuel : Nat) (rs : List CompletionRecord) (s : State) : (State.settle fuel rs s).wires = s.wires := by
  induction fuel generalizing rs s with
  | zero => rfl
  | succ n ih => cases rs <;> simp [State.settle, ih]

@[simp] theorem State.settle_clock (fuel : Nat) (rs : List CompletionRecord) (s : State) : (State.settle fuel rs s).clock = s.clock := by
  induction fuel generalizing rs s with
  | zero => rfl
  | succ n ih => cases rs <;> simp [State.settle, ih]

@[simp] theorem State.settle_pending (fuel : Nat) (rs : List CompletionRecord) (s : State) : (State.settle fuel rs s).pending = s.pending := by
  induction fuel generalizing rs s with
  | zero => rfl
  | succ n ih => cases rs <;> simp [State.settle, ih]

@[simp] theorem deliverAll_windows (p : Produced) : (deliverAll p).windows = p.1.windows := by
  simp [deliverAll]

@[simp] theorem deliverAll_wires (p : Produced) : (deliverAll p).wires = p.1.wires := by
  simp [deliverAll]

@[simp] theorem deliverAll_clock (p : Produced) : (deliverAll p).clock = p.1.clock := by
  simp [deliverAll]

@[simp] theorem deliverAll_pending (p : Produced) : (deliverAll p).pending = p.1.pending := by
  simp [deliverAll]

@[simp] theorem State.decideStart_windows (s : State) (n : SegId) : (s.decideStart n).windows = s.windows := by
  simp [State.decideStart]

@[simp] theorem State.decideStart_wires (s : State) (n : SegId) : (s.decideStart n).wires = s.wires := by
  simp [State.decideStart]

@[simp] theorem State.decideStart_clock (s : State) (n : SegId) : (s.decideStart n).clock = s.clock := by
  simp [State.decideStart]

@[simp] theorem State.decideStart_pending (s : State) (n : SegId) : (s.decideStart n).pending = s.pending := by
  simp [State.decideStart]

@[simp] theorem State.decideNext_windows (s : State) (n : SegId) : (s.decideNext n).windows = s.windows := by
  simp [State.decideNext]

@[simp] theorem State.decideNext_wires (s : State) (n : SegId) : (s.decideNext n).wires = s.wires := by
  simp [State.decideNext]

@[simp] theorem State.decideNext_clock (s : State) (n : SegId) : (s.decideNext n).clock = s.clock := by
  simp [State.decideNext]

@[simp] theorem State.decideNext_pending (s : State) (n : SegId) : (s.decideNext n).pending = s.pending := by
  simp [State.decideNext]

@[simp] theorem State.failQueued_windows (s : State) (n : SegId) (o : LegOutcome) : (s.failQueued n o).windows = s.windows := by
  simp [State.failQueued]

@[simp] theorem State.failQueued_wires (s : State) (n : SegId) (o : LegOutcome) : (s.failQueued n o).wires = s.wires := by
  simp [State.failQueued]

@[simp] theorem State.failQueued_clock (s : State) (n : SegId) (o : LegOutcome) : (s.failQueued n o).clock = s.clock := by
  simp [State.failQueued]

@[simp] theorem State.failQueued_pending (s : State) (n : SegId) (o : LegOutcome) : (s.failQueued n o).pending = s.pending := by
  simp [State.failQueued]

@[simp] theorem State.storeLegs_windows (s : State) (k : SlotId) (res : Resolution) (shape : Kind × Byte × Nat) : (s.storeLegs k res shape).windows = s.windows := by
  simp [State.storeLegs]

@[simp] theorem State.storeLegs_segs (s : State) (k : SlotId) (res : Resolution) (shape : Kind × Byte × Nat) : (s.storeLegs k res shape).segs = s.segs := by
  simp [State.storeLegs]

@[simp] theorem State.storeLegs_wires (s : State) (k : SlotId) (res : Resolution) (shape : Kind × Byte × Nat) : (s.storeLegs k res shape).wires = s.wires := by
  simp [State.storeLegs]

@[simp] theorem State.storeLegs_units (s : State) (k : SlotId) (res : Resolution) (shape : Kind × Byte × Nat) : (s.storeLegs k res shape).units = s.units := by
  simp [State.storeLegs]

@[simp] theorem State.storeLegs_log (s : State) (k : SlotId) (res : Resolution) (shape : Kind × Byte × Nat) : (s.storeLegs k res shape).log = s.log := by
  simp [State.storeLegs]

@[simp] theorem State.storeLegs_clock (s : State) (k : SlotId) (res : Resolution) (shape : Kind × Byte × Nat) : (s.storeLegs k res shape).clock = s.clock := by
  simp [State.storeLegs]

@[simp] theorem State.storeLegs_link (s : State) (k : SlotId) (res : Resolution) (shape : Kind × Byte × Nat) : (s.storeLegs k res shape).link = s.link := by
  simp [State.storeLegs]

@[simp] theorem State.storeLegs_pending (s : State) (k : SlotId) (res : Resolution) (shape : Kind × Byte × Nat) : (s.storeLegs k res shape).pending = s.pending := by
  simp [State.storeLegs]

@[simp] theorem State.placeLegs_windows (s : State) (k : SlotId) : ((s.placeLegs k).1).windows = s.windows := by
  simp [State.placeLegs]

@[simp] theorem State.placeLegs_wires (s : State) (k : SlotId) : ((s.placeLegs k).1).wires = s.wires := by
  simp [State.placeLegs]

@[simp] theorem State.placeLegs_units (s : State) (k : SlotId) : ((s.placeLegs k).1).units = s.units := by
  simp [State.placeLegs]

@[simp] theorem State.placeLegs_log (s : State) (k : SlotId) : ((s.placeLegs k).1).log = s.log := by
  simp [State.placeLegs]

@[simp] theorem State.placeLegs_clock (s : State) (k : SlotId) : ((s.placeLegs k).1).clock = s.clock := by
  simp [State.placeLegs]

@[simp] theorem State.placeLegs_link (s : State) (k : SlotId) : ((s.placeLegs k).1).link = s.link := by
  simp [State.placeLegs]

@[simp] theorem State.placeLegs_pending (s : State) (k : SlotId) : ((s.placeLegs k).1).pending = s.pending := by
  simp [State.placeLegs]

@[simp] theorem State.buildLegs_windows (s : State) (k : SlotId) (res : Resolution) (shape : Kind × Byte × Nat) : (s.buildLegs k res shape).windows = s.windows := by
  simp [State.buildLegs]

@[simp] theorem State.buildLegs_wires (s : State) (k : SlotId) (res : Resolution) (shape : Kind × Byte × Nat) : (s.buildLegs k res shape).wires = s.wires := by
  simp [State.buildLegs]

@[simp] theorem State.buildLegs_clock (s : State) (k : SlotId) (res : Resolution) (shape : Kind × Byte × Nat) : (s.buildLegs k res shape).clock = s.clock := by
  simp [State.buildLegs]

@[simp] theorem State.buildLegs_pending (s : State) (k : SlotId) (res : Resolution) (shape : Kind × Byte × Nat) : (s.buildLegs k res shape).pending = s.pending := by
  simp [State.buildLegs]

/-! ### Line recovery -/

@[simp] theorem State.noteResetLeg_windows (s : State) (n : SegId) (o : LegOutcome) : (s.noteResetLeg n o).windows = s.windows := by
  unfold State.noteResetLeg; (repeat' split) <;> simp

@[simp] theorem State.noteResetLeg_segs (s : State) (n : SegId) (o : LegOutcome) : (s.noteResetLeg n o).segs = s.segs := by
  unfold State.noteResetLeg; (repeat' split) <;> simp

@[simp] theorem State.noteResetLeg_wires (s : State) (n : SegId) (o : LegOutcome) : (s.noteResetLeg n o).wires = s.wires := by
  unfold State.noteResetLeg; (repeat' split) <;> simp

@[simp] theorem State.noteResetLeg_units (s : State) (n : SegId) (o : LegOutcome) : (s.noteResetLeg n o).units = s.units := by
  unfold State.noteResetLeg; (repeat' split) <;> simp

@[simp] theorem State.noteResetLeg_log (s : State) (n : SegId) (o : LegOutcome) : (s.noteResetLeg n o).log = s.log := by
  unfold State.noteResetLeg; (repeat' split) <;> simp

@[simp] theorem State.noteResetLeg_clock (s : State) (n : SegId) (o : LegOutcome) : (s.noteResetLeg n o).clock = s.clock := by
  unfold State.noteResetLeg; (repeat' split) <;> simp

@[simp] theorem State.noteResetLeg_link (s : State) (n : SegId) (o : LegOutcome) : (s.noteResetLeg n o).link = s.link := by
  unfold State.noteResetLeg; (repeat' split) <;> simp

@[simp] theorem State.noteResetLeg_pending (s : State) (n : SegId) (o : LegOutcome) : (s.noteResetLeg n o).pending = s.pending := by
  unfold State.noteResetLeg; (repeat' split) <;> simp

@[simp] theorem State.finishReset_windows (s : State) (n : SegId) (k : SlotId) (res : ResultCode) (p : Nat) (st : SegState) : (s.finishReset n k res p st).windows = s.windows := by
  simp [State.finishReset]

@[simp] theorem State.finishReset_segs (s : State) (n : SegId) (k : SlotId) (res : ResultCode) (p : Nat) (st : SegState) : (s.finishReset n k res p st).segs = s.segs := by
  simp [State.finishReset]

@[simp] theorem State.finishReset_wires (s : State) (n : SegId) (k : SlotId) (res : ResultCode) (p : Nat) (st : SegState) : (s.finishReset n k res p st).wires = s.wires := by
  simp [State.finishReset]

@[simp] theorem State.finishReset_units (s : State) (n : SegId) (k : SlotId) (res : ResultCode) (p : Nat) (st : SegState) : (s.finishReset n k res p st).units = s.units := by
  simp [State.finishReset]

@[simp] theorem State.finishReset_clock (s : State) (n : SegId) (k : SlotId) (res : ResultCode) (p : Nat) (st : SegState) : (s.finishReset n k res p st).clock = s.clock := by
  simp [State.finishReset]

@[simp] theorem State.finishReset_pending (s : State) (n : SegId) (k : SlotId) (res : ResultCode) (p : Nat) (st : SegState) : (s.finishReset n k res p st).pending = s.pending := by
  simp [State.finishReset]

@[simp] theorem State.beginResetClear_slots (s : State) (n : SegId) (o : Option SlotId) : (s.beginResetClear n o).slots = s.slots := by
  simp [State.beginResetClear]

@[simp] theorem State.beginResetClear_windows (s : State) (n : SegId) (o : Option SlotId) : (s.beginResetClear n o).windows = s.windows := by
  simp [State.beginResetClear]

@[simp] theorem State.beginResetClear_wires (s : State) (n : SegId) (o : Option SlotId) : (s.beginResetClear n o).wires = s.wires := by
  simp [State.beginResetClear]

@[simp] theorem State.beginResetClear_units (s : State) (n : SegId) (o : Option SlotId) : (s.beginResetClear n o).units = s.units := by
  simp [State.beginResetClear]

@[simp] theorem State.beginResetClear_log (s : State) (n : SegId) (o : Option SlotId) : (s.beginResetClear n o).log = s.log := by
  simp [State.beginResetClear]

@[simp] theorem State.beginResetClear_clock (s : State) (n : SegId) (o : Option SlotId) : (s.beginResetClear n o).clock = s.clock := by
  simp [State.beginResetClear]

@[simp] theorem State.beginResetClear_link (s : State) (n : SegId) (o : Option SlotId) : (s.beginResetClear n o).link = s.link := by
  simp [State.beginResetClear]

@[simp] theorem State.beginResetClear_pending (s : State) (n : SegId) (o : Option SlotId) : (s.beginResetClear n o).pending = s.pending := by
  simp [State.beginResetClear]

@[simp] theorem State.faultEntry_windows (s : State) (n : SegId) (c : FaultCause) : (s.faultEntry n c).windows = s.windows := by
  simp [State.faultEntry]

@[simp] theorem State.faultEntry_wires (s : State) (n : SegId) (c : FaultCause) : (s.faultEntry n c).wires = s.wires := by
  simp [State.faultEntry]

@[simp] theorem State.faultEntry_pending (s : State) (n : SegId) (c : FaultCause) : (s.faultEntry n c).pending = s.pending := by
  simp [State.faultEntry]

@[simp] theorem State.faultEntry_clock (s : State) (n : SegId) (c : FaultCause) : (s.faultEntry n c).clock = s.clock := by
  simp only [State.faultEntry]; rw [State.raise_clock_of] <;> simp [Notice.source]

@[simp] theorem State.completeRun_windows (s : State) (r : Run) (l : LegRecord) (w b : List Byte) (o : LegOutcome) : (s.completeRun r l w b o).windows = s.windows := by
  unfold State.completeRun; (repeat' split) <;> simp

@[simp] theorem State.completeRun_wires (s : State) (r : Run) (l : LegRecord) (w b : List Byte) (o : LegOutcome) : (s.completeRun r l w b o).wires = s.wires := by
  unfold State.completeRun; (repeat' split) <;> simp

@[simp] theorem State.completeRun_clock (s : State) (r : Run) (l : LegRecord) (w b : List Byte) (o : LegOutcome) : (s.completeRun r l w b o).clock = s.clock := by
  unfold State.completeRun; (repeat' split) <;> simp

@[simp] theorem State.completeRun_pending (s : State) (r : Run) (l : LegRecord) (w b : List Byte) (o : LegOutcome) : (s.completeRun r l w b o).pending = s.pending := by
  unfold State.completeRun; (repeat' split) <;> simp

@[simp] theorem State.traced_slots (s : State) (n : SegId) (t : List BusSymbol) : (s.traced n t).slots = s.slots := rfl

@[simp] theorem State.traced_windows (s : State) (n : SegId) (t : List BusSymbol) : (s.traced n t).windows = s.windows := rfl

@[simp] theorem State.traced_wires (s : State) (n : SegId) (t : List BusSymbol) : (s.traced n t).wires = s.wires := rfl

@[simp] theorem State.traced_units (s : State) (n : SegId) (t : List BusSymbol) : (s.traced n t).units = s.units := rfl

@[simp] theorem State.traced_log (s : State) (n : SegId) (t : List BusSymbol) : (s.traced n t).log = s.log := rfl

@[simp] theorem State.traced_clock (s : State) (n : SegId) (t : List BusSymbol) : (s.traced n t).clock = s.clock := rfl

@[simp] theorem State.traced_link (s : State) (n : SegId) (t : List BusSymbol) : (s.traced n t).link = s.link := rfl

@[simp] theorem State.traced_pending (s : State) (n : SegId) (t : List BusSymbol) : (s.traced n t).pending = s.pending := rfl

/-- `traced` changes nothing but the trace of its segment. -/
theorem State.traced_get (s : State) (n m : SegId) (t : List BusSymbol) :
    (s.traced n t).segs[m] = if m = n then { s.segs[n] with trace := s.segs[n].trace ++ t } else s.segs[m] := by
  unfold State.traced; rw [State.modSeg_get]

@[simp] theorem State.clearTraced_slots (s : State) (n : SegId) (t : List BusSymbol) :
    (s.clearTraced n t).slots = s.slots := rfl

@[simp] theorem State.clearTraced_windows (s : State) (n : SegId) (t : List BusSymbol) :
    (s.clearTraced n t).windows = s.windows := rfl

@[simp] theorem State.clearTraced_wires (s : State) (n : SegId) (t : List BusSymbol) :
    (s.clearTraced n t).wires = s.wires := rfl

@[simp] theorem State.clearTraced_units (s : State) (n : SegId) (t : List BusSymbol) :
    (s.clearTraced n t).units = s.units := rfl

@[simp] theorem State.clearTraced_log (s : State) (n : SegId) (t : List BusSymbol) :
    (s.clearTraced n t).log = s.log := rfl

@[simp] theorem State.clearTraced_clock (s : State) (n : SegId) (t : List BusSymbol) :
    (s.clearTraced n t).clock = s.clock := rfl

@[simp] theorem State.clearTraced_link (s : State) (n : SegId) (t : List BusSymbol) :
    (s.clearTraced n t).link = s.link := rfl

@[simp] theorem State.clearTraced_pending (s : State) (n : SegId) (t : List BusSymbol) :
    (s.clearTraced n t).pending = s.pending := rfl

/-- `clearTraced` changes nothing but the clear's trace of its segment. -/
theorem State.clearTraced_get (s : State) (n m : SegId) (t : List BusSymbol) :
    (s.clearTraced n t).segs[m] = if m = n then { s.segs[n] with clearTrace := t } else s.segs[m] := by
  unfold State.clearTraced; rw [State.modSeg_get]

/-- The clear record stays when the clear's trace is noted. -/
theorem State.clearTraced_clear (s : State) (n m : SegId) (t : List BusSymbol) :
    (s.clearTraced n t).segs[m].clear = s.segs[m].clear := by
  rw [State.clearTraced_get]; split
  · next e => subst e; rfl
  · rfl

/-- So does the state of the segment. -/
theorem State.clearTraced_state (s : State) (n m : SegId) (t : List BusSymbol) :
    (s.clearTraced n t).segs[m].state = s.segs[m].state := by
  rw [State.clearTraced_get]; split
  · next e => subst e; rfl
  · rfl

@[simp] theorem State.endRun_windows (s : State) (n : SegId) (r : Run) (l : LegRecord) (w b : List Byte) (o : LegOutcome) : (s.endRun n r l w b o).windows = s.windows := by
  unfold State.endRun; dsimp only; split <;> simp

@[simp] theorem State.endRun_wires (s : State) (n : SegId) (r : Run) (l : LegRecord) (w b : List Byte) (o : LegOutcome) : (s.endRun n r l w b o).wires = s.wires := by
  unfold State.endRun; dsimp only; split <;> simp

@[simp] theorem State.endRun_clock (s : State) (n : SegId) (r : Run) (l : LegRecord) (w b : List Byte) (o : LegOutcome) : (s.endRun n r l w b o).clock = s.clock := by
  unfold State.endRun; dsimp only; split <;> simp

@[simp] theorem State.endRun_pending (s : State) (n : SegId) (r : Run) (l : LegRecord) (w b : List Byte) (o : LegOutcome) : (s.endRun n r l w b o).pending = s.pending := by
  unfold State.endRun; dsimp only; split <;> simp

@[simp] theorem State.afterLeg_windows (s : State) (n : SegId) (b : Bool) (e : LegEnding) : (s.afterLeg n b e).windows = s.windows := by
  unfold State.afterLeg; (repeat' split) <;> simp

@[simp] theorem State.afterLeg_wires (s : State) (n : SegId) (b : Bool) (e : LegEnding) : (s.afterLeg n b e).wires = s.wires := by
  unfold State.afterLeg; (repeat' split) <;> simp

@[simp] theorem State.afterLeg_clock (s : State) (n : SegId) (b : Bool) (e : LegEnding) : (s.afterLeg n b e).clock = s.clock := by
  unfold State.afterLeg; (repeat' split) <;> simp

@[simp] theorem State.afterLeg_pending (s : State) (n : SegId) (b : Bool) (e : LegEnding) : (s.afterLeg n b e).pending = s.pending := by
  unfold State.afterLeg; (repeat' split) <;> simp

@[simp] theorem State.afterStuckLeg_windows (s : State) (n : SegId) (b : Bool) : (s.afterStuckLeg n b).windows = s.windows := by
  unfold State.afterStuckLeg; dsimp only; split <;> simp

@[simp] theorem State.afterStuckLeg_wires (s : State) (n : SegId) (b : Bool) : (s.afterStuckLeg n b).wires = s.wires := by
  unfold State.afterStuckLeg; dsimp only; split <;> simp

@[simp] theorem State.afterStuckLeg_clock (s : State) (n : SegId) (b : Bool) : (s.afterStuckLeg n b).clock = s.clock := by
  unfold State.afterStuckLeg; dsimp only; split <;> simp

@[simp] theorem State.afterStuckLeg_pending (s : State) (n : SegId) (b : Bool) : (s.afterStuckLeg n b).pending = s.pending := by
  unfold State.afterStuckLeg; dsimp only; split <;> simp

@[simp] theorem State.resetSucceeds_windows (s : State) (n : SegId) (k : SlotId) (p : Nat) : (s.resetSucceeds n k p).windows = s.windows := by
  unfold State.resetSucceeds; dsimp only; split <;> simp

@[simp] theorem State.resetSucceeds_wires (s : State) (n : SegId) (k : SlotId) (p : Nat) : (s.resetSucceeds n k p).wires = s.wires := by
  unfold State.resetSucceeds; dsimp only; split <;> simp

@[simp] theorem State.resetSucceeds_clock (s : State) (n : SegId) (k : SlotId) (p : Nat) : (s.resetSucceeds n k p).clock = s.clock := by
  unfold State.resetSucceeds; dsimp only; split <;> simp

@[simp] theorem State.resetSucceeds_pending (s : State) (n : SegId) (k : SlotId) (p : Nat) : (s.resetSucceeds n k p).pending = s.pending := by
  unfold State.resetSucceeds; dsimp only; split <;> simp

@[simp] theorem State.clearSucceeds_windows (s : State) (n : SegId) (c : ClearRecord) (p : Nat) : (s.clearSucceeds n c p).windows = s.windows := by
  unfold State.clearSucceeds; dsimp only; split <;> simp

@[simp] theorem State.clearSucceeds_wires (s : State) (n : SegId) (c : ClearRecord) (p : Nat) : (s.clearSucceeds n c p).wires = s.wires := by
  unfold State.clearSucceeds; dsimp only; split <;> simp

@[simp] theorem State.clearSucceeds_clock (s : State) (n : SegId) (c : ClearRecord) (p : Nat) : (s.clearSucceeds n c p).clock = s.clock := by
  unfold State.clearSucceeds; dsimp only; split <;> simp

@[simp] theorem State.clearSucceeds_pending (s : State) (n : SegId) (c : ClearRecord) (p : Nat) : (s.clearSucceeds n c p).pending = s.pending := by
  unfold State.clearSucceeds; dsimp only; split <;> simp

@[simp] theorem State.clearFails_windows (s : State) (n : SegId) (c : ClearRecord) (x : FaultCause) (p : Nat) : (s.clearFails n c x p).windows = s.windows := by
  unfold State.clearFails; dsimp only; split <;> simp

@[simp] theorem State.clearFails_wires (s : State) (n : SegId) (c : ClearRecord) (x : FaultCause) (p : Nat) : (s.clearFails n c x p).wires = s.wires := by
  unfold State.clearFails; dsimp only; split <;> simp

@[simp] theorem State.clearFails_clock (s : State) (n : SegId) (c : ClearRecord) (x : FaultCause) (p : Nat) : (s.clearFails n c x p).clock = s.clock := by
  unfold State.clearFails; dsimp only; split <;> simp

@[simp] theorem State.clearFails_pending (s : State) (n : SegId) (c : ClearRecord) (x : FaultCause) (p : Nat) : (s.clearFails n c x p).pending = s.pending := by
  unfold State.clearFails; dsimp only; split <;> simp

/-! ### Clock unit -/

@[simp] theorem State.decideAll_windows (s : State) : (s.decideAll).windows = s.windows := by
  simp [State.decideAll]

@[simp] theorem State.decideAll_wires (s : State) : (s.decideAll).wires = s.wires := by
  simp [State.decideAll]

@[simp] theorem State.decideAll_clock (s : State) : (s.decideAll).clock = s.clock := by
  simp [State.decideAll]

@[simp] theorem State.decideAll_pending (s : State) : (s.decideAll).pending = s.pending := by
  simp [State.decideAll]

@[simp] theorem State.endSwitch_windows (s : State) (x : Source) (res : ResultCode) : (s.endSwitch x res).windows = s.windows := by
  unfold State.endSwitch; dsimp only; split <;> simp

@[simp] theorem State.endSwitch_wires (s : State) (x : Source) (res : ResultCode) : (s.endSwitch x res).wires = s.wires := by
  unfold State.endSwitch; dsimp only; split <;> simp

@[simp] theorem State.endSwitch_pending (s : State) (x : Source) (res : ResultCode) : (s.endSwitch x res).pending = s.pending := by
  unfold State.endSwitch; dsimp only; split <;> simp

@[simp] theorem State.endSwitch_clock (s : State) (x : Source) (res : ResultCode) : (s.endSwitch x res).clock = s.clock.steady := by
  unfold State.endSwitch; dsimp only; split <;> simp

@[simp] theorem State.completeSwitch_windows (s : State) (x : Source) : (s.completeSwitch x).windows = s.windows := by
  simp [State.completeSwitch]

@[simp] theorem State.completeSwitch_wires (s : State) (x : Source) : (s.completeSwitch x).wires = s.wires := by
  simp [State.completeSwitch]

@[simp] theorem State.completeSwitch_pending (s : State) (x : Source) : (s.completeSwitch x).pending = s.pending := by
  simp [State.completeSwitch]

@[simp] theorem State.lossFallback_windows (s : State) : (s.lossFallback).windows = s.windows := by
  unfold State.lossFallback; (repeat' split) <;> simp

@[simp] theorem State.lossFallback_wires (s : State) : (s.lossFallback).wires = s.wires := by
  unfold State.lossFallback; (repeat' split) <;> simp

@[simp] theorem State.lossFallback_pending (s : State) : (s.lossFallback).pending = s.pending := by
  unfold State.lossFallback; (repeat' split) <;> simp

@[simp] theorem State.raiseClockEvent_slots (s : State) (e : ClockEventKind) : (s.raiseClockEvent e).slots = s.slots := by
  simp [State.raiseClockEvent]

@[simp] theorem State.raiseClockEvent_windows (s : State) (e : ClockEventKind) : (s.raiseClockEvent e).windows = s.windows := by
  simp [State.raiseClockEvent]

@[simp] theorem State.raiseClockEvent_wires (s : State) (e : ClockEventKind) : (s.raiseClockEvent e).wires = s.wires := by
  simp [State.raiseClockEvent]

@[simp] theorem State.raiseClockEvent_log (s : State) (e : ClockEventKind) : (s.raiseClockEvent e).log = s.log := by
  simp [State.raiseClockEvent]

@[simp] theorem State.raiseClockEvent_pending (s : State) (e : ClockEventKind) : (s.raiseClockEvent e).pending = s.pending := by
  simp [State.raiseClockEvent]

@[simp] theorem State.raiseClockEvent_segs (s : State) (e : ClockEventKind) : (s.raiseClockEvent e).segs = s.segs := by
  unfold State.raiseClockEvent; rw [State.raise_segs_of]; simp [Notice.source]

@[simp] theorem State.raiseClockEvent_units (s : State) (e : ClockEventKind) : (s.raiseClockEvent e).units = s.units := by
  unfold State.raiseClockEvent; rw [State.raise_units_of]; simp [Notice.source]

end Sys2Proof.Machine
end

