-- ==== Sys2Proof/Laws/Stable.lean ====
section
/-! SUPPORT. Predicates of State that building, placing, failing and delivering legs keep: it is enough that the few updates this
work is made of keep them. -/

namespace Sys2Proof.Machine

/-- A change of a slot record that leaves its state, tag, type, result and reply. -/
def KeepsHead (f : Slot → Slot) : Prop :=
  ∀ x, (f x).state = x.state ∧ (f x).tag = x.tag ∧ (f x).reqType = x.reqType ∧ (f x).result = x.result ∧ (f x).reply = x.reply

/-- A predicate that the updates of a delivery keep. -/
structure Deliverable (P : State → Prop) : Prop where
  leg : ∀ s r f, P s → P (s.modLeg r f)
  offer : ∀ s e, P s → P (s.offer e)
  answer : ∀ s k res fields, P s → P (s.answer k res fields)
  work : ∀ s k f, s.slots[k].state = .working → KeepsHead f → P s → P (s.modSlot k f)
  watch : ∀ s r u armed, P s → P (State.watchUnit r u armed s)
  alert : ∀ s x, x.count = 1 → P s → P (s.raise x)
  append : ∀ s r n, s.segs[n].state ≠ .off → s.segs[n].state ≠ .faulted → P s → P (s.appendLeg r n).1

@[simp] theorem Segment.goto_heldAlert (g : Segment) (st : SegState) : (g.goto st).heldAlert = g.heldAlert := rfl

@[simp] theorem Segment.rest_heldAlert (g : Segment) (st : SegState) : (g.rest st).heldAlert = g.heldAlert := rfl

@[simp] theorem Segment.applyPending_heldAlert (g : Segment) : g.applyPending.heldAlert = g.heldAlert := by
  unfold Segment.applyPending; split <;> rfl

@[simp] theorem Segment.endRun_heldAlert (g : Segment) : g.endRun.heldAlert = g.heldAlert := rfl

theorem State.isResetOf_of_resetSlot {s : State} {n : SegId} {k : SlotId} (h : s.resetSlot n = some k) :
    s.slots[k].isResetOf n = true := by
  simpa using List.find?_some h

theorem Slot.working_of_isResetOf {x : Slot} {n : SegId} (h : x.isResetOf n = true) : x.state = .working := by
  simp [Slot.isResetOf] at h; exact h.1

namespace Deliverable

variable {P : State → Prop} (h : Deliverable P)
include h

theorem failLeg (s : State) (r : LegRef) (o : LegOutcome) (hs : P s) : P (s.failLeg r o).1 := by
  unfold State.failLeg; split
  · exact hs
  · exact h.leg _ _ _ hs

theorem failLegs (o : LegOutcome) (rs : List LegRef) (s : State) (hs : P s) : P (State.failLegs o rs s).1 := by
  induction rs generalizing s with
  | nil => exact hs
  | cons r rs ih => exact ih _ (h.failLeg s r o hs)

theorem placeLeg (s : State) (r : LegRef) (hs : P s) : P (s.placeLeg r).1 := by
  unfold State.placeLeg; split
  · exact hs
  · split
    · exact h.failLeg _ _ _ hs
    · exact h.failLeg _ _ _ hs
    all_goals next hst => exact h.append _ _ _ (by rw [hst]; decide) (by rw [hst]; decide) hs

theorem reconcileSlot (s : State) (k : SlotId) (hs : P s) : P (s.reconcileSlot k) := by
  unfold State.reconcileSlot; (repeat' split) <;> first | exact hs | exact h.answer _ _ _ _ hs

theorem buildFallback (s : State) (r : CompletionRecord) (hs : P s) : P (s.buildFallback r).1 := by
  unfold State.buildFallback
  split
  · next hw =>
    split
    · split
      · exact hs
      · refine h.placeLeg _ _ (h.work _ _ _ ?_ (fun _ => ⟨rfl, rfl, rfl, rfl, rfl⟩) hs)
        simp [Slot.wantsTwin] at hw; exact hw.2
    · exact hs
  · exact hs

theorem watchRecord (s : State) (r : RecordCopy) (hs : P s) : P (s.watchRecord r) :=
  h.watch _ _ _ _ (h.watch _ _ _ _ (h.watch _ _ _ _ (h.watch _ _ _ _ hs)))

theorem consume (s : State) (r : CompletionRecord) (hs : P s) : P (s.consume r).1 :=
  h.watchRecord _ _ (h.reconcileSlot _ _ (h.buildFallback _ _ (h.leg _ _ _ (h.offer _ _ hs))))

theorem settle (fuel : Nat) (rs : List CompletionRecord) (s : State) (hs : P s) : P (State.settle fuel rs s) := by
  induction fuel generalizing rs s with
  | zero => exact hs
  | succ n ih =>
    cases rs with
    | nil => exact hs
    | cons r rs => exact ih _ _ (h.consume s r hs)

theorem deliverAll (p : Produced) (hp : P p.1) : P (deliverAll p) := h.settle _ _ _ hp

theorem placeLegs (s : State) (k : SlotId) (hs : P s) : P (s.placeLegs k).1 := h.placeLeg _ _ (h.placeLeg _ _ hs)

theorem noteResetLeg (s : State) (n : SegId) (o : LegOutcome) (hs : P s) : P (s.noteResetLeg n o) := by
  unfold State.noteResetLeg; split
  · exact hs
  · next k hk =>
    exact h.work _ _ _ (Slot.working_of_isResetOf (State.isResetOf_of_resetSlot hk)) (fun _ => ⟨rfl, rfl, rfl, rfl, rfl⟩) hs

theorem finishReset (s : State) (n : SegId) (k : SlotId) (res : ResultCode) (p : Nat) (st : SegState) (hs : P s) :
    P (s.finishReset n k res p st) := h.answer _ _ _ _ (h.offer _ _ hs)

theorem completeRun (s : State) (r : Run) (l : LegRecord) (w b : List Byte) (o : LegOutcome) (hs : P s) :
    P (s.completeRun r l w b o) := by
  unfold State.completeRun; split
  · exact hs
  · exact h.deliverAll _ (h.leg _ _ _ hs)

end Deliverable

end Sys2Proof.Machine
end

