-- ==== Sys2Proof/Laws/Invariant.lean ====
section
/-! SUPPORT. A predicate that the updates listed in `Invariant` keep is kept by every command. -/

namespace Sys2Proof.Machine

/-- The waits, flags and clears of one segment that a command works on outside a delivery. -/
structure SegmentSteps (P : State → Prop) : Prop where
  start : ∀ s n, P s → P (s.startDecision n).1
  next : ∀ s n, s.segs[n].inProgress = none → P s → P (s.legDecision n).1
  unqueue : ∀ s n r, P s → P (s.modSeg n fun g => { g with queue := g.queue.erase r })
  failQueue : ∀ s n o, P s → P (s.failQueue n o).1
  atOnce : ∀ s n c, s.segs[n].state = .idle ∨ s.segs[n].state = .off → P s → P (s.configAtOnce n c)
  pending : ∀ s n c, s.segs[n].state = .active ∨ s.segs[n].state = .clearing → P s →
    P (s.modSeg n fun g => { g with pendingCfg := some c })
  storeOff : ∀ s n c, s.segs[n].state = .faulted → c.enable = false → P s → P (s.modSeg n (Segment.store c))
  clearHold : ∀ s n, P s → P (s.clearHold n)
  askReset : ∀ s n, s.segs[n].inProgress.isSome = true → P s → P (s.modSeg n fun g => { g with resetRequested := true })
  ownClear : ∀ s n k, P s → P (s.modSeg n fun g => { g with clear := g.clear.map fun c => { c with owner := some k } })
  resetClear : ∀ s n o, s.segs[n].inProgress = none → P s → P (s.beginResetClear n o)
  endRun : ∀ s n, P s → P (s.modSeg n Segment.endRun)
  clear : ∀ s n p o, s.segs[n].inProgress = none → P s → P (s.beginClear n p o)
  fault : ∀ s n c, s.segs[n].inProgress = none → P s → P (s.faultEntry n c)
  stuck : ∀ s n b, s.segs[n].inProgress = none → P s → P (s.afterStuckLeg n b)
  traced : ∀ s n t, P s → P (s.traced n t)
  clearTraced : ∀ s n t, P s → P (s.clearTraced n t)
  storeRun : ∀ s n r buf, s.segs[n].inProgress.isSome = true → P s → P (s.storeRun n r buf)
  beginRun : ∀ s n, s.segs[n].checking = true → P s → P (s.beginRun n)
  clearSucceeds : ∀ s n c p, s.segs[n].state = .clearing → P s → P (s.clearSucceeds n c p)
  clearFails : ∀ s n c x p, s.segs[n].state = .clearing → P s → P (s.clearFails n c x p)
  pause : ∀ s n, s.segs[n].pauseSetting = true → P s → P (s.modSeg n Segment.takePause)
  drop : ∀ s n, P s → P (s.dropReport n)

/-- The events of the clock unit. -/
structure ClockSteps (P : State → Prop) : Prop where
  tick : ∀ s, P s →
    P { s with clock := { s.clock with timeBase := s.clock.timeBase + 1 }, units := s.units.map WatchUnit.tick }
  frequency : ∀ s m, 8 ≤ m → m ≤ 25 → P s → P { s with clock := { s.clock with frequency := m } }
  edge : ∀ s, P s → P { s with clock := s.clock.edge }
  good : ∀ s, s.clock.refStatus = .starting → P s → P { s with clock := { s.clock with refStatus := .present, goodTimer := none } }
  lose : ∀ s, s.clock.refStatus = .starting → P s → P { s with clock := s.clock.lost }
  loss : ∀ s, s.clock.refStatus = .present → P s → P ({ s with clock := s.clock.lost } : State).lossFallback
  switching : ∀ s k x, s.clock.switch = .steady → x ≠ s.clock.source → (x = .reference → s.clock.refStatus = .present) → P s →
    P (s.beginSwitch k x)
  complete : ∀ s x, s.clock.switch = .quiescing x → P s → P (s.completeSwitch x)
  await : ∀ s n b, s.clock.switch ≠ .steady → P s → P (s.setAwaited n b)

/-- A predicate that every update of the part keeps, the model's queue of commands aside. -/
structure Invariant (P : State → Prop) : Prop extends Deliverable P, SegmentSteps P, ClockSteps P where
  wires : ∀ s w, P s → P (s.withWires w)
  take : ∀ s k type tag, s.slots[k].state = .free →
    (transferType type = true → ∀ j, j ≠ k → s.slots[j].liveTag = true → s.slots[j].tag ≠ tag) →
    P s → P (s.modSlot k fun _ => Slot.taken type tag)
  clash : ∀ s k type tag, s.slots[k].state = .free → P s →
    P ((s.modSlot k fun _ => Slot.taken type tag).answer k .tagInUse [])
  link : ∀ s l, l.queue = s.link.queue → P s → P { s with link := l }
  log : ∀ s l, l.entries.length ≤ s.log.entries.length → P s → P { s with log := l }
  unit : ∀ s u f, (f s.units[u]).heldHit = s.units[u].heldHit → (s.units[u].Lawful u → (f s.units[u]).Lawful u) → P s →
    P (s.modUnit u f)
  window : ∀ s i w, (w.enabled = true → w.Lawful) → P s → P (s.setWindow i w)
  begin : ∀ s, P s → P s.beginMessage
  send : ∀ s, P s → P s.sendWhole
  soft : ∀ s, P s → P s.softReset
  power : ∀ s, P s → P { State.reset with wires := s.wires, pending := s.pending }

/-- The window as stored lies where the window asked for lies. -/
theorem Window.stored_placed (w : Window) : w.stored.placed = w.placed := by
  unfold Window.stored; split
  · next h => unfold Window.placed; simp [h]
  · rfl

theorem Window.lawful_of_placed {w : Window} (h : w.placed = true) : w.Lawful := by
  simp only [Window.placed, Bool.and_eq_true, Bool.or_eq_true] at h
  obtain ⟨⟨⟨⟨h1, h2⟩, h3⟩, h4⟩, h5⟩ := h
  refine ⟨of_decide_eq_true h1, of_decide_eq_true h2, of_decide_eq_true h3, of_decide_eq_true h4, fun hp => ?_⟩
  rcases h5 with h5 | h5
  · exact absurd (of_decide_eq_true h5) hp
  · exact ⟨of_decide_eq_true h5.1.1, of_decide_eq_true h5.1.2, of_decide_eq_true h5.2⟩

theorem chained_unit {u : UnitId} (h : ¬ (true && (decide (u = 0) || decide (u = 2))) = true) : u = 1 ∨ u = 3 := by
  revert u; decide

theorem bind_result {α β : Type} {o : Option α} {f : α → Option β} {b : β} (h : o >>= f = some b) : ∃ a, f a = some b := by
  cases o with
  | none => cases h
  | some a => exact ⟨a, h⟩

theorem decodeWatchSet_lawful {p : List Byte} {u : UnitId} {w : WatchSetup} (h : decodeWatchSet p = some (u, w)) :
    w.count ≤ 255 ∧ (w.chained = true → u = 1 ∨ u = 3) := by
  unfold decodeWatchSet at h
  split at h
  · next cnt _ _ =>
    obtain ⟨u', h⟩ := bind_result h
    dsimp only at h
    split at h
    · obtain ⟨_, h⟩ := bind_result h
      obtain ⟨_, h⟩ := bind_result h
      obtain ⟨_, h⟩ := bind_result h
      obtain ⟨_, h⟩ := bind_result h
      split at h
      · obtain ⟨_, h⟩ := bind_result h
        obtain ⟨_, h⟩ := bind_result h
        obtain ⟨_, h⟩ := bind_result h
        obtain ⟨c, h⟩ := bind_result h
        split at h
        · cases h
        · split at h
          · cases h
          · next hc =>
            cases h
            refine ⟨Nat.le_of_lt_succ cnt.isLt, fun hch => chained_unit ?_⟩
            simp only at hch
            rwa [hch] at hc
      · cases h
    · cases h
  · cases h

theorem WatchUnit.lawful_set {x : WatchUnit} {u : UnitId} {w : WatchSetup} (hx : x.Lawful u) (hc : w.count ≤ 255)
    (hh : w.chained = true → u = 1 ∨ u = 3) : (x.set u w).Lawful u := by
  obtain ⟨-, -, -, -, -, h6⟩ := hx
  refine ⟨Nat.le_refl _, hc, ?_, ?_, hh, h6⟩
  · simp only [WatchUnit.set, WatchSetup.initialState]; split <;> simp
  · simp only [WatchUnit.set, WatchSetup.initialState]; split
    · next h => simp at h; exact fun _ => h.1
    · simp

theorem WatchUnit.lawful_rearmed {x : WatchUnit} {u : UnitId} (hx : x.Lawful u) :
    ({ x with state := x.state.rearmed } : WatchUnit).Lawful u := by
  obtain ⟨h1, h2, h3, h4, h5, h6⟩ := hx
  refine ⟨h1, h2, ?_, ?_, h5, h6⟩
  · cases hs : x.state <;> simp [WatchState.rearmed]
  · cases hs : x.state <;> simp_all [WatchState.rearmed]

theorem WatchUnit.lawful_rewaited {x : WatchUnit} {u : UnitId} (hx : x.Lawful u) (hc : x.setup.chained = true) :
    ({ x with state := x.state.rewaited } : WatchUnit).Lawful u := by
  obtain ⟨h1, h2, h3, h4, h5, h6⟩ := hx
  refine ⟨h1, h2, ?_, fun _ => hc, h5, h6⟩
  cases hs : x.state <;> simp [WatchState.rewaited]

theorem WatchUnit.lawful_disabled {x : WatchUnit} {u : UnitId} (hx : x.Lawful u) :
    ({ x with state := .disabled } : WatchUnit).Lawful u := by
  obtain ⟨h1, h2, h3, h4, h5, h6⟩ := hx
  exact ⟨h1, h2, by simp, by simp, h5, h6⟩

theorem decodeClockConfig_range {p : List Byte} {m : Nat} (h : decodeClockConfig p = some m) : 8 ≤ m ∧ m ≤ 25 := by
  unfold decodeClockConfig rangeOf at h
  (repeat' split at h) <;> simp_all

theorem Segment.no_run_of_checking {g : Segment} (h : g.checking = true) : g.inProgress = none := by
  simp [Segment.checking] at h; exact h.2

theorem State.endRun_no_run (s : State) (n : SegId) (r : Run) (l : LegRecord) (w b : List Byte) (o : LegOutcome) :
    (s.endRun n r l w b o).segs[n].inProgress = none := by
  unfold State.endRun; dsimp only; rw [State.modSeg_get, if_pos rfl]; rfl

theorem chainPartner_ne (u : UnitId) : chainPartner u ≠ u := by revert u; decide

theorem State.freeSlot_free {s : State} {k : SlotId} (h : s.freeSlot = some k) : s.slots[k].state = .free := by
  simpa using List.find?_some h

@[simp] theorem State.hunting_freeSlot (s : State) : s.hunting.freeSlot = s.freeSlot := rfl

theorem State.findTransfer_working {s : State} {tag : Byte} {k : SlotId} (h : s.findTransfer tag = some k) :
    s.slots[k].state = .working := by
  have := List.find?_some h
  simp at this
  exact this.1.1

theorem State.tagClash_eq_false {s : State} {k : SlotId} (h : s.tagClash k = false) :
    ∀ j, j ≠ k → s.slots[j].liveTag = true → s.slots[j].tag ≠ s.slots[k].tag := by
  intro j hj hl ht
  have : s.tagClash k = true := by
    unfold State.tagClash
    refine List.any_eq_true.2 ⟨j, List.mem_finRange j, ?_⟩
    simpa [hj] using ⟨hl, ht⟩
  simp [this] at h

namespace Invariant

variable {P : State → Prop} (h : Invariant P)
include h

theorem hunting (s : State) (hs : P s) : P s.hunting := h.link _ _ rfl hs

theorem setFrameErr (s : State) (hs : P s) : P s.setFrameErr := h.link _ _ rfl hs

theorem setTruncated (s : State) (hs : P s) : P s.setTruncated := h.link _ _ rfl hs

theorem setOverrun (s : State) (hs : P s) : P s.setOverrun := h.link _ _ rfl hs

theorem clearFlags (s : State) (hs : P s) : P s.clearFlags := h.link _ _ rfl hs

/-- A request other than a transfer is delivered: what `screen` does need only be looked at on a WORKING slot. -/
theorem deliver (s : State) (type tag : Byte) (screen : SlotId → State → State) (ht : transferType type = false)
    (hscreen : ∀ k a, a.slots[k].state = .working → P a → P (screen k a)) (hs : P s) : P (s.deliver type tag screen) := by
  unfold State.deliver
  (repeat' split)
  · exact hs
  · exact h.setOverrun _ (h.hunting _ hs)
  · next k hk =>
    refine hscreen _ _ (by simp [Slot.taken]) (h.take _ _ _ _ (State.freeSlot_free hk) (by simp [ht]) (h.hunting _ hs))

theorem screened {α : Type} (s : State) (k : SlotId) (d : Option α) (name : α → Request) (carryOut : α → State → State)
    (hw : s.slots[k].state = .working) (hc : ∀ x a, d = some x → a.slots[k].state = .working → P a → P (carryOut x a)) (hs : P s) :
    P (State.screened k d name carryOut s) := by
  unfold State.screened
  split
  · exact h.answer _ _ _ _ hs
  · exact hc _ _ rfl (by simpa using hw) (h.work _ _ _ hw (fun _ => ⟨rfl, rfl, rfl, rfl, rfl⟩) hs)

theorem takeTransfer {α : Type} (s : State) (type tag : Byte) (d : Option α) (name : α → Request)
    (carryOut : SlotId → α → State → State) (hc : ∀ k x a, a.slots[k].state = .working → P a → P (carryOut k x a)) (hs : P s) :
    P (s.takeTransfer type tag d name carryOut) := by
  unfold State.takeTransfer State.deliver
  split
  · exact hs
  split
  · exact h.setOverrun _ (h.hunting _ hs)
  · next k hk =>
    have hf := State.freeSlot_free hk
    dsimp only
    split
    · exact h.clash _ _ _ _ hf (h.hunting _ hs)
    · next hcl =>
      refine h.screened _ _ _ _ _ (by simp [Slot.taken]) (fun x a _ => hc k x a) (h.take _ _ _ _ hf (fun _ => ?_) (h.hunting _ hs))
      have := State.tagClash_eq_false (by simpa using hcl : _ = false)
      intro j hj
      simpa [hj, Slot.taken] using this j hj

theorem decideStart (s : State) (n : SegId) (hs : P s) : P (s.decideStart n) := h.deliverAll _ (h.start _ _ hs)

theorem decideNext (s : State) (n : SegId) (hn : s.segs[n].inProgress = none) (hs : P s) : P (s.decideNext n) :=
  h.deliverAll _ (h.next _ _ hn hs)

theorem failQueued (s : State) (n : SegId) (o : LegOutcome) (hs : P s) : P (s.failQueued n o) :=
  h.deliverAll _ (h.failQueue _ _ _ hs)

theorem buildLegs (s : State) (k : SlotId) (res : Resolution) (shape : Kind × Byte × Nat) (hw : s.slots[k].state = .working)
    (hs : P s) : P (s.buildLegs k res shape) :=
  h.deliverAll _ (h.placeLegs _ _ (h.work _ _ _ hw (fun _ => ⟨rfl, rfl, rfl, rfl, rfl⟩) hs))

theorem acceptTransfer (s : State) (k : SlotId) (t : Target) (shape : Kind × Byte × Nat) (data : List Byte)
    (hw : s.slots[k].state = .working) (hs : P s) : P (s.acceptTransfer k t shape data) := by
  unfold State.acceptTransfer
  split
  · exact h.answer _ _ _ _ hs
  · split
    · exact h.buildLegs _ _ _ _ (by simpa using hw) (h.work _ _ _ hw (fun _ => ⟨rfl, rfl, rfl, rfl, rfl⟩) hs)
    · exact h.answer _ _ _ _ hs

theorem takeWrite (s : State) (tag : Byte) (p : List Byte) (hs : P s) : P (s.takeWrite tag p) :=
  h.takeTransfer _ _ _ _ _ _ (fun _ _ _ hw ha => h.acceptTransfer _ _ _ _ _ hw ha) hs

theorem takeRead (s : State) (tag : Byte) (p : List Byte) (hs : P s) : P (s.takeRead tag p) :=
  h.takeTransfer _ _ _ _ _ _ (fun _ _ _ hw ha => h.acceptTransfer _ _ _ _ _ hw ha) hs

theorem takeProbe (s : State) (tag : Byte) (p : List Byte) (hs : P s) : P (s.takeProbe tag p) :=
  h.takeTransfer _ _ _ _ _ _ (fun _ _ _ hw ha => h.acceptTransfer _ _ _ _ _ hw ha) hs

theorem cancelLeg (s : State) (r : LegRef) (hs : P s) : P (s.cancelLeg r).1 := by
  unfold State.cancelLeg
  split
  · exact hs
  · split
    · exact h.failLeg _ _ _ (h.unqueue _ _ _ hs)
    · exact h.leg _ _ _ hs
    · exact hs

theorem cancelSlot (s : State) (j : SlotId) (hw : s.slots[j].state = .working) (hs : P s) : P (s.cancelSlot j) :=
  h.deliverAll _ (h.cancelLeg _ _ (h.cancelLeg _ _ (h.work _ _ _ hw (fun _ => ⟨rfl, rfl, rfl, rfl, rfl⟩) hs)))

theorem takeCancel (s : State) (tag : Byte) (p : List Byte) (hs : P s) : P (s.takeCancel tag p) := by
  refine h.deliver _ _ _ _ (by decide) (fun k a hw ha => h.screened _ _ _ _ _ hw (fun x b _ hwb hb => ?_) ha) hs
  unfold State.carryCancel
  split
  · exact h.answer _ _ _ _ hb
  · next j hj => exact h.answer _ _ _ _ (h.cancelSlot _ _ (State.findTransfer_working hj) hb)

theorem takeRouteSet (s : State) (tag : Byte) (p : List Byte) (hs : P s) : P (s.takeRouteSet tag p) := by
  refine h.deliver _ _ _ _ (by decide) (fun k a hw ha => h.screened _ _ _ _ _ hw (fun x b _ _ hb => ?_) ha) hs
  unfold State.carryRouteSet
  split
  · next hp => exact h.answer _ _ _ _ (h.window _ _ _ (fun _ => Window.lawful_of_placed ((Window.stored_placed _).trans hp)) hb)
  · exact h.answer _ _ _ _ hb

theorem takeRouteGet (s : State) (tag : Byte) (p : List Byte) (hs : P s) : P (s.takeRouteGet tag p) :=
  h.deliver _ _ _ _ (by decide) (fun _ _ hw ha => h.screened _ _ _ _ _ hw (fun _ _ _ _ hb => h.answer _ _ _ _ hb) ha) hs

theorem takeRouteDisable (s : State) (tag : Byte) (p : List Byte) (hs : P s) : P (s.takeRouteDisable tag p) :=
  h.deliver _ _ _ _ (by decide) (fun _ _ hw ha => h.screened _ _ _ _ _ hw
    (fun _ _ _ _ hb => h.answer _ _ _ _ (h.window _ _ _ (by simp) hb)) ha) hs

theorem configPending (s : State) (n : SegId) (c : SegConfig) (hn : s.segs[n].state = .active ∨ s.segs[n].state = .clearing)
    (hs : P s) : P (s.configPending n c) := by
  unfold State.configPending; dsimp only
  have hs' := h.pending _ _ c hn hs
  split
  · exact hs'
  · exact h.failQueued _ _ _ hs'

theorem takeSegConfig (s : State) (tag : Byte) (p : List Byte) (hs : P s) : P (s.takeSegConfig tag p) := by
  refine h.deliver _ _ _ _ (by decide) (fun k a hw ha => h.screened _ _ _ _ _ hw (fun x b _ _ hb => ?_) ha) hs
  unfold State.carrySegConfig
  split
  · next e => exact h.answer _ _ _ _ (h.atOnce _ _ _ (Or.inl e) hb)
  · next e => exact h.answer _ _ _ _ (h.atOnce _ _ _ (Or.inr e) hb)
  · next e => exact h.answer _ _ _ _ (h.configPending _ _ _ (Or.inl e) hb)
  · next e => exact h.answer _ _ _ _ (h.configPending _ _ _ (Or.inr e) hb)
  · next e =>
    unfold State.configFaulted; dsimp only; split
    · exact h.answer _ _ _ _ hb
    · next he => exact h.answer _ _ _ _ (h.storeOff _ _ _ e (by simpa using he) hb)

theorem takeSegStatus (s : State) (tag : Byte) (p : List Byte) (hs : P s) : P (s.takeSegStatus tag p) :=
  h.deliver _ _ _ _ (by decide) (fun _ _ hw ha => h.screened _ _ _ _ _ hw (fun _ _ _ _ hb => h.answer _ _ _ _ hb) ha) hs

theorem takeSegReset (s : State) (tag : Byte) (p : List Byte) (hs : P s) : P (s.takeSegReset tag p) := by
  refine h.deliver _ _ _ _ (by decide) (fun k a hw ha => h.screened _ _ _ _ _ hw (fun n b _ hwb hb => ?_) ha) hs
  unfold State.carrySegReset
  split
  · exact h.answer _ _ _ _ hb
  · split
    · exact h.finishReset _ _ _ _ _ _ (h.clearHold _ _ (h.work _ _ _ hwb (fun _ => ⟨rfl, rfl, rfl, rfl, rfl⟩) hb))
    · have hq : P (State.resetQueue k n b) :=
        h.clearHold _ _ (h.failQueued _ _ _ (h.work _ _ _ hwb (fun _ => ⟨rfl, rfl, rfl, rfl, rfl⟩) hb))
      unfold State.resetProceed
      split
      · next hi => exact h.askReset _ _ hi hq
      · next hi =>
        split
        · exact h.ownClear _ _ _ hq
        · exact h.resetClear _ _ _ (by simpa using hi) hq

theorem takeSegResume (s : State) (tag : Byte) (p : List Byte) (hs : P s) : P (s.takeSegResume tag p) :=
  h.deliver _ _ _ _ (by decide) (fun _ _ hw ha => h.screened _ _ _ _ _ hw
    (fun _ _ _ _ hb => h.answer _ _ _ _ (h.decideStart _ _ (h.clearHold _ _ hb))) ha) hs

theorem takeWatchSet (s : State) (tag : Byte) (p : List Byte) (hs : P s) : P (s.takeWatchSet tag p) := by
  refine h.deliver _ _ _ _ (by decide) (fun k a hw ha => h.screened _ _ _ _ _ hw (fun x b hd _ hb => ?_) ha) hs
  obtain ⟨hc, hh⟩ := decodeWatchSet_lawful (u := x.1) (w := x.2) hd
  exact h.answer _ _ _ _ (h.unit _ _ _ rfl (fun hu => WatchUnit.lawful_set hu hc hh) hb)

theorem takeWatchGet (s : State) (tag : Byte) (p : List Byte) (hs : P s) : P (s.takeWatchGet tag p) :=
  h.deliver _ _ _ _ (by decide) (fun _ _ hw ha => h.screened _ _ _ _ _ hw (fun _ _ _ _ hb => h.answer _ _ _ _ hb) ha) hs

theorem rearm (s : State) (u : UnitId) (hs : P s) : P (s.rearm u) := by
  have hne := chainPartner_ne u
  unfold State.rearm; dsimp only
  split
  · next hc =>
    simp [State.chainedSuccessor] at hc
    refine h.unit _ _ _ (by simp) (fun hu => ?_) (h.unit _ _ _ (by rfl) (fun hu => WatchUnit.lawful_rewaited hu hc.2) hs)
    exact WatchUnit.lawful_rearmed hu
  · split
    · next hc =>
      simp [State.chainedSuccessor] at hc
      refine h.unit _ _ _ (by simp) (fun hu => ?_) (h.unit _ _ _ (by rfl) (fun hu => WatchUnit.lawful_rearmed hu) hs)
      exact WatchUnit.lawful_rewaited hu (by simpa [hne] using hc.2)
    · exact h.unit _ _ _ (by rfl) (fun hu => WatchUnit.lawful_rearmed hu) hs

theorem takeWatchRearm (s : State) (tag : Byte) (p : List Byte) (hs : P s) : P (s.takeWatchRearm tag p) := by
  refine h.deliver _ _ _ _ (by decide) (fun k a hw ha => h.screened _ _ _ _ _ hw (fun x b _ _ hb => ?_) ha) hs
  unfold State.carryWatchRearm
  split
  · exact h.answer _ _ _ _ hb
  · exact h.answer _ _ _ _ (h.rearm _ _ hb)

theorem takeWatchDisable (s : State) (tag : Byte) (p : List Byte) (hs : P s) : P (s.takeWatchDisable tag p) :=
  h.deliver _ _ _ _ (by decide) (fun _ _ hw ha => h.screened _ _ _ _ _ hw
    (fun _ _ _ _ hb => h.answer _ _ _ _ (h.unit _ _ _ rfl WatchUnit.lawful_disabled hb)) ha) hs

theorem takeLogRead (s : State) (tag : Byte) (p : List Byte) (hs : P s) : P (s.takeLogRead tag p) :=
  h.deliver _ _ _ _ (by decide) (fun _ _ hw ha => h.screened _ _ _ _ _ hw
    (fun _ _ _ _ hb => h.answer _ _ _ _ (h.log _ _ (by simp [HistoryLog.read]) hb)) ha) hs

theorem takeSetMode (s : State) (tag : Byte) (p : List Byte) (hs : P s) : P (s.takeSetMode tag p) :=
  h.deliver _ _ _ _ (by decide) (fun _ _ hw ha => h.screened _ _ _ _ _ hw
    (fun _ _ _ _ hb => h.answer _ _ _ _ (h.log _ _ (by simp) hb)) ha) hs

theorem takeResume (s : State) (tag : Byte) (p : List Byte) (hs : P s) : P (s.takeResume tag p) :=
  h.deliver _ _ _ _ (by decide) (fun _ _ hw ha => h.screened _ _ _ _ _ hw
    (fun _ _ _ _ hb => h.answer _ _ _ _ (h.log _ _ (by simp) hb)) ha) hs

theorem takeClear (s : State) (tag : Byte) (p : List Byte) (hs : P s) : P (s.takeClear tag p) :=
  h.deliver _ _ _ _ (by decide) (fun _ _ hw ha => h.screened _ _ _ _ _ hw
    (fun _ _ _ _ hb => h.answer _ _ _ _ (h.log _ _ (by simp) hb)) ha) hs

theorem takeClockConfig (s : State) (tag : Byte) (p : List Byte) (hs : P s) : P (s.takeClockConfig tag p) := by
  refine h.deliver _ _ _ _ (by decide) (fun k a hw ha => h.screened _ _ _ _ _ hw (fun x b hd _ hb => ?_) ha) hs
  obtain ⟨h8, h25⟩ := decodeClockConfig_range hd
  unfold State.carryClockConfig
  split
  · exact h.answer _ _ _ _ (h.frequency _ _ h8 h25 hb)
  · exact h.answer _ _ _ _ hb

theorem takeClockSelect (s : State) (tag : Byte) (p : List Byte) (hs : P s) : P (s.takeClockSelect tag p) := by
  refine h.deliver _ _ _ _ (by decide) (fun k a hw ha => h.screened _ _ _ _ _ hw (fun x b _ _ hb => ?_) ha) hs
  unfold State.carryClockSelect
  split
  · exact h.answer _ _ _ _ hb
  · next hsw =>
    split
    · exact h.answer _ _ _ _ hb
    · next hne =>
      split
      · exact h.answer _ _ _ _ hb
      · next hp => exact h.switching _ _ _ hsw hne (by simpa using hp) hb

theorem takeClockStatus (s : State) (tag : Byte) (p : List Byte) (hs : P s) : P (s.takeClockStatus tag p) :=
  h.deliver _ _ _ _ (by decide) (fun _ _ hw ha => h.screened _ _ _ _ _ hw (fun _ _ _ _ hb => h.answer _ _ _ _ hb) ha) hs

theorem takeStatus (s : State) (tag : Byte) (p : List Byte) (hs : P s) : P (s.takeStatus tag p) := by
  refine h.deliver _ _ _ _ (by decide) (fun k a hw ha => h.screened _ _ _ _ _ hw (fun x b _ _ hb => ?_) ha) hs
  unfold State.carryStatus
  refine h.answer _ _ _ _ ?_
  split
  · exact h.clearFlags _ hb
  · exact hb

theorem takeReset (s : State) (tag : Byte) (p : List Byte) (hs : P s) : P (s.takeReset tag p) :=
  h.deliver _ _ _ _ (by decide) (fun _ _ hw ha => h.screened _ _ _ _ _ hw (fun _ _ _ _ hb => h.soft _ hb) ha) hs

theorem takeUnknown (s : State) (type tag : Byte) (ht : transferType type = false) (hs : P s) : P (s.takeUnknown type tag) :=
  h.deliver _ _ _ _ ht (fun _ _ _ ha => h.answer _ _ _ _ ha) hs

theorem takeLogControl (s : State) (tag : Byte) (p : List Byte) (hs : P s) : P (s.takeLogControl tag p) := by
  unfold State.takeLogControl
  split
  · exact h.takeUnknown _ _ _ (by decide) hs
  · (repeat' split)
    · exact h.takeSetMode _ _ _ hs
    · exact h.takeResume _ _ _ hs
    · exact h.takeClear _ _ _ hs
    · exact h.takeUnknown _ _ _ (by decide) hs

theorem takeRequest (s : State) (t : ReqType) (tag : Byte) (p : List Byte) (hs : P s) : P (s.takeRequest t tag p) := by
  cases t
  · exact h.takeWrite _ _ _ hs
  · exact h.takeRead _ _ _ hs
  · exact h.takeProbe _ _ _ hs
  · exact h.takeCancel _ _ _ hs
  · exact h.takeRouteSet _ _ _ hs
  · exact h.takeRouteGet _ _ _ hs
  · exact h.takeRouteDisable _ _ _ hs
  · exact h.takeSegConfig _ _ _ hs
  · exact h.takeSegStatus _ _ _ hs
  · exact h.takeSegReset _ _ _ hs
  · exact h.takeSegResume _ _ _ hs
  · exact h.takeWatchSet _ _ _ hs
  · exact h.takeWatchGet _ _ _ hs
  · exact h.takeWatchRearm _ _ _ hs
  · exact h.takeWatchDisable _ _ _ hs
  · exact h.takeLogRead _ _ _ hs
  · exact h.takeLogControl _ _ _ hs
  · exact h.takeClockConfig _ _ _ hs
  · exact h.takeClockSelect _ _ _ hs
  · exact h.takeClockStatus _ _ _ hs
  · exact h.takeStatus _ _ _ hs
  · exact h.takeReset _ _ _ hs

end Invariant

theorem transferType_of_unlisted {b : Byte} (hb : (ReqType.ofByte b).isNone = true) : transferType b = false := by
  revert hb; revert b; decide

namespace Invariant

variable {P : State → Prop} (h : Invariant P)
include h

theorem takeBody (s : State) (body : List Byte) (hs : P s) : P (s.takeBody body) := by
  unfold State.takeBody
  (repeat' split)
  · next hb => exact h.takeUnknown _ _ _ (transferType_of_unlisted (by simp [hb])) hs
  · exact h.takeRequest _ _ _ _ hs
  · exact hs

theorem inboundByte (s : State) (b : Byte) (hs : P s) : P (s.inboundByte b) := by
  unfold State.inboundByte; dsimp only
  have hs' : P { s with link := { s.link with assembler := (s.link.assembler.take b).1 } } := h.link _ _ rfl hs
  unfold State.takeInbound
  split
  · exact hs'
  · exact h.setFrameErr _ hs'
  · exact h.takeBody _ _ hs'

theorem chooseByte (s : State) (hs : P s) : P s.chooseByte := by
  unfold State.chooseByte; split
  · exact h.begin _ hs
  · exact hs

theorem recheck (s : State) (n : SegId) (hc : s.segs[n].checking = true) (hs : P s) : P (s.recheck n) := by
  have hn := Segment.no_run_of_checking hc
  unfold State.recheck
  (repeat' split)
  · exact h.decideNext _ _ hn hs
  · exact h.beginRun _ _ hc hs
  · exact h.clear _ _ _ _ hn hs
  · exact hs

omit h in
theorem withRun (s : State) (n : SegId) (f : Run → LegRecord × List Byte → State)
    (hf : ∀ r l, s.segs[n].inProgress = some r → P (f r l)) (hs : P s) : P (s.withRun n f) := by
  unfold State.withRun
  (repeat' split)
  · exact hs
  · exact hs
  · next hr _ _ _ => exact hf _ _ hr

omit h in
theorem withClear (s : State) (n : SegId) (f : ClearRecord → State) (hf : ∀ c, s.segs[n].state = .clearing → P (f c)) (hs : P s) :
    P (s.withClear n f) := by
  unfold State.withClear
  (repeat' split)
  · exact hs
  · next hc => exact hf _ hc
  · exact hs

theorem endRunOf (s : State) (n : SegId) (r : Run) (l : LegRecord) (w b : List Byte) (o : LegOutcome) (hs : P s) :
    P (s.endRun n r l w b o) := by
  unfold State.endRun; dsimp only
  refine h.endRun _ _ ?_
  split
  · exact h.noteResetLeg _ _ _ (h.completeRun _ _ _ _ _ _ hs)
  · exact h.completeRun _ _ _ _ _ _ hs

theorem afterLeg (s : State) (n : SegId) (b : Bool) (e : LegEnding) (hn : s.segs[n].inProgress = none) (hs : P s) :
    P (s.afterLeg n b e) := by
  unfold State.afterLeg; split
  · split
    · exact h.resetClear _ _ _ hn hs
    · exact h.decideNext _ _ hn hs
  · exact h.clear _ _ _ _ hn hs

theorem endLeg (s : State) (n : SegId) (r : Run) (leg : LegRecord × List Byte) (bytes : List WireByte) (fin : LegFinish) (hs : P s) :
    P (s.endLeg n r leg bytes fin) := by
  unfold State.endLeg
  split
  · exact hs
  · exact h.afterLeg _ _ _ _ (State.endRun_no_run _ _ _ _ _ _ _) (h.endRunOf _ _ _ _ _ _ _ (h.traced _ _ _ hs))

theorem endStuckLeg (s : State) (n : SegId) (r : Run) (leg : LegRecord × List Byte) (hs : P s) : P (s.endStuckLeg n r leg) := by
  unfold State.endStuckLeg
  split
  · exact h.stuck _ _ _ (State.endRun_no_run _ _ _ _ _ _ _) (h.endRunOf _ _ _ _ _ _ _ hs)
  · exact hs
  · exact hs

theorem takeReport (s : State) (n : SegId) (hs : P s) : P (s.takeReport n) := by
  unfold State.takeReport; dsimp only
  split
  · exact hs
  · next x hx =>
    have hs' : P (s.setAwaited n false) := h.await _ _ _ (by simp [hx]) hs
    split
    · exact h.complete _ _ hx hs'
    · exact hs'

/-- Every command keeps an invariant. -/
theorem exec (i : Instr) (s t : State) (hs : P s) (he : Machine.exec i s = .next t) : P t := by
  have hw : ∀ w, P (s.withWires w) := fun w => h.wires _ w hs
  cases i <;> simp only [Machine.exec, execWrite, execRead, execProbe, execCancel, execRouteSet, execRouteGet, execRouteDisable,
    execSegConfig, execSegStatus, execSegReset, execSegResume, execWatchSet, execWatchGet, execWatchRearm, execWatchDisable,
    execLogRead, execSetMode, execResume, execClear, execClockConfig, execClockSelect, execClockStatus, execStatus, execReset,
    execLineCheckEnd, execLineCheckTimeout, execLegEnd, execStretchTimeout, execSecondStretchWindowEnd, execBusClearEnd,
    execBusClearTimeout, execEvtTimerExpiry, execTimeBaseTick, execReferenceEdge, execReferenceGood, execReferenceLost,
    execPauseRequested, execQuiescenceReport, execWithdrawal, execSelectBegin, execSelectRelease, execFrameErr, execMessageBegin,
    execFrameSent, execPowerOnReset, execByteBoundary, execUnknownType, Host.Outcome.next.injEq] at he <;> subst he
  case write tag p w => exact h.takeWrite _ _ _ (hw w)
  case read tag p w => exact h.takeRead _ _ _ (hw w)
  case probe tag p w => exact h.takeProbe _ _ _ (hw w)
  case cancel => exact h.takeCancel _ _ _ hs
  case routeSet => exact h.takeRouteSet _ _ _ hs
  case routeGet => exact h.takeRouteGet _ _ _ hs
  case routeDisable => exact h.takeRouteDisable _ _ _ hs
  case segConfig tag p w => exact h.takeSegConfig _ _ _ (hw w)
  case segStatus => exact h.takeSegStatus _ _ _ hs
  case segReset tag p w => exact h.takeSegReset _ _ _ (hw w)
  case segResume tag p w => exact h.takeSegResume _ _ _ (hw w)
  case watchSet => exact h.takeWatchSet _ _ _ hs
  case watchGet => exact h.takeWatchGet _ _ _ hs
  case watchRearm => exact h.takeWatchRearm _ _ _ hs
  case watchDisable => exact h.takeWatchDisable _ _ _ hs
  case logRead => exact h.takeLogRead _ _ _ hs
  case setMode => exact h.takeSetMode _ _ _ hs
  case resume => exact h.takeResume _ _ _ hs
  case clear => exact h.takeClear _ _ _ hs
  case clockConfig => exact h.takeClockConfig _ _ _ hs
  case clockSelect => exact h.takeClockSelect _ _ _ hs
  case clockStatus => exact h.takeClockStatus _ _ _ hs
  case status => exact h.takeStatus _ _ _ hs
  case reset => exact h.takeReset _ _ _ hs
  case lineCheckEnd n w =>
    split
    · next hc => exact h.recheck _ _ hc (hw w)
    · exact hs
  case lineCheckTimeout n w =>
    split
    · next hc => exact h.fault _ _ _ (Segment.no_run_of_checking hc) (hw w)
    · exact hs
  case legEnd n b f w => exact withRun _ _ _ (fun _ _ _ => h.endLeg _ _ _ _ _ _ (hw w)) hs
  case stretchTimeout n b p =>
    refine withRun _ _ _ (fun _ _ hr => ?_) hs
    split
    · exact hs
    · exact h.storeRun _ _ _ _ (by rw [State.traced_get, if_pos rfl]; exact congrArg Option.isSome hr) (h.traced _ _ _ hs)
  case secondStretchWindowEnd n w => exact withRun _ _ _ (fun _ _ _ => h.endStuckLeg _ _ _ _ (hw w)) hs
  case busClearEnd n f w =>
    refine withClear _ _ _ (fun _ hc => ?_) hs
    split
    · exact hw w
    · exact h.clearSucceeds _ _ _ _ ((State.clearTraced_state _ _ _ _).trans hc) (h.clearTraced _ _ _ (hw _))
    · exact h.clearFails _ _ _ _ _ ((State.clearTraced_state _ _ _ _).trans hc) (h.clearTraced _ _ _ (hw w))
  case busClearTimeout n p w =>
    refine withClear _ _ _ (fun _ hc => ?_) hs
    split
    · exact hw w
    · exact h.clearFails _ _ _ _ _ ((State.clearTraced_state _ _ _ _).trans hc) (h.clearTraced _ _ _ (hw w))
  case evtTimerExpiry u =>
    split
    · exact h.unit _ _ _ rfl (fun hu => ⟨hu.1, hu.2.1, hu.2.2.1, hu.2.2.2.1, hu.2.2.2.2.1, by simp⟩) hs
    · exact hs
  case timeBaseTick => exact h.tick _ hs
  case referenceEdge => exact h.edge _ hs
  case referenceGood =>
    split
    · next hr => exact h.alert _ _ rfl (h.good _ hr hs)
    · exact hs
  case referenceLost w =>
    split
    · exact hs
    · next hr => exact h.lose _ hr hs
    · next hr => exact h.alert _ _ rfl (h.loss _ hr (hw w))
  case pauseRequested n =>
    split
    · next hp => exact h.pause _ _ hp hs
    · exact hs
  case quiescenceReport n w =>
    split
    · exact h.takeReport _ _ (h.drop _ _ (hw w))
    · exact hs
  case withdrawal n =>
    split
    · have hd : P (s.dropReport n) := h.drop _ _ hs
      unfold State.takeWithdrawal; split
      · exact hd
      · next hx => exact h.await _ _ _ (by rw [hx]; simp) hd
    · exact hs
  case selectBegin =>
    split
    · exact hs
    · exact h.chooseByte _ (h.link _ _ rfl hs)
  case selectRelease =>
    split
    · refine h.link _ _ rfl ?_
      have ht : P s.truncate := by
        unfold State.truncate; split
        · exact hs
        · exact h.setTruncated _ (h.hunting _ hs)
      unfold State.releaseFrame
      (repeat' split)
      · exact ht
      · exact h.send _ ht
      · exact h.link _ _ rfl ht
    · exact hs
  case frameErr =>
    split
    · exact hs
    · exact h.setFrameErr _ (h.hunting _ hs)
  case messageBegin => exact h.chooseByte _ hs
  case frameSent => exact h.send _ hs
  case powerOnReset => exact h.power _ hs
  case byteBoundary b w =>
    split
    · exact h.inboundByte _ _ (h.link _ _ rfl (hw w))
    · exact hs
  case unknownType type tag p =>
    split
    · next ht => exact h.takeUnknown _ _ _ (transferType_of_unlisted ht) hs
    · exact hs

/-- Every step keeps an invariant that does not look at the queue of commands. -/
theorem step (hq : ∀ s q, P s → P { s with pending := q }) (s t : State) (hs : P s) (he : Machine.step s = .next t) : P t := by
  unfold Machine.step at he
  split at he
  · cases he; exact hs
  · exact h.exec _ _ _ (hq _ _ hs) he

end Invariant

end Sys2Proof.Machine
end

