-- ==== Sys2Proof/Laws/Quiet.lean ====
section
/-! SUPPORT. Predicates that say little or nothing about segments: that every quiet change of a segment keeps them gives the segment
steps of `Invariant`, and that every change of the clock unit keeps them gives the clock steps. -/

namespace Sys2Proof.Machine

/-- A change of a segment that leaves its held-over alert, and leaves an unpaused segment unpaused. -/
def QuietChange (f : Segment → Segment) : Prop :=
  ∀ g, (f g).heldAlert = g.heldAlert ∧ (g.Unpaused → (f g).Unpaused)

theorem Segment.goto_unpaused {g : Segment} (st : SegState) (h : g.Unpaused) : (g.goto st).Unpaused := by
  obtain ⟨h1, h2, h3⟩ := h
  exact ⟨h1, h2, by simp [Segment.goto, Segment.reportFor, h1, h3]⟩

theorem QuietChange.rest (st : SegState) : QuietChange fun g => g.rest st := fun _ => ⟨rfl, Segment.goto_unpaused st⟩

theorem QuietChange.applyPending : QuietChange Segment.applyPending := by
  intro g; unfold Segment.applyPending; split
  · exact ⟨rfl, id⟩
  · exact ⟨rfl, id⟩

theorem QuietChange.clear (c : Segment → Option ClearRecord) :
    QuietChange fun g => { g.rest .clearing with clear := c g, clearTrace := [] } := fun _ => ⟨rfl, Segment.goto_unpaused .clearing⟩

theorem QuietChange.fault (c : FaultCause) :
    QuietChange fun g => { g.rest .faulted with lastFault := c, inProgress := none } :=
  fun _ => ⟨rfl, Segment.goto_unpaused .faulted⟩

/-- A predicate kept by quiet changes of segments. -/
structure Quiet (P : State → Prop) : Prop where
  leg : ∀ s r f, P s → P (s.modLeg r f)
  offer : ∀ s e, P s → P (s.offer e)
  answer : ∀ s k res fields, P s → P (s.answer k res fields)
  work : ∀ s k f, s.slots[k].state = .working → KeepsHead f → P s → P (s.modSlot k f)
  watch : ∀ s r u armed, P s → P (State.watchUnit r u armed s)
  alert : ∀ s x, x.count = 1 → P s → P (s.raise x)
  seg : ∀ s n f, QuietChange f → P s → P (s.modSeg n f)

namespace Quiet

variable {P : State → Prop} (h : Quiet P)
include h

theorem rest (s : State) (n : SegId) (st : SegState) (hs : P s) : P (s.modSeg n fun g => g.rest st) :=
  h.seg s n _ (QuietChange.rest st) hs

theorem plain (s : State) (n : SegId) (f : Segment → Segment)
    (hf : ∀ g, (f g).heldAlert = g.heldAlert ∧ (f g).pauseRequested = g.pauseRequested ∧ (f g).pauseSetting = g.pauseSetting ∧
      (f g).reports = g.reports) (hs : P s) : P (s.modSeg n f) := by
  refine h.seg s n f (fun g => ⟨(hf g).1, fun hg => ?_⟩) hs
  obtain ⟨-, h1, h2, h3⟩ := hf g
  unfold Segment.Unpaused at hg ⊢
  rw [h1, h2, h3]; exact hg

theorem beginClear (s : State) (n : SegId) (p : ClearPurpose) (o : Option SlotId) (hs : P s) : P (s.beginClear n p o) :=
  h.seg _ _ _ (QuietChange.clear _) hs

theorem beginRun (s : State) (n : SegId) (hs : P s) : P (s.beginRun n) := by
  unfold State.beginRun; split
  · exact hs
  · exact h.plain _ _ _ (fun _ => ⟨rfl, rfl, rfl, rfl⟩) (h.leg _ _ _ hs)

theorem startLeg (s : State) (n : SegId) (hs : P s) : P (s.startLeg n) := by
  unfold State.startLeg; dsimp only; split
  · exact h.beginRun _ _ (h.rest _ _ _ hs)
  · exact h.beginClear _ _ _ _ (h.rest _ _ _ hs)
  · exact h.rest _ _ _ hs

theorem failLegs (o : LegOutcome) (rs : List LegRef) (s : State) (hs : P s) : P (State.failLegs o rs s).1 := by
  induction rs generalizing s with
  | nil => exact hs
  | cons r rs ih =>
    refine ih _ ?_
    unfold State.failLeg; split
    · exact hs
    · exact h.leg _ _ _ hs

theorem failQueue (s : State) (n : SegId) (o : LegOutcome) (hs : P s) : P (s.failQueue n o).1 :=
  h.failLegs _ _ _ (h.plain _ _ _ (fun _ => ⟨rfl, rfl, rfl, rfl⟩) hs)

theorem switchOff (s : State) (n : SegId) (hs : P s) : P (s.switchOff n).1 := h.failQueue _ _ _ (h.rest _ _ _ hs)

theorem applyPending (s : State) (n : SegId) (hs : P s) : P (s.modSeg n Segment.applyPending) :=
  h.seg _ _ _ QuietChange.applyPending hs

theorem startDecision (s : State) (n : SegId) (hs : P s) : P (s.startDecision n).1 := by
  unfold State.startDecision; dsimp only; split
  · split
    · exact h.startLeg _ _ (h.applyPending _ _ hs)
    · exact h.switchOff _ _ (h.applyPending _ _ hs)
  · exact hs

theorem legDecision (s : State) (n : SegId) (hs : P s) : P (s.legDecision n).1 := by
  unfold State.legDecision; dsimp only; split
  · split
    · exact h.startLeg _ _ (h.applyPending _ _ hs)
    · exact h.rest _ _ _ (h.applyPending _ _ hs)
  · exact h.switchOff _ _ (h.applyPending _ _ hs)

theorem deliverable : Deliverable P where
  leg := h.leg
  offer := h.offer
  answer := h.answer
  work := h.work
  watch := h.watch
  alert := h.alert
  append _ _ _ _ _ hs := h.startDecision _ _ (h.plain _ _ _ (fun _ => ⟨rfl, rfl, rfl, rfl⟩) hs)

theorem beginResetClear (s : State) (n : SegId) (o : Option SlotId) (hs : P s) : P (s.beginResetClear n o) :=
  h.beginClear _ _ _ _ (h.applyPending _ _ hs)

theorem faultEntry (s : State) (n : SegId) (c : FaultCause) (hs : P s) : P (s.faultEntry n c) :=
  h.alert _ _ rfl (h.offer _ _ (h.deliverable.deliverAll _ (h.failQueue _ _ _ (h.seg _ _ _ (QuietChange.fault c) hs))))

/-- The segment steps, with the one that is not quiet given. -/
theorem segmentSteps (pause : ∀ s n, s.segs[n].pauseSetting = true → P s → P (s.modSeg n Segment.takePause)) : SegmentSteps P where
  start := h.startDecision
  next s n _ hs := h.legDecision s n hs
  unqueue s n r hs := h.plain _ _ _ (fun _ => ⟨rfl, rfl, rfl, rfl⟩) hs
  failQueue := h.failQueue
  atOnce s n c _ hs := by
    unfold State.configAtOnce; dsimp only
    have hs' : P (s.modSeg n (Segment.store c)) := h.plain _ _ _ (fun _ => ⟨rfl, rfl, rfl, rfl⟩) hs
    split
    · exact h.rest _ _ _ hs'
    · exact h.deliverable.deliverAll _ (h.switchOff _ _ hs')
  pending s n c _ hs := h.plain _ _ _ (fun _ => ⟨rfl, rfl, rfl, rfl⟩) hs
  storeOff s n c _ _ hs := h.plain _ _ _ (fun _ => ⟨rfl, rfl, rfl, rfl⟩) hs
  clearHold s n hs := h.plain _ _ _ (fun _ => ⟨rfl, rfl, rfl, rfl⟩) hs
  askReset s n _ hs := h.plain _ _ _ (fun _ => ⟨rfl, rfl, rfl, rfl⟩) hs
  ownClear s n k hs := h.plain _ _ _ (fun _ => ⟨rfl, rfl, rfl, rfl⟩) hs
  resetClear s n o _ hs := h.beginResetClear s n o hs
  endRun s n hs := h.plain _ _ _ (fun _ => ⟨rfl, rfl, rfl, rfl⟩) hs
  clear s n p o _ hs := h.beginClear s n p o hs
  fault s n c _ hs := h.faultEntry s n c hs
  stuck s n b _ hs := by
    unfold State.afterStuckLeg; dsimp only; split
    · exact h.beginResetClear _ _ _ (h.faultEntry _ _ _ hs)
    · exact h.faultEntry _ _ _ hs
  traced s n t hs := h.plain _ _ _ (fun _ => ⟨rfl, rfl, rfl, rfl⟩) hs
  clearTraced s n t hs := h.plain _ _ _ (fun _ => ⟨rfl, rfl, rfl, rfl⟩) hs
  storeRun s n r buf _ hs := by
    unfold State.storeRun
    split
    · exact h.plain _ _ _ (fun _ => ⟨rfl, rfl, rfl, rfl⟩) hs
    · exact h.plain _ _ _ (fun _ => ⟨rfl, rfl, rfl, rfl⟩) (h.leg _ _ _ hs)
  beginRun s n _ hs := h.beginRun s n hs
  clearSucceeds s n c p _ hs := by
    unfold State.clearSucceeds; dsimp only
    have hc : P (s.modSeg n fun g => { g with clear := some { c with pulses := p } }) :=
      h.plain _ _ _ (fun _ => ⟨rfl, rfl, rfl, rfl⟩) hs
    split
    · exact h.deliverable.deliverAll _ (h.legDecision _ _ hc)
    · unfold State.resetSucceeds; dsimp only; split
      · exact h.deliverable.finishReset _ _ _ _ _ _ (h.deliverable.deliverAll _ (h.startDecision _ _ (h.rest _ _ _ (h.applyPending _ _ hc))))
      · exact h.deliverable.finishReset _ _ _ _ _ _ (h.deliverable.deliverAll _ (h.switchOff _ _ (h.applyPending _ _ hc)))
  clearFails s n c x p _ hs := by
    unfold State.clearFails; dsimp only; split
    · exact h.faultEntry _ _ _ hs
    · exact h.deliverable.finishReset _ _ _ _ _ _ (h.faultEntry _ _ _ hs)
  pause := pause
  drop s n hs := h.seg _ _ _ (fun _ => ⟨rfl, fun hg => ⟨hg.1, hg.2.1, by simp [hg.2.2]⟩⟩) hs

end Quiet

/-- The clock steps of a predicate that every change of the clock unit keeps, but for its held-over notice. -/
theorem ClockSteps.of_blind {P : State → Prop} (hd : Deliverable P) (hst : ∀ s n, P s → P (s.startDecision n).1)
    (clock : ∀ s c, c.heldEvent = s.clock.heldEvent → P s → P { s with clock := c })
    (segs : ∀ s f, (∀ g : Segment, (f g).heldAlert = g.heldAlert ∧ (g.Lawful → (f g).Lawful)) → P s →
      P { s with segs := s.segs.map f })
    (units : ∀ s, P s → P { s with units := s.units.map WatchUnit.tick }) : ClockSteps P := by
  have hset : ∀ s x w, P s → P (State.setSource s x w) := fun s x w hs => hd.offer _ _ (clock _ _ rfl hs)
  have hone : ∀ s n, P s → P (State.decideStart s n) := fun s n hs => hd.deliverAll _ (hst _ _ hs)
  have hend : ∀ s x res, P s → P (State.endSwitch s x res) := by
    intro s x res hs
    unfold State.endSwitch; dsimp only
    have hs' : P ({ s with clock := s.clock.steady } : State).unpauseAll.decideAll :=
      hone _ _ (hone _ _ (hone _ _ (hone _ _ (segs _ _ (fun _ => ⟨rfl, id⟩) (clock s s.clock.steady rfl hs)))))
    split
    · exact hs'
    · exact hd.answer _ _ _ _ hs'
  refine ⟨?_, ?_, ?_, ?_, ?_, ?_, ?_, ?_, ?_⟩
  · intro s hs
    exact clock { s with units := s.units.map WatchUnit.tick } { s.clock with timeBase := s.clock.timeBase + 1 } rfl (units _ hs)
  · intro s m _ _ hs; exact clock _ _ rfl hs
  · intro s hs; refine clock _ _ ?_ hs; unfold ClockUnit.edge; split <;> rfl
  · intro s _ hs; exact clock _ _ rfl hs
  · intro s _ hs; exact clock _ _ rfl hs
  · intro s _ hs
    have hl : P { s with clock := s.clock.lost } := clock _ _ rfl hs
    unfold State.lossFallback
    split <;> first | exact hend _ _ _ (hset _ _ _ hl) | exact hset _ _ _ hl | exact hend _ _ _ hl | exact hl
  · intro s k x _ _ _ hs
    exact segs { s with clock := { s.clock with switch := .quiescing x, awaited := allSegments, selectOwner := some k } }
      (fun g => { g with pauseSetting := true }) (fun _ => ⟨rfl, id⟩) (clock _ _ rfl hs)
  · intro s x _ hs; exact hend _ _ _ (hset _ _ _ hs)
  · intro s n b _ hs; exact clock _ _ rfl hs

end Sys2Proof.Machine
end

