-- ==== Sys2Proof/Laws/ClockLaw.lean ====
section
/-! SUPPORT. What single operations, and the events of the clock unit, do to the law of the clock unit. -/

namespace Sys2Proof.Machine

theorem ClockLaw.of_same {s t : State} (hc : ∃ x, t.clock = { s.clock with heldEvent := x })
   (hg : ∀ n : SegId, s.segs[n].Unpaused → t.segs[n].Unpaused) (h : ClockLaw s) : ClockLaw t := by
  obtain ⟨x, hx⟩ := hc
  obtain ⟨h1, h2⟩ := h
  refine ⟨by rw [hx]; exact h1, fun hs n => hg n (h2 ?_ n)⟩
  rw [hx] at hs; exact hs

theorem ClockLaw.seg {s : State} (n : SegId) (f : Segment → Segment) (hf : ∀ g : Segment, g.Unpaused → (f g).Unpaused)
   (h : ClockLaw s) : ClockLaw (s.modSeg n f) := by
  refine ClockLaw.of_same (s := s) ⟨_, rfl⟩ (fun m hm => ?_) h
  rw [State.modSeg_get]; split
  · next e => subst e; exact hf _ hm
  · exact hm

theorem ClockLaw.setHeld {s : State} (src : NoticeSource) (o : Option Notice) (h : ClockLaw s) : ClockLaw (s.setHeld src o) := by
  cases src
  · exact h
  · exact h.seg _ _ fun g hg => hg
  · exact ⟨h.1, h.2⟩
  · exact h

theorem ClockLaw.raise {s : State} (x : Notice) (h : ClockLaw s) : ClockLaw (s.raise x) := by
  unfold State.raise
  (repeat' split)
  · exact h.setHeld _ _
  · exact h
  · exact h.setHeld _ _
  · exact h

theorem ClockLaw.releaseHeld {s : State} (x : NoticeSource) (h : ClockLaw s) : ClockLaw (s.releaseHeld x) := by
  unfold State.releaseHeld
  split
  · exact h
  · exact ClockLaw.of_same (s := s.setHeld _ _) ⟨_, rfl⟩ (fun _ hn => hn) (h.setHeld _ _)

theorem ClockLaw.armSuccessor {s : State} (u : UnitId) (h : ClockLaw s) : ClockLaw (s.armSuccessor u) := by
  unfold State.armSuccessor; split <;> exact h

theorem ClockLaw.watchUnit {s : State} (r : RecordCopy) (u : UnitId) (a : Bool) (h : ClockLaw s) : ClockLaw (State.watchUnit r u a s) := by
  unfold State.watchUnit
  split
  · split
    · exact h
    · unfold State.fire; dsimp only
      have h2 : ClockLaw (((s.modUnit u fun w => { w with evtTimer := some Config.evtMicroseconds }).offer ((s.modUnit u fun w => { w with evtTimer := some Config.evtMicroseconds }).fireMarker u r)).armSuccessor u) := ClockLaw.armSuccessor (s := (s.modUnit u fun w => { w with evtTimer := some Config.evtMicroseconds }).offer _) u h
      revert h2
      generalize (((s.modUnit u fun w => { w with evtTimer := some Config.evtMicroseconds }).offer ((s.modUnit u fun w => { w with evtTimer := some Config.evtMicroseconds }).fireMarker u r)).armSuccessor u) = s2
      intro h2
      unfold State.watchAction
      split
      · exact h2
      · exact h2.raise _
      · exact h2.raise _
      · exact ClockLaw.seg (s := s2.raiseHit u r) r.segment (fun g => { g with hold := true }) (fun _ hg => hg) (h2.raise _)
      · exact h2
  · exact h

theorem ClockLaw.answer {s : State} (k : SlotId) (r : ResultCode) (f : List Byte) (h : ClockLaw s) : ClockLaw (s.answer k r f) := by
  unfold State.answer; split <;> exact h

theorem clockQuiet : Quiet ClockLaw where
  leg _ _ _ h := h
  offer _ _ h := h
  answer _ _ _ _ h := h.answer _ _ _
  work _ _ _ _ _ h := h
  watch _ r u a h := h.watchUnit r u a
  alert _ x _ h := h.raise x
  seg _ n f hf h := h.seg n f fun g => (hf g).2

theorem ClockUnit.lawful_steady {c : ClockUnit} (h : c.Lawful) : c.steady.Lawful := by
  obtain ⟨h1, h2, h3, h4, h5, h6, h7, h8⟩ := h
  refine ⟨by simp [ClockUnit.steady], fun _ => rfl, by simp [ClockUnit.steady], h4, h5, h6, h7, h8⟩

/-- The end of a change, from a state whose clock unit is lawful once steady -/
theorem ClockLaw.endSwitch {s : State} (x : Source) (res : ResultCode) (h : s.clock.steady.Lawful) : ClockLaw (s.endSwitch x res) := by
  unfold State.endSwitch; dsimp only
  have h0 : ClockLaw ({ s with clock := s.clock.steady } : State).unpauseAll := by
    refine ⟨h, fun _ n => ?_⟩
    simp [State.unpauseAll, Segment.unpause, Segment.Unpaused]
  have hone : ∀ s n, ClockLaw s → ClockLaw (State.decideStart s n) := fun s n hs => clockQuiet.deliverable.deliverAll _ (clockQuiet.startDecision _ _ hs)
  have hs' : ClockLaw ({ s with clock := s.clock.steady } : State).unpauseAll.decideAll :=
      hone _ _ (hone _ _ (hone _ _ (hone _ _ h0)))
  split
  · exact hs'
  · exact hs'.answer _ _ _

theorem clockSteps : ClockSteps ClockLaw where
  tick s h := by
    obtain ⟨h1, h2⟩ := h
    exact ⟨h1, h2⟩
  frequency s m h8 h25 h := by
    obtain ⟨⟨a1, a2, a3, a4, a5, a6, a7, a8⟩, h2⟩ := h
    exact ⟨⟨a1, a2, a3, a4, a5, a6, h8, h25⟩, h2⟩
  edge s h := by
    obtain ⟨⟨a1, a2, a3, a4, a5, a6, a7, a8⟩, h2⟩ := h
    unfold ClockUnit.edge
    split
    · next e =>
      refine ⟨⟨a1, a2, ?_, ?_, by simp, by simp, a7, a8⟩, h2⟩
      · intro t ht; refine ⟨(a3 t ht).1, fun hr => ?_⟩; rw [(a3 t ht).2 hr] at e; cases e
      · intro hr; rw [a4 hr] at e; cases e
    · next e => exact ⟨⟨a1, a2, a3, a4, a5, by simp [e], a7, a8⟩, h2⟩
    · next e => exact ⟨⟨a1, a2, a3, a4, a5, by simp [e], a7, a8⟩, h2⟩
  good s e h := by
    obtain ⟨⟨a1, a2, a3, a4, a5, a6, a7, a8⟩, h2⟩ := h
    refine ⟨⟨a1, a2, fun t ht => ⟨(a3 t ht).1, fun _ => rfl⟩, fun _ => rfl, by simp, ?_, a7, a8⟩, h2⟩
    have := a6; rw [e] at this; simpa using this
  lose s e h := by
    obtain ⟨⟨a1, a2, a3, a4, a5, a6, a7, a8⟩, h2⟩ := h
    refine ⟨⟨a1, a2, ?_, ?_, by simp [ClockUnit.lost], by simp [ClockUnit.lost], a7, a8⟩, h2⟩
    · intro t ht; refine ⟨(a3 t ht).1, fun hr => ?_⟩; have := (a3 t ht).2 hr; rw [e] at this; cases this
    · intro hr; have := a4 hr; rw [e] at this; cases this
  loss s e h := by
    obtain ⟨⟨a1, a2, a3, a4, a5, a6, a7, a8⟩, h2⟩ := h
    have hst : ∀ (c : ClockUnit), c.refStatus = .absent → c.goodTimer = none → c.gapTimer = none → c.frequency = s.clock.frequency → c.source = .backup → c.steady.Lawful := by
      intro c c1 c2 c3 c4 c5
      refine ⟨by simp [ClockUnit.steady], fun _ => rfl, by simp [ClockUnit.steady], by simp [ClockUnit.steady, c5], by simp [ClockUnit.steady, c1, c2], by simp [ClockUnit.steady, c1, c3], ?_, ?_⟩
      · show 8 ≤ c.frequency; rw [c4]; exact a7
      · show c.frequency ≤ 25; rw [c4]; exact a8
    unfold State.lossFallback
    split
    · next hs1 hs2 =>
      refine ⟨?_, h2⟩
      have hs2 : s.clock.switch = .steady := hs2
      refine ⟨a1, a2, ?_, by simp [State.setSource], by simp [State.setSource, ClockUnit.lost], by simp [State.setSource, ClockUnit.lost], a7, a8⟩
      intro t ht
      have ht : s.clock.switch = .quiescing t := ht
      rw [hs2] at ht; cases ht
    · exact ClockLaw.endSwitch _ _ (hst _ rfl rfl rfl rfl rfl)
    · next hs1 hs2 =>
      exact absurd hs1.symm (a3 _ hs2).1
    · next hs1 hs2 => exact ClockLaw.endSwitch _ _ (hst _ rfl rfl rfl rfl hs1)
    · next hs1 hs2 => exact absurd hs1.symm (a3 _ hs2).1
    · next hs1 hs2 =>
      refine ⟨⟨a1, a2, ?_, ?_, by simp [ClockUnit.lost], by simp [ClockUnit.lost], a7, a8⟩, h2⟩
      · intro t ht
        have ht : s.clock.switch = .quiescing t := ht
        have hs2 : s.clock.switch = .steady := hs2
        rw [hs2] at ht; cases ht
      · intro hr; rw [hs1] at hr; cases hr
  switching s k x hsw hne hp h := by
    obtain ⟨⟨a1, a2, a3, a4, a5, a6, a7, a8⟩, h2⟩ := h
    refine ⟨⟨by simp [State.beginSwitch], by simp [State.beginSwitch], ?_, a4, a5, a6, a7, a8⟩, by simp [State.beginSwitch]⟩
    intro t ht
    simp [State.beginSwitch] at ht
    subst ht
    exact ⟨hne, hp⟩
  complete s x hsw h := by
    obtain ⟨⟨a1, a2, a3, a4, a5, a6, a7, a8⟩, h2⟩ := h
    refine ClockLaw.endSwitch _ _ ⟨by simp [ClockUnit.steady], fun _ => rfl, by simp [ClockUnit.steady], ?_, a5, a6, a7, a8⟩
    exact (a3 x hsw).2
  await s n b hsw h := by
    obtain ⟨⟨a1, a2, a3, a4, a5, a6, a7, a8⟩, h2⟩ := h
    exact ⟨⟨a1, fun h => absurd h hsw, a3, a4, a5, a6, a7, a8⟩, h2⟩

end Sys2Proof.Machine
end

