-- ==== Sys2Proof/Laws/Ops.lean ====
section
/-! SUPPORT. The shared operations on slots, outbound queue and log, each with what it does in all its cases. -/

namespace Sys2Proof.Machine

/-! ### Answering a slot -/

theorem State.answer_of_working (s : State) (k : SlotId) (res : ResultCode) (fields : List Byte)
    (h : s.slots[k].state = .working) :
    s.answer k res fields = (s.modSlot k fun x => x.answered res fields).append (.reply k) := by
  unfold State.answer; rw [if_pos h]; rfl

theorem State.answer_of_not_working (s : State) (k : SlotId) (res : ResultCode) (fields : List Byte)
    (h : s.slots[k].state ≠ .working) : s.answer k res fields = s := by
  unfold State.answer; rw [if_neg h]

theorem State.answer_get (s : State) (k j : SlotId) (res : ResultCode) (fields : List Byte) :
    (s.answer k res fields).slots[j] =
      if j = k ∧ s.slots[k].state = .working then s.slots[k].answered res fields else s.slots[j] := by
  by_cases h : s.slots[k].state = .working
  · rw [State.answer_of_working s k res fields h, State.append_slots, State.modSlot_get]
    by_cases e : j = k
    · rw [if_pos e, if_pos ⟨e, h⟩]
    · rw [if_neg e, if_neg fun x => e x.1]
  · rw [State.answer_of_not_working s k res fields h, if_neg fun x => h x.2]

theorem State.answer_queue (s : State) (k : SlotId) (res : ResultCode) (fields : List Byte) :
    (s.answer k res fields).link.queue =
      if s.slots[k].state = .working then s.link.queue ++ [{ content := .reply k, begun := false }] else s.link.queue := by
  unfold State.answer; split <;> rfl

/-- A reply changes the outbound queue alone of the link port. -/
theorem State.answer_link (s : State) (k : SlotId) (res : ResultCode) (fields : List Byte) :
    (s.answer k res fields).link = { s.link with queue := (s.answer k res fields).link.queue } := by
  unfold State.answer; split <;> rfl

@[simp] theorem Slot.answered_state (x : Slot) (res : ResultCode) (f : List Byte) : (x.answered res f).state = .answered := rfl

@[simp] theorem Slot.answered_tag (x : Slot) (res : ResultCode) (f : List Byte) : (x.answered res f).tag = x.tag := rfl

@[simp] theorem Slot.answered_result (x : Slot) (res : ResultCode) (f : List Byte) : (x.answered res f).result = some res := rfl

@[simp] theorem Slot.answered_reqType (x : Slot) (res : ResultCode) (f : List Byte) : (x.answered res f).reqType = x.reqType := rfl

/-! ### Notices -/

@[simp] theorem Notice.source_withCount (n : Notice) (c : Nat) : (n.withCount c).source = n.source := by cases n <;> rfl

@[simp] theorem Notice.source_fold (old new : Notice) : (old.fold new).source = new.source := by simp [Notice.fold]

/-- Folding keeps a count within 1–255. -/
theorem Notice.count_fold {old new : Notice} (h : 1 ≤ old.count) (hn : 1 ≤ new.count ∧ new.count ≤ 255) :
    1 ≤ (old.fold new).count ∧ (old.fold new).count ≤ 255 := by
  unfold Notice.fold
  cases new <;> simp only [Notice.withCount, Notice.count, Config.countLimit] at * <;> omega

theorem State.setHeld_held (s : State) (src q : NoticeSource) (o : Option Notice) :
    (s.setHeld src o).held q = if q = src ∧ src ≠ .reset then o else s.held q := by
  cases src <;> cases q <;> simp [State.setHeld, State.held] <;> split <;> simp_all

@[simp] theorem State.append_held (s : State) (c : OutContent) (q : NoticeSource) : (s.append c).held q = s.held q := rfl

@[simp] theorem OutMessage.isFrom_refresh (new : Notice) (m : OutMessage) (src : NoticeSource) :
    OutMessage.isFrom src (m.refresh new) = OutMessage.isFrom src m := by
  obtain ⟨c, b⟩ := m
  cases c with
  | reply k => rfl
  | notice old =>
    by_cases e : old.source = new.source
    · simp [OutMessage.refresh, OutMessage.isFrom, e]
    · simp [OutMessage.refresh, e]

@[simp] theorem OutMessage.begun_refresh (new : Notice) (m : OutMessage) : (m.refresh new).begun = m.begun := by
  unfold OutMessage.refresh; (repeat' split) <;> rfl

theorem OutMessage.refresh_reply (new : Notice) (m : OutMessage) (k : SlotId) :
    (m.refresh new).content = .reply k ↔ m.content = .reply k := by
  obtain ⟨c, b⟩ := m
  cases c with
  | reply k => rfl
  | notice old =>
    by_cases e : old.source = new.source <;> simp [OutMessage.refresh, e]

/-! ### The history log -/

/-- A write leaves at most 32 entries (R161). -/
theorem HistoryLog.offer_length {l : HistoryLog} (e : LogEntry) (h : l.entries.length ≤ 32) : (l.offer e).entries.length ≤ 32 := by
  unfold HistoryLog.offer HistoryLog.write
  (repeat' split) <;> simp_all [Config.logCapacity]
  all_goals omega

/-- The log writes an offered record when it is not frozen and its mode admits it; else it is as it was (R160). -/
theorem HistoryLog.offer_cases (l : HistoryLog) (e : LogEntry) :
    (l.frozen = false ∧ l.mode.admits e = true ∧ l.offer e = l.write e) ∨
      ((l.frozen = true ∨ l.mode.admits e = false) ∧ l.offer e = l) := by
  unfold HistoryLog.offer
  cases l.frozen <;> cases l.mode.admits e <;> simp

/-! ### Live tags -/

theorem Slot.liveTag_iff (x : Slot) : x.liveTag = true ↔ x.HoldsLiveTag := by
  unfold Slot.liveTag Slot.HoldsLiveTag transferType
  cases x.reqType with
  | none => simp
  | some t =>
    simp only [Bool.and_eq_true, Bool.or_eq_true, decide_eq_true_eq, Option.some.injEq, or_assoc]
    simp only [ReqType.code]

end Sys2Proof.Machine
end

