-- ==== Sys2Proof/Laws/Payloads.lean ====
section
/-! SUPPORT. The request payloads: what each decoder reads from the bytes its fields are written as, and that a payload it accepts is
written so. -/

namespace Sys2Proof.Machine

/-! ### Fields -/

theorem byteOf_toNat {n : Nat} (h : n < 256) : (byteOf n).toNat = n := by
  simp [byteOf]; omega

theorem byteOf_of_toNat (b : Byte) : byteOf b.toNat = b := by simp [byteOf]

theorem finOf_byteOf {n : Nat} (h : n ≤ 256) (i : Fin n) : finOf n (byteOf i) = some i := by
  have hi := byteOf_toNat (n := i) (by omega)
  simp only [finOf, hi, i.isLt, dite_true]

theorem finOf_some {n : Nat} {b : Byte} {i : Fin n} (h : finOf n b = some i) : b = byteOf i := by
  unfold finOf at h
  split at h
  · cases h; exact (byteOf_of_toNat b).symm
  · cases h

theorem boolOfByte_boolByte (b : Bool) : boolOfByte (boolByte b) = some b := by cases b <;> rfl

theorem boolOfByte_some {b : Byte} {x : Bool} (h : boolOfByte b = some x) : b = boolByte x := by
  unfold boolOfByte at h
  (repeat' split at h) <;> simp_all [boolByte] <;> subst h <;> simp

theorem rangeOf_byteOf {lo hi n : Nat} (h : lo ≤ n ∧ n ≤ hi) (hi' : hi < 256) : rangeOf lo hi (byteOf n) = some n := by
  simp only [rangeOf, byteOf_toNat (n := n) (by omega), h, and_self, if_true]

theorem rangeOf_some {lo hi n : Nat} {b : Byte} (h : rangeOf lo hi b = some n) : b = byteOf n ∧ lo ≤ n ∧ n ≤ hi := by
  unfold rangeOf at h
  split at h
  · next hb => cases h; exact ⟨(byteOf_of_toNat b).symm, hb⟩
  · cases h

theorem busAddrOf_setWidth (a : BusAddr) : busAddrOf (a.setWidth 8) = some a := by
  have h := a.isLt
  have : (a.setWidth 8).toNat = a.toNat := by simp; omega
  simp only [busAddrOf, this]
  rw [if_pos (by omega)]
  simp only [Option.some.injEq]
  apply BitVec.eq_of_toNat_eq
  simp

theorem busAddrOf_some {b : Byte} {a : BusAddr} (h : busAddrOf b = some a) : b = a.setWidth 8 := by
  unfold busAddrOf at h
  split at h
  · next hb =>
    cases h
    apply BitVec.eq_of_toNat_eq
    simp; omega
  · cases h

theorem word16_toNat (hi lo : Byte) : (word16 hi lo).toNat = hi.toNat * 256 + lo.toNat := by
  show (BitVec.append hi lo).toNat = _
  have h := lo.isLt
  rw [show BitVec.append hi lo = hi ++ lo from rfl, BitVec.toNat_append, ← Nat.shiftLeft_add_eq_or_of_lt (by omega),
    Nat.shiftLeft_eq]

theorem word16_bytes (w : BitVec 16) : word16 (w.extractLsb' 8 8) (w.extractLsb' 0 8) = w := by
  have h := w.isLt
  apply BitVec.eq_of_toNat_eq
  rw [word16_toNat, BitVec.extractLsb'_toNat, BitVec.extractLsb'_toNat, Nat.shiftRight_eq_div_pow, Nat.shiftRight_eq_div_pow]
  omega

theorem bytes16_word16 (hi lo : Byte) : bytes16 (word16 hi lo) = [hi, lo] := by
  have h := lo.isLt
  have h1 : (word16 hi lo).extractLsb' 8 8 = hi := by
    apply BitVec.eq_of_toNat_eq
    rw [BitVec.extractLsb'_toNat, word16_toNat, Nat.shiftRight_eq_div_pow]
    have := hi.isLt
    omega
  have h2 : (word16 hi lo).extractLsb' 0 8 = lo := by
    apply BitVec.eq_of_toNat_eq
    rw [BitVec.extractLsb'_toNat, word16_toNat, Nat.shiftRight_eq_div_pow]
    omega
  rw [bytes16, h1, h2]

theorem targetOf_bytes (t : Target) :
    targetOf ((t.setWidth 16).extractLsb' 8 8) ((t.setWidth 16).extractLsb' 0 8) = some t := by
  have ht := t.isLt
  simp only [targetOf, word16_bytes]
  rw [if_pos (by simp; omega)]
  simp

theorem targetOf_some {hi lo : Byte} {t : Target} (h : targetOf hi lo = some t) : [hi, lo] = bytes16 (t.setWidth 16) := by
  unfold targetOf at h
  split at h
  · next hb =>
    cases h
    rw [← bytes16_word16]
    congr 1
    apply BitVec.eq_of_toNat_eq
    simp; omega
  · cases h

theorem Rate.ofByte_code (r : Rate) : Rate.ofByte r.code = some r := by cases r <;> rfl

theorem Rate.ofByte_some {b : Byte} {r : Rate} (h : Rate.ofByte b = some r) : b = r.code := by
  unfold Rate.ofByte at h
  (repeat' split at h) <;> simp_all <;> subst h <;> rfl

theorem TwinPolicy.ofByte_code (p : TwinPolicy) : TwinPolicy.ofByte p.code = some p := by cases p <;> rfl

theorem TwinPolicy.ofByte_some {b : Byte} {p : TwinPolicy} (h : TwinPolicy.ofByte b = some p) : b = p.code := by
  unfold TwinPolicy.ofByte at h
  (repeat' split at h) <;> simp_all <;> subst h <;> rfl

theorem Direction.ofByte_code (d : Direction) : Direction.ofByte d.code = some d := by
  cases d with
  | only k => cases k <;> rfl
  | any => rfl

theorem Direction.ofByte_some {b : Byte} {d : Direction} (h : Direction.ofByte b = some d) : b = d.code := by
  unfold Direction.ofByte at h
  (repeat' split at h) <;> simp_all <;> subst h <;> rfl

theorem WatchAction.ofByte_code (a : WatchAction) : WatchAction.ofByte a.code = some a := by cases a <;> rfl

theorem WatchAction.ofByte_some {b : Byte} {a : WatchAction} (h : WatchAction.ofByte b = some a) : b = a.code := by
  unfold WatchAction.ofByte at h
  (repeat' split at h) <;> simp_all <;> subst h <;> rfl

theorem LogMode.ofByte_code (m : LogMode) : LogMode.ofByte m.code = some m := by cases m <;> rfl

theorem LogMode.ofByte_some {b : Byte} {m : LogMode} (h : LogMode.ofByte b = some m) : b = m.code := by
  unfold LogMode.ofByte at h
  (repeat' split at h) <;> simp_all <;> subst h <;> rfl

theorem Source.ofByte_code (x : Source) : Source.ofByte x.code = some x := by cases x <;> rfl

theorem Source.ofByte_some {b : Byte} {x : Source} (h : Source.ofByte b = some x) : b = x.code := by
  unfold Source.ofByte at h
  (repeat' split at h) <;> simp_all <;> subst h <;> rfl

/-! ### The short payloads -/

theorem decodeOne_byteOf {n : Nat} (h : n ≤ 256) (i : Fin n) : decodeOne n [byteOf i] = some i := finOf_byteOf h i

theorem decodeOne_some {n : Nat} {p : List Byte} {i : Fin n} (h : decodeOne n p = some i) : p = [byteOf i] := by
  match p, h with
  | [_], h => rw [finOf_some h]

theorem decodeCancel_some {p : List Byte} {x : Byte} (h : decodeCancel p = some x) : p = [x] := by
  match p, h with
  | [_], h => cases h; rfl

theorem decodeLogRead_byteOf {n : Nat} (h : 1 ≤ n ∧ n ≤ 4) : decodeLogRead [byteOf n] = some n := rangeOf_byteOf h (by decide)

theorem decodeLogRead_some {p : List Byte} {n : Nat} (h : decodeLogRead p = some n) : p = [byteOf n] ∧ 1 ≤ n ∧ n ≤ 4 := by
  match p, h with
  | [_], h => exact ⟨by rw [(rangeOf_some h).1], (rangeOf_some h).2⟩

theorem decodeSetMode_some {p : List Byte} {m : LogMode} (h : decodeSetMode p = some m) : p = [m.code] := by
  match p, h with
  | [_], h => rw [LogMode.ofByte_some h]

theorem decodeAnyMode_some {p : List Byte} {m : Byte} (h : decodeAnyMode p = some m) : p = [m] := by
  match p, h with
  | [_], h => cases h; rfl

theorem decodeClockConfig_byteOf {n : Nat} (h : 8 ≤ n ∧ n ≤ 25) : decodeClockConfig [byteOf n] = some n :=
  rangeOf_byteOf h (by decide)

theorem decodeClockConfig_some {p : List Byte} {n : Nat} (h : decodeClockConfig p = some n) :
    p = [byteOf n] ∧ 8 ≤ n ∧ n ≤ 25 := by
  match p, h with
  | [_], h => exact ⟨by rw [(rangeOf_some h).1], (rangeOf_some h).2⟩

theorem decodeClockSelect_some {p : List Byte} {x : Source} (h : decodeClockSelect p = some x) : p = [x.code] := by
  match p, h with
  | [_], h => rw [Source.ofByte_some h]

theorem decodeEmpty_some {p : List Byte} {u : Unit} (h : decodeEmpty p = some u) : p = [] := by
  match p, h with
  | [], _ => rfl

theorem decodeStatus_some {p : List Byte} {c : Bool} (h : decodeStatus p = some c) : p = [boolByte c] := by
  match p, h with
  | [_], h => rw [boolOfByte_some h]

/-! ### Transfers -/

theorem decodeWrite_payload (t : Target) (reg : Byte) (data : List Byte) (h : 1 ≤ data.length ∧ data.length ≤ 32) :
    decodeWrite (bytes16 (t.setWidth 16) ++ [reg, byteOf data.length] ++ data) = some (t, reg, data) := by
  simp [bytes16, decodeWrite, rangeOf_byteOf h (by decide), targetOf_bytes]

theorem decodeWrite_some {p : List Byte} {t : Target} {reg : Byte} {data : List Byte} (h : decodeWrite p = some (t, reg, data)) :
    p = bytes16 (t.setWidth 16) ++ [reg, byteOf data.length] ++ data ∧ 1 ≤ data.length ∧ data.length ≤ 32 := by
  match p, h with
  | hi :: lo :: r :: n :: d, h =>
    simp only [decodeWrite] at h
    cases hr : rangeOf 1 32 n with
    | none => simp [hr] at h
    | some len =>
      cases ht : targetOf hi lo with
      | none => simp [hr, ht] at h
      | some t' =>
        simp [hr, ht] at h
        obtain ⟨hl, rfl, rfl, rfl⟩ := h
        subst hl
        rw [← targetOf_some ht, (rangeOf_some hr).1]
        exact ⟨rfl, (rangeOf_some hr).2⟩

theorem decodeRead_payload (t : Target) (reg : Byte) (n : Nat) (h : 1 ≤ n ∧ n ≤ 32) :
    decodeRead (bytes16 (t.setWidth 16) ++ [reg, byteOf n]) = some (t, reg, n) := by
  simp [bytes16, decodeRead, rangeOf_byteOf h (by decide), targetOf_bytes]

theorem decodeRead_some {p : List Byte} {t : Target} {reg : Byte} {n : Nat} (h : decodeRead p = some (t, reg, n)) :
    p = bytes16 (t.setWidth 16) ++ [reg, byteOf n] ∧ 1 ≤ n ∧ n ≤ 32 := by
  match p, h with
  | [hi, lo, r, b], h =>
    simp only [decodeRead] at h
    cases hr : rangeOf 1 32 b with
    | none => simp [hr] at h
    | some len =>
      cases ht : targetOf hi lo with
      | none => simp [hr, ht] at h
      | some t' =>
        simp [hr, ht] at h
        obtain ⟨rfl, rfl, rfl⟩ := h
        rw [← targetOf_some ht, (rangeOf_some hr).1]
        exact ⟨rfl, (rangeOf_some hr).2⟩

theorem decodeProbe_payload (t : Target) : decodeProbe (bytes16 (t.setWidth 16)) = some t := by
  simp [bytes16, decodeProbe, targetOf_bytes]

theorem decodeProbe_some {p : List Byte} {t : Target} (h : decodeProbe p = some t) : p = bytes16 (t.setWidth 16) := by
  match p, h with
  | [_, _], h => exact targetOf_some h

/-! ### Records -/

theorem decodeRouteSet_bytes (i : WindowId) (w : Window) :
    decodeRouteSet (byteOf i :: w.fieldBytes) = some (i, { w with enabled := true }) := by
  simp [decodeRouteSet, Window.fieldBytes, bytes16, finOf_byteOf, targetOf_bytes, busAddrOf_setWidth, boolOfByte_boolByte,
    TwinPolicy.ofByte_code]

theorem decodeRouteSet_some {p : List Byte} {f : WindowId × Window} (h : decodeRouteSet p = some f) :
    ∃ w : Window, p = byteOf f.1 :: w.fieldBytes := by
  match p, h with
  | [i, bh, bl, k, ps, pb, rp, ar, aw, pol, ts, tb], h =>
    simp only [decodeRouteSet, Option.bind_eq_bind, Option.bind_eq_some_iff, Option.some.injEq] at h
    obtain ⟨index, hi, base, hb, se, hk, pseg, hps, pbus, hpb, rph, hrp, ard, har, awr, haw, polc, hpol, tseg, hts, tbus, htb,
      rfl⟩ := h
    refine ⟨Window.mk true base se pseg pbus rph ard awr polc tseg tbus, ?_⟩
    simp only [Window.fieldBytes, ← targetOf_some hb]
    rw [finOf_some hi, finOf_some hk, finOf_some hps, busAddrOf_some hpb, boolOfByte_some hrp, boolOfByte_some har,
      boolOfByte_some haw, TwinPolicy.ofByte_some hpol, finOf_some hts, busAddrOf_some htb]
    rfl

theorem decodeSegConfig_bytes (n : SegId) (c : SegConfig) (h : c.stretchLimit ≠ 0) :
    decodeSegConfig [byteOf n, boolByte c.enable, c.rate.code, c.stretchLimit] = some (n, c) := by
  simp [decodeSegConfig, finOf_byteOf, boolOfByte_boolByte, Rate.ofByte_code]
  exact h

theorem decodeSegConfig_some {p : List Byte} {f : SegId × SegConfig} (h : decodeSegConfig p = some f) :
    p = [byteOf f.1, boolByte f.2.enable, f.2.rate.code, f.2.stretchLimit] ∧ f.2.stretchLimit ≠ 0 := by
  match p, h with
  | [s, e, r, l], h =>
    simp only [decodeSegConfig, Option.bind_eq_bind, Option.bind_eq_some_iff] at h
    obtain ⟨n, hn, en, he, ra, hr, h⟩ := h
    split at h
    · cases h
    · next hl =>
      cases h
      rw [finOf_some hn, boolOfByte_some he, Rate.ofByte_some hr]
      exact ⟨rfl, hl⟩

/-- A setup that WATCH_SET accepts on a unit (R151, R143). -/
theorem decodeWatchSet_bytes (u : UnitId) (w : WatchSetup) (h : w.Settable u) :
    decodeWatchSet (byteOf u :: w.bytes) = some (u, w) := by
  obtain ⟨hc, ha, hch⟩ := h
  have h4 : w.segMask.toNat % 256 < 16 ∧ w.outcomes.toNat % 65536 < 1024 := by
    have := w.segMask.isLt; have := w.outcomes.isLt; omega
  have hcnt : (byteOf w.count).toNat = w.count := byteOf_toNat (by omega)
  have hlt : ¬ w.addrHigh < w.addrLow := by rw [BitVec.lt_def]; rw [BitVec.le_def] at ha; omega
  have hch' : ¬ (w.chained = true ∧ (u = 0 ∨ u = 2)) := by
    rintro ⟨h1, h2⟩
    cases hch h1 <;> cases h2 <;> simp_all
  simp [decodeWatchSet, WatchSetup.bytes, bytes16, finOf_byteOf, busAddrOf_setWidth, boolOfByte_boolByte, Direction.ofByte_code,
    WatchAction.ofByte_code, word16_bytes, h4, hcnt, hlt, hch']

theorem decodeWatchSet_some {p : List Byte} {f : UnitId × WatchSetup} (h : decodeWatchSet p = some f) :
    p = byteOf f.1 :: f.2.bytes ∧ f.2.Settable f.1 := by
  match p, h with
  | [u, sm, al, ah, dir, rv, rm, dv, dm, oh, ol, inv, cnt, act, ch], h =>
    by_cases hs : sm.toNat < 16
    · by_cases ho : (word16 oh ol).toNat < 1024
      · simp only [decodeWatchSet, hs, ho, if_true, Option.bind_eq_bind, Option.bind_some, Option.bind_eq_some_iff] at h
        obtain ⟨un, hu, lo, hlo, hi, hhi, di, hdi, iv, hiv, ac, hac, ca, hca, h⟩ := h
        split at h
        · cases h
        · next hlt =>
          split at h
          · cases h
          · next hch =>
            cases h
            have e1 : ((sm.setWidth 4).setWidth 8 : Byte) = sm := by
              apply BitVec.eq_of_toNat_eq; simp; omega
            have e2 : (((word16 oh ol).setWidth 10).setWidth 16) = word16 oh ol := by
              apply BitVec.eq_of_toNat_eq; simp; omega
            refine ⟨?_, ?_, ?_, ?_⟩
            · simp only [WatchSetup.bytes, e1, e2, bytes16_word16, byteOf_of_toNat]
              rw [finOf_some hu, busAddrOf_some hlo, busAddrOf_some hhi, Direction.ofByte_some hdi, boolOfByte_some hiv,
                WatchAction.ofByte_some hac, boolOfByte_some hca]
              rfl
            · have := cnt.isLt; simp only; omega
            · rw [BitVec.le_def]; rw [BitVec.lt_def] at hlt; simp only; omega
            · intro hc
              simp only at hc
              subst hc
              exact (show ∀ v : UnitId, ¬ (true && (decide (v = 0) || decide (v = 2))) = true → v = 1 ∨ v = 3 by decide) un hch
      · simp [decodeWatchSet, hs, ho] at h
    · simp [decodeWatchSet, hs] at h

end Sys2Proof.Machine
end

