-- ==== Sys2Proof/Laws/Requests.lean ====
section
/-! SUPPORT. The taking of a request into the lowest FREE slot, its screening and its reply, as equations of whole states. -/

namespace Sys2Proof.Machine

/-- The slots in order, split at one of them. -/
theorem finRange_eight_split : ∀ k : SlotId,
    List.finRange 8 = (List.finRange 8).take k ++ k :: (List.finRange 8).drop (k + 1) := by decide

theorem State.freeSlot_of_lowest {s : State} {k : SlotId} (h : s.LowestFree k) : s.freeSlot = some k := by
  unfold State.freeSlot
  rw [List.find?_eq_some_iff_append]
  refine ⟨by simpa using h.2.1, (List.finRange 8).take k, (List.finRange 8).drop (k + 1), finRange_eight_split k, ?_⟩
  · intro j hj
    have hlt : j < k := by
      obtain ⟨i, hi, rfl⟩ := List.mem_iff_getElem.1 hj
      simp at hi ⊢
      exact Fin.lt_def.2 (by simp; omega)
    simpa using h.2.2 j hlt

theorem State.freeSlot_of_none {s : State} (h : s.NoneFree) : s.freeSlot = none := by
  unfold State.freeSlot
  rw [List.find?_eq_none]
  intro k _
  simpa using h.2 k

/-- A request delivered into the lowest FREE slot goes on to its screening there (R3). -/
theorem State.deliver_of_lowest {s : State} {k : SlotId} (h : s.LowestFree k) (type tag : Byte)
    (screen : SlotId → State → State) : s.deliver type tag screen = screen k (s.took k type tag none) := by
  unfold State.deliver
  rw [if_neg (by rw [h.1]; exact Bool.false_ne_true), show s.hunting.freeSlot = some k from State.freeSlot_of_lowest h]
  rfl

/-- A request delivered with no slot FREE is discarded with OVERRUN (R3). -/
theorem State.deliver_of_none {s : State} (h : s.NoneFree) (type tag : Byte) (screen : SlotId → State → State) :
    s.deliver type tag screen = s.hunting.setOverrun := by
  unfold State.deliver
  rw [if_neg (by rw [h.1]; exact Bool.false_ne_true), show s.hunting.freeSlot = none from State.freeSlot_of_none h]

/-- While RST_N is low no request is delivered (R195). -/
theorem State.deliver_of_rstLow {s : State} (h : s.link.rstLow = true) (type tag : Byte) (screen : SlotId → State → State) :
    s.deliver type tag screen = s := if_pos h

theorem State.took_get (s : State) (k : SlotId) (type tag : Byte) (req : Option Request) :
    (s.took k type tag req).slots[k] = { Slot.freed with state := .working, tag := tag, reqType := some type, request := req } := by
  simp [State.took]

/-- The slot keeps its decoded request and the request is carried out (R5). -/
theorem State.screened_some {α : Type} (s : State) (k : SlotId) (type tag : Byte) (x : α) (name : α → Request)
    (carryOut : α → State → State) :
    State.screened k (some x) name carryOut (s.took k type tag none) = carryOut x (s.took k type tag (some (name x))) := by
  simp [State.screened, State.modSlot, State.took]

/-- A request answered at once in the slot that took it (R11). -/
theorem State.took_answer (s : State) (k : SlotId) (type tag : Byte) (req : Option Request) (res : ResultCode) (f : List Byte) :
    (s.took k type tag req).answer k res f = s.replied k type tag req res f := by
  rw [State.answer_of_working _ _ _ _ (by rw [State.took_get])]
  simp [State.modSlot, State.took, State.append, State.replied, Slot.answered]

/-- Fields that do not decode are refused (R5). -/
theorem State.screened_none {α : Type} (s : State) (k : SlotId) (type tag : Byte) (name : α → Request)
    (carryOut : α → State → State) :
    State.screened k (none : Option α) name carryOut (s.took k type tag none) = s.replied k type tag none .badRequest [] := by
  simp only [State.screened, State.took_answer]

/-! ### Types and tags -/

theorem ReqType.ofByte_isNone (type : Byte) : (ReqType.ofByte type).isNone = true ↔ type ∉ requestTypes := by
  simp only [ReqType.ofByte, Option.isNone_iff_eq_none, List.find?_eq_none, ReqType.all, requestTypes, List.mem_cons,
    List.not_mem_nil, or_false, decide_eq_true_eq, forall_eq_or_imp, forall_eq, not_or, ReqType.code, eq_comm (b := type)]

theorem State.took_other (s : State) {j k : SlotId} (h : j ≠ k) (type tag : Byte) (req : Option Request) :
    (s.took k type tag req).slots[j] = s.slots[j] := by
  have : k.val ≠ j.val := fun e => h (Fin.ext e.symm)
  simp [State.took, this]

/-- The tag check finds the tags that are live (R6). -/
theorem State.tagClash_took {s : State} {k : SlotId} (h : s.LowestFree k) (type tag : Byte) :
    (s.took k type tag none).tagClash k = true ↔ s.TagLive tag := by
  unfold State.tagClash State.TagLive
  simp only [List.any_eq_true, List.mem_finRange, true_and, Bool.and_eq_true, decide_eq_true_eq, Slot.liveTag_iff]
  constructor
  · rintro ⟨j, ⟨hj, hl⟩, ht⟩
    rw [State.took_other _ hj] at hl ht
    rw [State.took_get] at ht
    exact ⟨j, hl, ht⟩
  · rintro ⟨j, hl, ht⟩
    have hj : j ≠ k := by
      rintro rfl
      rcases hl.2 with e | e
      · rw [h.2.1] at e; cases e
      · rw [h.2.1] at e; cases e.1
    refine ⟨j, ⟨hj, ?_⟩, ?_⟩
    · rw [State.took_other _ hj]; exact hl
    · rw [State.took_other _ hj, State.took_get]; exact ht

/-! ### Resolution -/

theorem Window.covers_iff (w : Window) (t : Target) : w.covers t = true ↔ w.Holds t := by
  have := Nat.two_pow_pos w.sizeExp.val
  simp only [Window.covers, Window.Holds, Bool.and_eq_true, decide_eq_true_eq]
  omega

theorem finRange_sixteen_split : ∀ i : WindowId,
    List.finRange 16 = (List.finRange 16).take i ++ i :: (List.finRange 16).drop (i + 1) := by decide

/-- The matching window is the one the lookup finds (R27). -/
theorem State.matching_of_matches {s : State} {t : Target} {i : WindowId} (h : s.Matches t i) : s.matching t = some i := by
  unfold State.matching
  rw [List.find?_eq_some_iff_append]
  refine ⟨by simpa [Window.covers_iff] using h.1, (List.finRange 16).take i, (List.finRange 16).drop (i + 1),
    finRange_sixteen_split i, ?_⟩
  intro j hj
  have hlt : j < i := by
    obtain ⟨m, hm, rfl⟩ := List.mem_iff_getElem.1 hj
    simp at hm ⊢
    exact Fin.lt_def.2 (by simp; omega)
  have := h.2 j hlt
  simp only [← Window.covers_iff] at this
  rw [← Bool.and_eq_true] at this
  simpa only [Bool.not_eq_true'] using Bool.eq_false_iff.2 this

theorem State.matching_of_unrouted {s : State} {t : Target} (h : s.Unrouted t) : s.matching t = none := by
  unfold State.matching
  rw [List.find?_eq_none]
  intro i _
  simpa [Window.covers_iff] using h i

theorem Window.permits_iff (w : Window) (k : Kind) : w.permits k = true ↔ w.Permits k := by
  cases k <;> simp [Window.permits, Window.Permits]

theorem Window.place_eq (w : Window) (bus : BusAddr) (t : Target) : w.place bus t = w.addressOf bus t := by
  apply BitVec.eq_of_toNat_eq
  simp [Window.place, Window.addressOf]

theorem Window.resolve_eq (w : Window) (t : Target) : w.resolve t = w.resolutionOf t := by
  simp [Window.resolve, Window.resolutionOf, Window.place_eq]

theorem Window.placed_iff (w : Window) : w.placed = true ↔ w.Lawful := by
  simp only [Window.placed, Window.Lawful, Bool.and_eq_true, Bool.or_eq_true, decide_eq_true_eq, and_assoc]
  simp only [Config.busLow, Config.busHigh]
  have : w.policy = .noTwin ∨ w.policy ≠ .noTwin := Decidable.em _
  refine and_congr_right fun _ => and_congr_right fun _ => and_congr_right fun _ => and_congr_right fun _ => ?_
  constructor
  · rintro (e | e) hn
    · exact absurd e hn
    · exact e
  · intro e
    rcases this with h | h
    · exact .inl h
    · exact .inr (e h)

/-- A transfer whose tag is not live and whose fields are in range goes on to its resolution (R5 step 5, R27). -/
theorem TransferForm.exec_accepts (f : TransferForm) (tag : Byte) (wires : Wires) (s : State) (k : SlotId) (hf : f.Fits)
    (h : s.LowestFree k) (ht : ¬ s.TagLive tag) :
    exec (f.command tag wires) s = .next ((({ s with wires := wires }).took k f.kind.typeByte tag (some f.request)).acceptTransfer k f.target
       (f.kind, f.legIndex, f.legLength) f.kept) := by
  have hw : (s.withWires wires).LowestFree k := h
  have ht' : ¬ (s.withWires wires).TagLive tag := ht
  have hd : ∀ type, ((s.withWires wires).took k type tag none).tagClash k ≠ true := fun t =>
    fun e => ht' ((State.tagClash_took hw t tag).1 e)
  obtain ⟨kind, t, reg, data, asked⟩ := f
  cases kind
  · have := decodeRead_payload t reg asked (hf.2 rfl)
    simp only [TransferForm.command, Kind.command, TransferForm.payload, exec, execRead, State.takeRead, State.takeTransfer,
      State.deliver_of_lowest hw, hd, this, State.screened_some, State.carryRead, Kind.typeByte, TransferForm.request,
      TransferForm.legIndex, TransferForm.legLength, TransferForm.kept]
    rfl
  · have := decodeWrite_payload t reg data (hf.1 rfl)
    simp only [TransferForm.command, Kind.command, TransferForm.payload, exec, execWrite, State.takeWrite, State.takeTransfer,
      State.deliver_of_lowest hw, hd, this, State.screened_some, State.carryWrite, Kind.typeByte, TransferForm.request,
      TransferForm.legIndex, TransferForm.legLength, TransferForm.kept]
    rfl
  · have := decodeProbe_payload t
    simp only [TransferForm.command, Kind.command, TransferForm.payload, exec, execProbe, State.takeProbe, State.takeTransfer,
      State.deliver_of_lowest hw, hd, this, State.screened_some, State.carryProbe, Kind.typeByte, TransferForm.request,
      TransferForm.legIndex, TransferForm.legLength, TransferForm.kept]
    rfl

/-- A permitted transfer builds its legs (R29, R31, R41). -/
theorem TransferForm.exec_builds (f : TransferForm) (tag : Byte) (wires : Wires) (s : State) (k : SlotId) (i : WindowId)
    (hf : f.Fits) (h : s.LowestFree k) (ht : ¬ s.TagLive tag) (hm : s.Matches f.target i) (hp : s.windows[i].Permits f.kind) :
    exec (f.command tag wires) s = .next
      (((({ s with wires := wires }).took k f.kind.typeByte tag (some f.request)).modSlot k fun x =>
          { x with resolution := some (s.windows[i].resolutionOf f.target), writeData := f.kept }).buildLegs k
        (s.windows[i].resolutionOf f.target) (f.kind, f.legIndex, f.legLength)) := by
  rw [TransferForm.exec_accepts f tag wires s k hf h ht]
  have hm' := State.matching_of_matches (s := ({ s with wires := wires }).took k f.kind.typeByte tag (some f.request)) hm
  simp only [State.acceptTransfer, hm']
  refine congrArg _ ((if_pos ((Window.permits_iff _ _).2 hp)).trans ?_)
  rw [Window.resolve_eq]
  rfl

end Sys2Proof.Machine
end

