-- ==== Sys2Proof/Laws/Delivery.lean ====
section
/-! SUPPORT. Leg starts, leg decisions, the placing of legs and the delivery of records, as equations of whole states. -/

namespace Sys2Proof.Machine

/-! ### Updates in the words of the statements -/

theorem State.modSlot_eq (s : State) (k : SlotId) (f : Slot → Slot) : s.modSlot k f = s.withSlot k (f s.slots[k]) := rfl

theorem State.modSeg_eq (s : State) (n : SegId) (f : Segment → Segment) : s.modSeg n f = s.withSeg n (f s.segs[n]) := rfl

theorem State.modUnit_eq (s : State) (u : UnitId) (f : WatchUnit → WatchUnit) : s.modUnit u f = s.withUnit u (f s.units[u]) := rfl

@[simp] theorem State.withSeg_get (s : State) (n : SegId) (g : Segment) : (s.withSeg n g).segs[n] = g := by
  simp [State.withSeg]

theorem State.withSeg_other (s : State) {m n : SegId} (h : m ≠ n) (g : Segment) : (s.withSeg n g).segs[m] = s.segs[m] := by
  have : n.val ≠ m.val := fun e => h (Fin.ext e.symm)
  simp [State.withSeg, this]

@[simp] theorem State.withSeg_withSeg (s : State) (n : SegId) (g h : Segment) : (s.withSeg n g).withSeg n h = s.withSeg n h := by
  simp [State.withSeg]

@[simp] theorem State.withSeg_self (s : State) (n : SegId) : s.withSeg n s.segs[n] = s := by
  simp [State.withSeg]

@[simp] theorem State.withSeg_slots (s : State) (n : SegId) (g : Segment) : (s.withSeg n g).slots = s.slots := rfl

@[simp] theorem State.withSeg_wires (s : State) (n : SegId) (g : Segment) : (s.withSeg n g).wires = s.wires := rfl

@[simp] theorem State.withSeg_legAt (s : State) (n : SegId) (g : Segment) (r : LegRef) : (s.withSeg n g).legAt r = s.legAt r := rfl

@[simp] theorem State.withSlot_get (s : State) (k : SlotId) (x : Slot) : (s.withSlot k x).slots[k] = x := by
  simp [State.withSlot]

theorem State.withSlot_other (s : State) {j k : SlotId} (h : j ≠ k) (x : Slot) : (s.withSlot k x).slots[j] = s.slots[j] := by
  have : k.val ≠ j.val := fun e => h (Fin.ext e.symm)
  simp [State.withSlot, this]

@[simp] theorem State.withSlot_withSlot (s : State) (k : SlotId) (x y : Slot) :
    (s.withSlot k x).withSlot k y = s.withSlot k y := by
  simp [State.withSlot]

@[simp] theorem State.withSlot_self (s : State) (k : SlotId) : s.withSlot k s.slots[k] = s := by
  simp [State.withSlot]

@[simp] theorem State.withSlot_segs (s : State) (k : SlotId) (x : Slot) : (s.withSlot k x).segs = s.segs := rfl

@[simp] theorem State.withUnit_get (s : State) (u : UnitId) (x : WatchUnit) : (s.withUnit u x).units[u] = x := by
  simp [State.withUnit]

theorem State.withUnit_other (s : State) {v u : UnitId} (h : v ≠ u) (x : WatchUnit) : (s.withUnit u x).units[v] = s.units[v] := by
  have : u.val ≠ v.val := fun e => h (Fin.ext e.symm)
  simp [State.withUnit, this]

@[simp] theorem State.withUnit_self (s : State) (u : UnitId) : s.withUnit u s.units[u] = s := by
  simp [State.withUnit]

theorem chainPartner_other (u : UnitId) : chainPartner u ≠ u := by revert u; decide

/-- WATCH_REARM on a unit and its chain partner (R153). -/
theorem State.rearm_eq (s : State) (u v : UnitId) (hv : chainPartner u = v) :
    s.rearm u =
      if s.chainedSuccessor u then
        (s.withUnit u { s.units[u] with state := s.units[u].state.rewaited }).withUnit v
          { s.units[v] with state := s.units[v].state.rearmed }
      else if s.chainedSuccessor v then
        (s.withUnit u { s.units[u] with state := s.units[u].state.rearmed }).withUnit v
          { s.units[v] with state := s.units[v].state.rewaited }
      else s.withUnit u { s.units[u] with state := s.units[u].state.rearmed } := by
  subst hv
  unfold State.rearm
  simp only [State.modUnit_eq, State.withUnit_other _ (chainPartner_other u)]

theorem State.offer_withSlot (s : State) (k : SlotId) (x : Slot) (e : LogEntry) :
    (s.withSlot k x).offer e = (s.offer e).withSlot k x := rfl

@[simp] theorem State.closes_withSlot (s : State) (k : SlotId) (x y : Slot) (res : ResultCode) (f : List Byte) :
    (s.withSlot k y).closes k x res f = s.closes k x res f := by
  simp [State.closes, State.withSlot]

/-- A WORKING slot is answered (R11). -/
theorem State.answer_closes (s : State) (k : SlotId) (res : ResultCode) (fields : List Byte) (h : s.slots[k].state = .working) :
    s.answer k res fields = s.closes k s.slots[k] res fields := by
  rw [State.answer_of_working s k res fields h]; rfl

/-! ### Segments -/

theorem Segment.applyPending_eq (g : Segment) : g.applyPending = g.configured := by
  unfold Segment.applyPending Segment.configured
  cases h : g.pendingCfg with
  | none =>
    cases g
    simp_all
  | some c => rfl

theorem Segment.rest_eq_rests (g : Segment) {st : SegState} (h : st.quiescent = true) : g.rest st = g.rests st := by
  unfold Segment.rest Segment.goto Segment.rests Segment.reportFor
  have hc : st ≠ .clearing := by rintro rfl; cases h
  have hq : g.state.quiescent = false ↔ (g.state = .active ∨ g.state = .clearing) := by
    cases g.state <;> simp [SegState.quiescent]
  simp only [h, hc, if_false, Bool.not_true, Bool.false_and, LineDrive.released, Bool.true_and, Bool.not_eq_true']
  by_cases hp : g.pauseRequested = true
  · by_cases hg : g.state.quiescent = false
    · simp [hp, hg, hq.1 hg]
    · have hg' := Bool.not_eq_false _ ▸ hg
      have := mt hq.2 hg
      simp [hp, hg', this]
  · simp [hp]

theorem Segment.rest_active (g : Segment) (h : g.pauseRequested = false) :
    g.rest .active = { g with state := .active, clear := none, drive := { sclLow := false, sdaLow := false } } := by
  unfold Segment.rest Segment.goto Segment.reportFor
  simp [h, LineDrive.released]

theorem Segment.mayStart_iff (g : Segment) : g.mayStart = true ↔ g.queue ≠ [] ∧ g.Free := by
  unfold Segment.mayStart Segment.Free
  cases g.queue <;> simp

/-- A leg start goes by what the line check reads (R118). -/
theorem State.startLeg_eq (s : State) (n : SegId) (r : LegRef) (rest : List LegRef) (hq : s.segs[n].queue = r :: rest)
    (hp : s.segs[n].pauseRequested = false) : s.startLeg n = s.legStarts n r rest := by
  unfold State.startLeg State.legStarts checkLines
  simp only [State.modSeg_eq, Segment.rest_active _ hp]
  cases h1 : s.wires[n].scl
  · simp
  · cases h2 : s.wires[n].sda
    · simp only [Bool.not_true, Bool.false_eq_true, if_false, Bool.not_false, if_true, State.beginClear, State.modSeg_eq,
        State.withSeg_get, State.withSeg_withSeg, reduceCtorEq]
      congr 1
      simp [Segment.clearing, Segment.rest, Segment.goto, Segment.reportFor, LineDrive.released, SegState.quiescent]
    · simp only [Bool.not_true, Bool.false_eq_true, if_false, State.beginRun, State.withSeg_get, hq, State.modSeg_eq, State.modLeg,
        State.modSlot_eq, reduceCtorEq]
      simp only [State.withSeg, State.withSlot, Segment.started, Segment.openRun, Vector.set_set, Fin.getElem_fin,
        Vector.getElem_set_self]

theorem deliverAll_nil (s : State) : deliverAll (s, []) = s := rfl

/-- Where delivering one record produces no other, it is the delivery. -/
theorem deliverAll_one {s : State} {r : CompletionRecord} (h : (s.consume r).2 = []) :
    deliverAll (s, [r]) = (s.consume r).1 := by
  show State.settle 33 [r] s = _
  simp only [State.settle, h, List.nil_append]

/-- The between-legs decision (R78). -/
theorem State.decideNext_off (s : State) (n : SegId) (h : s.segs[n].configured.stored.enable = false) :
    s.decideNext n = (s.withSeg n (s.segs[n].configured.rests .off)).failQueued n .segmentOff := by
  unfold State.decideNext State.legDecision State.switchOff State.failQueued
  simp only [State.modSeg_eq, Segment.applyPending_eq, State.withSeg_get, h, Bool.false_eq_true, if_false,
    Segment.rest_eq_rests _ (rfl : SegState.off.quiescent = true), State.withSeg_withSeg]

theorem State.decideNext_start (s : State) (n : SegId) (r : LegRef) (rest : List LegRef)
    (h : s.segs[n].configured.stored.enable = true) (hq : s.segs[n].configured.queue = r :: rest)
    (hf : s.segs[n].configured.Free) :
    s.decideNext n = (s.withSeg n s.segs[n].configured).legStarts n r rest := by
  unfold State.decideNext State.legDecision
  have hm : s.segs[n].configured.mayStart = true := (Segment.mayStart_iff _).2 ⟨by rw [hq]; exact List.cons_ne_nil _ _, hf⟩
  simp only [State.modSeg_eq, Segment.applyPending_eq, State.withSeg_get, h, if_true, hm, deliverAll_nil]
  exact State.startLeg_eq _ n r rest (by rw [State.withSeg_get]; exact hq) (by rw [State.withSeg_get]; exact hf.2)

theorem State.decideNext_idle (s : State) (n : SegId) (h : s.segs[n].configured.stored.enable = true)
    (hf : s.segs[n].configured.queue = [] ∨ ¬ s.segs[n].configured.Free) :
    s.decideNext n = s.withSeg n (s.segs[n].configured.rests .idle) := by
  unfold State.decideNext State.legDecision
  have hm : s.segs[n].configured.mayStart = false := by
    rw [← Bool.not_eq_true, Segment.mayStart_iff]
    rintro ⟨hq, hf'⟩
    rcases hf with e | e
    · exact hq e
    · exact e hf'
  simp only [State.modSeg_eq, Segment.applyPending_eq, State.withSeg_get, h, if_true, hm, Bool.false_eq_true, if_false,
    deliverAll_nil, Segment.rest_eq_rests _ (rfl : SegState.idle.quiescent = true), State.withSeg_withSeg]

/-- A segment that may not start a leg is left as it is by the start decision (R77). -/
theorem State.decideStart_stays (s : State) (n : SegId)
    (h : s.segs[n].state ≠ .idle ∨ s.segs[n].queue = [] ∨ ¬ s.segs[n].Free) : s.decideStart n = s := by
  unfold State.decideStart State.startDecision
  have hm : (decide (s.segs[n].state = .idle) && s.segs[n].mayStart) = false := by
    rw [← Bool.not_eq_true, Bool.and_eq_true, Segment.mayStart_iff, decide_eq_true_eq]
    rintro ⟨hi, hq, hf⟩
    rcases h with e | e | e
    · exact e hi
    · exact hq e
    · exact e hf
  simp only [hm, Bool.false_eq_true, if_false, deliverAll_nil]

/-- The start decision of an IDLE segment that may start goes as the between-legs decision (R77, R78). -/
theorem State.decideStart_starts (s : State) (n : SegId) (hi : s.segs[n].state = .idle) (hq : s.segs[n].queue ≠ [])
    (hf : s.segs[n].Free) : s.decideStart n = s.decideNext n := by
  unfold State.decideStart State.startDecision State.decideNext State.legDecision
  have hm : s.segs[n].mayStart = true := (Segment.mayStart_iff _).2 ⟨hq, hf⟩
  have hm' : s.segs[n].configured.mayStart = true := (Segment.mayStart_iff _).2 ⟨hq, hf⟩
  simp only [hi, hm, decide_true, Bool.and_true, if_true, State.modSeg_eq, Segment.applyPending_eq, State.withSeg_get, hm']

/-! ### Placing legs -/

/-- A leg joins the queue of a segment that takes legs and starts none (R47, R74). -/
theorem State.placeLeg_waits (s : State) (r : LegRef) {l : LegRecord} {n : SegId} {g : Segment} (hl : s.legAt r = some l)
    (hn : l.segment = n) (hg : s.segs[n] = g) (h : g.Waits) :
    s.placeLeg r = (s.withSeg n { g with queue := g.queue ++ [r] }, []) := by
  subst hn hg
  have ha : (s.modSeg l.segment fun g => { g with queue := g.queue ++ [r] }).startDecision l.segment =
      (s.modSeg l.segment fun g => { g with queue := g.queue ++ [r] }, []) := by
    unfold State.startDecision
    rw [if_neg]
    rw [State.modSeg_eq, State.withSeg_get, Bool.and_eq_true, Segment.mayStart_iff, decide_eq_true_eq]
    rintro ⟨hi, _, h1, h2⟩
    rcases h with e | e | ⟨_, e⟩
    · rw [e] at hi; cases hi
    · rw [e] at hi; cases hi
    · rcases e with e | e
      · rw [e] at h1; cases h1
      · rw [e] at h2; cases h2
  unfold State.placeLeg
  simp only [hl, State.appendLeg, ha]
  split
  · next h0 => rcases h with e | e | ⟨e, _⟩ <;> rw [h0] at e <;> cases e
  · next h0 => rcases h with e | e | ⟨e, _⟩ <;> rw [h0] at e <;> cases e
  · rfl
  · rfl
  · rfl

/-- A leg appended to an IDLE segment that may start legs is started at once (R47, R74, R77). -/
theorem State.placeLeg_starts (s : State) (r : LegRef) {l : LegRecord} {n : SegId} {g : Segment} (hl : s.legAt r = some l)
    (hn : l.segment = n) (hg : s.segs[n] = g) (hi : g.state = .idle) (hq : g.queue = []) (hf : g.Free)
    (hc : g.pendingCfg = none) (he : g.stored.enable = true) :
    s.placeLeg r = ((s.withSeg n { g with queue := [r] }).legStarts n r [], []) := by
  subst hn
  have hd : ({ g with queue := [r] } : Segment).configured = { g with queue := [r] } := by
    unfold Segment.configured; simp [hc]
  have ha : s.appendLeg r l.segment = ((s.withSeg l.segment { g with queue := [r] }).legStarts l.segment r [], []) := by
    unfold State.appendLeg
    rw [State.modSeg_eq, hg, hq, List.nil_append]
    unfold State.startDecision
    rw [if_pos (by
      rw [State.withSeg_get, Bool.and_eq_true, Segment.mayStart_iff]
      exact ⟨decide_eq_true hi, List.cons_ne_nil _ _, hf⟩)]
    simp only [State.modSeg_eq, Segment.applyPending_eq, State.withSeg_get, hd, State.withSeg_withSeg, he, if_true]
    rw [State.startLeg_eq _ _ r [] (by rw [State.withSeg_get]) (by rw [State.withSeg_get]; exact hf.2)]
  have hp : s.placeLeg r = s.appendLeg r l.segment := by
    unfold State.placeLeg
    simp only [hl, hg, hi]
  rw [hp, ha]

/-- A leg on a segment out of service ends at once (R47). -/
theorem State.placeLeg_ends (s : State) (r : LegRef) {l : LegRecord} {n : SegId} {o : LegOutcome} (hl : s.legAt r = some l)
    (hn : l.segment = n)
    (h : s.segs[n].state = .off ∧ o = .segmentOff ∨ s.segs[n].state = .faulted ∧ o = .segmentFaulted) :
    s.placeLeg r = (s.modLeg r fun x => x.finish o 0 [], [s.completionOf r l o 0 none []]) := by
  subst hn
  unfold State.placeLeg
  simp only [hl, State.failLeg]
  rcases h with ⟨e, rfl⟩ | ⟨e, rfl⟩ <;> rw [e]

theorem State.placeLeg_none (s : State) (r : LegRef) (hl : s.legAt r = none) : s.placeLeg r = (s, []) := by
  unfold State.placeLeg; rw [hl]

/-- A leg that joins a segment which takes legs and starts none is queued there (R47, R74). -/
theorem State.accepts_waits (s : State) (n : SegId) (r : LegRef) (h : s.segs[n].Waits) :
    s.accepts n r = s.withSeg n { s.segs[n] with queue := s.segs[n].queue ++ [r] } := by
  unfold State.accepts
  refine if_neg ?_
  rintro ⟨hi, h1, h2⟩
  rcases h with e | e | ⟨_, e | e⟩
  · rw [e] at hi; cases hi
  · rw [e] at hi; cases hi
  · rw [e] at h1; cases h1
  · rw [e] at h2; cases h2

/-- A built leg joins a segment in service (R47, R74). -/
theorem State.placeLeg_accepts (s : State) (r : LegRef) {l : LegRecord} {n : SegId} (hl : s.legAt r = some l) (hn : l.segment = n)
    (h : s.segs[n].Waits ∨ s.segs[n].Startable) : s.placeLeg r = (s.accepts n r, []) := by
  rcases h with h | ⟨hi, hq, h1, h2, hc, he⟩
  · rw [State.placeLeg_waits s r hl hn rfl h, State.accepts_waits s n r h]
  · rw [State.placeLeg_starts s r hl hn rfl hi hq ⟨h1, h2⟩ hc he]
    unfold State.accepts
    rw [if_pos ⟨hi, h1, h2⟩]

/-- A leg start by what the line check reads (R118): the check waits, the bus is cleared, or the leg starts. -/
theorem State.legStarts_cases (w : Wires) (n : SegId) :
    ((∀ c : State, c.wires = w → ∀ r rest, c.legStarts n r rest =
      c.withSeg n { c.segs[n] with state := .active, clear := none, drive := { sclLow := false, sdaLow := false } }) ∧ w[n].scl = false) ∨
    ((∀ c : State, c.wires = w → ∀ r rest, c.legStarts n r rest = c.withSeg n (c.segs[n].clearing .lineCheck none)) ∧
      w[n].scl = true ∧ w[n].sda = false) ∨
    ((∀ c : State, c.wires = w → ∀ r rest, c.legStarts n r rest =
      (c.withSlot r.slot (c.slots[r.slot].modLeg r.role fun l => { l with state := .inProgress })).withSeg n (c.segs[n].started r rest)) ∧
      w[n].scl = true ∧ w[n].sda = true) := by
  cases h2 : w[n].scl
  · exact .inl ⟨fun c hc r rest => by subst hc; exact if_pos h2, rfl⟩
  · cases h3 : w[n].sda
    · refine .inr (.inl ⟨fun c hc r rest => ?_, rfl, rfl⟩)
      subst hc
      exact (if_neg (by rw [h2]; decide)).trans (if_pos h3)
    · refine .inr (.inr ⟨fun c hc r rest => ?_, rfl, rfl⟩)
      subst hc
      exact (if_neg (by rw [h2]; decide)).trans (if_neg (by rw [h3]; decide))

theorem State.legStarts_other (s : State) (n : SegId) (r : LegRef) (rest : List LegRef) {m : SegId} (h : m ≠ n) :
    (s.legStarts n r rest).segs[m] = s.segs[m] := by
  unfold State.legStarts
  (repeat' split) <;> rw [State.withSeg_other _ h]
  rfl

theorem State.accepts_other (s : State) (n : SegId) (r : LegRef) {m : SegId} (h : m ≠ n) :
    (s.accepts n r).segs[m] = s.segs[m] := by
  unfold State.accepts
  split
  · rw [State.legStarts_other _ _ _ _ h, State.withSeg_other _ h]
  · rw [State.withSeg_other _ h]

/-- A leg that joins a segment leaves the slots, or goes IN_PROGRESS in its own. -/
theorem State.accepts_slots (s : State) (n : SegId) (r : LegRef) :
    (s.accepts n r).slots = s.slots ∨
      (s.accepts n r).slots = s.slots.set r.slot (s.slots[r.slot].modLeg r.role fun l => { l with state := .inProgress }) := by
  unfold State.accepts State.legStarts
  (repeat' split)
  · exact .inl rfl
  · exact .inl rfl
  · exact .inr rfl
  · exact .inl rfl

theorem Slot.modLeg_comm (x : Slot) {a b : Role} (h : a ≠ b) (f g : LegRecord → LegRecord) :
    (x.modLeg a f).modLeg b g = (x.modLeg b g).modLeg a f := by
  cases a <;> cases b <;> first | exact absurd rfl h | rfl

/-- Joining a segment changes no leg but the one that joins, so it commutes with a change of another leg of the slot. -/
theorem State.accepts_withSlot (s : State) (n : SegId) (k : SlotId) (x : Slot) {a b : Role} (h : a ≠ b)
    (f : LegRecord → LegRecord) :
    ((s.withSlot k x).accepts n ⟨k, a⟩).modLeg ⟨k, b⟩ f = (s.withSlot k (x.modLeg b f)).accepts n ⟨k, a⟩ := by
  by_cases h1 : s.segs[n].state = .idle ∧ s.segs[n].hold = false ∧ s.segs[n].pauseRequested = false
  · have e : ∀ y, (s.withSlot k y).accepts n ⟨k, a⟩ =
        ((s.withSlot k y).withSeg n { s.segs[n] with queue := [⟨k, a⟩] }).legStarts n ⟨k, a⟩ [] := fun y => if_pos h1
    rw [e, e]
    rcases State.legStarts_cases s.wires n with h2 | h2 | h2
    · rw [h2.1 ((s.withSlot k x).withSeg n _) rfl, h2.1 ((s.withSlot k (x.modLeg b f)).withSeg n _) rfl]
      simp [State.modLeg, State.modSlot, State.withSeg, State.withSlot]
    · rw [h2.1 ((s.withSlot k x).withSeg n _) rfl, h2.1 ((s.withSlot k (x.modLeg b f)).withSeg n _) rfl]
      simp [State.modLeg, State.modSlot, State.withSeg, State.withSlot]
    · rw [h2.1 ((s.withSlot k x).withSeg n _) rfl, h2.1 ((s.withSlot k (x.modLeg b f)).withSeg n _) rfl]
      simp [State.modLeg, State.modSlot, State.withSeg, State.withSlot, Slot.modLeg_comm x h]
  · have e : ∀ y, (s.withSlot k y).accepts n ⟨k, a⟩ =
        (s.withSlot k y).withSeg n { s.segs[n] with queue := s.segs[n].queue ++ [⟨k, a⟩] } := fun y => if_neg h1
    rw [e, e]
    simp [State.modLeg, State.modSlot, State.withSeg, State.withSlot]
/-- A leg that joins a segment leaves the other leg of its slot. -/
theorem State.accepts_legAt (s : State) (n : SegId) (k : SlotId) {a b : Role} (h : a ≠ b) :
    (s.accepts n ⟨k, a⟩).legAt ⟨k, b⟩ = s.legAt ⟨k, b⟩ := by
  unfold State.legAt
  rcases s.accepts_slots n ⟨k, a⟩ with e | e
  · rw [e]
  · rw [e]
    simp only [Fin.getElem_fin, Vector.getElem_set_self]
    cases a <;> cases b <;> first | exact absurd rfl h | rfl

/-- A slot with a leg that is not DONE and delivered is not settled (R54). -/
theorem Slot.allSettled_false {x : Slot} {role : Role} {l : LegRecord} (hl : x.leg role = some l) (hs : l.settled = false) :
    x.allSettled = false := by
  unfold Slot.allSettled
  cases role
  · rw [show x.primary = some l from hl]; simp only [hs, Bool.false_and]
  · cases x.primary with
    | none => rfl
    | some p => rw [show x.twin = some l from hl]; simp only [hs, Bool.and_false]

/-- A leg that has just joined a segment keeps its slot open. -/
theorem State.accepts_unsettled (s : State) (n : SegId) (r : LegRef) {l : LegRecord} (hl : s.legAt r = some l)
    (hd : l.state ≠ .done) : (s.accepts n r).slots[r.slot].allSettled = false := by
  unfold State.legAt at hl
  rcases s.accepts_slots n r with e | e
  · rw [e]
    exact Slot.allSettled_false hl (by simp [LegRecord.settled, hd])
  · rw [e]
    refine Slot.allSettled_false (role := r.role) (l := { l with state := .inProgress }) ?_ (by simp [LegRecord.settled])
    simp only [Fin.getElem_fin, Vector.getElem_set_self]
    have hl' : s.slots[r.slot.val].leg r.role = some l := hl
    unfold Slot.leg at hl' ⊢
    unfold Slot.modLeg
    cases hr : r.role <;> rw [hr] at hl' <;> simp only at hl' ⊢ <;> rw [hl'] <;> rfl

/-! ### Records -/

/-- A record that builds no twin goes to the log, to its slot and to the watch units (R53, R54). -/
theorem State.consume_plain (s : State) (r : CompletionRecord)
    (h : (s.slots[r.slot].modLeg r.role fun l => { l with delivered := true }).wantsTwin r = false) :
    s.consume r =
      (((((s.offer r.toRecordCopy.logEntry).modLeg ⟨r.slot, r.role⟩ fun l => { l with delivered := true }).reconcileSlot
        r.slot).watchRecord r.toRecordCopy), []) := by
  unfold State.consume State.buildFallback
  have : (((s.offer r.toRecordCopy.logEntry).modLeg ⟨r.slot, r.role⟩ fun l => { l with delivered := true }).slots[r.slot]).wantsTwin
      r = false := by
    rw [State.modLeg_get, if_pos rfl]; exact h
  simp only [this, Bool.false_eq_true, if_false]

theorem deliverAll_cons {s : State} {r : CompletionRecord} (rs : List CompletionRecord) (h : (s.consume r).2 = []) :
    deliverAll (s, r :: rs) = deliverAll ((s.consume r).1, rs) := by
  show State.settle (rs.length + 1 + 32) (r :: rs) s = State.settle (rs.length + 32) rs _
  rw [show rs.length + 1 + 32 = (rs.length + 32) + 1 by omega]
  simp only [State.settle, h, List.nil_append]

/-- Where delivering one record produces another, that is delivered next (R53). -/
theorem deliverAll_then {s a : State} {r x : CompletionRecord} (h : s.consume r = (a, [x])) (hx : (a.consume x).2 = []) :
    deliverAll (s, [r]) = deliverAll (a, [x]) := by
  rw [deliverAll_one hx]
  show State.settle 33 [r] s = _
  simp only [State.settle, h, hx, List.append_nil]

/-- A record that neither builds a twin nor settles its slot is only noted there (R54). -/
theorem State.consume_open (s : State) (r : CompletionRecord) {x : Slot}
    (hx : (s.slots[r.slot].modLeg r.role fun l => { l with delivered := true }) = x) (hw : x.wantsTwin r = false)
    (hs : x.allSettled = false) :
    s.consume r = (((s.offer r.toRecordCopy.logEntry).withSlot r.slot x).watchRecord r.toRecordCopy, []) := by
  rw [State.consume_plain s r (by rw [hx]; exact hw)]
  have : ((s.offer r.toRecordCopy.logEntry).modLeg ⟨r.slot, r.role⟩ fun l => { l with delivered := true }) =
      (s.offer r.toRecordCopy.logEntry).withSlot r.slot x := by
    rw [← hx]; rfl
  rw [this]
  unfold State.reconcileSlot
  rw [State.withSlot_get, hs]
  rfl

/-- A record that settles its slot answers it (R54, R57). -/
theorem State.consume_closes (s : State) (r : CompletionRecord) {x : Slot} {p : LegRecord}
    (hx : (s.slots[r.slot].modLeg r.role fun l => { l with delivered := true }) = x) (hw : x.wantsTwin r = false)
    (hst : x.state = .working) (hp : x.primary = some p) (hs : x.allSettled = true) :
    s.consume r =
      (((s.offer r.toRecordCopy.logEntry).closes r.slot x (reconcile x.cancelled x.policy p x.twin)
        (transferFields (reconcile x.cancelled x.policy p x.twin) p x.twin)).watchRecord r.toRecordCopy, []) := by
  rw [State.consume_plain s r (by rw [hx]; exact hw)]
  have : ((s.offer r.toRecordCopy.logEntry).modLeg ⟨r.slot, r.role⟩ fun l => { l with delivered := true }) =
      (s.offer r.toRecordCopy.logEntry).withSlot r.slot x := by
    rw [← hx]; rfl
  rw [this]
  unfold State.reconcileSlot
  rw [State.withSlot_get, hs, if_pos rfl, hp]
  simp only []
  rw [State.answer_closes _ _ _ _ (by rw [State.withSlot_get]; exact hst), State.withSlot_get, State.closes_withSlot]

/-- A record that calls for the twin of a MIRROR_FALLBACK read has it built and placed, and its slot stays open (R49, R50, R54). -/
theorem State.consume_builds (s : State) (r : CompletionRecord) {x : Slot} {res : Resolution} {shape : Kind × Byte × Nat}
    {t : LegRecord} {p : Produced} (hx : (s.slots[r.slot].modLeg r.role fun l => { l with delivered := true }) = x)
    (hw : x.wantsTwin r = true) (hres : x.resolution = some res) (hreq : x.request.bind Request.legShape = some shape)
    (ht : res.twinLeg r.slot shape = some t)
    (hp : ((s.offer r.toRecordCopy.logEntry).withSlot r.slot { x with twin := some t }).placeLeg ⟨r.slot, .twin⟩ = p)
    (hs : p.1.slots[r.slot].allSettled = false) : s.consume r = (p.1.watchRecord r.toRecordCopy, p.2) := by
  have hm : ((s.offer r.toRecordCopy.logEntry).modLeg ⟨r.slot, r.role⟩ fun l => { l with delivered := true }) =
      (s.offer r.toRecordCopy.logEntry).withSlot r.slot x := by
    rw [← hx]; rfl
  have hb : State.buildFallback ((s.offer r.toRecordCopy.logEntry).withSlot r.slot x) r = p := by
    unfold State.buildFallback
    rw [State.withSlot_get, if_pos hw, hres, hreq]
    simp only [ht, State.modSlot_eq, State.withSlot_get, State.withSlot_withSlot]
    exact hp
  unfold State.consume
  simp only [hm, hb]
  unfold State.reconcileSlot
  rw [hs]
  rfl

/-- The record of a transfer's only leg answers its slot (R54, R58, R62). -/
theorem State.consume_single (s : State) (rc : RecordCopy) (rd : List Byte) {k : SlotId} {x : Slot} {l : LegRecord}
    {o : LegOutcome} {bytes : Nat} {buf : List Byte} {res : ResultCode} (hk : rc.slot = k) (hr : rc.role = .primary)
    (hx : s.slots[k] = x) (hw : x.state = .working) (hp : x.primary = some (l.finish o bytes buf)) (ht : x.twin = none)
    (hn : rc.kind ≠ .read ∨ x.policy ≠ .mirrorFallback ∨ rc.outcome = .acked ∨ x.cancelled = true)
    (hres : reconcile x.cancelled x.policy (l.ended o bytes buf) none = res) :
    s.consume { rc with readData := rd } =
      (((s.offer rc.logEntry).closes k { x with primary := some (l.ended o bytes buf) } res
          (transferFields res (l.ended o bytes buf) none)).watchRecord rc, []) := by
  subst hk hres
  have hm : (s.slots[rc.slot].modLeg rc.role fun l => { l with delivered := true }) =
      { x with primary := some (l.ended o bytes buf) } := by
    rw [hx, hr]; unfold Slot.modLeg; rw [hp]; rfl
  have hc := State.consume_closes s { rc with readData := rd } hm (p := l.ended o bytes buf)
    (by
      unfold Slot.wantsTwin
      have hpol : ({ x with primary := some (l.ended o bytes buf) } : Slot).policy = x.policy := rfl
      rcases hn with e | e | e | e <;> simp [hpol, e])
    hw rfl (by unfold Slot.allSettled; simp only [ht]; rfl)
  refine hc.trans ?_
  have hr2 : reconcile x.cancelled x.policy (l.ended o bytes buf) x.twin = reconcile x.cancelled x.policy (l.ended o bytes buf) none := by
    rw [ht]
  have hf2 : transferFields (reconcile x.cancelled x.policy (l.ended o bytes buf) none) (l.ended o bytes buf) x.twin =
      transferFields (reconcile x.cancelled x.policy (l.ended o bytes buf) none) (l.ended o bytes buf) none := by rw [ht]
  rw [← hf2, ← hr2]
  rfl

/-! ### A slot without legs stands by -/

/-- A slot record that holds no leg and expects none. -/
def Slot.Legless (x : Slot) : Prop := x.primary = none ∧ x.twin = none ∧ x.resolution = none

theorem Slot.modLeg_legless {x : Slot} (h : x.Legless) (r : Role) (f : LegRecord → LegRecord) : x.modLeg r f = x := by
  obtain ⟨h1, h2, _⟩ := h
  unfold Slot.modLeg
  cases r <;> simp only [h1, h2, Option.map_none] <;> cases x <;> simp_all

section

variable {k : SlotId} {x : Slot} (hx : x.Legless)
include hx

theorem State.modLeg_legless (s : State) (r : LegRef) (f : LegRecord → LegRecord) (h : s.slots[k] = x) :
    (s.modLeg r f).slots[k] = x := by
  rw [State.modLeg_get]
  split
  · rw [h, Slot.modLeg_legless hx]
  · exact h

theorem State.failLeg_legless (s : State) (r : LegRef) (o : LegOutcome) (h : s.slots[k] = x) : (s.failLeg r o).1.slots[k] = x := by
  unfold State.failLeg
  split
  · exact h
  · exact State.modLeg_legless hx _ _ _ h

theorem State.failLegs_legless (o : LegOutcome) (rs : List LegRef) (s : State) (h : s.slots[k] = x) :
    (State.failLegs o rs s).1.slots[k] = x := by
  induction rs generalizing s with
  | nil => exact h
  | cons r rs ih => exact ih _ (State.failLeg_legless hx s r o h)

theorem State.startLeg_legless (s : State) (n : SegId) (h : s.slots[k] = x) : (s.startLeg n).slots[k] = x := by
  unfold State.startLeg
  split
  · unfold State.beginRun
    dsimp only
    split
    · exact h
    · rw [State.modSeg_slots]; exact State.modLeg_legless hx _ _ _ h
  · exact h
  · exact h

theorem State.startDecision_legless (s : State) (n : SegId) (h : s.slots[k] = x) : (s.startDecision n).1.slots[k] = x := by
  unfold State.startDecision
  split
  · dsimp only
    split
    · exact State.startLeg_legless hx _ _ h
    · exact State.failLegs_legless hx _ _ _ h
  · exact h

theorem State.placeLeg_legless (s : State) (r : LegRef) (h : s.slots[k] = x) : (s.placeLeg r).1.slots[k] = x := by
  unfold State.placeLeg State.appendLeg
  split
  · exact h
  · split
    · exact State.failLeg_legless hx _ _ _ h
    · exact State.failLeg_legless hx _ _ _ h
    all_goals exact State.startDecision_legless hx _ _ h

theorem State.reconcileSlot_legless (s : State) (j : SlotId) (h : s.slots[k] = x) : (s.reconcileSlot j).slots[k] = x := by
  unfold State.reconcileSlot
  split
  · next ha =>
    split
    · exact h
    · next p hp =>
      have hjk : k ≠ j := by
        rintro rfl
        rw [h, hx.1] at hp; cases hp
      rw [State.answer_get, if_neg (fun e => hjk e.1)]
      exact h
  · exact h

theorem State.consume_legless (s : State) (r : CompletionRecord) (h : s.slots[k] = x) : (s.consume r).1.slots[k] = x := by
  unfold State.consume
  dsimp only
  rw [State.watchRecord_slots]
  apply State.reconcileSlot_legless hx
  have h1 : ((s.offer r.toRecordCopy.logEntry).modLeg ⟨r.slot, r.role⟩ fun l => { l with delivered := true }).slots[k] = x :=
    State.modLeg_legless hx _ _ _ h
  generalize (s.offer r.toRecordCopy.logEntry).modLeg ⟨r.slot, r.role⟩ (fun l => { l with delivered := true }) = a at h1
  unfold State.buildFallback
  split
  · split
    · next hr _ =>
      split
      · exact h1
      · have hne : k ≠ r.slot := by
          intro e
          subst e
          rw [h1, hx.2.2] at hr; cases hr
        apply State.placeLeg_legless hx
        rw [State.modSlot_get, if_neg hne]; exact h1
    · exact h1
  · exact h1

/-- A delivery leaves a slot without legs as it is. -/
theorem deliverAll_legless (p : Produced) (h : p.1.slots[k] = x) : (deliverAll p).slots[k] = x := by
  unfold deliverAll
  generalize p.2.length + 32 = fuel
  obtain ⟨s, rs⟩ := p
  dsimp only at h ⊢
  induction fuel generalizing s rs with
  | zero => exact h
  | succ n ih =>
    cases rs with
    | nil => exact h
    | cons r rs => exact ih _ _ (State.consume_legless hx s r h)

theorem State.failQueued_legless (s : State) (n : SegId) (o : LegOutcome) (h : s.slots[k] = x) :
    (s.failQueued n o).slots[k] = x :=
  deliverAll_legless hx _ (State.failLegs_legless hx _ _ _ h)

theorem State.decideStart_legless (s : State) (n : SegId) (h : s.slots[k] = x) : (s.decideStart n).slots[k] = x :=
  deliverAll_legless hx _ (State.startDecision_legless hx _ _ h)

end

/-! ### A transfer accepted -/

theorem TransferForm.newLeg_eq (f : TransferForm) (k : SlotId) (role : Role) (seg : SegId) (addr : BusAddr) (rp : Bool) :
    newLeg k role seg addr rp (f.kind, f.legIndex, f.legLength) = f.leg k role seg addr rp := by
  unfold newLeg TransferForm.leg
  cases h : f.kind <;> simp

/-- The primary leg of a transfer through a window. -/
abbrev TransferForm.primaryOf (f : TransferForm) (k : SlotId) (w : Window) : LegRecord :=
  f.leg k .primary w.primarySeg (w.addressOf w.primaryBus f.target) w.regPhase

/-- The twin leg of a transfer through a window. -/
abbrev TransferForm.twinOf (f : TransferForm) (k : SlotId) (w : Window) : LegRecord :=
  f.leg k .twin w.twinSeg (w.addressOf w.twinBus f.target) w.regPhase

/-- The part with the legs of an accepted transfer in its slot, before they are placed. -/
def TransferForm.stored (f : TransferForm) (tag : Byte) (wires : Wires) (s : State) (k : SlotId) (w : Window)
    (twin : Option LegRecord) : State :=
  State.withSlot { s with wires := wires, link := { s.link with assembler := .hunt } } k
    (f.slot tag (w.resolutionOf f.target) (f.primaryOf k w) twin)

/-- A permitted transfer stores its legs in its slot and places them (R41, R45, R47). -/
theorem TransferForm.exec_places (f : TransferForm) (tag : Byte) (wires : Wires) (s : State) (k : SlotId) (i : WindowId)
    (twin : Option LegRecord) (hf : f.Fits) (h : s.LowestFree k) (ht : ¬ s.TagLive tag) (hm : s.Matches f.target i)
    (hp : s.windows[i].Permits f.kind)
    (hw : f.Single s.windows[i].policy ∧ twin = none ∨
      ¬ f.Single s.windows[i].policy ∧ twin = some (f.twinOf k s.windows[i])) :
    exec (f.command tag wires) s = .next (deliverAll ((f.stored tag wires s k s.windows[i] twin).placeLegs k)) := by
  rw [TransferForm.exec_builds f tag wires s k i hf h ht hm hp]
  unfold State.buildLegs State.storeLegs TransferForm.stored
  rw [State.modSlot_eq, State.modSlot_eq, State.withSlot_get, State.withSlot_withSlot, State.took_get]
  rw [show State.took { s with wires := wires } k f.kind.typeByte tag (some f.request) =
    State.withSlot { s with wires := wires, link := { s.link with assembler := .hunt } } k
      { Slot.freed with state := .working, tag := tag, reqType := some f.kind.typeByte, request := some f.request } from rfl,
    State.withSlot_withSlot]
  congr 4
  unfold TransferForm.slot
  simp only [TransferForm.newLeg_eq, Window.resolutionOf, Resolution.twinLeg]
  congr 1
  unfold TransferForm.Single at hw
  rcases hw with ⟨h1, rfl⟩ | ⟨h1, rfl⟩ <;> revert h1 <;> cases s.windows[i].policy <;> cases hk : f.kind <;>
    simp [TwinPolicy.twinAtAcceptance, ← TransferForm.newLeg_eq, hk]

theorem TransferForm.stored_primary (f : TransferForm) (tag : Byte) (wires : Wires) (s : State) (k : SlotId) (w : Window)
    (twin : Option LegRecord) : (f.stored tag wires s k w twin).legAt ⟨k, .primary⟩ = some (f.primaryOf k w) := by
  unfold State.legAt TransferForm.stored
  simp only [State.withSlot_get]
  rfl

theorem TransferForm.stored_twin (f : TransferForm) (tag : Byte) (wires : Wires) (s : State) (k : SlotId) (w : Window)
    (twin : Option LegRecord) : (f.stored tag wires s k w twin).legAt ⟨k, .twin⟩ = twin := by
  unfold State.legAt TransferForm.stored
  simp only [State.withSlot_get]
  rfl

end Sys2Proof.Machine
end

