-- ==== Sys2Proof/Laws/LawSteps.lean ====
section
/-! SUPPORT. What single operations do to the laws of Safety.lean. -/

namespace Sys2Proof.Machine

@[simp] theorem ite_log (c : Prop) [Decidable c] (a b : State) : (if c then a else b).log = if c then a.log else b.log := by split <;> rfl

theorem LogLaw.watch {s : State} (r : RecordCopy) (u : UnitId) (armed : Bool) (h : LogLaw s) : LogLaw (State.watchUnit r u armed s) := by
  unfold State.watchUnit
  split
  · split
    · exact h
    · unfold State.fire State.watchAction LogLaw
      have := HistoryLog.offer_length ((s.modUnit u fun w => { w with evtTimer := some Config.evtMicroseconds }).fireMarker u r) h
      dsimp only
      split <;> simpa using this
  · exact h

/-! ### Slots -/

theorem Slot.lawful_modLeg {x : Slot} (r : Role) (f : LegRecord → LegRecord) (h : x.Lawful) : (x.modLeg r f).Lawful := by
  obtain ⟨h1, h2, h3, h4⟩ := h
  refine ⟨fun hx => ?_, by simpa using h2, by simpa using h3, by simpa using h4⟩
  rw [h1 (by simpa using hx)]; simp

theorem SlotLaw.modLeg {s : State} (r : LegRef) (f : LegRecord → LegRecord) (h : SlotLaw s) : SlotLaw (s.modLeg r f) := by
  intro k
  rw [State.modLeg_get]
  split
  · exact Slot.lawful_modLeg _ _ (h k)
  · exact h k

theorem SlotLaw.modSlot {s : State} (k : SlotId) (f : Slot → Slot) (hf : (f s.slots[k]).Lawful) (h : SlotLaw s) :
    SlotLaw (s.modSlot k f) := by
  intro j
  rw [State.modSlot_get]
  split
  · exact hf
  · exact h j

theorem Slot.lawful_freed : Slot.freed.Lawful := by simp [Slot.Lawful, Slot.freed]

theorem Slot.lawful_taken (a b : Byte) : (Slot.taken a b).Lawful := by simp [Slot.Lawful, Slot.freed, Slot.taken]

theorem SlotLaw.answer {s : State} (k : SlotId) (res : ResultCode) (fields : List Byte) (h : SlotLaw s) :
    SlotLaw (s.answer k res fields) := by
  intro j
  rw [State.answer_get]
  split
  · next e =>
    have h2 := (h k).2.1 (by rw [e.2]; simp)
    obtain ⟨t, ht⟩ := Option.isSome_iff_exists.1 h2
    refine ⟨by simp, fun _ => h2, by simp [Slot.answered], ?_⟩
    rintro r hr
    obtain rfl : _ = r := Option.some.inj hr
    refine ⟨rfl, ?_, rfl⟩
    rw [Slot.answered_reqType, ht]; rfl
  · exact h j

/-! ### Watch units -/

theorem WatchLaw.modUnit {s : State} (u : UnitId) (f : WatchUnit → WatchUnit) (hf : (f s.units[u]).Lawful u) (h : WatchLaw s) :
    WatchLaw (s.modUnit u f) := by
  intro v
  rw [State.modUnit_get]
  split
  · next e => subst e; exact hf
  · exact h v

theorem WatchLaw.of_held {s t : State} (ht : ∀ u : UnitId, ∃ x, t.units[u] = { s.units[u] with heldHit := x }) (h : WatchLaw s) : WatchLaw t := by
  intro u
  obtain ⟨x, hx⟩ := ht u
  rw [hx]
  exact h u

theorem State.setHeld_units (s : State) (src : NoticeSource) (o : Option Notice) (u : UnitId) :
    ∃ x, (s.setHeld src o).units[u] = { s.units[u] with heldHit := x } := by
  cases src
  · next v =>
    simp only [State.setHeld, State.modUnit_get]
    split
    · next e => subst e; exact ⟨_, rfl⟩
    · exact ⟨_, rfl⟩
  · exact ⟨_, rfl⟩
  · exact ⟨_, rfl⟩
  · exact ⟨_, rfl⟩

theorem State.raise_units (s : State) (x : Notice) (u : UnitId) :
    ∃ y, (s.raise x).units[u] = { s.units[u] with heldHit := y } := by
  unfold State.raise
  (repeat' split)
  · exact State.setHeld_units _ _ _ _
  · exact ⟨_, rfl⟩
  · exact State.setHeld_units _ _ _ _
  · exact ⟨_, rfl⟩

theorem State.releaseHeld_units (s : State) (x : NoticeSource) (u : UnitId) :
    ∃ y, (s.releaseHeld x).units[u] = { s.units[u] with heldHit := y } := by
  unfold State.releaseHeld
  split
  · exact ⟨_, rfl⟩
  · exact State.setHeld_units _ _ _ _

theorem WatchLaw.raise {s : State} (x : Notice) (h : WatchLaw s) : WatchLaw (s.raise x) := h.of_held (s.raise_units x)

theorem WatchUnit.lawful_fired {x : WatchUnit} {u : UnitId} (hx : x.Lawful u) (h0 : x.countRemaining = 0) :
    ({ x with state := .fired } : WatchUnit).Lawful u := by
  obtain ⟨h1, h2, h3, h4, h5, h6⟩ := hx
  exact ⟨h1, h2, fun _ => h0, by simp, h5, h6⟩

theorem WatchLaw.setFired {s : State} (u : UnitId) (h0 : s.units[u].countRemaining = 0) (h : WatchLaw s) :
    WatchLaw (s.setWatchState u .fired) := h.modUnit u _ (WatchUnit.lawful_fired (h u) h0)

theorem successor_ne {u v : UnitId} (h : successor u = some v) : u ≠ v := by
  revert u v; decide

theorem WatchLaw.armSuccessor {s : State} (u : UnitId) (h : WatchLaw s) : WatchLaw (s.armSuccessor u) := by
  unfold State.armSuccessor
  split
  · exact h
  · next v _ =>
    refine h.modUnit v _ ?_
    obtain ⟨h1, h2, h3, h4, h5, h6⟩ := h v
    split
    · exact ⟨h1, h2, by simp, by simp, h5, h6⟩
    · exact h v

theorem State.armSuccessor_self (s : State) (u : UnitId) : (s.armSuccessor u).units[u] = s.units[u] := by
  unfold State.armSuccessor
  split
  · rfl
  · next v hv => rw [State.modUnit_get]; simp [successor_ne hv]

theorem WatchLaw.fire {s : State} (u : UnitId) (r : RecordCopy) (h0 : s.units[u].countRemaining = 0) (h : WatchLaw s) :
    WatchLaw (s.fire u r) := by
  unfold State.fire
  dsimp only
  have h1 : WatchLaw (s.modUnit u fun w => { w with evtTimer := some Config.evtMicroseconds }) := by
    refine h.modUnit u _ ?_
    obtain ⟨h1, h2, h3, h4, h5, h6⟩ := h u
    exact ⟨h1, h2, h3, h4, h5, by simp [Config.evtMicroseconds]⟩
  generalize hs1 : (s.modUnit u fun w => { w with evtTimer := some Config.evtMicroseconds }) = s1 at h1 ⊢
  have hz1 : s1.units[u].countRemaining = 0 := by rw [← hs1, State.modUnit_get]; simpa using h0
  have h2 : WatchLaw ((s1.offer (s1.fireMarker u r)).armSuccessor u) := WatchLaw.armSuccessor (s := s1.offer _) u h1
  have hz2 : ((s1.offer (s1.fireMarker u r)).armSuccessor u).units[u].countRemaining = 0 := by
    rw [State.armSuccessor_self]; exact hz1
  generalize ((s1.offer (s1.fireMarker u r)).armSuccessor u) = s2 at h2 hz2
  have hr : ∀ x, (s2.raise x).units[u].countRemaining = 0 := by
    intro x; obtain ⟨y, hy⟩ := s2.raise_units x u; rw [hy]; exact hz2
  unfold State.watchAction
  split
  · exact h2.setFired u hz2
  · exact (h2.raise _).setFired u (hr _)
  · exact WatchLaw.setFired (s := (s2.raiseHit u r).freezeLog) u (hr _) (h2.raise _)
  · exact WatchLaw.setFired (s := (s2.raiseHit u r).setHold r.segment) u (hr _) (h2.raise _)
  · exact h2

theorem WatchLaw.watchUnit {s : State} (r : RecordCopy) (u : UnitId) (a : Bool) (h : WatchLaw s) :
    WatchLaw (State.watchUnit r u a s) := by
  unfold State.watchUnit
  split
  · split
    · refine h.modUnit u _ ?_
      obtain ⟨h1, h2, h3, h4, h5, h6⟩ := h u
      refine ⟨Nat.le_trans (Nat.sub_le _ _) h1, h2, fun hf => ?_, h4, h5, h6⟩
      have := h3 hf
      show s.units[u].countRemaining - 1 = 0
      omega
    · exact h.fire u r (by omega)
  · exact h

theorem WatchUnit.lawful_reset (u : UnitId) : WatchUnit.reset.Lawful u := by
  simp [WatchUnit.Lawful, WatchUnit.reset, WatchSetup.zeroed]

/-! ### Live tags -/

/-- Every live tag of `t` is one of `s`, in the same slot. -/
def LiveShrinks (s t : State) : Prop := ∀ k : SlotId, t.slots[k].liveTag = true → s.slots[k].liveTag = true ∧ t.slots[k].tag = s.slots[k].tag

theorem LiveTagLaw.shrink {s t : State} (ht : LiveShrinks s t) (h : LiveTagLaw s) : LiveTagLaw t := by
  intro j k hjk hj hk
  obtain ⟨a, b⟩ := ht j ((Slot.liveTag_iff _).2 hj)
  obtain ⟨c, d⟩ := ht k ((Slot.liveTag_iff _).2 hk)
  rw [b, d]
  exact h j k hjk ((Slot.liveTag_iff _).1 a) ((Slot.liveTag_iff _).1 c)

theorem LiveTagLaw.of_slots {s t : State} (ht : t.slots = s.slots) (h : LiveTagLaw s) : LiveTagLaw t := by
  unfold LiveTagLaw; rw [ht]; exact h

theorem Slot.liveTag_answered (x : Slot) (res : ResultCode) (f : List Byte) (hw : x.state = .working)
    (hl : (x.answered res f).liveTag = true) : x.liveTag = true := by
  rw [Slot.liveTag_iff] at *
  exact ⟨hl.1, Or.inl hw⟩

theorem liveShrinks_answer (s : State) (k : SlotId) (res : ResultCode) (f : List Byte) : LiveShrinks s (s.answer k res f) := by
  intro j hj
  rw [State.answer_get] at hj ⊢
  split
  · next e => rw [if_pos e] at hj; rw [e.1]; exact ⟨Slot.liveTag_answered _ _ _ e.2 hj, rfl⟩
  · next e => rw [if_neg e] at hj; exact ⟨hj, rfl⟩

theorem transferType_eq (t : Byte) : transferType t = true ↔ t = 0x10 ∨ t = 0x11 ∨ t = 0x12 := by
  simp [transferType, or_assoc]; simp [ReqType.code]

/-- The outbound law looks at the queue, at which slots are ANSWERED and at what is held over. -/
theorem OutboundLaw.of_same {s t : State} (hq : t.link.queue = s.link.queue)
    (hk : ∀ k : SlotId, t.slots[k].state = .answered ↔ s.slots[k].state = .answered)
    (hh : ∀ q, t.held q = s.held q) (h : OutboundLaw s) : OutboundLaw t := by
  obtain ⟨h1, h2, h3, h4, h5⟩ := h
  refine ⟨fun k => ?_, fun q => ?_, by rw [hq]; exact h3, fun q n hn => ?_, by rw [hq]; exact h5⟩
  · unfold State.replyCount; rw [hq]; simp only [hk k]; exact h1 k
  · unfold State.noticeCount; rw [hq]; exact h2 q
  · rw [hq]; exact h4 q n (by rw [← hh]; exact hn)

theorem OutboundLaw.seg {s : State} (n : SegId) (f : Segment → Segment) (hf : ∀ g : Segment, (f g).heldAlert = g.heldAlert)
    (h : OutboundLaw s) : OutboundLaw (s.modSeg n f) := by
  refine OutboundLaw.of_same (s := s) rfl (fun _ => Iff.rfl) (fun q => ?_) h
  cases q
  case segment m => simp only [State.held, State.modSeg_get]; split <;> simp_all
  all_goals rfl

theorem OutboundLaw.unit {s : State} (u : UnitId) (f : WatchUnit → WatchUnit) (hf : (f s.units[u]).heldHit = s.units[u].heldHit)
    (h : OutboundLaw s) : OutboundLaw (s.modUnit u f) := by
  refine OutboundLaw.of_same (s := s) rfl (fun _ => Iff.rfl) (fun q => ?_) h
  cases q
  case watch m => 
    simp only [State.held, State.modUnit_get]; split
    · next e => subst e; exact hf
    · rfl
  all_goals rfl

theorem OutboundLaw.slot {s : State} (k : SlotId) (f : Slot → Slot) (hf : (f s.slots[k]).state = .answered ↔ s.slots[k].state = .answered)
    (h : OutboundLaw s) : OutboundLaw (s.modSlot k f) := by
  refine OutboundLaw.of_same (s := s) rfl (fun j => ?_) (fun q => by cases q <;> rfl) h
  rw [State.modSlot_get]; split
  · next e => subst e; exact hf
  · exact Iff.rfl

theorem drop_one_append {α} (l : List α) (x : α) {P : α → Prop} (h : ∀ m ∈ l.drop 1, P m) (hx : P x) : ∀ m ∈ (l ++ [x]).drop 1, P m := by
  cases l with
  | nil => simp
  | cons a l => simp at h ⊢; rintro m (hm | rfl); (exact h m hm); exact hx

theorem OutboundLaw.answer {s : State} (k : SlotId) (res : ResultCode) (f : List Byte) (h : OutboundLaw s) :
    OutboundLaw (s.answer k res f) := by
  refine (Decidable.em (s.slots[k].state = .working)).elim (fun hw => ?_) fun hw => by
    rw [State.answer_of_not_working _ _ _ _ hw]; exact h
  have hq := s.answer_queue k res f
  rw [if_pos hw] at hq
  obtain ⟨h1, h2, h3, h4, h5⟩ := h
  have hh : ∀ q, (s.answer k res f).held q = s.held q := by
    rw [State.answer_of_working _ _ _ _ hw]; intro q; cases q <;> rfl
  refine ⟨fun j => ?_, fun q => ?_, ?_, fun q n hn => ?_, ?_⟩
  · have := h1 j
    unfold State.replyCount at this ⊢
    have hg := State.answer_get s k j res f
    rw [hq, List.countP_append, this]
    by_cases e : j = k
    · rw [if_pos ⟨e, hw⟩] at hg
      rw [hg, e, hw]; simp
    · rw [if_neg fun x => e x.1] at hg
      have e' : ¬ k = j := fun x => e x.symm
      rw [hg]; simp [e']
  · have := h2 q
    unfold State.noticeCount at this ⊢
    rw [hq, List.countP_append]
    simpa [OutMessage.isFrom] using this
  · rw [hq]; exact drop_one_append _ _ h3 rfl
  · rw [hh] at hn
    obtain ⟨a, b, c, m, hm, hmm⟩ := h4 q n hn
    exact ⟨a, b, c, m, by rw [hq]; exact List.mem_append_left _ hm, hmm⟩
  · rw [hq]; intro m hm
    rcases List.mem_append.1 hm with hm | hm
    · exact h5 m hm
    · simp at hm; subst hm; simp

theorem OutboundLaw.append_notice {s : State} (x : Notice) (hx : 1 ≤ x.count ∧ x.count ≤ 255) (h0 : s.noticeCount x.source = 0)
    (h : OutboundLaw s) : OutboundLaw (s.append (.notice x)) := by
  obtain ⟨h1, h2, h3, h4, h5⟩ := h
  refine ⟨fun j => ?_, fun q => ?_, ?_, fun q n hn => ?_, ?_⟩
  · have := h1 j
    have hz : List.countP (fun m : OutMessage => decide (m.content = OutContent.reply j)) [({ content := .notice x, begun := false } : OutMessage)] = 0 := by simp
    simp only [State.replyCount, State.append, List.countP_append, hz, Nat.add_zero] at this ⊢
    exact this
  · have := h2 q
    simp only [State.noticeCount, State.append, List.countP_append] at this h0 ⊢
    by_cases e : x.source = q
    · subst e; rw [h0]; simp [OutMessage.isFrom]
    · simpa [OutMessage.isFrom, e] using this
  · exact drop_one_append _ _ h3 rfl
  · obtain ⟨a, b, c, m, hm, hmm⟩ := h4 q n hn
    exact ⟨a, b, c, m, List.mem_append_left _ hm, hmm⟩
  · intro m hm
    rcases List.mem_append.1 hm with hm | hm
    · exact h5 m hm
    · simp at hm; subst hm; rintro n hn; cases hn; exact hx

theorem OutboundLaw.setHeld {s : State} (src : NoticeSource) (o : Option Notice)
   (ho : ∀ n, o = some n → n.source = src ∧ 1 ≤ n.count ∧ n.count ≤ 255 ∧ ∃ m ∈ s.link.queue, OutMessage.isFrom src m = true ∧ m.begun = true)
   (h : OutboundLaw s) : OutboundLaw (s.setHeld src o) := by
  have hq : (s.setHeld src o).link.queue = s.link.queue := by cases src <;> rfl
  have hs : (s.setHeld src o).slots = s.slots := by cases src <;> rfl
  obtain ⟨h1, h2, h3, h4, h5⟩ := h
  refine ⟨fun k => ?_, fun q => ?_, by rw [hq]; exact h3, fun q n hn => ?_, by rw [hq]; exact h5⟩
  · unfold State.replyCount; rw [hq, hs]; exact h1 k
  · unfold State.noticeCount; rw [hq]; exact h2 q
  · rw [hq]
    rw [State.setHeld_held] at hn
    split at hn
    · next e => rw [e.1]; exact ho n hn
    · exact h4 q n hn

theorem State.holdOver_eq (s : State) (x : Notice) : s.holdOver x = s.setHeld x.source (some (match s.held x.source with
    | none => x
    | some old => old.fold x)) := rfl

theorem OutboundLaw.holdOver {s : State} (x : Notice) (hx : 1 ≤ x.count ∧ x.count ≤ 255) 
   (hm : ∃ m ∈ s.link.queue, OutMessage.isFrom x.source m = true ∧ m.begun = true) (h : OutboundLaw s) : OutboundLaw (s.holdOver x) := by
  unfold State.holdOver
  refine h.setHeld _ _ ?_
  rintro n hn
  obtain rfl := Option.some.inj hn
  split
  · exact ⟨rfl, hx.1, hx.2, hm⟩
  · next old ho =>
    have := h.2.2.2.1 _ _ ho
    have hc := Notice.count_fold this.2.1 hx
    exact ⟨by simp, hc.1, hc.2, hm⟩

theorem OutboundLaw.refresh {s : State} (x : Notice) (hx : 1 ≤ x.count ∧ x.count ≤ 255) (h : OutboundLaw s) :
   OutboundLaw { s with link := { s.link with queue := s.link.queue.map (OutMessage.refresh x) } } := by
  obtain ⟨h1, h2, h3, h4, h5⟩ := h
  refine ⟨fun k => ?_, fun q => ?_, ?_, fun q n hn => ?_, ?_⟩
  · have := h1 k
    simp only [State.replyCount, List.countP_map] at this ⊢
    rw [← this]
    congr 1
    funext m
    simp [OutMessage.refresh_reply]
  · have := h2 q
    simp only [State.noticeCount, List.countP_map] at this ⊢
    refine le_of_eq_of_le ?_ this
    congr 1
    funext m
    simp
  · simp only [← List.map_drop, List.mem_map]
    rintro _ ⟨m, hm, rfl⟩
    rw [OutMessage.begun_refresh]; exact h3 m hm
  · obtain ⟨a, b, c, m, hm, hmm⟩ := h4 q n hn
    refine ⟨a, b, c, m.refresh x, List.mem_map_of_mem hm, ?_⟩
    simpa using hmm
  · simp only [List.mem_map]
    rintro _ ⟨m, hm, rfl⟩ n hn
    obtain ⟨c, b⟩ := m
    cases c with
    | reply k => simp [OutMessage.refresh] at hn
    | notice old =>
      have := h5 _ hm old rfl
      by_cases e : old.source = x.source
      · simp [OutMessage.refresh, e] at hn; subst hn; exact Notice.count_fold this.1 hx
      · simp [OutMessage.refresh, e] at hn; subst hn; exact this

theorem OutboundLaw.raise {s : State} (x : Notice) (hx : x.count = 1) (h : OutboundLaw s) : OutboundLaw (s.raise x) := by
  have hx : 1 ≤ x.count ∧ x.count ≤ 255 := by omega
  unfold State.raise
  split
  · next hf =>
    rw [List.find?_eq_none] at hf
    split
    · next hh =>
      obtain ⟨n, hn⟩ := Option.isSome_iff_exists.1 hh
      obtain ⟨-, -, -, m, hm, hmm, -⟩ := h.2.2.2.1 _ _ hn
      exact absurd hmm (hf m hm)
    · exact h.append_notice x hx (by unfold State.noticeCount; rw [List.countP_eq_zero]; exact hf)
  · next m hf =>
    split
    · next hb =>
      exact h.holdOver x hx ⟨m, List.mem_of_find?_eq_some hf, List.find?_some hf, hb⟩
    · exact h.refresh x hx

theorem OutboundLaw.fire {s : State} (u : UnitId) (r : RecordCopy) (h : OutboundLaw s) : OutboundLaw (s.fire u r) := by
  unfold State.fire; dsimp only
  have h1 : OutboundLaw (s.modUnit u fun w => { w with evtTimer := some Config.evtMicroseconds }) := h.unit _ _ rfl
  generalize (s.modUnit u fun w => { w with evtTimer := some Config.evtMicroseconds }) = s1 at h1 ⊢
  have h2 : OutboundLaw ((s1.offer (s1.fireMarker u r)).armSuccessor u) := by
    have h2 : OutboundLaw (s1.offer (s1.fireMarker u r)) := h1.of_same rfl (fun _ => Iff.rfl) fun q => by cases q <;> rfl
    unfold State.armSuccessor; split
    · exact h2
    · exact h2.unit _ _ (by split <;> rfl)
  generalize ((s1.offer (s1.fireMarker u r)).armSuccessor u) = s2 at h2
  have hr : OutboundLaw (s2.raiseHit u r) := h2.raise _ rfl
  unfold State.watchAction
  split
  · exact h2.unit _ _ rfl
  · exact hr.unit _ _ rfl
  · refine OutboundLaw.unit (s := (s2.raiseHit u r).freezeLog) _ _ rfl (hr.of_same rfl (fun _ => Iff.rfl) fun q => by cases q <;> rfl)
  · exact OutboundLaw.unit (s := (s2.raiseHit u r).setHold r.segment) _ _ rfl (hr.seg r.segment _ (fun _ => rfl))
  · exact h2

theorem OutboundLaw.watchUnit {s : State} (r : RecordCopy) (u : UnitId) (a : Bool) (h : OutboundLaw s) :
    OutboundLaw (State.watchUnit r u a s) := by
  unfold State.watchUnit
  split
  · split
    · exact h.unit _ _ rfl
    · exact h.fire u r
  · exact h

theorem isFrom_unique {s : State} (h : OutboundLaw s) {m : OutMessage} {rest : List OutMessage} (hq : s.link.queue = m :: rest)
    (q : NoticeSource) (hm : OutMessage.isFrom q m = true) : ∀ x ∈ rest, OutMessage.isFrom q x = false := by
  have := h.2.1 q
  unfold State.noticeCount at this
  rw [hq, List.countP_cons, hm] at this
  simp at this
  intro x hx; simpa using this x hx

/-- The head leaves, a reply with its slot. -/
theorem OutboundLaw.removeHead {s : State} {m : OutMessage} {rest : List OutMessage} (hq : s.link.queue = m :: rest) (h : OutboundLaw s)
   (l : LinkPort) (hl : l.queue = rest) : OutboundLaw (State.afterRemoval { s with link := l } m.content) := by
  obtain ⟨h1, h2, h3, h4, h5⟩ := id h
  obtain ⟨c, b⟩ := m
  rw [hq] at h3
  have h3' : ∀ x ∈ rest, x.begun = false := by simpa using h3
  cases c with
  | reply k =>
    unfold State.afterRemoval State.releaseSlot
    dsimp only
    have hc : ∀ j : SlotId, List.countP (fun m => decide (m.content = .reply j)) rest = if (State.modSlot s k fun _ => Slot.freed).slots[j].state = .answered then 1 else 0 := by
      intro j
      have := h1 j
      rw [State.modSlot_get]
      unfold State.replyCount at this
      rw [hq, List.countP_cons] at this
      by_cases e : j = k
      · subst e
        simp only [decide_true, if_true, Slot.freed] at this ⊢
        simp only [reduceCtorEq, if_false]
        split at this <;> omega
      · have e' : ¬ k = j := fun x => e x.symm
        simpa [e, e'] using this
    refine ⟨fun j => ?_, fun q => ?_, ?_, fun q n hn => ?_, ?_⟩
    · unfold State.replyCount
      rw [State.modSlot_link]; dsimp only; rw [hl]; exact hc j
    · have := h2 q
      unfold State.noticeCount at this ⊢
      rw [State.modSlot_link]; dsimp only; rw [hl]
      rw [hq, List.countP_cons] at this
      omega
    · rw [State.modSlot_link]; dsimp only; rw [hl]; exact fun x hx => h3' x (List.mem_of_mem_drop hx)
    · obtain ⟨a, b, c, m, hm, hm1, hm2⟩ := h4 q n (by rw [← hn]; cases q <;> rfl)
      rw [hq] at hm
      rw [State.modSlot_link]; dsimp only; rw [hl]
      refine ⟨a, b, c, m, ?_, hm1, hm2⟩
      rcases List.mem_cons.1 hm with rfl | hm
      · simp [OutMessage.isFrom] at hm1
      · exact hm
    · rw [State.modSlot_link]; dsimp only; rw [hl]; intro m hm; exact h5 m (by rw [hq]; exact List.mem_cons_of_mem _ hm)
  | notice x =>
    have hself : OutMessage.isFrom x.source ⟨.notice x, b⟩ = true := by simp [OutMessage.isFrom]
    have hu := isFrom_unique h hq x.source hself
    have key : OutboundLaw (State.setHeld { s with link := l } x.source none) := by
      have hq' : (State.setHeld { s with link := l } x.source none).link.queue = rest := by cases x.source <;> exact hl
      have hs' : (State.setHeld { s with link := l } x.source none).slots = s.slots := by cases x.source <;> rfl
      refine ⟨fun j => ?_, fun q => ?_, ?_, fun q n hn => ?_, ?_⟩
      · have := h1 j
        unfold State.replyCount at this ⊢
        rw [hq', hs']
        rw [hq, List.countP_cons] at this
        simpa using this
      · have := h2 q
        unfold State.noticeCount at this ⊢
        rw [hq']
        rw [hq, List.countP_cons] at this
        omega
      · rw [hq']; exact fun x hx => h3' x (List.mem_of_mem_drop hx)
      · rw [State.setHeld_held] at hn
        split at hn
        · cases hn
        · next e =>
          obtain ⟨a, b', c, m, hm, hm1, hm2⟩ := h4 q n (by rw [← hn]; cases q <;> rfl)
          rw [hq'] 
          refine ⟨a, b', c, m, ?_, hm1, hm2⟩
          rw [hq] at hm
          rcases List.mem_cons.1 hm with rfl | hm
          · simp only [OutMessage.isFrom, decide_eq_true_eq] at hm1
            exfalso; subst hm1
            have : x.source = .reset := Decidable.byContradiction fun hne => e ⟨rfl, hne⟩
            rw [this] at hn; simp [State.held] at hn
          · exact hm
      · rw [hq']; intro m hm; exact h5 m (by rw [hq]; exact List.mem_cons_of_mem _ hm)
    unfold State.afterRemoval State.releaseHeld
    dsimp only
    have hheld : ({ s with link := l } : State).held x.source = s.held x.source := by cases x.source <;> rfl
    rw [hheld]
    cases hhx : s.held x.source with
    | none =>
      dsimp only
      have : ({ s with link := l } : State) = { s with link := l } := rfl
      refine key.of_same (by cases x.source <;> rfl) (fun k => by cases x.source <;> exact Iff.rfl) fun q => ?_
      rw [State.setHeld_held]
      split
      · next e => rw [e.1, hheld, hhx]
      · rfl
    | some n =>
      dsimp only
      obtain ⟨a, b', c, -⟩ := h4 _ _ hhx
      refine key.append_notice n ⟨b', c⟩ ?_
      have hq' : (State.setHeld { s with link := l } x.source none).link.queue = rest := by cases x.source <;> exact hl
      unfold State.noticeCount
      rw [hq', List.countP_eq_zero, a]
      intro y hy; simp [hu y hy]

end Sys2Proof.Machine
end

