-- ==== Sys2Proof/Laws/LegLaw.lean ====
section
/-! SUPPORT. What single operations do to the law of the legs. While a leg in progress is being ended its record has reached its slot
and its segment still holds it: `LegLawBut` excepts that segment from the law. -/

namespace Sys2Proof.Machine

/-! ### What the law looks at -/

/-- What the law of the legs sees of a leg. -/
def LegRecord.mark (l : LegRecord) : SlotId × Role × SegId × LegState := (l.slot, l.role, l.segment, l.state)

/-- Two states that the law of the legs cannot tell apart. -/
structure SameLegs (s t : State) : Prop where
  state : ∀ k : SlotId, t.slots[k].state = s.slots[k].state
  request : ∀ k : SlotId, t.slots[k].request = s.slots[k].request
  resolution : ∀ k : SlotId, t.slots[k].resolution = s.slots[k].resolution
  leg : ∀ (k : SlotId) (role : Role), (t.slots[k].leg role).map LegRecord.mark = (s.slots[k].leg role).map LegRecord.mark
  queue : ∀ n : SegId, t.segs[n].queue = s.segs[n].queue
  run : ∀ (n : SegId) (r : Run), t.segs[n].inProgress = some r → r.orphan = none →
    ∃ q : Run, s.segs[n].inProgress = some q ∧ q.orphan = none ∧ q.leg = r.leg
  owner : ∀ (n : SegId) (k : SlotId), t.segs[n].clear.bind ClearRecord.owner = some k → s.segs[n].clear.bind ClearRecord.owner = some k
  select : t.clock.selectOwner = s.clock.selectOwner

/-- The law of the legs, but for the leg in progress of an excepted segment. -/
def LegLawBut (e : Option SegId) (s : State) : Prop :=
  (∀ n : SegId, s.segs[n].queue.Nodup ∧ ∀ r ∈ s.segs[n].queue, s.LegIn r n .queued) ∧
  (∀ (n : SegId) (r : Run), some n ≠ e → s.segs[n].inProgress = some r → r.orphan = none → s.LegIn r.leg n .inProgress) ∧
  (∀ k : SlotId, s.slots[k].LegsLawful k) ∧
  (∀ (n : SegId) (k : SlotId), s.segs[n].clear.bind ClearRecord.owner = some k →
    s.slots[k].state = .working ∧ s.slots[k].request = some (.segReset n)) ∧
  (∀ k : SlotId, s.clock.selectOwner = some k →
    s.slots[k].state = .working ∧ ∃ t : Source, s.slots[k].request = some (.clockSelect t))

theorem legLawBut_none {s : State} : LegLawBut none s ↔ LegLaw s := by
  unfold LegLawBut LegLaw
  refine and_congr Iff.rfl (and_congr ?_ (and_congr Iff.rfl (and_congr ?_ Iff.rfl)))
  · exact ⟨fun h n r => h n r (by simp), fun h n r _ => h n r⟩
  · refine ⟨fun h n c k hc ho => h n k (by rw [hc]; exact ho), fun h n k hk => ?_⟩
    cases hc : s.segs[n].clear with
    | none => rw [hc] at hk; cases hk
    | some c => rw [hc] at hk; exact h n c k hc hk

theorem SameLegs.refl (s : State) : SameLegs s s :=
  ⟨fun _ => rfl, fun _ => rfl, fun _ => rfl, fun _ _ => rfl, fun _ => rfl, fun _ r h ho => ⟨r, h, ho, rfl⟩, fun _ _ h => h, rfl⟩

theorem mark_some {a b : Option LegRecord} (h : a.map LegRecord.mark = b.map LegRecord.mark) {l : LegRecord} (ha : a = some l) :
    ∃ l', b = some l' ∧ l'.slot = l.slot ∧ l'.role = l.role ∧ l'.segment = l.segment ∧ l'.state = l.state := by
  subst ha
  cases b with
  | none => cases h
  | some l' =>
    simp only [Option.map_some, Option.some.injEq, LegRecord.mark, Prod.mk.injEq] at h
    exact ⟨l', rfl, h.1.symm, h.2.1.symm, h.2.2.1.symm, h.2.2.2.symm⟩

theorem SameLegs.legIn {s t : State} (h : SameLegs s t) {r : LegRef} {n : SegId} {st : LegState} (hs : s.LegIn r n st) :
    t.LegIn r n st := by
  obtain ⟨h1, l, h2, h3, h4⟩ := hs
  obtain ⟨l', e1, e2, e3, e4, e5⟩ := mark_some (h.leg r.slot r.role).symm h2
  exact ⟨by rw [h.state]; exact h1, l', e1, e4.trans h3, e5.trans h4⟩

theorem Slot.LegsLawful.same {x y : Slot} {k : SlotId} (hs : y.state = x.state) (hq : y.request = x.request)
    (hr : y.resolution = x.resolution) (hl : ∀ role, (y.leg role).map LegRecord.mark = (x.leg role).map LegRecord.mark)
    (h : x.LegsLawful k) : y.LegsLawful k := by
  obtain ⟨h1, h2, h3, h4, h5⟩ := h
  have hn : ∀ role, x.leg role = none → y.leg role = none := by
    intro role e
    have := hl role
    rw [e] at this
    simpa using this
  refine ⟨fun role l h => ?_, fun p t hp ht => ?_, fun p res hp hres => ?_, fun hb => ?_, fun ha role l h => ?_⟩
  · obtain ⟨l', e1, e2, e3, -⟩ := mark_some (hl role) h
    have := h1 role l' e1
    exact ⟨e2.symm.trans this.1, e3.symm.trans this.2⟩
  · obtain ⟨p', e1, -, -, e2, -⟩ := mark_some (hl .primary) hp
    obtain ⟨t', f1, -, -, f2, -⟩ := mark_some (hl .twin) ht
    rw [← e2, ← f2]; exact h2 p' t' e1 f1
  · obtain ⟨p', e1, -, -, e2, -⟩ := mark_some (hl .primary) hp
    rw [← e2]; exact h3 p' res e1 (by rw [← hr]; exact hres)
  · obtain ⟨a, b, c⟩ := h4 (by rw [← hq]; exact hb)
    exact ⟨hn .primary a, hn .twin b, by rw [hr]; exact c⟩
  · obtain ⟨l', e1, -, -, -, e2⟩ := mark_some (hl role) h
    rw [← e2]; exact h5 (by rw [← hs]; exact ha) role l' e1

theorem LegLawBut.same {e : Option SegId} {s t : State} (hst : SameLegs s t) (h : LegLawBut e s) : LegLawBut e t := by
  obtain ⟨h1, h2, h3, h4, h5⟩ := h
  refine ⟨fun n => ?_, fun n r hn hr ho => ?_, fun k => ?_, fun n k hk => ?_, fun k hk => ?_⟩
  · rw [hst.queue]; exact ⟨(h1 n).1, fun r hr => hst.legIn ((h1 n).2 r hr)⟩
  · obtain ⟨q, e1, e2, e3⟩ := hst.run n r hr ho
    rw [← e3]; exact hst.legIn (h2 n q hn e1 e2)
  · exact (h3 k).same (hst.state k) (hst.request k) (hst.resolution k) (hst.leg k)
  · rw [hst.state, hst.request]; exact h4 n k (hst.owner n k hk)
  · rw [hst.state, hst.request]; exact h5 k (by rw [← hst.select]; exact hk)

/-! ### Operations beside the legs -/

/-- A change of a segment that leaves its queue, its leg in progress and its clear. -/
def KeepsLegs (f : Segment → Segment) : Prop :=
  ∀ g, (f g).queue = g.queue ∧ (f g).inProgress = g.inProgress ∧ (f g).clear = g.clear

/-- A state reached by operations that touch no leg. -/
structure Beside (s t : State) : Prop where
  slots : t.slots = s.slots
  segs : ∀ n : SegId, t.segs[n].queue = s.segs[n].queue ∧ t.segs[n].inProgress = s.segs[n].inProgress ∧
    t.segs[n].clear = s.segs[n].clear
  select : t.clock.selectOwner = s.clock.selectOwner

theorem Beside.refl (s : State) : Beside s s := ⟨rfl, fun _ => ⟨rfl, rfl, rfl⟩, rfl⟩

theorem Beside.trans {s t u : State} (h : Beside s t) (k : Beside t u) : Beside s u :=
  ⟨k.slots.trans h.slots,
    fun n => ⟨(k.segs n).1.trans (h.segs n).1, (k.segs n).2.1.trans (h.segs n).2.1, (k.segs n).2.2.trans (h.segs n).2.2⟩,
    k.select.trans h.select⟩

theorem Beside.of_eq {s t : State} (h1 : t.slots = s.slots) (h2 : t.segs = s.segs)
    (h3 : t.clock.selectOwner = s.clock.selectOwner) : Beside s t :=
  ⟨h1, fun n => by rw [h2]; exact ⟨rfl, rfl, rfl⟩, h3⟩

theorem Beside.modSeg (s : State) (n : SegId) (f : Segment → Segment) (hf : KeepsLegs f) : Beside s (s.modSeg n f) := by
  refine ⟨rfl, fun m => ?_, rfl⟩
  rw [State.modSeg_get]
  split
  · next e => subst e; exact hf _
  · exact ⟨rfl, rfl, rfl⟩

theorem Beside.setHeld (s : State) (src : NoticeSource) (o : Option Notice) : Beside s (s.setHeld src o) := by
  cases src
  · exact Beside.of_eq rfl rfl rfl
  · exact Beside.modSeg _ _ (fun g => { g with heldAlert := o }) fun _ => ⟨rfl, rfl, rfl⟩
  · exact Beside.of_eq rfl rfl rfl
  · exact Beside.refl _

theorem Beside.raise (s : State) (x : Notice) : Beside s (s.raise x) := by
  unfold State.raise
  (repeat' split)
  · exact Beside.setHeld _ _ _
  · exact Beside.of_eq rfl rfl rfl
  · exact Beside.setHeld _ _ _
  · exact Beside.of_eq rfl rfl rfl

theorem Beside.releaseHeld (s : State) (src : NoticeSource) : Beside s (s.releaseHeld src) := by
  unfold State.releaseHeld
  split
  · exact Beside.refl _
  · exact (Beside.setHeld _ _ _).trans (Beside.of_eq rfl rfl rfl)

theorem Beside.watchUnit (s : State) (r : RecordCopy) (u : UnitId) (a : Bool) : Beside s (State.watchUnit r u a s) := by
  unfold State.watchUnit
  split
  · split
    · exact Beside.of_eq rfl rfl rfl
    · unfold State.fire
      dsimp only
      refine Beside.trans (t := State.armSuccessor
        ((s.modUnit u fun w => { w with evtTimer := some Config.evtMicroseconds }).offer
          ((s.modUnit u fun w => { w with evtTimer := some Config.evtMicroseconds }).fireMarker u r)) u) ?_ ?_
      · unfold State.armSuccessor
        split <;> exact Beside.of_eq rfl rfl rfl
      · unfold State.watchAction
        split
        · exact Beside.of_eq rfl rfl rfl
        · exact (Beside.raise _ _).trans (Beside.of_eq rfl rfl rfl)
        · exact (Beside.raise _ _).trans (Beside.of_eq rfl rfl rfl)
        · exact (Beside.raise _ _).trans ((Beside.modSeg _ _ (fun g => { g with hold := true }) fun _ => ⟨rfl, rfl, rfl⟩).trans
            (Beside.of_eq rfl rfl rfl))
        · exact Beside.refl _
  · exact Beside.refl _

theorem Beside.watchRecord (s : State) (r : RecordCopy) : Beside s (s.watchRecord r) :=
  (((Beside.watchUnit _ _ _ _).trans (Beside.watchUnit _ _ _ _)).trans (Beside.watchUnit _ _ _ _)).trans (Beside.watchUnit _ _ _ _)

theorem Beside.sameLegs {s t : State} (h : Beside s t) : SameLegs s t :=
  ⟨fun k => by rw [h.slots], fun k => by rw [h.slots], fun k => by rw [h.slots], fun k role => by rw [h.slots],
    fun n => (h.segs n).1, fun n r hr ho => ⟨r, by rw [← (h.segs n).2.1]; exact hr, ho, rfl⟩,
    fun n k hk => by rw [← (h.segs n).2.2]; exact hk, h.select⟩

theorem LegLawBut.beside {e : Option SegId} {s t : State} (hst : Beside s t) (h : LegLawBut e s) : LegLawBut e t :=
  h.same hst.sameLegs

/-- A leg record changes in nothing that the law sees. -/
theorem SameLegs.modLeg (s : State) (r : LegRef) (f : LegRecord → LegRecord) (hf : ∀ l, (f l).mark = l.mark) :
    SameLegs s (s.modLeg r f) := by
  refine ⟨fun k => ?_, fun k => ?_, fun k => ?_, fun k role => ?_, fun _ => rfl, fun _ q h ho => ⟨q, h, ho, rfl⟩, fun _ _ h => h, rfl⟩
  · rw [State.modLeg_get]; split <;> simp
  · rw [State.modLeg_get]; split <;> simp
  · rw [State.modLeg_get]; split <;> simp
  · rw [State.modLeg_get]
    split
    · rw [Slot.modLeg_leg]
      split
      · next e =>
        subst e
        rw [Option.map_map, show LegRecord.mark ∘ f = LegRecord.mark from funext hf]
      · rfl
    · rfl

/-! ### Legs that move -/

/-- A leg stands in no queue and is no leg in progress, that of an excepted segment aside. -/
def Unplaced (e : Option SegId) (s : State) (r : LegRef) : Prop :=
  (∀ n : SegId, r ∉ s.segs[n].queue) ∧
  (∀ (n : SegId) (q : Run), some n ≠ e → s.segs[n].inProgress = some q → q.orphan = none → q.leg ≠ r)

/-- A leg that is not there is unplaced. -/
theorem LegLawBut.unplaced_of_none {e : Option SegId} {s : State} (h : LegLawBut e s) {r : LegRef} (hr : s.legAt r = none) :
    Unplaced e s r := by
  refine ⟨fun n hm => ?_, fun n q hn hq ho he => ?_⟩
  · obtain ⟨-, l, hl, -⟩ := (h.1 n).2 r hm
    rw [hr] at hl; cases hl
  · obtain ⟨-, l, hl, -⟩ := h.2.1 n q hn hq ho
    rw [he, hr] at hl; cases hl

/-- A leg that is DONE is unplaced. -/
theorem LegLawBut.unplaced_of_done {e : Option SegId} {s : State} (h : LegLawBut e s) {r : LegRef} {l : LegRecord}
    (hr : s.legAt r = some l) (hd : l.state = .done) : Unplaced e s r := by
  refine ⟨fun n hm => ?_, fun n q hn hq ho he => ?_⟩
  · obtain ⟨-, l', hl, -, hs⟩ := (h.1 n).2 r hm
    rw [hr] at hl; cases hl; rw [hd] at hs; cases hs
  · obtain ⟨-, l', hl, -, hs⟩ := h.2.1 n q hn hq ho
    rw [he, hr] at hl; cases hl; rw [hd] at hs; cases hs

theorem State.legAt_modLeg (s : State) (r q : LegRef) (f : LegRecord → LegRecord) :
    (s.modLeg r f).legAt q = if q = r then (s.legAt r).map f else s.legAt q := by
  unfold State.legAt
  rw [State.modLeg_get]
  obtain ⟨k, a⟩ := r
  obtain ⟨j, b⟩ := q
  simp only [LegRef.mk.injEq]
  by_cases e : j = k
  · subst e; rw [if_pos rfl, Slot.modLeg_leg]; simp
  · simp [e]

theorem State.LegIn.of_modLeg {s : State} {r q : LegRef} {f : LegRecord → LegRecord} {n : SegId} {st : LegState} (hne : q ≠ r)
    (h : s.LegIn q n st) : (s.modLeg r f).LegIn q n st := by
  obtain ⟨h1, l, h2, h3⟩ := h
  refine ⟨?_, l, by rw [State.legAt_modLeg, if_neg hne]; exact h2, h3⟩
  rw [State.modLeg_get]; split
  · rw [Slot.modLeg_state]; exact h1
  · exact h1

theorem Slot.LegsLawful.modLeg {x : Slot} {k : SlotId} (role : Role) (f : LegRecord → LegRecord)
    (hf : ∀ l, (f l).slot = l.slot ∧ (f l).role = l.role ∧ (f l).segment = l.segment)
    (hd : x.state = .answered → ∀ l, x.leg role = some l → (f l).state = .done) (h : x.LegsLawful k) :
    (x.modLeg role f).LegsLawful k := by
  obtain ⟨h1, h2, h3, h4, h5⟩ := h
  have key : ∀ a l, (x.modLeg role f).leg a = some l →
      ∃ l', x.leg a = some l' ∧ l.slot = l'.slot ∧ l.role = l'.role ∧ l.segment = l'.segment ∧ (a = role ∧ l = f l' ∨ l = l') := by
    intro a l hl
    rw [Slot.modLeg_leg] at hl
    split at hl
    · next e =>
      subst e
      cases hx : x.leg a with
      | none => rw [hx] at hl; cases hl
      | some l' => rw [hx] at hl; cases hl; exact ⟨l', rfl, (hf l').1, (hf l').2.1, (hf l').2.2, .inl ⟨rfl, rfl⟩⟩
    · exact ⟨l, hl, rfl, rfl, rfl, .inr rfl⟩
  refine ⟨fun a l hl => ?_, fun p t hp ht => ?_, fun p res hp hres => ?_, fun hb => ?_, fun ha a l hl => ?_⟩
  · obtain ⟨l', e1, e2, e3, -⟩ := key a l hl
    rw [e2, e3]; exact h1 a l' e1
  · obtain ⟨p', e1, -, -, e2, -⟩ := key .primary p hp
    obtain ⟨t', f1, -, -, f2, -⟩ := key .twin t ht
    rw [e2, f2]; exact h2 p' t' e1 f1
  · obtain ⟨p', e1, -, -, e2, -⟩ := key .primary p hp
    rw [e2]; exact h3 p' res e1 (by rw [← Slot.modLeg_resolution x role f]; exact hres)
  · obtain ⟨a, b, c⟩ := h4 (by rw [← Slot.modLeg_request x role f]; exact hb)
    refine ⟨?_, ?_, by rw [Slot.modLeg_resolution]; exact c⟩
    · cases role <;> simp [Slot.modLeg, a]
    · cases role <;> simp [Slot.modLeg, b]
  · have ha' : x.state = .answered := by rw [← Slot.modLeg_state x role f]; exact ha
    obtain ⟨l', e1, -, -, -, e2⟩ := key a l hl
    rcases e2 with ⟨rfl, rfl⟩ | rfl
    · exact hd ha' l' e1
    · exact h5 ha' a _ e1

/-- An unplaced leg may change its state: to DONE wherever it is, to any other in a slot that is not ANSWERED. -/
theorem LegLawBut.moveUnplaced {e : Option SegId} {s : State} {r : LegRef} (f : LegRecord → LegRecord)
    (hf : ∀ l, (f l).slot = l.slot ∧ (f l).role = l.role ∧ (f l).segment = l.segment) (hu : Unplaced e s r)
    (hd : s.slots[r.slot].state = .answered → ∀ l, s.legAt r = some l → (f l).state = .done) (h : LegLawBut e s) :
    LegLawBut e (s.modLeg r f) := by
  obtain ⟨h1, h2, h3, h4, h5⟩ := h
  have hstate : ∀ k : SlotId, (s.modLeg r f).slots[k].state = s.slots[k].state := by
    intro k; rw [State.modLeg_get]; split <;> simp
  have hreq : ∀ k : SlotId, (s.modLeg r f).slots[k].request = s.slots[k].request := by
    intro k; rw [State.modLeg_get]; split <;> simp
  refine ⟨fun n => ⟨(h1 n).1, fun q hq => ((h1 n).2 q hq).of_modLeg ?_⟩, fun n q hn hq ho => (h2 n q hn hq ho).of_modLeg (hu.2 n q hn hq ho),
    fun k => ?_, fun n k hk => ?_, fun k hk => ?_⟩
  · rintro rfl; exact hu.1 n hq
  · rw [State.modLeg_get]
    split
    · next e => subst e; exact (h3 r.slot).modLeg _ _ hf (fun ha l hl => hd ha l hl)
    · exact h3 k
  · rw [hstate, hreq]; exact h4 n k hk
  · rw [hstate, hreq]; exact h5 k hk

theorem Unplaced.of_segs {e : Option SegId} {s t : State} {r : LegRef} (h : Unplaced e s r)
    (hq : ∀ n : SegId, r ∈ t.segs[n].queue → r ∈ s.segs[n].queue)
    (hr : ∀ (n : SegId) (q : Run), t.segs[n].inProgress = some q → q.orphan = none → q.leg = r → s.segs[n].inProgress = some q) :
    Unplaced e t r :=
  ⟨fun n hm => h.1 n (hq n hm), fun n q hn hs ho he => h.2 n q hn (hr n q hs ho he) ho he⟩

/-- A leg that has not reached the wire ends. -/
theorem LegLawBut.failLeg {e : Option SegId} {s : State} {r : LegRef} (o : LegOutcome) (hu : Unplaced e s r) (h : LegLawBut e s) :
    LegLawBut e (s.failLeg r o).1 := by
  unfold State.failLeg
  split
  · exact h
  · exact h.moveUnplaced _ (fun _ => ⟨rfl, rfl, rfl⟩) hu (fun _ _ _ => rfl)

theorem LegLawBut.failLegs {e : Option SegId} (o : LegOutcome) (rs : List LegRef) :
    ∀ {s : State}, (∀ r ∈ rs, Unplaced e s r) → LegLawBut e s → LegLawBut e (State.failLegs o rs s).1 := by
  induction rs with
  | nil => intro s _ h; exact h
  | cons r rs ih =>
    intro s hu h
    refine ih (fun q hq => ?_) (h.failLeg o (hu r (List.mem_cons_self ..)))
    have := hu q (List.mem_cons_of_mem _ hq)
    unfold Unplaced at this ⊢
    rw [State.failLeg_segs]; exact this

/-- A segment changes, its queue shrinking to a sublist. -/
theorem LegLawBut.modSeg {e : Option SegId} {s : State} (n : SegId) (f : Segment → Segment)
    (hq : (f s.segs[n]).queue.Sublist s.segs[n].queue)
    (hr : ∀ r, (f s.segs[n]).inProgress = some r → r.orphan = none → some n ≠ e → s.LegIn r.leg n .inProgress)
    (hc : ∀ k, (f s.segs[n]).clear.bind ClearRecord.owner = some k → s.slots[k].state = .working ∧ s.slots[k].request = some (.segReset n))
    (h : LegLawBut e s) : LegLawBut e (s.modSeg n f) := by
  obtain ⟨h1, h2, h3, h4, h5⟩ := h
  have hin : ∀ {r m st}, s.LegIn r m st → (s.modSeg n f).LegIn r m st := fun h => h
  refine ⟨fun m => ?_, fun m r hm hr' ho => ?_, h3, fun m k hk => ?_, h5⟩
  · rw [State.modSeg_get]
    split
    · next e => subst e; exact ⟨hq.nodup (h1 m).1, fun r hr => hin ((h1 m).2 r (hq.subset hr))⟩
    · exact h1 m
  · rw [State.modSeg_get] at hr'
    split at hr'
    · next e => subst e; exact hin (hr r hr' ho hm)
    · exact hin (h2 m r hm hr' ho)
  · rw [State.modSeg_get] at hk
    split at hk
    · next e => subst e; exact hc k hk
    · exact h4 m k hk

/-- A segment changes in its queue alone. -/
theorem LegLawBut.dequeue {e : Option SegId} {s : State} (n : SegId) (f : Segment → Segment)
    (hq : (f s.segs[n]).queue.Sublist s.segs[n].queue) (hr : (f s.segs[n]).inProgress = s.segs[n].inProgress)
    (hc : (f s.segs[n]).clear = s.segs[n].clear) (h : LegLawBut e s) : LegLawBut e (s.modSeg n f) :=
  h.modSeg n f hq (fun r hx ho hn => h.2.1 n r hn (by rw [← hr]; exact hx) ho) (fun k hk => h.2.2.2.1 n k (by rw [← hc]; exact hk))

theorem Unplaced.modSeg {e : Option SegId} {s : State} {r : LegRef} (n : SegId) (f : Segment → Segment) (h : Unplaced e s r)
    (hq : r ∈ (f s.segs[n]).queue → r ∈ s.segs[n].queue)
    (hr : ∀ q, (f s.segs[n]).inProgress = some q → q.orphan = none → q.leg = r → s.segs[n].inProgress = some q) :
    Unplaced e (s.modSeg n f) r := by
  refine h.of_segs (fun m hm => ?_) (fun m q hx ho he => ?_)
  · rw [State.modSeg_get] at hm
    split at hm
    · next e => subst e; exact hq hm
    · exact hm
  · rw [State.modSeg_get] at hx
    split at hx
    · next e => subst e; exact hr q hx ho he
    · exact hx

/-- A leg taken out of its queue stands nowhere. -/
theorem LegLawBut.unplaced_of_removed {e : Option SegId} {s : State} {r : LegRef} (n : SegId) (f : Segment → Segment)
    (h : LegLawBut e s) (hr : r ∈ s.segs[n].queue) (hq : r ∉ (f s.segs[n]).queue)
    (hp : ∀ q, (f s.segs[n]).inProgress = some q → q.orphan = none → q.leg = r → s.segs[n].inProgress = some q) :
    Unplaced e (s.modSeg n f) r := by
  obtain ⟨-, l, hl, hn, hs⟩ := (h.1 n).2 r hr
  refine ⟨fun m hm => ?_, fun m q hm hx ho he => ?_⟩
  · rw [State.modSeg_get] at hm
    split at hm
    · exact hq hm
    · next hne =>
      obtain ⟨-, l', hl', hn', -⟩ := (h.1 m).2 r hm
      rw [hl] at hl'; cases hl'
      exact hne (hn'.symm.trans hn)
  · have hx' : s.segs[m].inProgress = some q := by
      rw [State.modSeg_get] at hx
      split at hx
      · next e => subst e; exact hp q hx ho he
      · exact hx
    obtain ⟨-, l', hl', -, hs'⟩ := h.2.1 m q hm hx' ho
    rw [he, hl] at hl'; cases hl'
    rw [hs] at hs'; cases hs'

/-- Queued legs fail. -/
theorem LegLawBut.failQueue {e : Option SegId} {s : State} (n : SegId) (o : LegOutcome) (h : LegLawBut e s) :
    LegLawBut e (s.failQueue n o).1 := by
  unfold State.failQueue
  refine LegLawBut.failLegs o _ (fun r hr => ?_) (h.dequeue n _ (List.nil_sublist _) rfl rfl)
  exact h.unplaced_of_removed n (fun g => { g with queue := [] }) hr (by simp) (fun q hq _ _ => hq)

theorem Segment.rest_owner (g : Segment) (st : SegState) (k : SlotId)
    (h : (g.rest st).clear.bind ClearRecord.owner = some k) : g.clear.bind ClearRecord.owner = some k := by
  unfold Segment.rest Segment.goto at h
  simp only at h
  split at h
  · exact h
  · cases h

theorem LegLawBut.rest {e : Option SegId} {s : State} (n : SegId) (st : SegState) (h : LegLawBut e s) :
    LegLawBut e (s.modSeg n fun g => g.rest st) :=
  h.modSeg n _ (List.Sublist.refl _) (fun r hx ho hn => h.2.1 n r hn hx ho)
    (fun k hk => h.2.2.2.1 n k (Segment.rest_owner _ _ _ hk))

theorem LegLawBut.applyPending {e : Option SegId} {s : State} (n : SegId) (h : LegLawBut e s) :
    LegLawBut e (s.modSeg n Segment.applyPending) :=
  h.beside (Beside.modSeg _ _ _ fun g => by unfold Segment.applyPending; split <;> exact ⟨rfl, rfl, rfl⟩)

theorem LegLawBut.switchOff {e : Option SegId} {s : State} (n : SegId) (h : LegLawBut e s) : LegLawBut e (s.switchOff n).1 :=
  (h.rest n .off).failQueue n .segmentOff

theorem LegLawBut.beginClear {e : Option SegId} {s : State} (n : SegId) (p : ClearPurpose) (o : Option SlotId)
    (ho : ∀ k, o = some k → s.slots[k].state = .working ∧ s.slots[k].request = some (.segReset n)) (h : LegLawBut e s) :
    LegLawBut e (s.beginClear n p o) :=
  h.modSeg n _ (List.Sublist.refl _) (fun r hx hq hn => h.2.1 n r hn hx hq) (fun k hk => ho k hk)

/-- The head leg starts. -/
theorem LegLawBut.beginRun {e : Option SegId} {s : State} (n : SegId) (h : LegLawBut e s) : LegLawBut e (s.beginRun n) := by
  unfold State.beginRun
  split
  · exact h
  · next r rest hq =>
    have hr : r ∈ s.segs[n].queue := by rw [hq]; exact List.mem_cons_self ..
    obtain ⟨hw, l, hl, hn, hs⟩ := (h.1 n).2 r hr
    have hnd := (h.1 n).1
    rw [hq] at hnd
    have h1 : LegLawBut e (s.modSeg n fun g => { g with queue := rest }) :=
      h.dequeue n _ (by rw [hq]; exact List.sublist_cons_self ..) rfl rfl
    have hu := h.unplaced_of_removed n (fun g => { g with queue := rest }) hr (List.nodup_cons.1 hnd).1 (fun q hq _ _ => hq)
    have h2 := h1.moveUnplaced (r := r) (fun l => { l with state := .inProgress }) (fun _ => ⟨rfl, rfl, rfl⟩) hu
      (fun ha => by rw [show (s.modSeg n fun g => { g with queue := rest }).slots[r.slot].state = .working from hw] at ha; cases ha)
    have hin : (State.modLeg (s.modSeg n fun g => { g with queue := rest }) r fun l => { l with state := .inProgress }).LegIn r n
        .inProgress := by
      refine ⟨?_, { l with state := .inProgress }, ?_, hn, rfl⟩
      · rw [State.modLeg_get, if_pos rfl, Slot.modLeg_state]; exact hw
      · rw [State.legAt_modLeg, if_pos rfl]
        show (s.legAt r).map _ = _
        rw [hl]; rfl
    have h3 := h2.modSeg n (fun g => { g with inProgress := some (g.openRun r), drive := { sclLow := false, sdaLow := true }, trace := [.start] })
      (List.Sublist.refl _) (fun q hx _ _ => by cases hx; exact hin) (fun k hk => h2.2.2.2.1 n k hk)
    have : (s.modLeg r fun l => { l with state := .inProgress }).modSeg n (fun g =>
        { g with queue := rest, inProgress := some (g.openRun r), drive := { sclLow := false, sdaLow := true }, trace := [.start] }) =
        (State.modLeg (s.modSeg n fun g => { g with queue := rest }) r fun l => { l with state := .inProgress }).modSeg n fun g =>
          { g with inProgress := some (g.openRun r), drive := { sclLow := false, sdaLow := true }, trace := [.start] } := by
      simp [State.modLeg, State.modSeg, State.modSlot, Segment.openRun]
    rw [this]; exact h3

theorem LegLawBut.startLeg {e : Option SegId} {s : State} (n : SegId) (h : LegLawBut e s) : LegLawBut e (s.startLeg n) := by
  unfold State.startLeg
  dsimp only
  split
  · exact (h.rest n .active).beginRun n
  · exact (h.rest n .active).beginClear n _ _ (fun k hk => by cases hk)
  · exact h.rest n .active

theorem LegLawBut.startDecision {e : Option SegId} {s : State} (n : SegId) (h : LegLawBut e s) :
    LegLawBut e (s.startDecision n).1 := by
  unfold State.startDecision
  split
  · dsimp only
    split
    · exact (h.applyPending n).startLeg n
    · exact (h.applyPending n).switchOff n
  · exact h

theorem LegLawBut.legDecision {e : Option SegId} {s : State} (n : SegId) (h : LegLawBut e s) : LegLawBut e (s.legDecision n).1 := by
  unfold State.legDecision
  dsimp only
  split
  · split
    · exact (h.applyPending n).startLeg n
    · exact (h.applyPending n).rest n .idle
  · exact (h.applyPending n).switchOff n

/-- A QUEUED leg of a WORKING slot joins the queue of its segment. -/
theorem LegLawBut.enqueue {e : Option SegId} {s : State} {r : LegRef} {n : SegId} (hin : s.LegIn r n .queued) (hu : Unplaced e s r)
    (h : LegLawBut e s) : LegLawBut e (s.modSeg n fun g => { g with queue := g.queue ++ [r] }) := by
  obtain ⟨h1, h2, h3, h4, h5⟩ := h
  refine ⟨fun m => ?_, fun m q hm hq ho => ?_, h3, fun m k hk => ?_, h5⟩
  · rw [State.modSeg_get]
    split
    · next e =>
      subst e
      refine ⟨List.nodup_append.2 ⟨(h1 m).1, by simp, ?_⟩, fun q hq => ?_⟩
      · intro a ha b hb
        simp only [List.mem_singleton] at hb
        rintro rfl
        subst hb
        exact hu.1 m ha
      · rcases List.mem_append.1 hq with hq | hq
        · exact (h1 m).2 q hq
        · simp only [List.mem_singleton] at hq; subst hq; exact hin
    · exact h1 m
  · rw [State.modSeg_get] at hq
    split at hq
    · next e => subst e; exact h2 m q hm hq ho
    · exact h2 m q hm hq ho
  · rw [State.modSeg_get] at hk
    split at hk
    · next e => subst e; exact h4 m k hk
    · exact h4 m k hk

/-- A built leg is placed. -/
theorem LegLawBut.placeLeg {e : Option SegId} {s : State} {r : LegRef}
    (hr : ∀ l, s.legAt r = some l → s.slots[r.slot].state = .working ∧ l.state = .queued) (hu : Unplaced e s r)
    (h : LegLawBut e s) : LegLawBut e (s.placeLeg r).1 := by
  unfold State.placeLeg
  split
  · exact h
  · next l hl =>
    have happ : LegLawBut e (s.appendLeg r l.segment).1 :=
      (h.enqueue ⟨(hr l hl).1, l, hl, rfl, (hr l hl).2⟩ hu).startDecision l.segment
    split
    · exact h.failLeg _ hu
    · exact h.failLeg _ hu
    all_goals exact happ

end Sys2Proof.Machine
end

