-- ==== Sys2Proof/Laws/LegSteps.lean ====
section
/-! SUPPORT. What building, delivering, cancelling and answering do to the law of the legs. -/

namespace Sys2Proof.Machine

/-! ### What an operation on other legs leaves to a leg -/

/-- A leg that stands nowhere, and that an operation leaves so, with its record and the states of the slots. -/
structure Aside (e : Option SegId) (s t : State) (r : LegRef) : Prop where
  unplaced : Unplaced e s r → Unplaced e t r
  leg : t.legAt r = s.legAt r
  state : ∀ k : SlotId, t.slots[k].state = s.slots[k].state

theorem Aside.refl (e : Option SegId) (s : State) (r : LegRef) : Aside e s s r := ⟨id, rfl, fun _ => rfl⟩

theorem Aside.trans {e : Option SegId} {s t u : State} {r : LegRef} (h : Aside e s t r) (k : Aside e t u r) : Aside e s u r :=
  ⟨fun x => k.unplaced (h.unplaced x), k.leg.trans h.leg, fun j => (k.state j).trans (h.state j)⟩

theorem Aside.modSeg {e : Option SegId} (s : State) (n : SegId) (f : Segment → Segment) {r : LegRef}
    (hq : r ∈ (f s.segs[n]).queue → r ∈ s.segs[n].queue)
    (hr : ∀ q, (f s.segs[n]).inProgress = some q → q.orphan = none → q.leg = r → s.segs[n].inProgress = some q) :
    Aside e s (s.modSeg n f) r :=
  ⟨fun h => h.modSeg n f hq hr, rfl, fun _ => rfl⟩

theorem Aside.modLeg {e : Option SegId} (s : State) {q r : LegRef} (f : LegRecord → LegRecord) (hne : r ≠ q) :
    Aside e s (s.modLeg q f) r :=
  ⟨id, by rw [State.legAt_modLeg, if_neg hne], fun k => by rw [State.modLeg_get]; split <;> simp⟩

theorem Aside.failLeg {e : Option SegId} (s : State) {q r : LegRef} (o : LegOutcome) (hne : r ≠ q) :
    Aside e s (s.failLeg q o).1 r := by
  unfold State.failLeg
  split
  · exact Aside.refl _ _ _
  · exact Aside.modLeg _ _ hne

theorem Aside.failLegs {e : Option SegId} {r : LegRef} (o : LegOutcome) (rs : List LegRef) :
    ∀ s : State, r ∉ rs → Aside e s (State.failLegs o rs s).1 r := by
  induction rs with
  | nil => intro s _; exact Aside.refl _ _ _
  | cons q rs ih =>
    intro s h
    simp only [List.mem_cons, not_or] at h
    exact (Aside.failLeg s o h.1).trans (ih _ h.2)

theorem Aside.failQueue {e : Option SegId} (s : State) (n : SegId) (o : LegOutcome) {r : LegRef} (h : r ∉ s.segs[n].queue) :
    Aside e s (s.failQueue n o).1 r :=
  (Aside.modSeg s n (fun g => { g with queue := [] }) (by simp) (fun q hq _ _ => hq)).trans (Aside.failLegs o _ _ h)

theorem Aside.beginRun {e : Option SegId} (s : State) (n : SegId) {r : LegRef} (h : r ∉ s.segs[n].queue) :
    Aside e s (s.beginRun n) r := by
  unfold State.beginRun
  split
  · exact Aside.refl _ _ _
  · next q rest hq =>
    rw [hq] at h
    simp only [List.mem_cons, not_or] at h
    refine (Aside.modLeg s _ h.1).trans (Aside.modSeg _ n _ (fun hm => absurd hm h.2) (fun x hx _ hr => ?_))
    cases hx
    exact absurd hr.symm h.1

theorem Aside.rest {e : Option SegId} (s : State) (n : SegId) (st : SegState) (r : LegRef) :
    Aside e s (s.modSeg n fun g => g.rest st) r := Aside.modSeg _ _ _ id fun _ h _ _ => h

theorem Aside.startLeg {e : Option SegId} (s : State) (n : SegId) {r : LegRef} (h : r ∉ s.segs[n].queue) :
    Aside e s (s.startLeg n) r := by
  have hq : r ∉ (s.modSeg n fun g => g.rest .active).segs[n].queue := by rw [State.modSeg_get, if_pos rfl]; exact h
  unfold State.startLeg
  dsimp only
  split
  · exact (Aside.rest _ _ _ _).trans (Aside.beginRun _ _ hq)
  · exact (Aside.rest _ _ _ _).trans (Aside.modSeg _ _ _ id fun _ h _ _ => h)
  · exact Aside.rest _ _ _ _

theorem Aside.startDecision {e : Option SegId} (s : State) (n : SegId) {r : LegRef} (h : r ∉ s.segs[n].queue) :
    Aside e s (s.startDecision n).1 r := by
  have ha : ∀ g : Segment, g.applyPending.queue = g.queue ∧ g.applyPending.inProgress = g.inProgress := by
    intro g; unfold Segment.applyPending; split <;> exact ⟨rfl, rfl⟩
  have hp : Aside e s (s.modSeg n Segment.applyPending) r :=
    Aside.modSeg _ _ _ (by rw [(ha _).1]; exact id) (fun q hq _ _ => by rw [← (ha _).2]; exact hq)
  have hq : r ∉ (s.modSeg n Segment.applyPending).segs[n].queue := by rw [State.modSeg_get, if_pos rfl, (ha _).1]; exact h
  unfold State.startDecision
  split
  · dsimp only
    split
    · exact hp.trans (Aside.startLeg _ _ hq)
    · refine hp.trans ((Aside.rest _ n .off _).trans (Aside.failQueue _ n _ ?_))
      rw [State.modSeg_get, if_pos rfl]; exact hq
  · exact Aside.refl _ _ _

theorem Aside.placeLeg {e : Option SegId} (s : State) {q r : LegRef} (hne : r ≠ q) (hu : Unplaced e s r) :
    Aside e s (s.placeLeg q).1 r := by
  unfold State.placeLeg
  split
  · exact Aside.refl _ _ _
  · next l _ =>
    have happ : Aside e s (s.appendLeg q l.segment).1 r := by
      unfold State.appendLeg
      have h1 : Aside e s (s.modSeg l.segment fun g => { g with queue := g.queue ++ [q] }) r :=
        Aside.modSeg _ _ _ (fun hm => by
          rcases List.mem_append.1 hm with hm | hm
          · exact hm
          · simp only [List.mem_singleton] at hm; exact absurd hm hne) fun _ h _ _ => h
      exact h1.trans (Aside.startDecision _ _ ((h1.unplaced hu).1 _))
    split
    · exact Aside.failLeg _ _ hne
    · exact Aside.failLeg _ _ hne
    all_goals exact happ

/-! ### Slots -/

/-- A slot record changes, its legs standing. -/
theorem LegLawBut.modSlot {e : Option SegId} {s : State} (k : SlotId) (f : Slot → Slot)
    (hs : (f s.slots[k]).state = s.slots[k].state) (hq : (f s.slots[k]).request = s.slots[k].request)
    (hl : ∀ role l, s.slots[k].leg role = some l → (f s.slots[k]).leg role = some l) (hx : (f s.slots[k]).LegsLawful k)
    (h : LegLawBut e s) : LegLawBut e (s.modSlot k f) := by
  obtain ⟨h1, h2, h3, h4, h5⟩ := h
  have hstate : ∀ j : SlotId, (s.modSlot k f).slots[j].state = s.slots[j].state := by
    intro j; rw [State.modSlot_get]; split
    · next e => subst e; exact hs
    · rfl
  have hreq : ∀ j : SlotId, (s.modSlot k f).slots[j].request = s.slots[j].request := by
    intro j; rw [State.modSlot_get]; split
    · next e => subst e; exact hq
    · rfl
  have hin : ∀ {r n st}, s.LegIn r n st → (s.modSlot k f).LegIn r n st := by
    rintro r n st ⟨a, l, b, c⟩
    refine ⟨by rw [hstate]; exact a, l, ?_, c⟩
    unfold State.legAt at b ⊢
    rw [State.modSlot_get]; split
    · next e => subst e; exact hl _ _ b
    · exact b
  refine ⟨fun n => ⟨(h1 n).1, fun r hr => hin ((h1 n).2 r hr)⟩, fun n r hn hr ho => hin (h2 n r hn hr ho), fun j => ?_,
    fun n j hj => ?_, fun j hj => ?_⟩
  · rw [State.modSlot_get]; split
    · next e => subst e; exact hx
    · exact h3 j
  · rw [hstate, hreq]; exact h4 n j hj
  · rw [hstate, hreq]; exact h5 j hj

/-- A slot record changes in nothing that the law looks at. -/
theorem SameLegs.modSlot (s : State) (k : SlotId) (f : Slot → Slot)
    (hf : ∀ x, (f x).state = x.state ∧ (f x).request = x.request ∧ (f x).resolution = x.resolution ∧ (f x).primary = x.primary ∧
      (f x).twin = x.twin) : SameLegs s (s.modSlot k f) := by
  have hg : ∀ j : SlotId, (s.modSlot k f).slots[j] = f s.slots[j] ∨ (s.modSlot k f).slots[j] = s.slots[j] := by
    intro j; rw [State.modSlot_get]; split
    · next e => subst e; exact .inl rfl
    · exact .inr rfl
  refine ⟨fun j => ?_, fun j => ?_, fun j => ?_, fun j role => ?_, fun _ => rfl, fun _ r h ho => ⟨r, h, ho, rfl⟩, fun _ _ h => h, rfl⟩
  · rcases hg j with e | e <;> rw [e]; exact (hf _).1
  · rcases hg j with e | e <;> rw [e]; exact (hf _).2.1
  · rcases hg j with e | e <;> rw [e]; exact (hf _).2.2.1
  · rcases hg j with e | e <;> rw [e]
    cases role
    · exact congrArg _ (hf _).2.2.2.1
    · exact congrArg _ (hf _).2.2.2.2

/-- A slot whose legs are DONE, and that owns neither a bus clear nor a change of source, is answered. -/
theorem LegLawBut.answer {e : Option SegId} {s : State} (k : SlotId) (res : ResultCode) (fields : List Byte)
    (hd : ∀ role l, s.slots[k].leg role = some l → l.state = .done)
    (ho : ∀ n : SegId, s.segs[n].clear.bind ClearRecord.owner ≠ some k) (hc : s.clock.selectOwner ≠ some k) (h : LegLawBut e s) :
    LegLawBut e (s.answer k res fields) := by
  obtain ⟨h1, h2, h3, h4, h5⟩ := h
  by_cases hw : s.slots[k].state = .working
  · have hne : ∀ {r n st}, s.LegIn r n st → st ≠ .done → r.slot ≠ k := by
      rintro r n st ⟨-, l, a, -, b⟩ hst rfl
      exact hst (b ▸ hd r.role l a)
    have hget : ∀ j : SlotId, j ≠ k → (s.answer k res fields).slots[j] = s.slots[j] := by
      intro j hj; rw [State.answer_get, if_neg fun x => hj x.1]
    have hin : ∀ {r n st}, s.LegIn r n st → st ≠ .done → (s.answer k res fields).LegIn r n st := by
      rintro r n st hr hst
      have := hne hr hst
      unfold State.LegIn State.legAt
      rw [hget _ this]; exact hr
    have hsegs : (s.answer k res fields).segs = s.segs := State.answer_segs ..
    have hsel : (s.answer k res fields).clock = s.clock := by unfold State.answer; split <;> rfl
    refine ⟨fun n => ?_, fun n r hn hr hq => ?_, fun j => ?_, fun n j hj => ?_, fun j hj => ?_⟩
    · rw [hsegs]; exact ⟨(h1 n).1, fun r hr => hin ((h1 n).2 r hr) (by decide)⟩
    · rw [hsegs] at hr; exact hin (h2 n r hn hr hq) (by decide)
    · by_cases hj : j = k
      · subst hj
        rw [State.answer_get, if_pos ⟨rfl, hw⟩]
        obtain ⟨a1, a2, a3, a4, -⟩ := h3 j
        exact ⟨a1, a2, a3, a4, fun _ => hd⟩
      · rw [hget j hj]; exact h3 j
    · rw [hsegs] at hj
      have hne : j ≠ k := by rintro rfl; exact ho n hj
      rw [hget j hne]; exact h4 n j hj
    · rw [hsel] at hj
      have hne : j ≠ k := by rintro rfl; exact hc hj
      rw [hget j hne]; exact h5 j hj
  · rw [State.answer_of_not_working _ _ _ _ hw]; exact ⟨h1, h2, h3, h4, h5⟩

/-- A slot whose request is no transfer has no leg, and one whose request is neither SEG_RESET nor CLOCK_SELECT owns nothing: it is
answered. -/
theorem LegLawBut.answerFor {e : Option SegId} {s : State} (k : SlotId) (res : ResultCode) (fields : List Byte)
    (hq : s.slots[k].request.bind Request.legShape = none)
    (ho : ∀ n : SegId, s.slots[k].request = some (.segReset n) → s.segs[n].clear.bind ClearRecord.owner ≠ some k)
    (hc : ∀ t : Source, s.slots[k].request = some (.clockSelect t) → s.clock.selectOwner ≠ some k) (h : LegLawBut e s) :
    LegLawBut e (s.answer k res fields) := by
  refine h.answer k res fields (fun role l hl => ?_) (fun n hn => ?_) (fun hn => ?_)
  · obtain ⟨a, b, -⟩ := (h.2.2.1 k).2.2.2.1 hq
    cases role
    · rw [show s.slots[k].leg .primary = s.slots[k].primary from rfl, a] at hl; cases hl
    · rw [show s.slots[k].leg .twin = s.slots[k].twin from rfl, b] at hl; cases hl
  · exact ho n (h.2.2.2.1 n k hn).2 hn
  · obtain ⟨-, t, ht⟩ := h.2.2.2.2 k hn
    exact hc t ht hn

/-! ### Delivery -/

theorem LegLawBut.buildFallback {e : Option SegId} {s : State} (r : CompletionRecord) (h : LegLawBut e s) :
    LegLawBut e (s.buildFallback r).1 := by
  unfold State.buildFallback
  split
  · next hw =>
    simp only [Slot.wantsTwin, Bool.and_eq_true, decide_eq_true_eq, Option.isNone_iff_eq_none] at hw
    have hst : s.slots[r.slot].state = .working := hw.2
    have htw : s.slots[r.slot].twin = none := hw.1.2
    split
    · next res shape hres hshape =>
      split
      · exact h
      · next t ht =>
        unfold Resolution.twinLeg at ht
        cases hp : res.twin with
        | none => rw [hp] at ht; cases ht
        | some p =>
          rw [hp] at ht
          obtain rfl := Option.some.inj ht
          have hla : s.legAt ⟨r.slot, .twin⟩ = none := htw
          have hu := h.unplaced_of_none hla
          obtain ⟨a1, a2, a3, a4, a5⟩ := h.2.2.1 r.slot
          have h1 := h.modSlot r.slot (fun x => { x with twin := some (newLeg r.slot .twin p.1 p.2 res.regPhase shape) }) rfl rfl
            (fun role l hl => by
              cases role
              · exact hl
              · rw [show s.slots[r.slot].leg .twin = s.slots[r.slot].twin from rfl, htw] at hl; cases hl)
            ⟨fun role l hl => by
                cases role
                · exact a1 .primary l hl
                · obtain rfl := Option.some.inj hl; exact ⟨rfl, rfl⟩,
              fun q t' hq ht' => by
                obtain rfl := Option.some.inj ht'
                obtain ⟨b1, b2⟩ := a3 q res hq hres
                rw [b1]; exact (b2 p.1 p.2 hp).symm,
              a3, fun hb => (by
                have hb' : s.slots[r.slot].request.bind Request.legShape = none := hb
                rw [hshape] at hb'; cases hb'),
              fun ha => (by
                have ha' : s.slots[r.slot].state = .answered := ha
                rw [hst] at ha'; cases ha')⟩
          refine h1.placeLeg (fun l hl => ⟨?_, ?_⟩) hu
          · rw [State.modSlot_get, if_pos rfl]; exact hst
          · unfold State.legAt at hl
            rw [State.modSlot_get, if_pos rfl] at hl
            obtain rfl := Option.some.inj hl; rfl
    · exact h
  · exact h

/-- A slot that holds a leg owns neither a bus clear nor a change of source. -/
theorem LegLawBut.leg_owns_nothing {e : Option SegId} {s : State} (h : LegLawBut e s) {k : SlotId} {p : LegRecord}
    (hp : s.slots[k].primary = some p) :
    (∀ n : SegId, s.segs[n].clear.bind ClearRecord.owner ≠ some k) ∧ s.clock.selectOwner ≠ some k := by
  have hno : s.slots[k].request.bind Request.legShape ≠ none := by
    intro hb
    have := ((h.2.2.1 k).2.2.2.1 hb).1
    rw [hp] at this; cases this
  refine ⟨fun n hn => hno ?_, fun hn => hno ?_⟩
  · rw [(h.2.2.2.1 n k hn).2]; rfl
  · obtain ⟨-, t, ht⟩ := h.2.2.2.2 k hn
    rw [ht]; rfl

theorem LegLawBut.reconcileSlot {e : Option SegId} {s : State} (k : SlotId) (h : LegLawBut e s) :
    LegLawBut e (s.reconcileSlot k) := by
  unfold State.reconcileSlot
  split
  · next ha =>
    split
    · exact h
    · next p hp =>
      obtain ⟨b1, b2⟩ := h.leg_owns_nothing hp
      refine h.answer k _ _ (fun role l hl => ?_) b1 b2
      unfold Slot.allSettled at ha
      rw [hp] at ha
      simp only [Bool.and_eq_true, LegRecord.settled, decide_eq_true_eq] at ha
      cases role
      · rw [show s.slots[k].leg .primary = s.slots[k].primary from rfl, hp] at hl
        obtain rfl := Option.some.inj hl; exact ha.1.1
      · rw [show s.slots[k].twin = some l from hl] at ha
        simp only [Bool.and_eq_true, decide_eq_true_eq] at ha
        exact ha.2.1
  · exact h

theorem LegLawBut.consume {e : Option SegId} {s : State} (r : CompletionRecord) (h : LegLawBut e s) :
    LegLawBut e (s.consume r).1 := by
  have h1 : LegLawBut e (s.offer r.toRecordCopy.logEntry) := h.beside (Beside.of_eq rfl rfl rfl)
  have h2 := h1.same (SameLegs.modLeg _ ⟨r.slot, r.role⟩ (fun l => { l with delivered := true }) fun _ => rfl)
  exact ((h2.buildFallback r).reconcileSlot r.slot).beside (Beside.watchRecord _ _)

theorem LegLawBut.deliverAll {e : Option SegId} {p : Produced} (h : LegLawBut e p.1) : LegLawBut e (deliverAll p) := by
  unfold Machine.deliverAll
  generalize p.2.length + 32 = fuel
  obtain ⟨s, rs⟩ := p
  dsimp only at h ⊢
  induction fuel generalizing s rs with
  | zero => exact h
  | succ n ih =>
    cases rs with
    | nil => exact h
    | cons r rs => exact ih _ _ (h.consume r)

theorem LegLawBut.decideStart {e : Option SegId} {s : State} (n : SegId) (h : LegLawBut e s) : LegLawBut e (s.decideStart n) :=
  (h.startDecision n).deliverAll

theorem LegLawBut.decideNext {e : Option SegId} {s : State} (n : SegId) (h : LegLawBut e s) : LegLawBut e (s.decideNext n) :=
  (h.legDecision n).deliverAll

theorem LegLawBut.failQueued {e : Option SegId} {s : State} (n : SegId) (o : LegOutcome) (h : LegLawBut e s) :
    LegLawBut e (s.failQueued n o) := (h.failQueue n o).deliverAll

/-! ### CANCEL -/

theorem LegLawBut.cancelLeg {e : Option SegId} {s : State} (r : LegRef) (h : LegLawBut e s) : LegLawBut e (s.cancelLeg r).1 := by
  unfold State.cancelLeg
  split
  · exact h
  · next l hl =>
    split
    · next hst =>
      have h1 : LegLawBut e (s.modSeg l.segment fun g => { g with queue := g.queue.erase r }) :=
        h.dequeue l.segment _ List.erase_sublist rfl rfl
      refine h1.failLeg _ ⟨fun n hm => ?_, fun n q hn hx ho he => ?_⟩
      · rw [State.modSeg_get] at hm
        split at hm
        · next e => subst e; exact (List.Nodup.mem_erase_iff (h.1 _).1).1 hm |>.1 rfl
        · next hne =>
          obtain ⟨-, l', hl', hn', -⟩ := (h.1 n).2 r hm
          rw [hl] at hl'; cases hl'
          exact hne hn'.symm
      · have hx' : s.segs[n].inProgress = some q := by
          rw [State.modSeg_get] at hx
          split at hx
          · next e => subst e; exact hx
          · exact hx
        obtain ⟨-, l', hl', -, hs'⟩ := h.2.1 n q hn hx' ho
        rw [he, hl] at hl'; cases hl'
        rw [hst] at hs'; cases hs'
    · exact h.same (SameLegs.modLeg _ _ _ fun _ => rfl)
    · exact h

theorem LegLawBut.cancelSlot {e : Option SegId} {s : State} (j : SlotId) (h : LegLawBut e s) : LegLawBut e (s.cancelSlot j) := by
  have h1 := h.same (SameLegs.modSlot s j (fun x => { x with cancelled := true }) fun _ => ⟨rfl, rfl, rfl, rfl, rfl⟩)
  exact LegLawBut.deliverAll (p := State.cancelLegs _ j) ((h1.cancelLeg ⟨j, .primary⟩).cancelLeg ⟨j, .twin⟩)

/-! ### Acceptance -/

/-- The legs of an accepted transfer are built (R41, R45, R46, R47). -/
theorem LegLawBut.buildLegs {e : Option SegId} {s : State} (k : SlotId) (res : Resolution) (shape : Kind × Byte × Nat)
    (hw : s.slots[k].state = .working) (hq : s.slots[k].request.bind Request.legShape ≠ none) (hp : s.slots[k].primary = none)
    (ht : s.slots[k].twin = none) (hr : s.slots[k].resolution = some res) (hd : ∀ n a, res.twin = some (n, a) → n ≠ res.primarySeg)
    (h : LegLawBut e s) : LegLawBut e (s.buildLegs k res shape) := by
  have hu1 := h.unplaced_of_none (r := ⟨k, .primary⟩) hp
  have hu2 := h.unplaced_of_none (r := ⟨k, .twin⟩) ht
  have hnew : ∀ a l, (s.storeLegs k res shape).legAt ⟨k, a⟩ = some l → l.slot = k ∧ l.role = a ∧ l.state = .queued := by
    intro a l hl
    unfold State.legAt State.storeLegs at hl
    rw [State.modSlot_get, if_pos rfl] at hl
    cases a
    · obtain rfl := Option.some.inj hl; exact ⟨rfl, rfl, rfl⟩
    · unfold Slot.leg at hl
      dsimp only at hl
      split at hl
      · unfold Resolution.twinLeg at hl
        cases hx : res.twin with
        | none => rw [hx] at hl; cases hl
        | some p => rw [hx] at hl; obtain rfl := Option.some.inj hl; exact ⟨rfl, rfl, rfl⟩
      · cases hl
  have h1 : LegLawBut e (s.storeLegs k res shape) := by
    refine h.modSlot k _ rfl rfl (fun role l hl => ?_) ⟨fun role l hl => ?_, fun p t hp' ht' => ?_, fun p res' hp' hr' => ?_, fun hb => absurd hb hq,
      fun ha => ?_⟩
    · cases role
      · rw [show s.slots[k].leg .primary = s.slots[k].primary from rfl, hp] at hl; cases hl
      · rw [show s.slots[k].leg .twin = s.slots[k].twin from rfl, ht] at hl; cases hl
    · have := hnew role l (by unfold State.legAt State.storeLegs; rw [State.modSlot_get, if_pos rfl]; exact hl)
      exact ⟨this.1, this.2.1⟩
    · obtain rfl := Option.some.inj hp'
      dsimp only at ht'
      split at ht'
      · unfold Resolution.twinLeg at ht'
        cases hx : res.twin with
        | none => rw [hx] at ht'; cases ht'
        | some p => rw [hx] at ht'; obtain rfl := Option.some.inj ht'; exact (hd p.1 p.2 hx).symm
      · cases ht'
    · obtain rfl := Option.some.inj hp'
      have : some res = some res' := hr.symm.trans hr'
      cases this
      exact ⟨rfl, hd⟩
    · exact absurd (hw.symm.trans ha) (by decide)
  have hst : ∀ a, (s.storeLegs k res shape).slots[(⟨k, a⟩ : LegRef).slot].state = .working := by
    intro a; unfold State.storeLegs; rw [State.modSlot_get, if_pos rfl]; exact hw
  have h2 := h1.placeLeg (r := ⟨k, .primary⟩) (fun l hl => ⟨hst .primary, (hnew _ l hl).2.2⟩) hu1
  have ha : Aside e (s.storeLegs k res shape) ((s.storeLegs k res shape).placeLeg ⟨k, .primary⟩).1 ⟨k, .twin⟩ :=
    Aside.placeLeg _ (by simp) hu2
  refine LegLawBut.deliverAll (p := State.placeLegs _ k) (h2.placeLeg (r := ⟨k, .twin⟩) (fun l hl => ⟨?_, ?_⟩) (ha.unplaced hu2))
  · rw [ha.state]; exact hst .twin
  · rw [ha.leg] at hl; exact (hnew _ l hl).2.2

/-- A request is taken into a FREE slot, which then holds no leg and owns nothing. -/
theorem LegLawBut.take {e : Option SegId} {s : State} (k : SlotId) (type tag : Byte) (hf : s.slots[k].state = .free)
    (h : LegLawBut e s) :
    LegLawBut e (s.modSlot k fun _ => Slot.taken type tag) ∧ (∀ n : SegId, s.segs[n].clear.bind ClearRecord.owner ≠ some k) ∧
      s.clock.selectOwner ≠ some k := by
  obtain ⟨h1, h2, h3, h4, h5⟩ := h
  have hne : ∀ {r n st}, s.LegIn r n st → r.slot ≠ k := by
    rintro r n st ⟨a, -⟩ rfl; rw [hf] at a; cases a
  have ho : ∀ n : SegId, s.segs[n].clear.bind ClearRecord.owner ≠ some k := by
    intro n hn; have := (h4 n k hn).1; rw [hf] at this; cases this
  have hc : s.clock.selectOwner ≠ some k := by
    intro hn; have := (h5 k hn).1; rw [hf] at this; cases this
  have hget : ∀ j : SlotId, j ≠ k → (s.modSlot k fun _ => Slot.taken type tag).slots[j] = s.slots[j] := by
    intro j hj; rw [State.modSlot_get, if_neg hj]
  have hin : ∀ {r n st}, s.LegIn r n st → (s.modSlot k fun _ => Slot.taken type tag).LegIn r n st := by
    intro r n st hr
    unfold State.LegIn State.legAt
    rw [hget _ (hne hr)]; exact hr
  refine ⟨⟨fun n => ⟨(h1 n).1, fun r hr => hin ((h1 n).2 r hr)⟩, fun n r hn hr hq => hin (h2 n r hn hr hq), fun j => ?_,
    fun n j hj => ?_, fun j hj => ?_⟩, ho, hc⟩
  · rw [State.modSlot_get]; split
    · exact ⟨fun role l hl => (by cases role <;> cases hl), fun p t hp => (by cases hp), fun p res hp => (by cases hp),
        fun _ => ⟨rfl, rfl, rfl⟩, fun ha => (by cases ha)⟩
    · exact h3 j
  · have : j ≠ k := by rintro rfl; exact ho n hj
    rw [hget j this]; exact h4 n j hj
  · have : j ≠ k := by rintro rfl; exact hc hj
    rw [hget j this]; exact h5 j hj

/-- The slot of a reply that has been sent is released (R12). -/
theorem LegLawBut.releaseSlot {e : Option SegId} {s : State} (k : SlotId) (ha : s.slots[k].state = .answered) (h : LegLawBut e s) :
    LegLawBut e (s.releaseSlot k) := by
  obtain ⟨h1, h2, h3, h4, h5⟩ := h
  have hne : ∀ {r n st}, s.LegIn r n st → r.slot ≠ k := by
    rintro r n st ⟨a, -⟩ rfl; rw [ha] at a; cases a
  have hget : ∀ j : SlotId, j ≠ k → (s.releaseSlot k).slots[j] = s.slots[j] := by
    intro j hj; unfold State.releaseSlot; rw [State.modSlot_get, if_neg hj]
  have hin : ∀ {r n st}, s.LegIn r n st → (s.releaseSlot k).LegIn r n st := by
    intro r n st hr
    unfold State.LegIn State.legAt
    rw [hget _ (hne hr)]; exact hr
  have hw : ∀ j : SlotId, s.slots[j].state = .working → j ≠ k := by rintro j hj rfl; rw [ha] at hj; cases hj
  refine ⟨fun n => ⟨(h1 n).1, fun r hr => hin ((h1 n).2 r hr)⟩, fun n r hn hr hq => hin (h2 n r hn hr hq), fun j => ?_,
    fun n j hj => ?_, fun j hj => ?_⟩
  · unfold State.releaseSlot; rw [State.modSlot_get]; split
    · exact ⟨fun role l hl => (by cases role <;> cases hl), fun p t hp => (by cases hp), fun p res hp => (by cases hp),
        fun _ => ⟨rfl, rfl, rfl⟩, fun ha => (by cases ha)⟩
    · exact h3 j
  · rw [hget j (hw j (h4 n j hj).1)]; exact h4 n j hj
  · rw [hget j (hw j (h5 j hj).1)]; exact h5 j hj

end Sys2Proof.Machine
end

