-- ==== Sys2Proof/Laws/LegWalk.lean ====
section
/-! SUPPORT. What each request and each event does to the law of the legs. -/

namespace Sys2Proof.Machine

/-! ### Requests -/

/-- A slot that has been taken, with a request other than a transfer or none yet: it holds no leg and owns nothing. -/
structure Bare (s : State) (k : SlotId) (type tag : Byte) (q : Option Request) : Prop where
  slot : s.slots[k] = { Slot.taken type tag with request := q }
  owner : ∀ n : SegId, s.segs[n].clear.bind ClearRecord.owner ≠ some k
  select : s.clock.selectOwner ≠ some k

/-- The record of a bare slot. -/
abbrev Slot.bare (type tag : Byte) (q : Option Request) : Slot := { Slot.taken type tag with request := q }

theorem Slot.bare_legless (type tag : Byte) (q : Option Request) : (Slot.bare type tag q).Legless := ⟨rfl, rfl, rfl⟩

/-- A bare slot is answered. -/
theorem LegLawBut.answerBare {s : State} {k : SlotId} {type tag : Byte} {q : Option Request} (hb : Bare s k type tag q) (res : ResultCode)
    (fields : List Byte) (h : LegLawBut none s) : LegLawBut none (s.answer k res fields) := by
  refine h.answer k res fields (fun role l hl => ?_) hb.owner hb.select
  rw [hb.slot] at hl
  cases role <;> cases hl

/-- A slot that stands as it was taken, with a request that is no transfer and can own nothing, is answered. -/
theorem LegLawBut.answerPlain {s : State} {k : SlotId} {type tag : Byte} {q : Request} (hs : s.slots[k] = Slot.bare type tag (some q))
    (h1 : q.legShape = none) (h2 : ∀ n, q ≠ .segReset n) (h3 : ∀ t, q ≠ .clockSelect t) (res : ResultCode) (fields : List Byte)
    (h : LegLawBut none s) : LegLawBut none (s.answer k res fields) := by
  have hq : s.slots[k].request = some q := by rw [hs]
  refine h.answerFor k res fields (by rw [hq]; exact h1) (fun n e => ?_) (fun t e => ?_)
  · rw [hq] at e; exact absurd (Option.some.inj e) (h2 n)
  · rw [hq] at e; exact absurd (Option.some.inj e) (h3 t)

theorem Beside.bare {s t : State} (hst : Beside s t) {k : SlotId} {type tag : Byte} {q : Option Request} (h : Bare s k type tag q) :
    Bare t k type tag q :=
  ⟨by rw [hst.slots]; exact h.slot, fun n => by rw [(hst.segs n).2.2]; exact h.owner n, by rw [hst.select]; exact h.select⟩

/-- A request is delivered: what `screen` does need only be looked at on a bare slot (R3). -/
theorem LegLawBut.deliver {s : State} (type tag : Byte) (screen : SlotId → State → State)
    (hscreen : ∀ k a, LegLawBut none a → Bare a k type tag none → a.windows = s.windows → LegLawBut none (screen k a))
    (h : LegLawBut none s) : LegLawBut none (s.deliver type tag screen) := by
  unfold State.deliver
  split
  · exact h
  split
  · exact h.beside (Beside.of_eq rfl rfl rfl)
  · next k hk =>
    have h1 : LegLawBut none s.hunting := h.beside (Beside.of_eq rfl rfl rfl)
    obtain ⟨a, b, c⟩ := h1.take k type tag (State.freeSlot_free hk)
    exact hscreen k _ a ⟨by rw [State.modSlot_get, if_pos rfl]; rfl, b, c⟩ rfl

/-- A bare slot keeps its decoded request. -/
theorem LegLawBut.setRequest {s : State} {k : SlotId} {type tag : Byte} (hb : Bare s k type tag none) (q : Request)
    (h : LegLawBut none s) :
    LegLawBut none (s.modSlot k fun x => { x with request := some q }) ∧
      Bare (s.modSlot k fun x => { x with request := some q }) k type tag (some q) := by
  have hget : (s.modSlot k fun x => { x with request := some q }).slots[k] = Slot.bare type tag (some q) := by
    rw [State.modSlot_get, if_pos rfl, hb.slot]
  refine ⟨?_, hget, hb.owner, hb.select⟩
  obtain ⟨h1, h2, h3, h4, h5⟩ := h
  have hstate : ∀ j : SlotId, (s.modSlot k fun x => { x with request := some q }).slots[j].state = s.slots[j].state := by
    intro j; rw [State.modSlot_get]; split
    · next e => subst e; rfl
    · rfl
  have hreq : ∀ j : SlotId, j ≠ k → (s.modSlot k fun x => { x with request := some q }).slots[j].request = s.slots[j].request := by
    intro j hj; rw [State.modSlot_get, if_neg hj]
  have hin : ∀ {r n st}, s.LegIn r n st → (s.modSlot k fun x => { x with request := some q }).LegIn r n st := by
    rintro r n st ⟨a, l, b, c⟩
    refine ⟨by rw [hstate]; exact a, l, ?_, c⟩
    unfold State.legAt at b ⊢
    rw [State.modSlot_get]; split
    · next e =>
      obtain ⟨j, role⟩ := r
      obtain rfl : j = k := e
      exact b
    · exact b
  refine ⟨fun n => ⟨(h1 n).1, fun r hr => hin ((h1 n).2 r hr)⟩, fun n r hn hr ho => hin (h2 n r hn hr ho), fun j => ?_,
    fun n j hj => ?_, fun j hj => ?_⟩
  · by_cases e : j = k
    · subst e
      rw [hget]
      exact ⟨fun role l hl => (by cases role <;> cases hl), fun p t hp => (by cases hp), fun p res hp => (by cases hp),
        fun _ => ⟨rfl, rfl, rfl⟩, fun ha => (by cases ha)⟩
    · rw [State.modSlot_get, if_neg e]; exact h3 j
  · have hj' : j ≠ k := by rintro rfl; exact hb.owner n hj
    rw [hstate, hreq j hj']; exact h4 n j hj
  · have hj' : j ≠ k := by rintro rfl; exact hb.select hj
    rw [hstate, hreq j hj']; exact h5 j hj

/-- A request is screened: what carrying it out does need only be looked at on the slot with its request (R5). -/
theorem LegLawBut.screened {α : Type} {s : State} {k : SlotId} {type tag : Byte} (hb : Bare s k type tag none) (d : Option α)
    (name : α → Request) (carryOut : α → State → State)
    (hc : ∀ x a, LegLawBut none a → Bare a k type tag (some (name x)) → a.windows = s.windows → LegLawBut none (carryOut x a))
    (h : LegLawBut none s) : LegLawBut none (State.screened k d name carryOut s) := by
  unfold State.screened
  split
  · exact h.answerBare hb _ _
  · next x =>
    obtain ⟨a, b⟩ := h.setRequest hb (name x)
    exact hc x _ a b rfl

/-- A request that passes screening and is answered after operations beside the legs. -/
theorem LegLawBut.takePlain {α : Type} {s : State} (type tag : Byte) (d : Option α) (name : α → Request)
    (carryOut : SlotId → α → State → State)
    (hc : ∀ k x a, ∃ t res fields, Beside a t ∧ carryOut k x a = t.answer k res fields) (h : LegLawBut none s) :
    LegLawBut none (s.deliver type tag fun k a => State.screened k d name (carryOut k) a) :=
  h.deliver type tag _ fun k a ha hb _ => ha.screened hb d name _ fun x b hb' hbare _ => by
    obtain ⟨t, res, fields, e1, e2⟩ := hc k x b
    rw [e2]; exact (hb'.beside e1).answerBare (e1.bare hbare) _ _

/-! #### Transfers -/

theorem State.matching_enabled {s : State} {t : Target} {i : WindowId} (h : s.matching t = some i) : s.windows[i].enabled = true := by
  have := List.find?_some h
  rw [Bool.and_eq_true] at this
  exact this.1

theorem LegLawBut.acceptTransfer {s : State} {k : SlotId} {type tag : Byte} {q : Request} (hb : Bare s k type tag (some q))
    (hq : q.legShape ≠ none) (hr : RouteLaw s) (t : Target) (shape : Kind × Byte × Nat) (data : List Byte) (h : LegLawBut none s) :
    LegLawBut none (s.acceptTransfer k t shape data) := by
  unfold State.acceptTransfer
  split
  · exact h.answerBare hb _ _
  · next i hi =>
    split
    · dsimp only
      have hw := hr i (State.matching_enabled hi)
      refine LegLawBut.buildLegs k _ shape ?_ ?_ ?_ ?_ ?_ ?_ (h.modSlot k _ rfl rfl (fun role l hl => ?_) ?_)
      · rw [State.modSlot_get, if_pos rfl, hb.slot]; rfl
      · rw [State.modSlot_get, if_pos rfl, hb.slot]; exact hq
      · rw [State.modSlot_get, if_pos rfl, hb.slot]; rfl
      · rw [State.modSlot_get, if_pos rfl, hb.slot]; rfl
      · rw [State.modSlot_get, if_pos rfl]
      · intro n a hn
        unfold Window.resolve at hn ⊢
        dsimp only at hn ⊢
        split at hn
        · cases hn
        · next hp => cases hn; exact (hw.2.2.2.2 hp).2.2
      · rw [hb.slot] at hl; cases role <;> cases hl
      · rw [hb.slot]
        exact ⟨fun role l hl => (by cases role <;> cases hl), fun p t hp => (by cases hp), fun p res hp => (by cases hp),
          fun hn => absurd hn hq, fun ha => (by cases ha)⟩
    · exact h.answerBare hb _ _

theorem LegLawBut.takeTransfer {α : Type} {s : State} (type tag : Byte) (d : Option α) (name : α → Request)
    (carryOut : SlotId → α → State → State)
    (hc : ∀ k x a, LegLawBut none a → Bare a k type tag (some (name x)) → a.windows = s.windows → LegLawBut none (carryOut k x a))
    (h : LegLawBut none s) : LegLawBut none (s.takeTransfer type tag d name carryOut) := by
  refine h.deliver type tag _ fun k a ha hb hw => ?_
  split
  · exact ha.answerBare hb _ _
  · exact ha.screened hb d name _ fun x b hb' hbare hw' => hc k x b hb' hbare (hw'.trans hw)

theorem RouteLaw.of_windows {s t : State} (h : RouteLaw s) (e : t.windows = s.windows) : RouteLaw t := by
  unfold RouteLaw at h ⊢; rw [e]; exact h

theorem LegLawBut.takeWrite {s : State} (tag : Byte) (p : List Byte) (hr : RouteLaw s) (h : LegLawBut none s) :
    LegLawBut none (s.takeWrite tag p) :=
  h.takeTransfer _ _ _ _ _ fun _ _ _ ha hb hw => ha.acceptTransfer hb (by simp [Request.legShape]) (hr.of_windows hw) _ _ _

theorem LegLawBut.takeRead {s : State} (tag : Byte) (p : List Byte) (hr : RouteLaw s) (h : LegLawBut none s) :
    LegLawBut none (s.takeRead tag p) :=
  h.takeTransfer _ _ _ _ _ fun _ _ _ ha hb hw => ha.acceptTransfer hb (by simp [Request.legShape]) (hr.of_windows hw) _ _ _

theorem LegLawBut.takeProbe {s : State} (tag : Byte) (p : List Byte) (hr : RouteLaw s) (h : LegLawBut none s) :
    LegLawBut none (s.takeProbe tag p) :=
  h.takeTransfer _ _ _ _ _ fun _ _ _ ha hb hw => ha.acceptTransfer hb (by simp [Request.legShape]) (hr.of_windows hw) _ _ _

theorem State.cancelLeg_legless {k : SlotId} {x : Slot} (hx : x.Legless) (s : State) (r : LegRef) (h : s.slots[k] = x) :
    (s.cancelLeg r).1.slots[k] = x := by
  unfold State.cancelLeg
  split
  · exact h
  · split
    · exact State.failLeg_legless hx _ _ _ h
    · exact State.modLeg_legless hx _ _ _ h
    · exact h

/-- CANCEL leaves a slot without legs as it is. -/
theorem State.cancelSlot_legless {k j : SlotId} {x : Slot} (hx : x.Legless) (s : State) (hj : k ≠ j) (h : s.slots[k] = x) :
    (s.cancelSlot j).slots[k] = x := by
  refine deliverAll_legless hx _ (State.cancelLeg_legless hx _ _ (State.cancelLeg_legless hx _ _ ?_))
  rw [State.modSlot_get, if_neg hj]; exact h

theorem LegLawBut.takeCancel {s : State} (tag : Byte) (p : List Byte) (h : LegLawBut none s) : LegLawBut none (s.takeCancel tag p) := by
  refine h.deliver _ _ _ fun k a ha hb _ => ha.screened hb _ _ _ fun target b hb' hbare _ => ?_
  unfold State.carryCancel
  split
  · exact hb'.answerBare hbare _ _
  · next j hj =>
    have hne : k ≠ j := by
      rintro rfl
      have := List.find?_some hj
      rw [hbare.slot] at this
      simp [Slot.taken, transferType, ReqType.code] at this
    have hx := State.cancelSlot_legless (Slot.bare_legless _ _ _) b hne hbare.slot
    exact (hb'.cancelSlot j).answerPlain hx rfl (by simp) (by simp) _ _

/-! #### Segments -/

theorem State.configAtOnce_legless {k : SlotId} {x : Slot} (hx : x.Legless) (s : State) (n : SegId) (c : SegConfig) (h : s.slots[k] = x) :
    (s.configAtOnce n c).slots[k] = x := by
  unfold State.configAtOnce
  dsimp only
  split
  · exact h
  · exact deliverAll_legless hx _ (State.failLegs_legless hx _ _ _ h)

theorem LegLawBut.configAtOnce {s : State} (n : SegId) (c : SegConfig) (h : LegLawBut none s) : LegLawBut none (s.configAtOnce n c) := by
  have h1 : LegLawBut none (s.modSeg n (Segment.store c)) := h.beside (Beside.modSeg _ _ _ fun _ => ⟨rfl, rfl, rfl⟩)
  unfold State.configAtOnce
  dsimp only
  split
  · exact h1.rest n .idle
  · exact (h1.switchOff n).deliverAll

theorem State.configPending_legless {k : SlotId} {x : Slot} (hx : x.Legless) (s : State) (n : SegId) (c : SegConfig)
    (h : s.slots[k] = x) : (s.configPending n c).slots[k] = x := by
  unfold State.configPending
  dsimp only
  split
  · exact h
  · exact State.failQueued_legless hx _ _ _ h

theorem LegLawBut.configPending {s : State} (n : SegId) (c : SegConfig) (h : LegLawBut none s) :
    LegLawBut none (s.configPending n c) := by
  have h1 : LegLawBut none (s.modSeg n fun g => { g with pendingCfg := some c }) :=
    h.beside (Beside.modSeg _ _ _ fun _ => ⟨rfl, rfl, rfl⟩)
  unfold State.configPending
  dsimp only
  split
  · exact h1
  · exact h1.failQueued n .segmentOff

theorem LegLawBut.takeSegConfig {s : State} (tag : Byte) (p : List Byte) (h : LegLawBut none s) :
    LegLawBut none (s.takeSegConfig tag p) := by
  refine h.deliver _ _ _ fun k a ha hb _ => ha.screened hb _ _ _ fun f b hb' hbare _ => ?_
  have hl := Slot.bare_legless ReqType.segConfig.code tag (some (.segConfig f.1 f.2))
  have h1 : LegLawBut none (State.applyConfig k f.1 f.2 b) :=
    (hb'.configAtOnce f.1 f.2).answerPlain (State.configAtOnce_legless hl b f.1 f.2 hbare.slot) rfl (by simp) (by simp) _ _
  have h2 : LegLawBut none (State.deferConfig k f.1 f.2 b) :=
    (hb'.configPending f.1 f.2).answerPlain (State.configPending_legless hl b f.1 f.2 hbare.slot) rfl (by simp) (by simp) _ _
  unfold State.carrySegConfig
  split
  · exact h1
  · exact h1
  · exact h2
  · exact h2
  · unfold State.configFaulted
    dsimp only
    split
    · exact hb'.answerBare hbare _ _
    · have hbs := Beside.modSeg b f.1 (Segment.store f.2) fun _ => ⟨rfl, rfl, rfl⟩
      exact (hb'.beside hbs).answerBare (hbs.bare hbare) _ _

theorem Beside.offer (s : State) (e : LogEntry) : Beside s (s.offer e) := Beside.of_eq rfl rfl rfl

theorem Beside.clearHold (s : State) (n : SegId) : Beside s (s.clearHold n) := Beside.modSeg _ _ _ fun _ => ⟨rfl, rfl, rfl⟩

theorem LegLawBut.beginResetClear {s : State} (n : SegId) (o : Option SlotId)
    (ho : ∀ k, o = some k → s.slots[k].state = .working ∧ s.slots[k].request = some (.segReset n)) (h : LegLawBut none s) :
    LegLawBut none (s.beginResetClear n o) := (h.applyPending n).beginClear n _ o ho

theorem LegLawBut.takeSegReset {s : State} (tag : Byte) (p : List Byte) (h : LegLawBut none s) :
    LegLawBut none (s.takeSegReset tag p) := by
  refine h.deliver _ _ _ fun k a ha hb _ => ha.screened hb _ _ _ fun n b hb' hbare _ => ?_
  unfold State.carrySegReset
  split
  · exact hb'.answerBare hbare _ _
  split
  · have h1 := hb'.same (SameLegs.modSlot b k (fun x => { x with resetAccount := some { legsFailed := 0, leg := .noLeg } })
      fun _ => ⟨rfl, rfl, rfl, rfl, rfl⟩)
    have h2 := h1.beside (Beside.clearHold _ n)
    refine (h2.beside (Beside.offer _ _)).answer k _ _ (fun role l hl => ?_) (fun m hm => ?_) hbare.select
    · have : (b.modSlot k fun x => { x with resetAccount := some { legsFailed := 0, leg := .noLeg } }).slots[k].leg role = some l := hl
      rw [State.modSlot_get, if_pos rfl, hbare.slot] at this
      cases role <;> cases this
    · have : ((b.modSlot k fun x => { x with resetAccount := some { legsFailed := 0, leg := .noLeg } }).clearHold n).segs[m].clear.bind
        ClearRecord.owner = some k := hm
      rw [((Beside.clearHold _ n).segs m).2.2] at this
      exact hbare.owner m this
  · have h1 := hb'.same (SameLegs.modSlot b k
      (fun x => { x with resetAccount := some { legsFailed := b.segs[n].queue.length, leg := .noLeg } })
      fun _ => ⟨rfl, rfl, rfl, rfl, rfl⟩)
    have h2 : LegLawBut none (State.resetQueue k n b) := (h1.failQueued n .segmentReset).beside (Beside.clearHold _ n)
    have hs : (State.resetQueue k n b).slots[k] = { Slot.bare ReqType.segReset.code tag (some (.segReset n)) with
        resetAccount := some { legsFailed := b.segs[n].queue.length, leg := .noLeg } } := by
      refine State.failQueued_legless ⟨rfl, rfl, rfl⟩ _ _ _ ?_
      rw [State.modSlot_get, if_pos rfl, hbare.slot]
    have hown : (State.resetQueue k n b).slots[k].state = .working ∧ (State.resetQueue k n b).slots[k].request = some (.segReset n) := by
      rw [hs]; exact ⟨rfl, rfl⟩
    unfold State.resetProceed
    split
    · exact h2.beside (Beside.modSeg _ _ _ fun _ => ⟨rfl, rfl, rfl⟩)
    split
    · refine h2.modSeg n _ (List.Sublist.refl _) (fun r hx ho hn => h2.2.1 n r hn hx ho) (fun j hj => ?_)
      have : j = k := by
        change (Option.map _ (State.resetQueue k n b).segs[n].clear).bind _ = some j at hj
        generalize (State.resetQueue k n b).segs[n].clear = c at hj
        cases c with
        | none => cases hj
        | some c => cases hj; rfl
      subst this; exact hown
    · exact h2.beginResetClear n (some k) fun j hj => by cases hj; exact hown

theorem LegLawBut.takeSegResume {s : State} (tag : Byte) (p : List Byte) (h : LegLawBut none s) :
    LegLawBut none (s.takeSegResume tag p) := by
  refine h.deliver _ _ _ fun k a ha hb _ => ha.screened hb _ _ _ fun n b hb' hbare _ => ?_
  exact ((hb'.beside (Beside.clearHold b n)).decideStart n).answerPlain
    (State.decideStart_legless (Slot.bare_legless _ _ _) (b.clearHold n) n ((Beside.clearHold b n).bare hbare).slot) rfl (by simp)
    (by simp) _ _

/-! #### The clock unit -/

theorem LegLawBut.beginSwitch {s : State} {k : SlotId} {x : Source}
    (hk : s.slots[k].state = .working ∧ ∃ t : Source, s.slots[k].request = some (.clockSelect t)) (h : LegLawBut none s) :
    LegLawBut none (s.beginSwitch k x) := by
  obtain ⟨h1, h2, h3, h4, h5⟩ := h
  have hg : ∀ n : SegId, (s.beginSwitch k x).segs[n] = { s.segs[n] with pauseSetting := true } := by
    intro n; simp [State.beginSwitch]
  refine ⟨fun n => ?_, fun n r hn hr ho => ?_, h3, fun n j hj => ?_, fun j hj => ?_⟩
  · rw [hg]; exact h1 n
  · rw [hg] at hr; exact h2 n r hn hr ho
  · rw [hg] at hj; exact h4 n j hj
  · cases hj; exact hk

theorem LegLawBut.takeClockSelect {s : State} (tag : Byte) (p : List Byte) (h : LegLawBut none s) :
    LegLawBut none (s.takeClockSelect tag p) := by
  refine h.deliver _ _ _ fun k a ha hb _ => ha.screened hb _ _ _ fun x b hb' hbare _ => ?_
  unfold State.carryClockSelect
  (repeat' split)
  · exact hb'.answerBare hbare _ _
  · exact hb'.answerBare hbare _ _
  · exact hb'.answerBare hbare _ _
  · exact hb'.beginSwitch ⟨by rw [hbare.slot]; rfl, x, by rw [hbare.slot]⟩

theorem LegLawBut.takeClockConfig {s : State} (tag : Byte) (p : List Byte) (h : LegLawBut none s) :
    LegLawBut none (s.takeClockConfig tag p) :=
  h.takePlain _ _ _ _ State.carryClockConfig fun k m a => by
    unfold State.carryClockConfig
    split
    · exact ⟨{ a with clock := { a.clock with frequency := m } }, _, _, Beside.of_eq rfl rfl rfl, rfl⟩
    · exact ⟨_, _, _, Beside.refl _, rfl⟩

/-! #### The soft reset -/

theorem LegLawBut.softReset {s : State} (h : LegLawBut none s) : LegLawBut none s.softReset := by
  have hslot : ∀ k : SlotId, s.softReset.slots[k] = Slot.freed := by intro k; simp [State.softReset]
  have hg : ∀ n : SegId, s.softReset.segs[n] = s.softSegment s.segs[n] := by intro n; simp [State.softReset]
  have hq : ∀ g : Segment, (s.softSegment g).queue = [] ∧
      (s.softSegment g).inProgress =
        g.inProgress.map (fun r => { r with orphan := s.orphanOf r, resetDropped := r.resetDropped || g.resetRequested }) ∧
      (∀ k, (s.softSegment g).clear.bind ClearRecord.owner ≠ some k) := by
    intro g
    unfold State.softSegment
    dsimp only
    split
    · exact ⟨rfl, rfl, fun k e => (by cases e)⟩
    · refine ⟨rfl, rfl, fun k e => ?_⟩
      cases hc : g.clear <;> simp [hc] at e
  refine ⟨fun n => ?_, fun n r hn hr ho => ?_, fun k => ?_, fun n k hk => ?_, fun k hk => ?_⟩
  · rw [hg, (hq _).1]; simp
  · exfalso
    rw [hg, (hq _).2.1] at hr
    cases hp : s.segs[n].inProgress with
    | none => rw [hp] at hr; cases hr
    | some q =>
      rw [hp] at hr
      obtain rfl := Option.some.inj hr
      change s.orphanOf q = none at ho
      unfold State.orphanOf at ho
      split at ho
      · cases ho
      · next hqo =>
        obtain ⟨-, l, hl, -⟩ := h.2.1 n q hn hp hqo
        rw [hl] at ho; cases ho
  · rw [hslot]
    exact ⟨fun role l hl => (by cases role <;> cases hl), fun p t hp => (by cases hp), fun p res hp => (by cases hp),
      fun _ => ⟨rfl, rfl, rfl⟩, fun ha => (by cases ha)⟩
  · rw [hg] at hk; exact absurd hk ((hq _).2.2 k)
  · cases hk

/-! #### Every request -/

theorem Beside.setWindow (s : State) (i : WindowId) (w : Window) : Beside s (s.setWindow i w) := Beside.of_eq rfl rfl rfl

theorem Beside.modUnit (s : State) (u : UnitId) (f : WatchUnit → WatchUnit) : Beside s (s.modUnit u f) := Beside.of_eq rfl rfl rfl

theorem Beside.rearm (s : State) (u : UnitId) : Beside s (s.rearm u) := by
  unfold State.rearm
  dsimp only
  (repeat' split) <;> exact Beside.of_eq rfl rfl rfl

theorem LegLawBut.takeUnknown {s : State} (type tag : Byte) (h : LegLawBut none s) : LegLawBut none (s.takeUnknown type tag) :=
  h.deliver type tag _ fun _ _ ha hb _ => ha.answerBare hb _ _

theorem LegLawBut.takeSetMode {s : State} (tag : Byte) (p : List Byte) (h : LegLawBut none s) : LegLawBut none (s.takeSetMode tag p) :=
  h.takePlain _ _ _ _ State.carrySetMode fun _ m a => ⟨{ a with log := { a.log with mode := m } }, _, _, Beside.of_eq rfl rfl rfl, rfl⟩

theorem LegLawBut.takeResume {s : State} (tag : Byte) (p : List Byte) (h : LegLawBut none s) : LegLawBut none (s.takeResume tag p) :=
  h.takePlain _ _ _ _ State.carryResume fun _ _ a =>
    ⟨{ a with log := { a.log with frozen := false } }, _, _, Beside.of_eq rfl rfl rfl, rfl⟩

theorem LegLawBut.takeClear {s : State} (tag : Byte) (p : List Byte) (h : LegLawBut none s) : LegLawBut none (s.takeClear tag p) :=
  h.takePlain _ _ _ _ State.carryClear fun _ _ a =>
    ⟨{ a with log := { a.log with entries := [], lost := false } }, _, _, Beside.of_eq rfl rfl rfl, rfl⟩

theorem LegLawBut.takeLogControl {s : State} (tag : Byte) (p : List Byte) (h : LegLawBut none s) :
    LegLawBut none (s.takeLogControl tag p) := by
  unfold State.takeLogControl
  (repeat' split)
  · exact h.takeUnknown _ _
  · exact h.takeSetMode _ _
  · exact h.takeResume _ _
  · exact h.takeClear _ _
  · exact h.takeUnknown _ _

/-- Every request keeps the law of the legs; the table of windows gives its two legs their segments. -/
theorem LegLawBut.takeRequest {s : State} (t : ReqType) (tag : Byte) (p : List Byte) (hr : RouteLaw s) (h : LegLawBut none s) :
    LegLawBut none (s.takeRequest t tag p) := by
  cases t
  case write => exact h.takeWrite _ _ hr
  case read => exact h.takeRead _ _ hr
  case probe => exact h.takeProbe _ _ hr
  case cancel => exact h.takeCancel _ _
  case routeSet =>
    refine h.takePlain _ _ _ _ State.carryRouteSet fun k f a => ?_
    unfold State.carryRouteSet
    split
    · exact ⟨_, _, _, Beside.setWindow a _ _, rfl⟩
    · exact ⟨_, _, _, Beside.refl a, rfl⟩
  case routeGet => exact h.takePlain _ _ _ _ State.carryRouteGet fun _ _ a => ⟨_, _, _, Beside.refl a, rfl⟩
  case routeDisable => exact h.takePlain _ _ _ _ State.carryRouteDisable fun _ _ a => ⟨_, _, _, Beside.setWindow a _ _, rfl⟩
  case segConfig => exact h.takeSegConfig _ _
  case segStatus => exact h.takePlain _ _ _ _ State.carrySegStatus fun _ _ a => ⟨_, _, _, Beside.refl a, rfl⟩
  case segReset => exact h.takeSegReset _ _
  case segResume => exact h.takeSegResume _ _
  case watchSet => exact h.takePlain _ _ _ _ State.carryWatchSet fun _ _ a => ⟨_, _, _, Beside.modUnit a _ _, rfl⟩
  case watchGet => exact h.takePlain _ _ _ _ State.carryWatchGet fun _ _ a => ⟨_, _, _, Beside.refl a, rfl⟩
  case watchRearm =>
    refine h.takePlain _ _ _ _ State.carryWatchRearm fun k u a => ?_
    unfold State.carryWatchRearm
    split
    · exact ⟨_, _, _, Beside.refl a, rfl⟩
    · exact ⟨_, _, _, Beside.rearm a u, rfl⟩
  case watchDisable => exact h.takePlain _ _ _ _ State.carryWatchDisable fun _ _ a => ⟨_, _, _, Beside.modUnit a _ _, rfl⟩
  case logRead =>
    exact h.takePlain _ _ _ _ State.carryLogRead fun _ n a => ⟨{ a with log := a.log.read n }, _, _, Beside.of_eq rfl rfl rfl, rfl⟩
  case logControl => exact h.takeLogControl _ _
  case clockConfig => exact h.takeClockConfig _ _
  case clockSelect => exact h.takeClockSelect _ _
  case clockStatus => exact h.takePlain _ _ _ _ State.carryClockStatus fun _ _ a => ⟨_, _, _, Beside.refl a, rfl⟩
  case status =>
    refine h.takePlain _ _ _ _ State.carryStatus fun k c a => ?_
    unfold State.carryStatus
    cases c
    · exact ⟨_, _, _, Beside.refl a, rfl⟩
    · exact ⟨a.clearFlags, _, _, Beside.of_eq rfl rfl rfl, rfl⟩
  case reset => exact h.deliver _ _ _ fun _ _ ha hb _ => ha.screened hb _ _ _ fun _ _ hb' _ _ => hb'.softReset

/-! ### Legs on the wires -/

theorem wireByte_leg {l : LegRecord} {r : Run} {buf : List Byte} {w : WireByte} {p : Run × List Byte} (h : wireByte l r buf w = some p) :
    p.1.leg = r.leg ∧ p.1.orphan = r.orphan := by
  have hc : (r.countByte l).leg = r.leg ∧ (r.countByte l).orphan = r.orphan := by
    unfold Run.countByte; dsimp only; split <;> exact ⟨rfl, rfl⟩
  unfold wireByte at h
  (repeat' split at h) <;> first
    | cases h; done
    | (cases h; first | exact hc | exact ⟨rfl, rfl⟩)

theorem wireBytes_leg {l : LegRecord} (ws : List WireByte) : ∀ {r : Run} {buf : List Byte} {p : Run × List Byte},
    wireBytes l r buf ws = some p → p.1.leg = r.leg ∧ p.1.orphan = r.orphan := by
  induction ws with
  | nil => intro r buf p h; cases h; exact ⟨rfl, rfl⟩
  | cons w ws ih =>
    intro r buf p h
    simp only [wireBytes] at h
    split at h
    · cases h
    · next q hq => exact ⟨(ih h).1.trans (wireByte_leg hq).1, (ih h).2.trans (wireByte_leg hq).2⟩

/-- A leg that ends is the leg that was in progress. -/
theorem legEnding_leg {l : LegRecord} {r : Run} {f : StopFields} {wd : List Byte} {bytes : List WireByte} {fin : LegFinish}
    {p : Run × List Byte × LegOutcome × LegEnding} (h : legEnding l r f wd bytes fin = some p) :
    p.1.leg = r.leg ∧ p.1.orphan = r.orphan := by
  unfold legEnding at h
  split at h
  · cases h
  · next r1 buf hw =>
    have hk := wireBytes_leg _ hw
    split at h
    · split at h
      · cases h
      · cases h; exact hk
    · split at h
      · cases h
      · next r2 hc =>
        cases h
        unfold conflictAt at hc
        (repeat' split at hc) <;> first
          | cases hc; done
          | (cases hc; exact hk)

/-- A leg whose stretch limit expires is the leg that was in progress. -/
theorem stretchAt_leg {l : LegRecord} {r : Run} {f : StopFields} {bytes : List WireByte} {place : StretchPlace} {p : Run × List Byte}
    (h : stretchAt l r f bytes place = some p) : p.1.leg = r.leg ∧ p.1.orphan = r.orphan := by
  unfold stretchAt at h
  split at h
  · cases h
  · next r1 buf hw =>
    have hk := wireBytes_leg _ hw
    (repeat' split at h) <;> first
      | cases h; done
      | (cases h; exact hk)

/-- A leg in progress that is no orphan stands nowhere else. -/
theorem LegLawBut.unplaced_of_run {s : State} {n : SegId} {r : Run} (hr : s.segs[n].inProgress = some r) (ho : r.orphan = none)
    (h : LegLawBut none s) : Unplaced (some n) s r.leg := by
  obtain ⟨-, l, hl, hn, hs⟩ := h.2.1 n r (by simp) hr ho
  refine ⟨fun m hm => ?_, fun m q hm hq hqo he => ?_⟩
  · obtain ⟨-, l', hl', -, hs'⟩ := (h.1 m).2 _ hm
    rw [hl] at hl'; cases hl'
    rw [hs] at hs'; cases hs'
  · obtain ⟨-, l', hl', hn', -⟩ := h.2.1 m q (by simp) hq hqo
    rw [he, hl] at hl'; cases hl'
    exact hm (by rw [← hn', hn])

theorem LegLawBut.except {s : State} (n : SegId) (h : LegLawBut none s) : LegLawBut (some n) s :=
  ⟨h.1, fun m r _ => h.2.1 m r (by simp), h.2.2⟩

/-- The record of the leg in progress reaches its slot, its segment still holding it. -/
theorem LegLawBut.completeRun {s : State} {n : SegId} {r q : Run} (hr : s.segs[n].inProgress = some r) (hl : q.leg = r.leg)
    (ho : q.orphan = r.orphan) (l : LegRecord) (w b : List Byte) (o : LegOutcome) (h : LegLawBut none s) :
    LegLawBut (some n) (s.completeRun q l w b o) := by
  unfold State.completeRun
  split
  · exact h.except n
  · next hq =>
    rw [hl]
    have hro : r.orphan = none := ho.symm.trans hq
    have hw := (h.2.1 n r (by simp) hr hro).1
    exact LegLawBut.deliverAll (p := (_, _)) ((h.except n).moveUnplaced _ (fun _ => ⟨rfl, rfl, rfl⟩) (h.unplaced_of_run hr hro)
      (fun ha => by rw [hw] at ha; cases ha))

theorem LegLawBut.noteResetLeg {e : Option SegId} {s : State} (n : SegId) (o : LegOutcome) (h : LegLawBut e s) :
    LegLawBut e (s.noteResetLeg n o) := by
  unfold State.noteResetLeg
  split
  · exact h
  · exact h.same (SameLegs.modSlot _ _ _ fun _ => ⟨rfl, rfl, rfl, rfl, rfl⟩)

/-- The leg in progress ends. -/
theorem LegLawBut.endRun {s : State} {n : SegId} {r q : Run} (hr : s.segs[n].inProgress = some r) (hl : q.leg = r.leg)
    (ho : q.orphan = r.orphan) (l : LegRecord) (w b : List Byte) (o : LegOutcome) (h : LegLawBut none s) :
    LegLawBut none (s.endRun n q l w b o) := by
  have h1 := h.completeRun hr hl ho l w b o
  unfold State.endRun
  dsimp only
  have h2 : LegLawBut (some n) (if s.segs[n].resetRequested then (s.completeRun q l w b o).noteResetLeg n o else s.completeRun q l w b o) := by
    split
    · exact h1.noteResetLeg n o
    · exact h1
  have h3 := h2.modSeg n Segment.endRun (List.Sublist.refl _) (fun x hx => by cases hx) (fun k hk => h2.2.2.2.1 n k hk)
  refine ⟨h3.1, fun m x _ hx hxo => ?_, h3.2.2⟩
  by_cases e : m = n
  · subst e; rw [State.modSeg_get, if_pos rfl] at hx; cases hx
  · exact h3.2.1 m x (by simpa using e) hx hxo

theorem State.resetSlot_owns {s : State} {n : SegId} {k : SlotId} (h : s.resetSlot n = some k) :
    s.slots[k].state = .working ∧ s.slots[k].request = some (.segReset n) := by
  have := State.isResetOf_of_resetSlot h
  simpa [Slot.isResetOf] using this

theorem LegLawBut.afterLeg {s : State} (n : SegId) (b : Bool) (e : LegEnding) (h : LegLawBut none s) :
    LegLawBut none (s.afterLeg n b e) := by
  unfold State.afterLeg
  split
  · split
    · exact h.beginResetClear n _ fun k hk => State.resetSlot_owns hk
    · exact h.decideNext n
  · refine h.beginClear n _ _ fun k hk => ?_
    split at hk
    · exact State.resetSlot_owns hk
    · cases hk

theorem LegLawBut.faultEntry {s : State} (n : SegId) (c : FaultCause) (h : LegLawBut none s) : LegLawBut none (s.faultEntry n c) := by
  unfold State.faultEntry
  dsimp only
  refine (((h.modSeg n _ (List.Sublist.refl _) (fun r hr => by cases hr) (fun k hk => ?_)).failQueued n .segmentFaulted).beside
    (Beside.offer _ _)).beside (Beside.raise _ _)
  exact h.2.2.2.1 n k (Segment.rest_owner s.segs[n] .faulted k hk)

theorem LegLawBut.afterStuckLeg {s : State} (n : SegId) (b : Bool) (h : LegLawBut none s) : LegLawBut none (s.afterStuckLeg n b) := by
  unfold State.afterStuckLeg
  dsimp only
  split
  · exact (h.faultEntry n .stuckClock).beginResetClear n _ fun k hk => State.resetSlot_owns hk
  · exact h.faultEntry n .stuckClock

theorem LegLawBut.withRun {s : State} (n : SegId) (f : Run → LegRecord × List Byte → State)
    (hf : ∀ r leg, s.segs[n].inProgress = some r → LegLawBut none (f r leg)) (h : LegLawBut none s) : LegLawBut none (s.withRun n f) :=
  Invariant.withRun s n f (fun r leg hr => hf r leg hr) h

theorem Beside.withWires (s : State) (w : Wires) : Beside s (s.withWires w) := Beside.of_eq rfl rfl rfl

theorem LegLawBut.traced {s : State} (n : SegId) (t : List BusSymbol) (h : LegLawBut none s) : LegLawBut none (s.traced n t) :=
  h.modSeg n _ (List.Sublist.refl _) (fun r hr hro _ => h.2.1 n r (by simp) hr hro) (fun k hk => h.2.2.2.1 n k hk)

theorem LegLawBut.clearTraced {s : State} (n : SegId) (t : List BusSymbol) (h : LegLawBut none s) : LegLawBut none (s.clearTraced n t) :=
  h.modSeg n _ (List.Sublist.refl _) (fun r hr hro _ => h.2.1 n r (by simp) hr hro) (fun k hk => h.2.2.2.1 n k hk)

/-- The leg in progress stays when the trace grows. -/
theorem State.traced_run {s : State} {n : SegId} {r : Run} (t : List BusSymbol) (hr : s.segs[n].inProgress = some r) :
    (s.traced n t).segs[n].inProgress = some r := by rw [State.traced_get, if_pos rfl]; exact hr

/-- LEG_END keeps the law of the legs (R104). -/
theorem LegLawBut.legEnd {s : State} (n : SegId) (bytes : List WireByte) (fin : LegFinish) (w : Wires) (h : LegLawBut none s) :
    LegLawBut none (s.withRun n fun r leg => (s.withWires w).endLeg n r leg bytes fin) := by
  refine h.withRun n _ fun r leg hr => ?_
  have hw := h.beside (Beside.withWires s w)
  unfold State.endLeg
  split
  · exact hw
  · next hp =>
    have hk := legEnding_leg hp
    have hr' : (s.withWires w).segs[n].inProgress = some r := hr
    exact ((hw.traced n _).endRun (State.traced_run _ hr') hk.1 hk.2 _ _ _ _).afterLeg n _ _

/-- STRETCH_TIMEOUT keeps the law of the legs (R106). -/
theorem LegLawBut.storeRun {s : State} {n : SegId} {r q : Run} (hr : s.segs[n].inProgress = some r) (hl : q.leg = r.leg)
    (ho : q.orphan = r.orphan) (buf : List Byte) (h : LegLawBut none s) : LegLawBut none (s.storeRun n q buf) := by
  unfold State.storeRun
  split
  · exact h.modSeg n _ (List.Sublist.refl _) (fun x hx hxo => by cases hx; cases hxo) (fun k hk => h.2.2.2.1 n k hk)
  · next hq =>
    rw [hl]
    have h1 := h.same (SameLegs.modLeg s r.leg (fun l => { l with readData := buf }) fun _ => rfl)
    refine h1.modSeg n _ (List.Sublist.refl _) (fun x hx _ _ => ?_) (fun k hk => h1.2.2.2.1 n k hk)
    cases hx
    rw [hl]
    exact h1.2.1 n r (by simp) hr (ho.symm.trans hq)

theorem LegLawBut.endStuckLeg {s : State} {n : SegId} {r : Run} (hr : s.segs[n].inProgress = some r) (leg : LegRecord × List Byte)
    (h : LegLawBut none s) : LegLawBut none (s.endStuckLeg n r leg) := by
  unfold State.endStuckLeg
  split
  · exact (h.endRun hr rfl rfl _ _ _ _).afterStuckLeg n _
  · exact h
  · exact h

/-! ### Line checks and bus clears -/

theorem LegLawBut.recheck {s : State} (n : SegId) (h : LegLawBut none s) : LegLawBut none (s.recheck n) := by
  unfold State.recheck
  (repeat' split)
  · exact h.decideNext n
  · exact h.beginRun n
  · exact h.beginClear n _ _ fun k hk => by cases hk
  · exact h

/-- A slot does not own the bus clear of a segment. -/
def NotOwner (n : SegId) (k : SlotId) (s : State) : Prop := s.segs[n].clear.bind ClearRecord.owner ≠ some k

section

variable {n : SegId} {k : SlotId}

theorem NotOwner.modSeg {s : State} (m : SegId) (f : Segment → Segment)
    (hf : ∀ g, (f g).clear.bind ClearRecord.owner = some k → g.clear.bind ClearRecord.owner = some k) (h : NotOwner n k s) :
    NotOwner n k (s.modSeg m f) := by
  unfold NotOwner at h ⊢
  intro e
  rw [State.modSeg_get] at e
  split at e
  · next hm => subst hm; exact h (hf _ e)
  · exact h e

theorem NotOwner.of_segs {s t : State} (e : t.segs = s.segs) (h : NotOwner n k s) : NotOwner n k t := by
  unfold NotOwner at h ⊢; rw [e]; exact h

theorem NotOwner.beside {s t : State} (hst : Beside s t) (h : NotOwner n k s) : NotOwner n k t := by
  unfold NotOwner at h ⊢; rw [(hst.segs n).2.2]; exact h

theorem NotOwner.rest {s : State} (m : SegId) (st : SegState) (h : NotOwner n k s) : NotOwner n k (s.modSeg m fun g => g.rest st) :=
  h.modSeg m _ fun g e => Segment.rest_owner g st k e

theorem NotOwner.failQueue {s : State} (m : SegId) (o : LegOutcome) (h : NotOwner n k s) : NotOwner n k (s.failQueue m o).1 :=
  (h.modSeg m (fun g => { g with queue := [] }) fun _ e => e).of_segs (State.failLegs_segs ..)

theorem NotOwner.startLeg {s : State} (m : SegId) (h : NotOwner n k s) : NotOwner n k (s.startLeg m) := by
  have h3 := h.rest m .active
  unfold State.startLeg
  dsimp only
  split
  · unfold State.beginRun
    split
    · exact h3
    · exact NotOwner.modSeg (s := State.modLeg _ _ _) m _ (fun _ e => e) h3
  · exact h3.modSeg m _ fun _ e => by cases e
  · exact h3

theorem NotOwner.startDecision {s : State} (m : SegId) (h : NotOwner n k s) : NotOwner n k (s.startDecision m).1 := by
  have h2 := h.modSeg m Segment.applyPending fun g e => by
    have : g.applyPending.clear = g.clear := by unfold Segment.applyPending; split <;> rfl
    rw [← this]; exact e
  unfold State.startDecision
  split
  · dsimp only
    split
    · exact h2.startLeg m
    · exact (h2.rest m .off).failQueue m .segmentOff
  · exact h

/-- No slot comes to own the clear of a segment by a delivery or a start decision: a line check's clear has no owner (R118, R120). -/
theorem notOwner_deliverable (n : SegId) (k : SlotId) : Deliverable (NotOwner n k) where
  leg _ _ _ h := h.of_segs rfl
  offer _ _ h := h.of_segs rfl
  answer _ _ _ _ h := h.of_segs (State.answer_segs ..)
  work _ _ _ _ _ h := h.of_segs rfl
  watch s r u a h := h.beside (Beside.watchUnit s r u a)
  alert s x _ h := h.beside (Beside.raise s x)
  append _ r m _ _ h := (h.modSeg m (fun g => { g with queue := g.queue ++ [r] }) fun _ e => e).startDecision m

end

/-- A WORKING SEG_RESET whose clear has left CLEARING ends. -/
theorem LegLawBut.finishReset {s : State} {n : SegId} {k : SlotId} {x : Slot} (hs : s.slots[k] = x)
    (hq : x.request = some (.segReset n)) (ho : s.segs[n].clear.bind ClearRecord.owner ≠ some k) (res : ResultCode) (pulses : Nat)
    (st : SegState) (h : LegLawBut none s) : LegLawBut none (s.finishReset n k res pulses st) := by
  unfold State.finishReset
  dsimp only
  have h1 := h.beside (Beside.offer s (.segmentReset s.clock.timeBase n s.slots[k].tag res))
  have hq' : (s.offer (.segmentReset s.clock.timeBase n s.slots[k].tag res)).slots[k].request = some (.segReset n) := by
    show s.slots[k].request = _; rw [hs, hq]
  refine h1.answerFor k _ _ (by rw [hq']; rfl) (fun m hm => ?_) (fun t ht => ?_)
  · rw [hq'] at hm
    cases hm
    exact ho
  · rw [hq'] at ht; cases ht

/-- The slot that owns a clear holds no leg. -/
theorem LegLawBut.owner_legless {s : State} {n : SegId} {k : SlotId} (hk : s.segs[n].clear.bind ClearRecord.owner = some k)
    (h : LegLawBut none s) : s.slots[k].Legless ∧ s.slots[k].request = some (.segReset n) := by
  have hq := (h.2.2.2.1 n k hk).2
  exact ⟨(h.2.2.1 k).2.2.2.1 (by rw [hq]; rfl), hq⟩

theorem LegLawBut.resetSucceeds {s : State} {n : SegId} {k : SlotId} (hk : s.segs[n].clear.bind ClearRecord.owner = some k)
    (pulses : Nat) (h : LegLawBut none s) : LegLawBut none (s.resetSucceeds n k pulses) := by
  obtain ⟨hl, hq⟩ := h.owner_legless hk
  have hd := notOwner_deliverable n k
  have hrest : ∀ (a : State) (st : SegState), st ≠ .clearing → NotOwner n k (a.modSeg n fun g => g.rest st) := by
    intro a st hst e
    rw [State.modSeg_get, if_pos rfl] at e
    unfold Segment.rest Segment.goto at e
    rw [if_neg hst] at e; cases e
  have h1 := h.applyPending n
  unfold State.resetSucceeds
  dsimp only
  have hs1 : (s.modSeg n Segment.applyPending).slots[k] = s.slots[k] := rfl
  generalize s.modSeg n Segment.applyPending = a at h1 hs1 ⊢
  split
  · have hs2 : ((a.modSeg n fun g => g.rest .idle).decideStart n).slots[k] = s.slots[k] := State.decideStart_legless hl _ n hs1
    exact ((h1.rest n .idle).decideStart n).finishReset hs2 hq
      (hd.deliverAll _ ((hrest a .idle (by decide)).startDecision n)) _ _ _
  · have hs2 : (Machine.deliverAll (a.switchOff n)).slots[k] = s.slots[k] :=
      deliverAll_legless hl _ (State.failLegs_legless hl _ _ _ hs1)
    exact (LegLawBut.deliverAll (p := a.switchOff n) (h1.switchOff n)).finishReset hs2 hq
      (hd.deliverAll _ ((hrest a .off (by decide)).failQueue n .segmentOff)) _ _ _

/-- A bus clear succeeds (R123). -/
theorem LegLawBut.clearSucceeds {s : State} {n : SegId} {c : ClearRecord} (hc : s.segs[n].clear = some c) (pulses : Nat)
    (h : LegLawBut none s) : LegLawBut none (s.clearSucceeds n c pulses) := by
  have h1 : LegLawBut none (s.modSeg n fun g => { g with clear := some { c with pulses } }) :=
    h.modSeg n _ (List.Sublist.refl _) (fun r hr ho hn => h.2.1 n r hn hr ho)
      (fun k hk => h.2.2.2.1 n k (by rw [hc]; exact hk))
  unfold State.clearSucceeds
  dsimp only
  split
  · exact h1.decideNext n
  · next k hk => exact h1.resetSucceeds (by rw [State.modSeg_get, if_pos rfl]; exact hk) pulses

/-- A bus clear fails (R123). -/
theorem LegLawBut.clearFails {s : State} {n : SegId} {c : ClearRecord} (hc : s.segs[n].clear = some c) (cause : FaultCause)
    (pulses : Nat) (h : LegLawBut none s) : LegLawBut none (s.clearFails n c cause pulses) := by
  have h1 := h.faultEntry n cause
  unfold State.clearFails
  dsimp only
  split
  · exact h1
  · next k hk =>
    obtain ⟨hl, hq⟩ := h.owner_legless (n := n) (k := k) (by rw [hc]; exact hk)
    have hf : NotOwner n k (s.modSeg n fun g => { g.rest .faulted with lastFault := cause, inProgress := none }) := by
      intro e
      rw [State.modSeg_get, if_pos rfl] at e
      cases e
    have ho : NotOwner n k (s.faultEntry n cause) :=
      (((notOwner_deliverable n k).deliverAll _ (hf.failQueue n .segmentFaulted)).beside (Beside.offer _ _)).beside (Beside.raise _ _)
    have hs : (s.faultEntry n cause).slots[k] = s.slots[k] := by
      unfold State.faultEntry
      dsimp only
      rw [(Beside.raise _ _).slots]
      exact State.failQueued_legless hl _ _ _ rfl
    exact h1.finishReset hs hq ho _ _ _

theorem LegLawBut.withClear {s : State} (n : SegId) (f : ClearRecord → State)
    (hf : ∀ c, s.segs[n].clear = some c → LegLawBut none (f c)) (h : LegLawBut none s) : LegLawBut none (s.withClear n f) := by
  unfold State.withClear
  split
  · exact h
  · next c hc =>
    split
    · exact hf c hc
    · exact h

/-- BUS_CLEAR_END keeps the law of the legs (R122, R123). -/
theorem LegLawBut.clearEnd {s : State} (n : SegId) (reads : List Bool) (w : Wires) (h : LegLawBut none s) :
    LegLawBut none (s.withClear n fun c =>
      match clearEnding reads with
      | none => s.withWires w
      | some (pulses, none) => ((s.withWires (freedWires w n)).clearTraced n (endedClearTrace reads)).clearSucceeds n c pulses
      | some (pulses, some cause) => ((s.withWires w).clearTraced n (endedClearTrace reads)).clearFails n c cause pulses) := by
  refine h.withClear n _ fun c hc => ?_
  split
  · exact h.beside (Beside.withWires s w)
  · exact ((h.beside (Beside.withWires s _)).clearTraced n _).clearSucceeds (by rw [State.clearTraced_clear]; exact hc) _
  · exact ((h.beside (Beside.withWires s w)).clearTraced n _).clearFails (by rw [State.clearTraced_clear]; exact hc) _ _

/-- BUS_CLEAR_TIMEOUT keeps the law of the legs (R120, R121, R122). -/
theorem LegLawBut.clearTimeout {s : State} (n : SegId) (reads : List Bool) (w : Wires) (h : LegLawBut none s) :
    LegLawBut none (s.withClear n fun c =>
      match clearWaiting reads with
      | none => s.withWires w
      | some pulses => ((s.withWires w).clearTraced n (heldClearTrace reads)).clearFails n c .stuckClock pulses) := by
  refine h.withClear n _ fun c hc => ?_
  split
  · exact h.beside (Beside.withWires s w)
  · exact ((h.beside (Beside.withWires s w)).clearTraced n _).clearFails (by rw [State.clearTraced_clear]; exact hc) _ _

/-! ### The clock unit -/

theorem Beside.setSource (s : State) (src : Source) (why : SwitchReason) : Beside s (s.setSource src why) := Beside.of_eq rfl rfl rfl

theorem Beside.raiseClockEvent (s : State) (e : ClockEventKind) : Beside s (s.raiseClockEvent e) := Beside.raise _ _

/-- No slot owns a change of source. -/
def Unowned (s : State) : Prop := s.clock.selectOwner = none

theorem Unowned.of_clock {s t : State} (e : t.clock = s.clock) (h : Unowned s) : Unowned t := by
  unfold Unowned at h ⊢; rw [e]; exact h

theorem Unowned.beside {s t : State} (hst : Beside s t) (h : Unowned s) : Unowned t := hst.select.trans h

theorem Unowned.startDecision {s : State} (m : SegId) (h : Unowned s) : Unowned (s.startDecision m).1 := by
  have hf : ∀ (o : LegOutcome) (rs : List LegRef) (a : State), (State.failLegs o rs a).1.clock = a.clock := by
    intro o rs
    induction rs with
    | nil => intro a; rfl
    | cons r rs ih =>
      intro a
      refine (ih _).trans ?_
      unfold State.failLeg; split <;> rfl
  unfold State.startDecision
  split
  · dsimp only
    split
    · unfold State.startLeg
      dsimp only
      split
      · unfold State.beginRun; split <;> exact h
      · exact h
      · exact h
    · exact h.of_clock (hf ..)
  · exact h

/-- No slot comes to own a change of source by a delivery. -/
theorem unowned_deliverable : Deliverable Unowned where
  leg _ _ _ h := h
  offer _ _ h := h
  answer _ _ _ _ h := h.of_clock (by unfold State.answer; split <;> rfl)
  work _ _ _ _ _ h := h
  watch s r u a h := h.beside (Beside.watchUnit s r u a)
  alert s x _ h := h.beside (Beside.raise s x)
  append _ _ m _ _ h := Unowned.startDecision m h

theorem Beside.unpauseAll (s : State) : Beside s s.unpauseAll :=
  ⟨rfl, fun n => by rw [State.unpauseAll_get]; exact ⟨rfl, rfl, rfl⟩, rfl⟩

theorem LegLawBut.decideAll {s : State} (h : LegLawBut none s) : LegLawBut none s.decideAll :=
  (((h.decideStart 0).decideStart 1).decideStart 2).decideStart 3

theorem Unowned.decideStart {s : State} (m : SegId) (h : Unowned s) : Unowned (s.decideStart m) :=
  unowned_deliverable.deliverAll _ (h.startDecision m)

theorem Unowned.decideAll {s : State} (h : Unowned s) : Unowned s.decideAll :=
  (((h.decideStart 0).decideStart 1).decideStart 2).decideStart 3

theorem State.decideAll_legless {k : SlotId} {x : Slot} (hx : x.Legless) (s : State) (h : s.slots[k] = x) : s.decideAll.slots[k] = x :=
  State.decideStart_legless hx _ _ (State.decideStart_legless hx _ _ (State.decideStart_legless hx _ _
    (State.decideStart_legless hx _ _ h)))

/-- A change of source ends (R178, R179). -/
theorem LegLawBut.endSwitch {s : State} (x : Source) (res : ResultCode) (h : LegLawBut none s) : LegLawBut none (s.endSwitch x res) := by
  have h1 : LegLawBut none ({ s with clock := s.clock.steady } : State) := ⟨h.1, h.2.1, h.2.2.1, h.2.2.2.1, fun _ hk => by cases hk⟩
  have h2 := (h1.beside (Beside.unpauseAll _)).decideAll
  unfold State.endSwitch
  dsimp only
  split
  · exact h2
  · next k hk =>
    obtain ⟨-, t, ht⟩ := h.2.2.2.2 k hk
    have hl : s.slots[k].Legless := (h.2.2.1 k).2.2.2.1 (by rw [ht]; rfl)
    have hs : ({ s with clock := s.clock.steady } : State).unpauseAll.decideAll.slots[k] = s.slots[k] := State.decideAll_legless hl _ rfl
    have hu : Unowned ({ s with clock := s.clock.steady } : State).unpauseAll.decideAll :=
      Unowned.decideAll (s := ({ s with clock := s.clock.steady } : State).unpauseAll) rfl
    refine h2.answerFor k _ _ (by rw [hs, ht]; rfl) (fun n hn => ?_) (fun _ _ e => ?_)
    · rw [hs, ht] at hn; cases hn
    · rw [hu] at e; cases e

theorem LegLawBut.completeSwitch {s : State} (x : Source) (h : LegLawBut none s) : LegLawBut none (s.completeSwitch x) :=
  (h.beside (Beside.setSource _ _ _)).endSwitch x .ok

theorem LegLawBut.lossFallback {s : State} (h : LegLawBut none s) : LegLawBut none s.lossFallback := by
  unfold State.lossFallback
  split
  · exact h.beside (Beside.setSource _ _ _)
  · exact (h.beside (Beside.setSource _ _ _)).endSwitch _ _
  · exact h.beside (Beside.setSource _ _ _)
  · exact h.endSwitch _ _
  · exact h
  · exact h

theorem Beside.dropReport (s : State) (n : SegId) : Beside s (s.dropReport n) := Beside.modSeg _ _ _ fun _ => ⟨rfl, rfl, rfl⟩

theorem Beside.setAwaited (s : State) (n : SegId) (b : Bool) : Beside s (s.setAwaited n b) := Beside.of_eq rfl rfl rfl

theorem LegLawBut.takeReport {s : State} (n : SegId) (h : LegLawBut none s) : LegLawBut none (s.takeReport n) := by
  unfold State.takeReport
  dsimp only
  split
  · exact h
  · split
    · exact (h.beside (Beside.setAwaited s n false)).completeSwitch _
    · exact h.beside (Beside.setAwaited s n false)

theorem Beside.takeWithdrawal (s : State) (n : SegId) : Beside s (s.takeWithdrawal n) := by
  unfold State.takeWithdrawal
  split
  · exact Beside.refl s
  · exact Beside.setAwaited s n true

/-! ### The link port -/

theorem Beside.beginMessage (s : State) : Beside s s.beginMessage := by
  unfold State.beginMessage; split <;> exact Beside.of_eq rfl rfl rfl

theorem Beside.chooseByte (s : State) : Beside s s.chooseByte := by
  unfold State.chooseByte
  split
  · exact Beside.beginMessage s
  · exact Beside.refl s

/-- A reply sent whole is that of an ANSWERED slot. -/
theorem LegLawBut.sendWhole {s : State} (ho : ∀ k : SlotId, 0 < s.replyCount k → s.slots[k].state = .answered) (h : LegLawBut none s) :
    LegLawBut none s.sendWhole := by
  unfold State.sendWhole
  split
  · exact h
  split
  · exact h.beside (Beside.of_eq rfl rfl rfl)
  · next m rest hq =>
    have h1 : LegLawBut none ({ s with link := { s.link with outFrame := none, queue := rest } } : State) :=
      h.beside (Beside.of_eq rfl rfl rfl)
    unfold State.afterRemoval
    split
    · next k hk =>
      refine h1.releaseSlot k (ho k ?_)
      unfold State.replyCount
      rw [hq, List.countP_cons, if_pos (by rw [hk]; simp)]
      omega
    · exact h1.beside (Beside.releaseHeld _ _)

theorem OutboundLaw.answered_of_reply {s : State} (h : OutboundLaw s) (k : SlotId) (hk : 0 < s.replyCount k) :
    s.slots[k].state = .answered := by
  have := h.1 k
  split at this
  · assumption
  · omega

theorem LegLawBut.takeBody {s : State} (body : List Byte) (hr : RouteLaw s) (h : LegLawBut none s) : LegLawBut none (s.takeBody body) := by
  unfold State.takeBody
  (repeat' split)
  · exact h.takeUnknown _ _
  · exact h.takeRequest _ _ _ hr
  · exact h

theorem LegLawBut.inboundByte {s : State} (b : Byte) (hr : RouteLaw s) (h : LegLawBut none s) : LegLawBut none (s.inboundByte b) := by
  have h1 : LegLawBut none ({ s with link := { s.link with assembler := (s.link.assembler.take b).1 } } : State) :=
    h.beside (Beside.of_eq rfl rfl rfl)
  unfold State.inboundByte State.takeInbound
  dsimp only
  split
  · exact h1
  · exact h1.beside (Beside.of_eq rfl rfl rfl)
  · exact h1.takeBody _ (hr.of_windows rfl)

/-- SELECT_RELEASE keeps the law of the legs (R187, R191, R192). -/
theorem LegLawBut.releaseFrame {s : State} (ho : ∀ k : SlotId, 0 < s.replyCount k → s.slots[k].state = .answered) (h : LegLawBut none s) :
    LegLawBut none s.truncate.releaseFrame := by
  have ht : Beside s s.truncate ∧ s.truncate.link.queue = s.link.queue := by
    unfold State.truncate
    split
    · exact ⟨Beside.refl s, rfl⟩
    · exact ⟨Beside.of_eq rfl rfl rfl, rfl⟩
  have h1 := h.beside ht.1
  have ho1 : ∀ k : SlotId, 0 < s.truncate.replyCount k → s.truncate.slots[k].state = .answered := by
    intro k hk
    unfold State.replyCount at hk
    rw [ht.2] at hk
    rw [ht.1.slots]; exact ho k hk
  generalize s.truncate = a at h1 ho1
  unfold State.releaseFrame
  (repeat' split)
  · exact h1
  · exact h1.sendWhole ho1
  · exact h1.beside (Beside.of_eq rfl rfl rfl)

end Sys2Proof.Machine
end

