-- ==== Sys2Proof/Laws/SegLaw.lean ====
section
/-! SUPPORT. What single operations, and the segment steps of `Invariant`, do to the law of the segments. -/

namespace Sys2Proof.Machine

theorem SegLaw.of_segs {s t : State} (ht : ∀ n : SegId, s.segs[n].Lawful → t.segs[n].Lawful) (h : SegLaw s) : SegLaw t := fun n => ht n (h n)

theorem SegLaw.modSeg {s : State} (n : SegId) (f : Segment → Segment) (hf : (f s.segs[n]).Lawful) (h : SegLaw s) : SegLaw (s.modSeg n f) := by
  intro m; rw [State.modSeg_get]; split
  · exact hf
  · exact h m

theorem SegLaw.setHeld {s : State} (src : NoticeSource) (o : Option Notice) (h : SegLaw s) : SegLaw (s.setHeld src o) := by
  cases src
  · exact h
  · exact h.modSeg _ _ (h _)
  · exact h
  · exact h

theorem SegLaw.raise {s : State} (x : Notice) (h : SegLaw s) : SegLaw (s.raise x) := by
  unfold State.raise
  (repeat' split)
  · exact h.setHeld _ _
  · exact h
  · exact h.setHeld _ _
  · exact h

theorem SegLaw.releaseHeld {s : State} (x : NoticeSource) (h : SegLaw s) : SegLaw (s.releaseHeld x) := by
  unfold State.releaseHeld
  split
  · exact h
  · exact (h.setHeld _ _ : SegLaw (s.setHeld _ _))

theorem SegLaw.watchUnit {s : State} (r : RecordCopy) (u : UnitId) (a : Bool) (h : SegLaw s) : SegLaw (State.watchUnit r u a s) := by
  unfold State.watchUnit
  split
  · split
    · exact h
    · unfold State.fire; dsimp only
      have h2 : SegLaw (((s.modUnit u fun w => { w with evtTimer := some Config.evtMicroseconds }).offer ((s.modUnit u fun w => { w with evtTimer := some Config.evtMicroseconds }).fireMarker u r)).armSuccessor u) := by
        unfold State.armSuccessor; split <;> exact h
      revert h2
      generalize (((s.modUnit u fun w => { w with evtTimer := some Config.evtMicroseconds }).offer ((s.modUnit u fun w => { w with evtTimer := some Config.evtMicroseconds }).fireMarker u r)).armSuccessor u) = s2
      intro h2
      unfold State.watchAction
      split
      · exact h2
      · exact h2.raise _
      · exact h2.raise _
      · have := h2.raise (.watchHit u s2.units[u].setup.action 1 r)
        exact SegLaw.modSeg (s := s2.raiseHit u r) r.segment (fun g => { g with hold := true }) (this _) this
      · exact h2
  · exact h

theorem SegLaw.answer {s : State} (k : SlotId) (r : ResultCode) (f : List Byte) (h : SegLaw s) : SegLaw (s.answer k r f) := by
  unfold State.answer; split <;> exact h

/-- Reset-requested is clear where no leg is in progress. -/
theorem Segment.Lawful.noReset {g : Segment} (h : g.Lawful) (hn : g.inProgress = none) : g.resetRequested = false := by
  have := h.2.2.2.2.1
  rw [hn] at this
  cases hr : g.resetRequested
  · rfl
  · exact absurd (this hr) (by simp)

theorem Segment.Lawful.active_of_run {g : Segment} (h : g.Lawful) (hn : g.inProgress.isSome = true) : g.state = .active := h.2.1 hn

theorem Segment.Lawful.idle_noRun {g : Segment} (h : g.Lawful) (hn : g.state ≠ .active) : g.inProgress = none := by
  cases hr : g.inProgress
  · rfl
  · exact absurd (h.2.1 (by rw [hr]; rfl)) hn

theorem SegLaw.modLeg {s : State} (r : LegRef) (f : LegRecord → LegRecord) (h : SegLaw s) : SegLaw (s.modLeg r f) := h

theorem SegLaw.failQueue {s : State} (n : SegId) (o : LegOutcome) (h : SegLaw s) : SegLaw (s.failQueue n o).1 := by
  have : SegLaw (s.modSeg n fun g => { g with queue := [] }) := h.modSeg _ _ (by
    obtain ⟨a1, a2, a3, a4, a5, a6, a7, a8⟩ := h n
    exact ⟨fun _ => rfl, a2, a3, a4, a5, a6, a7, a8⟩)
  intro m; unfold State.failQueue; rw [State.failLegs_segs]; exact this m

/-- Failing the queue after a change that is lawful with an empty queue. -/
theorem SegLaw.failQueue_after {s : State} (n : SegId) (f : Segment → Segment) (o) (hf : ({ f s.segs[n] with queue := [] } : Segment).Lawful) (h : SegLaw s) : SegLaw ((s.modSeg n f).failQueue n o).1 := by
  intro m; unfold State.failQueue; rw [State.failLegs_segs, State.modSeg_get]
  split
  · rw [State.modSeg_get, if_pos rfl]; exact hf
  · next e => rw [State.modSeg_get, if_neg e]; exact h m

theorem Segment.lawful_clear {g : Segment} (h : g.Lawful) (hn : g.inProgress = none) (c : ClearRecord) :
   ({ g.rest .clearing with clear := some c } : Segment).Lawful := by
  have hr := h.noReset hn
  refine ⟨by simp [Segment.rest, Segment.goto], ?_, by simp [Segment.rest, Segment.goto], by simp [Segment.rest, Segment.goto],
   ?_, by simp [Segment.rest, Segment.goto], by simp [Segment.rest, Segment.goto], by simp [Segment.rest, Segment.goto]⟩
  · simp [Segment.rest, Segment.goto, hn]
  · simp [Segment.rest, Segment.goto, hr]

theorem SegLaw.beginClear {s : State} (n : SegId) (p : ClearPurpose) (o : Option SlotId) (hn : s.segs[n].inProgress = none) (h : SegLaw s) : SegLaw (s.beginClear n p o) :=
  h.modSeg _ _ (Segment.lawful_clear (h n) hn _)

/-- The start of a leg on an enabled segment with none in progress. -/
theorem SegLaw.startLeg_of {s : State} (n : SegId) (hn : s.segs[n].inProgress = none) (hr : s.segs[n].resetRequested = false)
   (he : s.segs[n].stored.enable = true) (ho : ∀ m, m ≠ n → s.segs[m].Lawful) : SegLaw (s.startLeg n) := by
  have ha : SegLaw (s.modSeg n fun g => g.rest .active) := by
    intro m; rw [State.modSeg_get]; split
    · refine ⟨?_, ?_, ?_, ?_, ?_, ?_, ?_, ?_⟩ <;> simp [Segment.rest, Segment.goto] <;> simp_all
    · next e => exact ho m e
  have hg : (s.modSeg n fun g => g.rest .active).segs[n] = s.segs[n].rest .active := by rw [State.modSeg_get, if_pos rfl]
  unfold State.startLeg; dsimp only
  split
  · unfold State.beginRun
    split
    · exact ha
    · refine SegLaw.modSeg (s := State.modLeg _ _ _) _ _ ?_ ha
      show (Segment.Lawful { (s.modSeg n fun g => g.rest .active).segs[n] with queue := _, inProgress := _, drive := _ })
      rw [hg]
      refine ⟨?_, ?_, ?_, ?_, ?_, ?_, ?_, ?_⟩ <;> simp [Segment.rest, Segment.goto] <;> simp_all
  · exact ha.beginClear _ _ _ (by rw [hg]; exact hn)
  · exact ha

theorem Segment.applyPending_queue (g : Segment) : g.applyPending.queue = g.queue ∧ g.applyPending.inProgress = g.inProgress ∧ g.applyPending.resetRequested = g.resetRequested ∧ g.applyPending.pendingCfg = none ∧ g.applyPending.state = g.state ∧ g.applyPending.clear = g.clear := by
  unfold Segment.applyPending; split
  · next h => exact ⟨rfl, rfl, rfl, h, rfl, rfl⟩
  · exact ⟨rfl, rfl, rfl, rfl, rfl, rfl⟩

theorem Segment.applyPending_none {g : Segment} (h : g.pendingCfg = none) : g.applyPending = g := by
  unfold Segment.applyPending; rw [h]

theorem SegLaw.startDecision {s : State} (n : SegId) (h : SegLaw s) : SegLaw (s.startDecision n).1 := by
  unfold State.startDecision; dsimp only
  split
  · next hc =>
    simp only [Bool.and_eq_true, decide_eq_true_eq] at hc
    have hst := hc.1
    obtain ⟨a1, a2, a3, a4, a5, a6, a7, a8⟩ := id (h n)
    have hg : (s.modSeg n Segment.applyPending).segs[n] = s.segs[n] := by
      rw [State.modSeg_get, if_pos rfl, Segment.applyPending_none (a8 (Or.inr hst))]
    have he := a6 (Or.inl hst)
    rw [hg, if_pos he]
    have hn := (h n).idle_noRun (by rw [hst]; decide)
    refine SegLaw.startLeg_of n (by rw [hg]; exact hn) (by rw [hg]; exact (h n).noReset hn) (by rw [hg]; exact he) ?_
    intro m hm; rw [State.modSeg_get, if_neg hm]; exact h m
  · exact h

theorem Segment.lawful_off {g : Segment} (hn : g.inProgress = none) (hr : g.resetRequested = false) (he : g.stored.enable = false)
   (hp : g.pendingCfg = none) : ({ g.rest .off with queue := [] } : Segment).Lawful := by
  refine ⟨?_, ?_, ?_, ?_, ?_, ?_, ?_, ?_⟩ <;> simp [Segment.rest, Segment.goto] <;> simp_all

theorem Segment.lawful_idle {g : Segment} (hn : g.inProgress = none) (hr : g.resetRequested = false) (he : g.stored.enable = true)
   (hp : g.pendingCfg = none) : (g.rest .idle : Segment).Lawful := by
  refine ⟨?_, ?_, ?_, ?_, ?_, ?_, ?_, ?_⟩ <;> simp [Segment.rest, Segment.goto] <;> simp_all

theorem SegLaw.switchOff_of {s : State} (n : SegId) (hn : s.segs[n].inProgress = none) (hr : s.segs[n].resetRequested = false)
   (he : s.segs[n].stored.enable = false) (hp : s.segs[n].pendingCfg = none) (ho : ∀ m, m ≠ n → s.segs[m].Lawful) : SegLaw (s.switchOff n).1 := by
  intro m; unfold State.switchOff State.failQueue; rw [State.failLegs_segs, State.modSeg_get]
  split
  · rw [State.modSeg_get, if_pos rfl]; exact Segment.lawful_off hn hr he hp
  · next e => rw [State.modSeg_get, if_neg e]; exact ho m e

theorem SegLaw.legDecision_of {s : State} (n : SegId) (hn : s.segs[n].inProgress = none) (hr : s.segs[n].resetRequested = false) (ho : ∀ m, m ≠ n → s.segs[m].Lawful) : SegLaw (s.legDecision n).1 := by
  unfold State.legDecision; dsimp only
  obtain ⟨b1, b2, b3, b4, b5, b6⟩ := s.segs[n].applyPending_queue
  have hg : (s.modSeg n Segment.applyPending).segs[n] = s.segs[n].applyPending := by rw [State.modSeg_get, if_pos rfl]
  have ho' : ∀ m, m ≠ n → (s.modSeg n Segment.applyPending).segs[m].Lawful := by
    intro m hm; rw [State.modSeg_get, if_neg hm]; exact ho m hm
  generalize s.modSeg n Segment.applyPending = a at hg ho'
  split
  · next he =>
    split
    · exact SegLaw.startLeg_of n (by rw [hg, b2, hn]) (by rw [hg, b3, hr]) he ho'
    · intro m; rw [State.modSeg_get]; split
      · exact Segment.lawful_idle (by rw [hg, b2, hn]) (by rw [hg, b3, hr]) he (by rw [hg, b4])
      · next e => exact ho' m e
  · next he => exact SegLaw.switchOff_of n (by rw [hg, b2, hn]) (by rw [hg, b3, hr]) (by simpa using he) (by rw [hg, b4]) ho'

theorem segDeliverable : Deliverable SegLaw where
  leg _ _ _ h := h
  offer _ _ h := h
  answer _ _ _ _ h := h.answer _ _ _
  work _ _ _ _ _ h := h
  watch _ r u a h := h.watchUnit r u a
  alert _ x _ h := h.raise x
  append s r n h1 h2 h := by
    refine SegLaw.startDecision n (h.modSeg _ _ ?_)
    obtain ⟨a1, a2, a3, a4, a5, a6, a7, a8⟩ := h n
    exact ⟨fun hc => by rcases hc with hc | hc; exact absurd hc h1; exact absurd hc h2, a2, a3, a4, a5, a6, a7, a8⟩

/-- A lawful state with a segment in FAULTED. -/
def Faulted (n : SegId) (s : State) : Prop := SegLaw s ∧ s.segs[n].state = .faulted

theorem raise_state (s : State) (x : Notice) (n : SegId) : (s.raise x).segs[n].state = s.segs[n].state := by
  have hh : ∀ src o, (s.setHeld src o).segs[n].state = s.segs[n].state := by
    intro src o; cases src
    case segment m => simp only [State.setHeld, State.modSeg_get]; split <;> simp_all
    all_goals rfl
  unfold State.raise; (repeat' split)
  · exact hh _ _
  · rfl
  · exact hh _ _
  · rfl

theorem watch_state (s : State) (r : RecordCopy) (u : UnitId) (a : Bool) (n : SegId) : (State.watchUnit r u a s).segs[n].state = s.segs[n].state := by
  unfold State.watchUnit
  split
  · split
    · rfl
    · unfold State.fire; dsimp only
      have h2 : (((s.modUnit u fun w => { w with evtTimer := some Config.evtMicroseconds }).offer ((s.modUnit u fun w => { w with evtTimer := some Config.evtMicroseconds }).fireMarker u r)).armSuccessor u).segs = s.segs := by
        unfold State.armSuccessor; split <;> rfl
      rw [← h2]
      generalize (((s.modUnit u fun w => { w with evtTimer := some Config.evtMicroseconds }).offer ((s.modUnit u fun w => { w with evtTimer := some Config.evtMicroseconds }).fireMarker u r)).armSuccessor u) = s2
      unfold State.watchAction
      split
      · rfl
      · exact raise_state _ _ _
      · exact raise_state _ _ _
      · show ((s2.raiseHit u r).modSeg r.segment fun g => { g with hold := true }).segs[n].state = _
        rw [State.modSeg_get]
        split
        · next e => subst e; exact raise_state _ _ _
        · exact raise_state _ _ _
      · rfl
  · rfl

theorem startDecision_cases (s : State) (n : SegId) : s.startDecision n = (s, []) ∨
   s.startDecision n = ((s.modSeg n Segment.applyPending).startLeg n, []) ∨ s.startDecision n = (s.modSeg n Segment.applyPending).switchOff n := by
  unfold State.startDecision; dsimp only; (repeat' split) <;> simp

theorem startLeg_other (s : State) (n m : SegId) (hm : m ≠ n) : (s.startLeg n).segs[m].state = s.segs[m].state := by
  unfold State.startLeg; dsimp only
  split
  · unfold State.beginRun; split
    · simp only [State.modSeg_get, if_neg hm]
    · simp only [State.modSeg_get, if_neg hm]
      show (s.modSeg n fun g => g.rest .active).segs[m].state = _
      simp only [State.modSeg_get, if_neg hm]
  · unfold State.beginClear
    simp only [State.modSeg_get, if_neg hm]
  · simp only [State.modSeg_get, if_neg hm]

theorem switchOff_other (s : State) (n m : SegId) (hm : m ≠ n) : (s.switchOff n).1.segs[m].state = s.segs[m].state := by
  unfold State.switchOff State.failQueue
  rw [State.failLegs_segs]
  simp only [State.modSeg_get, if_neg hm]

theorem startDecision_other (s : State) (n m : SegId) (hm : m ≠ n) : (s.startDecision n).1.segs[m].state = s.segs[m].state := by
  have hp : (s.modSeg n Segment.applyPending).segs[m] = s.segs[m] := by rw [State.modSeg_get, if_neg hm]
  rcases startDecision_cases s n with e | e | e <;> rw [e]
  · rw [startLeg_other _ _ _ hm, hp]
  · rw [switchOff_other _ _ _ hm, hp]

theorem faultedDeliverable (n : SegId) : Deliverable (Faulted n) where
  leg _ _ _ h := h
  offer _ _ h := h
  answer s k r f h := ⟨h.1.answer _ _ _, by have := h.2; unfold State.answer; split <;> exact this⟩
  work _ _ _ _ _ h := h
  watch s r u a h := ⟨h.1.watchUnit r u a, by rw [watch_state]; exact h.2⟩
  alert s x _ h := ⟨h.1.raise x, by rw [raise_state]; exact h.2⟩
  append s r m h1 h2 h := by
    refine ⟨segDeliverable.append s r m h1 h2 h.1, ?_⟩
    have hm : n ≠ m := by rintro rfl; exact h2 h.2
    unfold State.appendLeg
    rw [startDecision_other _ _ _ hm, State.modSeg_get, if_neg hm]; exact h.2

theorem SegLaw.faultEntry_full {s : State} (n : SegId) (c : FaultCause) (hn : s.segs[n].inProgress = none) (h : SegLaw s) : Faulted n (s.faultEntry n c) := by
  have hr := (h n).noReset hn
  unfold State.faultEntry; dsimp only
  refine (faultedDeliverable n).alert _ _ rfl ((faultedDeliverable n).offer _ _ ((faultedDeliverable n).deliverAll _ ⟨?_, ?_⟩))
  · refine SegLaw.failQueue_after (s := s) n _ .segmentFaulted ?_ h
    refine ⟨?_, ?_, ?_, ?_, ?_, ?_, ?_, ?_⟩ <;> simp [Segment.rest, Segment.goto] <;> simp_all
  · unfold State.failQueue
    rw [State.failLegs_segs, State.modSeg_get, if_pos rfl, State.modSeg_get, if_pos rfl]; rfl

theorem SegLaw.resetClear {s : State} (n : SegId) (o : Option SlotId) (hn : s.segs[n].inProgress = none) (h : SegLaw s) : SegLaw (s.beginResetClear n o) := by
  obtain ⟨b1, b2, b3, b4, b5, b6⟩ := s.segs[n].applyPending_queue
  have hr := (h n).noReset hn
  intro m; unfold State.beginResetClear State.beginClear
  rw [State.modSeg_get, State.modSeg_get, State.modSeg_get, if_pos rfl]
  split
  · refine ⟨?_, ?_, ?_, ?_, ?_, ?_, ?_, ?_⟩ <;> simp [Segment.rest, Segment.goto, -Fin.getElem_fin, b1, b2, b3, b4, hn, hr]
  · exact h m

theorem segSteps : SegmentSteps SegLaw where
  start s n h := h.startDecision n
  next s n hn h := SegLaw.legDecision_of n hn ((h n).noReset hn) fun m _ => h m
  unqueue s n r h := h.modSeg _ _ (by
    obtain ⟨a1, a2, a3, a4, a5, a6, a7, a8⟩ := h n
    exact ⟨fun hc => by show List.erase _ _ = []; rw [a1 hc]; rfl, a2, a3, a4, a5, a6, a7, a8⟩)
  failQueue s n o h := h.failQueue n o
  atOnce s n c hst h := by
    obtain ⟨a1, a2, a3, a4, a5, a6, a7, a8⟩ := id (h n)
    have hn := (h n).idle_noRun (by rcases hst with e | e <;> rw [e] <;> decide)
    have hr := (h n).noReset hn
    unfold State.configAtOnce; dsimp only
    split
    · next he =>
      intro m; rw [State.modSeg_get, State.modSeg_get, if_pos rfl]; split
      · exact Segment.lawful_idle hn hr he rfl
      · next e => rw [State.modSeg_get, if_neg e]; exact h m
    · next he =>
      refine segDeliverable.deliverAll _ (SegLaw.switchOff_of n ?_ ?_ ?_ ?_ ?_)
      · rw [State.modSeg_get, if_pos rfl]; exact hn
      · rw [State.modSeg_get, if_pos rfl]; exact hr
      · rw [State.modSeg_get, if_pos rfl]; exact (by simpa using he : c.enable = false)
      · rw [State.modSeg_get, if_pos rfl]; rfl
      · intro m hm; rw [State.modSeg_get, if_neg hm]; exact h m
  pending s n c hst h := h.modSeg _ _ (by
    obtain ⟨a1, a2, a3, a4, a5, a6, a7, a8⟩ := h n
    exact ⟨a1, a2, a3, a4, a5, a6, a7, fun hc => by rcases hst with e | e <;> rcases hc with hc | hc <;> exact absurd (e.symm.trans hc) (by decide)⟩)
  storeOff s n c hst he h := h.modSeg _ _ (by
    obtain ⟨a1, a2, a3, a4, a5, a6, a7, a8⟩ := h n
    exact ⟨a1, a2, a3, a4, a5, fun hc => by rcases hc with hc | hc <;> exact absurd (hst.symm.trans hc) (by decide), fun _ => he, fun _ => rfl⟩)
  clearHold s n h := h.modSeg _ _ (h n)
  askReset s n hi h := h.modSeg _ _ (by
    obtain ⟨a1, a2, a3, a4, a5, a6, a7, a8⟩ := h n
    exact ⟨a1, a2, a3, a4, fun _ => hi, a6, a7, a8⟩)
  ownClear s n k h := h.modSeg _ _ (by
    obtain ⟨a1, a2, a3, a4, a5, a6, a7, a8⟩ := h n
    exact ⟨a1, a2, by simpa using a3, a4, a5, a6, a7, a8⟩)
  resetClear s n o hn h := h.resetClear n o hn
  endRun s n h := h.modSeg _ _ (by
    obtain ⟨a1, a2, a3, a4, a5, a6, a7, a8⟩ := h n
    exact ⟨a1, by simp [Segment.endRun], a3, fun _ => rfl, by simp [Segment.endRun], a6, a7, a8⟩)
  clear s n p o hn h := h.beginClear n p o hn
  fault s n c hn h := (h.faultEntry_full n c hn).1
  stuck s n b hn h := by
    have hf := h.faultEntry_full n .stuckClock hn
    unfold State.afterStuckLeg; dsimp only; split
    · exact hf.1.resetClear _ _ ((hf.1 n).idle_noRun (by rw [hf.2]; decide))
    · exact hf.1
  traced s n t h := h.modSeg _ _ (h n)
  clearTraced s n t h := h.modSeg _ _ (h n)
  storeRun s n r buf hi h := by
    obtain ⟨a1, a2, a3, a4, a5, a6, a7, a8⟩ := id (h n)
    have hst := a2 hi
    unfold State.storeRun
    split
    · refine h.modSeg _ _ ⟨a1, fun _ => hst, a3, fun hc => ?_, fun _ => rfl, a6, a7, a8⟩
      rcases hc with hc | hc | hc <;> exact absurd (hst.symm.trans hc) (by decide)
    · refine SegLaw.modSeg (s := State.modLeg _ _ _) _ _ ⟨a1, fun _ => hst, a3, fun hc => ?_, fun _ => rfl, a6, a7, a8⟩ h
      rcases hc with hc | hc | hc <;> exact absurd (hst.symm.trans hc) (by decide)
  beginRun s n hc h := by
    obtain ⟨a1, a2, a3, a4, a5, a6, a7, a8⟩ := id (h n)
    have hst : s.segs[n].state = .active := by
      unfold Segment.checking at hc
      simp only [Bool.and_eq_true, decide_eq_true_eq] at hc; exact hc.1
    unfold State.beginRun
    split
    · exact h
    · refine SegLaw.modSeg (s := State.modLeg _ _ _) _ _ ⟨fun hc => ?_, fun _ => hst, a3, fun hc => ?_, fun _ => rfl, a6, a7, a8⟩ h
      · rcases hc with hc | hc <;> exact absurd (hst.symm.trans hc) (by decide)
      · rcases hc with hc | hc | hc <;> exact absurd (hst.symm.trans hc) (by decide)
  clearSucceeds s n c p hst h := by
    obtain ⟨a1, a2, a3, a4, a5, a6, a7, a8⟩ := id (h n)
    have hn := (h n).idle_noRun (by rw [hst]; decide)
    have hr := (h n).noReset hn
    unfold State.clearSucceeds; dsimp only
    have hs : SegLaw (s.modSeg n fun g => { g with clear := some { c with pulses := p } }) :=
      h.modSeg _ _ ⟨a1, a2, by simpa using hst, a4, a5, a6, a7, a8⟩
    have hg : (s.modSeg n fun g => { g with clear := some { c with pulses := p } }).segs[n] = { s.segs[n] with clear := some { c with pulses := p } } := by
      rw [State.modSeg_get, if_pos rfl]
    generalize (s.modSeg n fun g => { g with clear := some { c with pulses := p } }) = a at hs hg
    have hn' : a.segs[n].inProgress = none := by rw [hg]; exact hn
    have hr' : a.segs[n].resetRequested = false := by rw [hg]; exact hr
    split
    · exact segDeliverable.deliverAll _ (SegLaw.legDecision_of n hn' hr' fun m _ => hs m)
    · obtain ⟨b1, b2, b3, b4, b5, b6⟩ := a.segs[n].applyPending_queue
      have hg' : (a.modSeg n Segment.applyPending).segs[n] = a.segs[n].applyPending := by rw [State.modSeg_get, if_pos rfl]
      have ho' : ∀ m, m ≠ n → (a.modSeg n Segment.applyPending).segs[m].Lawful := by
        intro m hm; rw [State.modSeg_get, if_neg hm]; exact hs m
      unfold State.resetSucceeds; dsimp only
      generalize a.modSeg n Segment.applyPending = d at hg' ho'
      split
      · next he =>
        refine segDeliverable.finishReset _ _ _ _ _ _ (segDeliverable.deliverAll _ (SegLaw.startDecision _ ?_))
        intro m; rw [State.modSeg_get]; split
        · exact Segment.lawful_idle (by rw [hg', b2, hn']) (by rw [hg', b3, hr']) he (by rw [hg', b4])
        · next e => exact ho' m e
      · next he =>
        exact segDeliverable.finishReset _ _ _ _ _ _ (segDeliverable.deliverAll _ (SegLaw.switchOff_of n (by rw [hg', b2, hn']) (by rw [hg', b3, hr']) (by simpa using he) (by rw [hg', b4]) ho'))
  clearFails s n c x p hst h := by
    have hn := (h n).idle_noRun (by rw [hst]; decide)
    have hf := h.faultEntry_full n x hn
    unfold State.clearFails; dsimp only; split
    · exact hf.1
    · exact segDeliverable.finishReset _ _ _ _ _ _ hf.1
  pause s n hp h := h.modSeg _ _ (h n)
  drop s n h := h.modSeg _ _ (h n)

end Sys2Proof.Machine
end

