-- ==== Sys2Proof/Laws/Trace.lean ====
section
/-! SUPPORT. What the engine does on the lines in the bytes of a leg, in the words of the statements. -/

namespace Sys2Proof.Machine

/-- The engine is in the data bytes of a leg with `c` of them done and nothing decided. -/
structure Run.InData (r : Run) (c : Nat) : Prop where
  phase : r.phase = .data
  count : r.count = c
  decided : r.decided = none

/-- The bytes of a leg can be taken in two parts. -/
theorem wireBytes_append (l : LegRecord) (xs ys : List WireByte) : ∀ (r : Run) (buf : List Byte),
    wireBytes l r buf (xs ++ ys) = match wireBytes l r buf xs with
      | none => none
      | some p => wireBytes l p.1 p.2 ys := by
  induction xs with
  | nil => intro r buf; rfl
  | cons x xs ih =>
    intro r buf
    simp only [List.cons_append, wireBytes]
    cases h : wireByte l r buf x with
    | none => rfl
    | some p => exact ih _ _

/-- So can the trace of these bytes; a byte received last in the first part is answered with ACK, since another follows. -/
theorem bytesTrace_append (l : LegRecord) (wd : List Byte) (last : List BusSymbol) (y : WireByte) (ys xs : List WireByte) :
    ∀ (r : Run) (buf : List Byte) {p : Run × List Byte}, wireBytes l r buf xs = some p →
      bytesTrace l wd last r buf (xs ++ y :: ys) = bytesTrace l wd [.slot true] r buf xs ++ bytesTrace l wd last p.1 p.2 (y :: ys) := by
  induction xs with
  | nil => intro r buf p h; cases h; rfl
  | cons x xs ih =>
    intro r buf p h
    simp only [wireBytes] at h
    cases hx : wireByte l r buf x with
    | none => rw [hx] at h; cases h
    | some q =>
      rw [hx] at h
      have hn : ninthSlot last x (xs ++ y :: ys) = ninthSlot [.slot true] x xs := by
        cases x <;> simp [ninthSlot]
      rw [List.cons_append, bytesTrace, bytesTrace, hx]
      dsimp only
      rw [ih _ _ h, hn]
      simp only [List.append_assoc]

/-- The trace of bytes that can come, and of what follows them. -/
theorem traceThen_of {l : LegRecord} {r : Run} {bytes : List WireByte} {p : Run × List Byte}
    (h : wireBytes l r l.readData bytes = some p) (wd : List Byte) (last : List BusSymbol) (after : Run → List BusSymbol) :
    traceThen l r wd bytes last after = bytesTrace l wd last r l.readData bytes ++ after p.1 := by
  unfold traceThen; rw [h]

/-- The eight data slots of a byte the engine sends. -/
theorem Run.dataSlots_sent {r : Run} {l : LegRecord} {wd : List Byte} {b : Byte} (h : engineByte l r wd = some b) :
    r.dataSlots l wd = (sendSlots b).take 8 := by
  unfold Run.dataSlots; rw [h]
  simp [List.range_succ, BitVec.getMsbD, sendSlots]

/-- The nine slots of a byte the engine sends. -/
theorem Run.slots_sent {r : Run} {l : LegRecord} {wd : List Byte} {b : Byte} (h : engineByte l r wd = some b) :
    r.dataSlots l wd ++ [.slot false] = sendSlots b := by
  rw [Run.dataSlots_sent h]; rfl

/-- A byte that the engine sends and that breaks off. -/
theorem Run.brokenByte_sent {r : Run} {l : LegRecord} {wd : List Byte} {b : Byte} (h : engineByte l r wd = some b) (k : Nat) :
    r.brokenByte l wd k = r.lead ++ (sendSlots b).take k := by
  unfold Run.brokenByte; rw [Run.slots_sent h]

/-- The data slots of a byte that the target sends. -/
theorem Run.dataSlots_received {r : Run} {l : LegRecord} {c : Nat} (hr : r.InData c) (hk : l.kind = .read) (wd : List Byte) :
    r.dataSlots l wd = List.replicate 8 (.slot false) := by
  unfold Run.dataSlots engineByte Run.bytePhase; rw [hr.phase]; simp [hk]

/-- The byte the engine sends next in the data of a WRITE. -/
theorem engineByte_data {r : Run} {l : LegRecord} {c : Nat} (hr : r.InData c) (hk : l.kind = .write) (wd : List Byte) :
    engineByte l r wd = wd[c]? := by
  unfold engineByte Run.bytePhase; rw [hr.phase, hr.count]; simp [hk]

/-- The byte the engine sends first. -/
theorem engineByte_fresh {r : Run} {l : LegRecord} (hr : r.Fresh) (wd : List Byte) :
    engineByte l r wd = some (l.busAddr ++ (if l.kind = .read ∧ l.regPhase = false then 1#1 else 0#1)) := by
  unfold engineByte Run.bytePhase LegRecord.firstPhase; rw [hr.1]
  cases hk : l.kind <;> cases hp : l.regPhase <;> simp

@[simp] theorem Run.InData.lead {r : Run} {c : Nat} (h : r.InData c) : r.lead = [] := by
  unfold Run.lead; rw [h.phase]; rfl

/-- A data byte acknowledged by the target, but for the last. -/
theorem wireByte_ack_data {r : Run} {l : LegRecord} {c : Nat} (hr : r.InData c) (hk : l.kind = .write) (hc : c < l.length)
    (buf : List Byte) : wireByte l r buf .ack = some (r.countByte l, buf) := by
  unfold wireByte Run.bytePhase; rw [hr.decided, hr.phase, hr.count]
  simp [hk, hc]

/-- A data byte refused by the target. -/
theorem wireByte_nack_data {r : Run} {l : LegRecord} {c : Nat} (hr : r.InData c) (hk : l.kind = .write) (hc : c < l.length)
    (buf : List Byte) : ∃ p, wireByte l r buf .nack = some p := by
  unfold wireByte Run.bytePhase; rw [hr.decided, hr.phase, hr.count]
  simp [hk, hc]

/-- A data byte sent by the target. -/
theorem wireByte_data {r : Run} {l : LegRecord} {c : Nat} (hr : r.InData c) (hk : l.kind = .read) (hc : c < l.length)
    (buf : List Byte) (b : Byte) : wireByte l r buf (.data b) = some (r.countByte l, buf ++ [b]) := by
  unfold wireByte Run.bytePhase; rw [hr.decided, hr.phase, hr.count]
  simp [hk, hc]

/-- After a data byte that is not the last the engine is in the data bytes still. -/
theorem Run.InData.countByte {r : Run} {l : LegRecord} {c : Nat} (hr : r.InData c) (hc : c + 1 < l.length) :
    (r.countByte l).InData (c + 1) := by
  unfold Run.countByte; dsimp only
  rw [if_neg (by rw [hr.count]; omega)]
  exact ⟨rfl, congrArg (· + 1) hr.count, hr.decided⟩

/-- The data bytes of a WRITE that the target acknowledges. -/
theorem bytesTrace_acks {l : LegRecord} (hk : l.kind = .write) {wd : List Byte} (hl : l.length = wd.length) (last : List BusSymbol)
    (buf : List Byte) : ∀ (m c : Nat) (r : Run), r.InData c → c + m ≤ l.length →
      bytesTrace l wd last r buf (List.replicate m .ack) = ((wd.drop c).take m).flatMap sendSlots := by
  intro m
  induction m with
  | zero => intro c r _ _; simp [bytesTrace]
  | succ m ih =>
    intro c r hr hc
    have hd : wd.drop c = wd[c]'(by omega) :: wd.drop (c + 1) := List.drop_eq_getElem_cons (by omega)
    have hs : engineByte l r wd = some (wd[c]'(by omega)) := by
      rw [engineByte_data hr hk]; exact List.getElem?_eq_getElem (by omega)
    rw [List.replicate_succ, bytesTrace, wireByte_ack_data hr hk (by omega)]
    dsimp only
    rw [hr.lead, List.nil_append, show ninthSlot last .ack (List.replicate m .ack) = [.slot false] from rfl, Run.slots_sent hs, hd,
      List.take_succ_cons, List.flatMap_cons]
    congr 1
    by_cases hm : m = 0
    · subst hm; simp [bytesTrace]
    · exact ih (c + 1) _ (hr.countByte (by omega)) (by omega)

/-- The data bytes of a READ: ACK to each but the last, which is answered as given. -/
theorem bytesTrace_received {l : LegRecord} (hk : l.kind = .read) (wd : List Byte) (last : List BusSymbol) :
    ∀ (data : List Byte) (b : Byte) (c : Nat) (r : Run) (buf : List Byte), r.InData c → c + data.length + 1 ≤ l.length →
      bytesTrace l wd last r buf ((b :: data).map WireByte.data) =
        (List.replicate data.length (receiveSlots true)).flatten ++ (List.replicate 8 (.slot false) ++ last) := by
  intro data
  induction data with
  | nil =>
    intro b c r buf hr hc
    rw [List.map_cons, bytesTrace, wireByte_data hr hk (by simp only [List.length_nil] at hc; omega)]
    dsimp only
    rw [hr.lead, Run.dataSlots_received hr hk]
    simp [ninthSlot, bytesTrace]
  | cons x data ih =>
    intro b c r buf hr hc
    simp only [List.length_cons] at hc
    rw [List.map_cons, bytesTrace, wireByte_data hr hk (by omega)]
    dsimp only
    rw [hr.lead, Run.dataSlots_received hr hk, ih x (c + 1) _ _ (hr.countByte (by omega)) (by omega)]
    simp [ninthSlot, receiveSlots, List.replicate_succ]

/-- A byte the engine sends, in the trace. -/
theorem bytesTrace_sent {l : LegRecord} {wd : List Byte} {r : Run} {buf : List Byte} {w : WireByte} {b : Byte} {p : Run × List Byte}
    (hs : engineByte l r wd = some b) (hp : wireByte l r buf w = some p) (hw : w = .ack ∨ w = .nack) (last : List BusSymbol)
    (ws : List WireByte) :
    bytesTrace l wd last r buf (w :: ws) = r.lead ++ sendSlots b ++ bytesTrace l wd last p.1 p.2 ws := by
  have hn : ninthSlot last w ws = [.slot false] := by rcases hw with rfl | rfl <;> rfl
  rw [bytesTrace, hp]
  dsimp only
  rw [hn, List.append_assoc r.lead, Run.slots_sent hs]

/-! ### The bytes that open a leg -/

/-- These acknowledged bytes take a leg from its START to a phase before its first data byte, with these slots in the trace. -/
structure Reaches (l : LegRecord) (r : Run) (buf : List Byte) (bytes : List WireByte) (q : Run) (p : Phase) (slots : List BusSymbol) :
    Prop where
  wire : wireBytes l r buf bytes = some (q, buf)
  phase : q.phase = p
  count : q.count = 0
  decided : q.decided = none
  trace : ∀ wd last, bytesTrace l wd last r buf bytes = slots

/-- One more byte that the engine sends and the target acknowledges. -/
theorem Reaches.byte {l : LegRecord} {r q : Run} {buf : List Byte} {bytes : List WireByte} {p t : Phase} {slots : List BusSymbol}
    {b : Byte} (h : Reaches l r buf bytes q p slots) (hs : ∀ wd, engineByte l q wd = some b)
    (hw : wireByte l q buf .ack = some (q.goOn t, buf)) :
    Reaches l r buf (bytes ++ [.ack]) (q.goOn t) t (slots ++ (q.lead ++ sendSlots b)) := by
  refine ⟨?_, rfl, h.count, h.decided, fun wd last => ?_⟩
  · rw [wireBytes_append, h.wire]; dsimp only; rw [wireBytes, hw]; rfl
  · rw [bytesTrace_append _ _ _ _ _ _ _ _ h.wire, h.trace, bytesTrace_sent (hs wd) hw (.inl rfl)]
    simp [bytesTrace]

theorem Reaches.start {r : Run} (hr : r.Fresh) (l : LegRecord) (buf : List Byte) : Reaches l r buf [] r .start [] :=
  ⟨rfl, hr.1, hr.2.2.1, hr.2.2.2.1, fun _ _ => rfl⟩

theorem Run.Fresh.lead {r : Run} (hr : r.Fresh) : r.lead = [] := by unfold Run.lead; rw [hr.1]; rfl

/-- The address byte of a leg with a register phase. -/
theorem Reaches.register {l : LegRecord} {r : Run} (hr : r.Fresh) (hk : l.kind ≠ .probe) (hp : l.regPhase = true) (buf : List Byte) :
    Reaches l r buf [.ack] (r.goOn .register) .register l.addressSlots := by
  have hw : wireByte l r buf .ack = some (r.goOn .register, buf) := by
    unfold wireByte Run.bytePhase LegRecord.firstPhase; rw [hr.2.2.2.1, hr.1]
    simp [hk, hp]
  have h := (Reaches.start hr l buf).byte (engineByte_fresh hr) hw
  rw [hr.lead] at h
  exact h

/-- The register index of a READ after it. -/
theorem Reaches.repeatedStart {l : LegRecord} {r : Run} (hr : r.Fresh) (hk : l.kind = .read) (hp : l.regPhase = true)
    (buf : List Byte) :
    Reaches l r buf [.ack, .ack] ((r.goOn .register).goOn .repeatedStart) .repeatedStart (l.addressSlots ++ sendSlots l.regIndex) := by
  have h1 := Reaches.register hr (by rw [hk]; decide) hp buf
  have hw : wireByte l (r.goOn .register) buf .ack = some ((r.goOn .register).goOn .repeatedStart, buf) := by
    unfold wireByte Run.bytePhase; rw [h1.decided, h1.phase]
    simp [hk]
  exact h1.byte (fun wd => by unfold engineByte Run.bytePhase; rw [h1.phase]) hw

/-- All the bytes that open a WRITE or a READ. -/
theorem Reaches.opening {l : LegRecord} {r : Run} (hr : r.Fresh) (hk : l.kind ≠ .probe) (buf : List Byte) :
    ∃ q, Reaches l r buf l.opening q .data l.openingSlots := by
  cases hp : l.regPhase with
  | false =>
    have hw : wireByte l r buf .ack = some (r.goOn .data, buf) := by
      unfold wireByte Run.bytePhase LegRecord.firstPhase; rw [hr.2.2.2.1, hr.1]
      cases hk' : l.kind <;> simp_all
    have h := (Reaches.start hr l buf).byte (engineByte_fresh hr) hw
    rw [hr.lead] at h
    refine ⟨r.goOn .data, ?_⟩
    unfold LegRecord.opening LegRecord.openingSlots LegRecord.addressSlots
    cases hk' : l.kind <;> simp only [hp, hk'] at h ⊢ <;> exact h
  | true =>
    cases hk' : l.kind with
    | probe => exact absurd hk' hk
    | write =>
      have h1 := Reaches.register hr hk hp buf
      have hw : wireByte l (r.goOn .register) buf .ack = some ((r.goOn .register).goOn .data, buf) := by
        unfold wireByte Run.bytePhase; rw [h1.decided, h1.phase]
        simp [hk']
      have h2 := h1.byte (b := l.regIndex) (fun wd => by unfold engineByte Run.bytePhase; rw [h1.phase]) hw
      refine ⟨(r.goOn .register).goOn .data, ?_⟩
      unfold LegRecord.opening LegRecord.openingSlots
      rw [hk', hp]; exact h2
    | read =>
      have h1 := Reaches.repeatedStart hr hk' hp buf
      have hw : wireByte l ((r.goOn .register).goOn .repeatedStart) buf .ack =
          some (((r.goOn .register).goOn .repeatedStart).goOn .data, buf) := by
        unfold wireByte Run.bytePhase; rw [h1.decided, h1.phase]
        simp
      have h2 := h1.byte (b := l.busAddr ++ 1#1) (fun wd => by unfold engineByte Run.bytePhase; rw [h1.phase]) hw
      refine ⟨((r.goOn .register).goOn .repeatedStart).goOn .data, ?_⟩
      unfold LegRecord.opening LegRecord.openingSlots
      rw [hk', hp, List.append_assoc _ [BusSymbol.release, BusSymbol.start]]
      exact h2

theorem Reaches.inData {l : LegRecord} {r q : Run} {buf : List Byte} {bytes : List WireByte} {slots : List BusSymbol}
    (h : Reaches l r buf bytes q .data slots) : q.InData 0 := ⟨h.phase, h.count, h.decided⟩

end Sys2Proof.Machine
end

