-- ==== Sys2Proof/Machine/Timing.lean ====
section
/-! DEFINITION. The lengths the spec gives in cycles and microseconds (R93, R173, R174). No step takes time; these functions say
what the time of one is. -/

namespace Sys2Proof.Machine

/-- The bit period of a rate in nanoseconds (R93). -/
def Rate.bitPeriodNs : Rate → Nat
  | .slow => 100000 | .standard => 10000 | .fast => 2500

/-- The cycles of a quarter-bit on a source whose frequency is `mhz`: the quarter-bit in microseconds times the frequency, rounded
up to a whole number of cycles (R93). -/
def quarterBitCyclesAt (mhz : Nat) (r : Rate) : Nat := (r.bitPeriodNs * mhz + 3999) / 4000

/-- The frequency a source is counted at: 16 MHz on BACKUP, the configured frequency on REFERENCE (R173, R174). -/
def ClockUnit.megahertz (c : ClockUnit) : Nat :=
  match c.source with
  | .backup => 16
  | .reference => c.frequency

/-- The cycles of a quarter-bit on the active source (R174). -/
def State.quarterBitCycles (s : State) (r : Rate) : Nat := quarterBitCyclesAt s.clock.megahertz r

/-- The cycles of a microsecond of the time base on the active source (R173). -/
def State.microsecondCycles (s : State) : Nat := s.clock.megahertz

/-- A stretch limit in microseconds of the time base: units of 100 µs (R72). -/
def stretchMicroseconds (limit : Byte) : Nat := 100 * limit.toNat

end Sys2Proof.Machine
end

