-- ==== Sys2Proof/WellFormed.lean ====
section
/-! DEFINITION. Which terms of Instr are commands the link and the wires can bring: the lengths the frame and the leg allow. -/

namespace Sys2Proof

/-- The longest payload of a request: a body is 2–96 bytes, type and tag among them (R197). -/
def maxPayload : Nat := 94

/-- The longest rest of a LOG_CONTROL payload after its operation byte (R164). -/
def maxLogRest : Nat := 93

/-- The most bytes of one leg: address+W, register index, address+R and 32 data bytes (R100). -/
def maxLegBytes : Nat := 35

/-- A payload a frame can carry. -/
def payloadFits (payload : List Byte) : Bool := decide (payload.length ≤ maxPayload)

/-- A LOG_CONTROL rest a frame can carry. -/
def restFits (rest : List Byte) : Bool := decide (rest.length ≤ maxLogRest)

/-- No more bytes than a leg has. -/
def legFits (bytes : List WireByte) : Bool := decide (bytes.length ≤ maxLegBytes)

/-- The most readings of SDA that one bus clear makes: it reads SDA low at most ten times, each time after at most two high readings, and
a success reads it high three times after at most nine of those (R120, R121, R122). -/
def maxClearReads : Nat := 30

/-- No more readings than a bus clear makes. -/
def readsFit (reads : List Bool) : Bool := decide (reads.length ≤ maxClearReads)

/-- The well-formed commands. -/
def Instr.wellFormed : Instr → Bool
  | .write _ payload _ => payloadFits payload
  | .read _ payload _ => payloadFits payload
  | .probe _ payload _ => payloadFits payload
  | .cancel _ payload => payloadFits payload
  | .routeSet _ payload => payloadFits payload
  | .routeGet _ payload => payloadFits payload
  | .routeDisable _ payload => payloadFits payload
  | .segConfig _ payload _ => payloadFits payload
  | .segStatus _ payload => payloadFits payload
  | .segReset _ payload _ => payloadFits payload
  | .segResume _ payload _ => payloadFits payload
  | .watchSet _ payload => payloadFits payload
  | .watchGet _ payload => payloadFits payload
  | .watchRearm _ payload => payloadFits payload
  | .watchDisable _ payload => payloadFits payload
  | .logRead _ payload => payloadFits payload
  | .setMode _ rest => restFits rest
  | .resume _ rest => restFits rest
  | .clear _ rest => restFits rest
  | .clockConfig _ payload => payloadFits payload
  | .clockSelect _ payload => payloadFits payload
  | .clockStatus _ payload => payloadFits payload
  | .status _ payload => payloadFits payload
  | .reset _ payload => payloadFits payload
  | .lineCheckEnd _ _ => true
  | .lineCheckTimeout _ _ => true
  | .legEnd _ bytes _ _ => legFits bytes
  | .stretchTimeout _ bytes _ => legFits bytes
  | .secondStretchWindowEnd _ _ => true
  | .busClearEnd _ reads _ => readsFit reads
  | .busClearTimeout _ reads _ => readsFit reads
  | .evtTimerExpiry _ => true
  | .timeBaseTick => true
  | .referenceEdge => true
  | .referenceGood => true
  | .referenceLost _ => true
  | .pauseRequested _ => true
  | .quiescenceReport _ _ => true
  | .withdrawal _ => true
  | .selectBegin => true
  | .selectRelease => true
  | .frameErr => true
  | .messageBegin => true
  | .frameSent => true
  | .powerOnReset => true
  | .byteBoundary _ _ => true
  | .unknownType type _ payload => payloadFits payload && (Machine.ReqType.ofByte type).isNone

end Sys2Proof
end

