-- ==== Sys2Proof/Tests/Slice0.lean ====
section
/-! SUPPORT. Smoke tests of the checks, the spec's worked figures, one step of each kind of command on a small state, and for every
statement with hypotheses a state and operands that meet them. -/

namespace Sys2Proof.Tests

open Sys2Proof Sys2Proof.Machine

/-! ### Well-formedness: an ill-formed term for each check -/

/-- 95 payload bytes, one more than a frame carries. -/
def longPayload : List Byte := List.replicate 95 0

theorem test_ill_formed_payloads :
    Instr.wellFormed (.write 0 longPayload (Vector.replicate 4 Levels.high)) = false ∧
    Instr.wellFormed (.read 0 longPayload (Vector.replicate 4 Levels.high)) = false ∧
    Instr.wellFormed (.probe 0 longPayload (Vector.replicate 4 Levels.high)) = false ∧
    Instr.wellFormed (.cancel 0 longPayload) = false ∧ Instr.wellFormed (.routeSet 0 longPayload) = false ∧
    Instr.wellFormed (.routeGet 0 longPayload) = false ∧ Instr.wellFormed (.routeDisable 0 longPayload) = false ∧
    Instr.wellFormed (.segConfig 0 longPayload (Vector.replicate 4 Levels.high)) = false ∧
    Instr.wellFormed (.segStatus 0 longPayload) = false ∧
    Instr.wellFormed (.segReset 0 longPayload (Vector.replicate 4 Levels.high)) = false ∧
    Instr.wellFormed (.segResume 0 longPayload (Vector.replicate 4 Levels.high)) = false ∧
    Instr.wellFormed (.watchSet 0 longPayload) = false ∧ Instr.wellFormed (.watchGet 0 longPayload) = false ∧
    Instr.wellFormed (.watchRearm 0 longPayload) = false ∧ Instr.wellFormed (.watchDisable 0 longPayload) = false ∧
    Instr.wellFormed (.logRead 0 longPayload) = false ∧ Instr.wellFormed (.clockConfig 0 longPayload) = false ∧
    Instr.wellFormed (.clockSelect 0 longPayload) = false ∧ Instr.wellFormed (.clockStatus 0 longPayload) = false ∧
    Instr.wellFormed (.status 0 longPayload) = false ∧ Instr.wellFormed (.reset 0 longPayload) = false ∧
    Instr.wellFormed (.unknownType 0x01 0 longPayload) = false := by decide

theorem test_ill_formed_log_rests :
    Instr.wellFormed (.setMode 0 (List.replicate 94 0)) = false ∧ Instr.wellFormed (.resume 0 (List.replicate 94 0)) = false ∧
    Instr.wellFormed (.clear 0 (List.replicate 94 0)) = false ∧ Instr.wellFormed (.clear 0 (List.replicate 93 0)) = true := by decide

theorem test_ill_formed_leg_bytes :
    Instr.wellFormed (.legEnd 0 (List.replicate 36 .ack) (.stop true .noField) (Vector.replicate 4 Levels.high)) = false ∧
    Instr.wellFormed (.stretchTimeout 0 (List.replicate 36 .ack) (.readAck .noField)) = false ∧
    Instr.wellFormed (.stretchTimeout 0 (List.replicate 35 .ack) (.readAck .noField)) = true := by decide

theorem test_ill_formed_clear_readings :
    Instr.wellFormed (.busClearEnd 0 (List.replicate 31 true) (Vector.replicate 4 Levels.high)) = false ∧
    Instr.wellFormed (.busClearTimeout 0 (List.replicate 31 true) (Vector.replicate 4 Levels.high)) = false ∧
    Instr.wellFormed (.busClearEnd 0 (List.replicate 30 true) (Vector.replicate 4 Levels.high)) = true := by decide

theorem test_ill_formed_unknown_type :
    Instr.wellFormed (.unknownType 0x10 0 []) = false ∧ Instr.wellFormed (.unknownType 0x01 0 []) = true := by decide

theorem test_no_word_spells_a_command : decodeTableWord 8 0x10 = none ∧ State.reset.withFetchWord 8 0x10 = State.reset := by
  exact ⟨rfl, rfl⟩

/-! ### The spec's figures -/

theorem test_crc_check_value : crc16 [0x31, 0x32, 0x33, 0x34, 0x35, 0x36, 0x37, 0x38, 0x39] = 0x29B1 := by decide +kernel

theorem test_quarter_bits : quarterBitCyclesAt 9 .fast = 6 ∧ quarterBitCyclesAt 20 .standard = 50 ∧ quarterBitCyclesAt 16 .fast = 10 ∧
    State.reset.quarterBitCycles .slow = 400 ∧ stretchMicroseconds 100 = 10000 := by decide

/-- The lines all high. -/
def high : Wires := Vector.replicate 4 Levels.high

/-- The state after a step, where it is a next state. -/
def after (c : Instr) (s : State) : State :=
  match exec c s with
  | .next t => t
  | _ => s

/-- The window list of the route map's worked example. -/
def exampleMap : State :=
  { State.reset with
    windows := (((State.reset.windows.set 2
        { enabled := true, base := 64, sizeExp := 2, primarySeg := 1, primaryBus := 0x20, regPhase := true, allowRead := true,
          allowWrite := true, policy := .mirrorCompare, twinSeg := 3, twinBus := 0x20 }).set 4
        { enabled := true, base := 88, sizeExp := 3, primarySeg := 1, primaryBus := 0x60, regPhase := false, allowRead := true,
          allowWrite := false, policy := .noTwin, twinSeg := 0, twinBus := 0 }).set 5
        { enabled := true, base := 64, sizeExp := 5, primarySeg := 0, primaryBus := 0x40, regPhase := true, allowRead := true,
          allowWrite := true, policy := .mirrorWrites, twinSeg := 2, twinBus := 0x50 }).set 9
        { enabled := true, base := 90, sizeExp := 1, primarySeg := 3, primaryBus := 0x30, regPhase := true, allowRead := true,
          allowWrite := true, policy := .noTwin, twinSeg := 0, twinBus := 0 } }

/-- The stored resolution and the result of slot 0. -/
def resolved (s : State) : Option Resolution × Option ResultCode := (s.slots[0].resolution, s.slots[0].result)

theorem test_read_65_resolves : resolved (after (.read 1 [0, 65, 0, 1] high) exampleMap) =
    (some { primarySeg := 1, primaryAddr := 0x21, regPhase := true, policy := .mirrorCompare, twin := some (3, 0x21) }, none) := by
  decide

theorem test_write_70_resolves : resolved (after (.write 2 [0, 70, 0, 1, 9] high) exampleMap) =
    (some { primarySeg := 0, primaryAddr := 0x46, regPhase := true, policy := .mirrorWrites, twin := some (2, 0x56) }, none) := by
  decide

theorem test_read_93_resolves : resolved (after (.read 3 [0, 93, 0, 1] high) exampleMap) =
    (some { primarySeg := 1, primaryAddr := 0x65, regPhase := false, policy := .noTwin, twin := none }, none) := by decide

theorem test_write_90_is_denied : (resolved (after (.write 4 [0, 90, 0, 1, 9] high) exampleMap)).2 = some .directionDenied := by
  decide

theorem test_read_100_has_no_route : (resolved (after (.read 5 [0, 100, 0, 1] high) exampleMap)).2 = some .noRoute := by
  decide

theorem test_probe_93_runs : (after (.probe 6 [0, 93] high) exampleMap).segs[1].inProgress.isSome = true := by decide

theorem test_diverged_write_body :
    ({ reqType := 0x10, tag := 0x30, result := .twinDiverged,
       fields := transferFields .twinDiverged
        { slot := 0, role := .primary, segment := 0, busAddr := 0x20, kind := .write, regPhase := true, regIndex := 0, length := 4,
          state := .done, outcome := some .acked, bytes := 4, readData := [], cutRequested := false,
          cutUnderReset := false, delivered := true }
        (some {
          slot := 0, role := .twin, segment := 1, busAddr := 0x20, kind := .write, regPhase := true, regIndex := 0, length := 4,
          state := .done, outcome := some .dataNack, bytes := 2, readData := [], cutRequested := false,
          cutUnderReset := false, delivered := true }) } :
        Reply).body 0 = [0x10, 0x30, 0x00, 0x02, 0x00, 0x04, 0x01, 0x02, 0x02] := by decide

/-! ### One step of the other commands -/

/-- The result code of the reply in slot 0. -/
def replyResult (c : Instr) (s : State) : Option ResultCode := (after c s).slots[0].result

/-- The reply fields of slot 0. -/
def replyFields (c : Instr) (s : State) : Option (List Byte) := (after c s).slots[0].reply.map Reply.fields

theorem test_status_after_reset : replyFields (.status 7 [0]) State.reset =
    some [0x4E, 0x24, 0x01, 7, 1, 0, 0, 1, 1, 1, 1] := by decide

theorem test_cancel_without_transfer : replyResult (.cancel 7 [9]) State.reset = some .noSuchTag := by decide

theorem test_route_set_takes_a_window :
    replyFields (.routeSet 1 [15, 0x0F, 0xFF, 0, 2, 0x77, 0, 1, 1, 0, 0, 0]) State.reset = some [15, 0] := by decide

theorem test_route_set_out_of_range :
    replyResult (.routeSet 1 [15, 0x0F, 0xFF, 0, 2, 0x78, 0, 1, 1, 0, 0, 0]) State.reset = some .range := by decide

theorem test_route_get_after_reset :
    replyFields (.routeGet 1 [0]) State.reset = some [0, 0, 0, 0, 0, 0, 0, 0, 0, 0, 0, 0, 0] := by decide

theorem test_route_disable_after_reset : replyFields (.routeDisable 1 [3]) State.reset = some [3, 0] := by decide

theorem test_seg_config_turns_a_segment_off : (after (.segConfig 1 [2, 0, 1, 10] high) State.reset).segs[2].state = .off := by
  decide

theorem test_seg_status_after_reset :
    replyFields (.segStatus 1 [3]) State.reset = some [3, 1, 1, 1, 100, 0, 0, 0, 0, 0, 0, 0, 0, 0, 0, 0] := by decide

theorem test_seg_reset_clears_the_bus : (after (.segReset 1 [0] high) State.reset).segs[0].state = .clearing := by decide

/-- The slot keeps the fields that the payload carried; the route map stores 0 for twin fields under NONE (R1, R23). -/
theorem test_slot_keeps_the_payload_fields (s : State)
    (h : s = after (.routeSet 1 [2, 0, 0x40, 0, 1, 0x20, 1, 1, 0, 0, 3, 9]) State.reset) :
    s.slots[0].request = some (.routeSet 2
      { enabled := true, base := 0x40, sizeExp := 0, primarySeg := 1, primaryBus := 0x20, regPhase := true, allowRead := true,
        allowWrite := false, policy := .noTwin, twinSeg := 3, twinBus := 9 }) ∧
    s.windows[2].twinSeg = 0 ∧ s.windows[2].twinBus = 0 ∧
    (after (.resume 1 [9]) State.reset).slots[0].request = some (.resume 9) := by subst h; decide

theorem test_seg_resume_of_a_segment_not_held : replyFields (.segResume 1 [1] high) State.reset = some [1, 0] := by decide

theorem test_watch_rearm_of_a_disabled_unit : replyResult (.watchRearm 1 [0]) State.reset = some .badRequest := by decide

theorem test_watch_disable_after_reset : replyFields (.watchDisable 1 [0]) State.reset = some [0, 0] := by decide

theorem test_log_read_of_an_empty_log : replyFields (.logRead 1 [4]) State.reset = some [0, 0, 0, 0, 2] := by decide

theorem test_log_modes : (after (.setMode 1 [1]) State.reset).log.mode = .all ∧
    replyFields (.resume 1 [9]) State.reset = some [1, 0, 2, 0, 0, 0] ∧
    replyFields (.clear 1 [0]) State.reset = some [2, 0, 2, 0, 0, 0] := by decide

theorem test_clock_requests : replyFields (.clockConfig 1 [25]) State.reset = some [16, 25] ∧
    replyResult (.clockSelect 1 [1]) State.reset = some .notPresent ∧
    replyFields (.clockStatus 1 []) State.reset = some [0, 0, 0, 0, 0, 16, 0, 0, 0, 0] := by decide

theorem test_soft_reset_queues_ready : (after (.reset 1 []) State.reset).link.queue =
    [{ content := .notice (.ready .soft), begun := false }] := by decide

theorem test_ready_goes_out : ((after .selectBegin State.reset).link.outFrame.map fun f => f.bytes.take 8) =
    some [0xB7, 7, 0xA0, 0, 0, 0, 0x4E, 0x24] := by decide

theorem test_ready_leaves : (after .frameSent (after .selectBegin State.reset)).link.queue = [] := by decide

theorem test_partial_frame_is_truncated :
    (after .selectRelease (after (.byteBoundary 0xB7 high) (after .selectBegin State.reset))).link.flags.truncated = true := by
  decide

theorem test_fault_of_a_stuck_clock :
    (after (.lineCheckTimeout 0 high) (after (.probe 6 [0, 70] (high.set 0 ⟨false, true⟩)) exampleMap)).segs[0].state = .faulted := by
  decide

/-! ### Witnesses: hypotheses of the statements about requests -/

/-- All slots taken. -/
def full : State := { State.reset with slots := Vector.replicate 8 { Slot.freed with state := .working } }

/-- A leg of slot 0 on segment 0. -/
def leg (st : LegState) (o : Option LegOutcome) : LegRecord :=
  { slot := 0, role := .primary, segment := 0, busAddr := 0x20, kind := .write, regPhase := true, regIndex := 1, length := 2,
    state := st, outcome := o, bytes := 0, readData := [], cutRequested := false, cutUnderReset := false,
    delivered := false }

/-- A WORKING WRITE of tag 0x55 with this leg. -/
def transfer (l : LegRecord) : Slot :=
  { Slot.freed with
    state := .working, tag := 0x55, reqType := some 0x10, request := some (.write 0x100 1 [7, 8]), writeData := [7, 8],
    primary := some l }

/-- The part with that WRITE in slot 0. -/
def busy (l : LegRecord) : State := State.reset.withSlot 0 (transfer l)

/-- The part with one segment record replaced. -/
def segmentIs (g : Segment) : State := State.reset.withSeg 3 g

theorem test_hyp_step : ({ State.reset with pending := [.timeBaseTick, .reset 0 []] } : State).pending = .timeBaseTick :: [.reset 0 []] ∧
    State.reset.pending = [] := ⟨rfl, rfl⟩

theorem test_hyp_power_on : State.inPowerOnReset.link.rstLow = true ∧ State.reset.link.rstLow = false ∧
    Instr.frameBody (.status 7 [0]) = some (0x70, 7, [0]) := by decide

theorem test_hyp_full_table : full.NoneFree ∧ Instr.frameBody (.clear 0xFF [0]) = some (0x51, 0xFF, [2, 0]) ∧ 0x01 ∉ requestTypes := by
  unfold State.NoneFree; decide

theorem test_hyp_unknown_type : State.reset.LowestFree 0 ∧ (busy (leg .queued none)).LowestFree 1 ∧ 0x00 ∉ requestTypes ∧
    0xFF ∉ requestTypes ∧ 0x7F ∈ requestTypes ∧ 0x10 ∈ requestTypes := by
  unfold State.LowestFree; decide

theorem test_hyp_live_tag : (busy (leg .queued none)).LowestFree 1 ∧ (busy (leg .queued none)).TagLive 0x55 ∧
    ¬ (busy (leg .queued none)).TagLive 0x54 := by
  unfold State.LowestFree State.TagLive Slot.HoldsLiveTag; decide

theorem test_hyp_malformed_transfer : State.reset.LowestFree 0 ∧ ¬ State.reset.TagLive 0 ∧
    (∀ f : TransferForm, f.kind = .read → f.Fits → [(0 : Byte), 0, 0, 33] ≠ f.payload) ∧
    (∀ f : TransferForm, f.kind = .probe → f.Fits → ([] : List Byte) ≠ f.payload) := by
  refine ⟨by unfold State.LowestFree; decide, by unfold State.TagLive Slot.HoldsLiveTag; decide, ?_, ?_⟩
  · intro f hk hf h
    unfold TransferForm.payload at h; rw [hk] at h
    obtain ⟨-, hf⟩ := hf
    have hb := (hf hk).2
    have h33 : (33 : Byte).toNat = 33 := rfl
    simp only [bytes16, List.cons_append, List.nil_append, List.cons.injEq, and_true] at h
    have h3 := congrArg BitVec.toNat h.2.2.2
    simp only [byteOf, BitVec.toNat_ofNat] at h3
    omega
  · intro f hk _ h
    unfold TransferForm.payload at h; rw [hk] at h
    simp [bytes16] at h

theorem test_hyp_status : ([1] : List Byte) = [boolByte true] ∧ ([0] : List Byte) = [boolByte false] ∧
    (∀ b : Bool, ([2] : List Byte) ≠ [boolByte b]) ∧ State.reset.LowestFree 0 := by
  unfold State.LowestFree; decide

/-- The run record of a leg in segment 3 at its START. -/
def run : Run :=
  { leg := { slot := 0, role := .primary }, phase := .start, dataPos := 0, bitPos := 0, count := 0, decided := none, rate := .standard,
    stretchLimit := 100, orphan := none, resetDropped := false, secondWindow := false }

theorem test_hyp_soft_reset (s : State) (h : s = (busy (leg .inProgress none)).withSeg 3
      { Segment.reset with state := .active, inProgress := some run }) :
    s.LowestFree 1 ∧ s.segs[3].inProgress = some run ∧ run.orphan = none ∧ run.leg.slot ≠ 1 ∧
    s.slots[run.leg.slot].leg run.leg.role = some (leg .inProgress none) ∧
    (segmentIs { Segment.reset with state := .active }).segs[3].state = .active ∧
    (segmentIs { Segment.reset with state := .active }).segs[3].inProgress = none := by
  subst h; unfold State.LowestFree; decide

/-- A window of eight targets on S0, with its twin on S1. -/
def window (p : TwinPolicy) (rd wr : Bool) : Window :=
  { enabled := true, base := 0x100, sizeExp := 3, primarySeg := 0, primaryBus := 0x20, regPhase := true, allowRead := rd,
    allowWrite := wr, policy := p, twinSeg := 1, twinBus := 0x28 }

/-- The window at the highest target and the highest bus address. -/
def lastWindow : Window :=
  { enabled := true, base := 0xFFF, sizeExp := 0, primarySeg := 3, primaryBus := 0x77, regPhase := false, allowRead := true,
    allowWrite := true, policy := .noTwin, twinSeg := 0, twinBus := 0 }

theorem test_hyp_route_set : lastWindow.Lawful ∧ (window .mirrorCompare true true).Lawful ∧
    ¬ ({ lastWindow with primaryBus := 0x78 } : Window).Lawful ∧ ¬ ({ window .mirrorWrites true true with twinSeg := 0 } : Window).Lawful ∧
    (byteOf 15 :: lastWindow.fieldBytes).length = 12 ∧
    (∀ (i : WindowId) (w : Window), ([] : List Byte) ≠ byteOf i :: w.fieldBytes) := by
  refine ⟨by unfold Window.Lawful; decide, by unfold Window.Lawful; decide, by unfold Window.Lawful; decide,
    by unfold Window.Lawful; decide, by decide, fun _ _ h => by cases h⟩

theorem test_hyp_route_index : ([15] : List Byte) = [byteOf (15 : WindowId)] ∧ (∀ i : WindowId, ([16] : List Byte) ≠ [byteOf i]) ∧
    (∀ i : WindowId, ([] : List Byte) ≠ [byteOf i]) := by decide

/-- The part with that window alone, in the last place. -/
def routed (p : TwinPolicy) (rd wr : Bool) : State :=
  { State.reset with windows := State.reset.windows.set 15 (window p rd wr) }

/-- A WRITE of 32 bytes, a READ of 32 and a PROBE of the last target of the window. -/
def form (k : Kind) : TransferForm := { kind := k, target := 0x107, reg := 0xFF, data := List.replicate 32 1, asked := 32 }

theorem test_hyp_transfer_forms (k : Kind) : (form k).Fits ∧ (form k).target = 0x107 := by
  exact ⟨⟨fun _ => ⟨by simp [form], by simp [form]⟩, fun _ => ⟨by simp [form], by simp [form]⟩⟩, rfl⟩

theorem test_hyp_no_leg : (form .write).Fits ∧ State.reset.LowestFree 0 ∧ ¬ State.reset.TagLive 0 ∧ State.reset.Unrouted 0x107 ∧
    (routed .noTwin true false).Matches 0x107 15 ∧ ¬ (window .noTwin true false).Permits .write ∧
    (routed .noTwin true false).windows[15] = window .noTwin true false := by
  unfold TransferForm.Fits State.LowestFree State.TagLive Slot.HoldsLiveTag State.Unrouted State.Matches Window.Holds Window.Permits
  decide

/-- The routed part with one segment state for S0 and S1. -/
def routedOn (p : TwinPolicy) (g : Segment) : State := ((routed p true true).withSeg 0 g).withSeg 1 g

theorem test_hyp_legs_wait (s : State) (h : s = routedOn .mirrorCompare { Segment.reset with hold := true }) :
    s.LowestFree 0 ∧ ¬ s.TagLive 9 ∧ s.Matches 0x107 15 ∧ s.windows[15].Permits .read ∧ s.segs[s.windows[15].primarySeg].Waits ∧
    ¬ (form .read).Single s.windows[15].policy ∧ s.windows[15].twinSeg ≠ s.windows[15].primarySeg ∧
    s.segs[s.windows[15].twinSeg].Waits ∧ (form .read).Single .mirrorWrites ∧ (form .write).Single .noTwin := by
  subst h
  unfold State.LowestFree State.TagLive Slot.HoldsLiveTag State.Matches Window.Holds Window.Permits Segment.Waits TransferForm.Single
  decide

theorem test_hyp_leg_starts (s : State) (h : s = routedOn .noTwin Segment.reset) :
    s.LowestFree 0 ∧ ¬ s.TagLive 9 ∧ s.Matches 0x100 15 ∧ s.windows[15].Permits .write ∧ (form .write).Single s.windows[15].policy ∧
    s.windows[15].primarySeg = 0 ∧ s.segs[0].state = .idle ∧ s.segs[0].queue = [] ∧ s.segs[0].Free ∧ s.segs[0].pendingCfg = none ∧
    s.segs[0].stored.enable = true := by
  subst h
  unfold State.LowestFree State.TagLive Slot.HoldsLiveTag State.Matches Window.Holds Window.Permits Segment.Free TransferForm.Single
  decide

theorem test_hyp_leg_out_of_service (s : State) (hs : s = routedOn .noTwin { Segment.reset with state := .off }) :
    s.LowestFree 0 ∧ ¬ s.TagLive 9 ∧ s.Matches 0x107 15 ∧ s.windows[15].Permits .probe ∧ (form .probe).Single s.windows[15].policy ∧
    s.segs[0].state = .off ∧ s.windows[15].policy ≠ .mirrorFallback := by
  subst hs
  unfold State.LowestFree State.TagLive Slot.HoldsLiveTag State.Matches Window.Holds Window.Permits TransferForm.Single
  decide

theorem test_hyp_fallback_out_of_service (s : State)
    (hs : s = (routedOn .mirrorFallback { Segment.reset with state := .active }).withSeg 0 { Segment.reset with state := .faulted }) :
    s.LowestFree 0 ∧ ¬ s.TagLive 9 ∧ s.Matches 0x107 15 ∧ s.windows[15].Permits .read ∧ (form .read).Single s.windows[15].policy ∧
    s.segs[0].state = .faulted ∧ s.windows[15].policy = .mirrorFallback ∧ s.segs[s.windows[15].twinSeg].Waits := by
  subst hs
  unfold State.LowestFree State.TagLive Slot.HoldsLiveTag State.Matches Window.Holds Window.Permits Segment.Waits TransferForm.Single
  decide

theorem test_hyp_twin_starts (s : State) (h : s = (routedOn .mirrorWrites Segment.reset).withSeg 1 { Segment.reset with state := .active }) :
    s.LowestFree 0 ∧ ¬ s.TagLive 9 ∧ s.Matches 0x107 15 ∧ s.windows[15].Permits .write ∧ s.windows[15].primarySeg = 0 ∧
    ¬ (form .write).Single s.windows[15].policy ∧ s.windows[15].twinSeg = 1 ∧ s.segs[0].Startable ∧ s.segs[1].Waits ∧
    (routedOn .mirrorWrites Segment.reset).segs[1].Startable := by
  subst h
  unfold State.LowestFree State.TagLive Slot.HoldsLiveTag State.Matches Window.Holds Window.Permits Segment.Waits Segment.Startable
    TransferForm.Single
  decide

theorem test_hyp_twin_out_of_service (s : State)
    (h : s = ((routedOn .mirrorCompare Segment.reset).withSeg 0 { Segment.reset with state := .off }).withSeg 1
      { Segment.reset with state := .faulted }) :
    (s.LowestFree 0 ∧ ¬ s.TagLive 9 ∧ s.Matches 0x107 15 ∧ s.windows[15].Permits .read ∧ ¬ (form .read).Single s.windows[15].policy ∧
      s.windows[15].primarySeg = 0 ∧ s.windows[15].twinSeg = 1 ∧ (routedOn .mirrorCompare Segment.reset).segs[0].Startable ∧
      (routedOn .mirrorCompare Segment.reset).segs[1].Startable ∧ (form .read).Single .mirrorFallback) ∧
    s.segs[0].Refuses .segmentOff .segmentOff ∧ s.segs[1].Refuses .segmentFaulted .segmentFaulted := by
  subst h
  unfold State.LowestFree State.TagLive Slot.HoldsLiveTag State.Matches Window.Holds Window.Permits Segment.Startable TransferForm.Single
  exact ⟨by decide, .inl ⟨by decide, rfl, rfl⟩, .inr ⟨by decide, rfl, rfl⟩⟩

theorem test_twin_write_starts_on_two_segments :
    (after (.write 2 [0, 70, 0, 1, 9] high) exampleMap).segs[0].inProgress.isSome = true ∧
    (after (.write 2 [0, 70, 0, 1, 9] high) exampleMap).segs[2].inProgress.isSome = true := by decide

theorem test_hyp_cancel (s t : State) (hs : s = busy (leg .inProgress none)) (ht : t = busy (leg .queued none)) :
    s.LowestFree 1 ∧ (∀ j : SlotId, ¬ s.slots[j].Cancellable 0x54) ∧ s.slots[0].Cancellable 0x55 ∧
    (∀ i : SlotId, i ≠ 0 → ¬ s.slots[i].Cancellable 0x55) ∧ s.slots[0].primary = some (leg .inProgress none) ∧
    s.slots[0].twin = none ∧ t.slots[0].Cancellable 0x55 ∧ (∀ i : SlotId, i ≠ 0 → ¬ t.slots[i].Cancellable 0x55) ∧
    t.slots[0].primary = some (leg .queued none) ∧ t.slots[0].twin = none := by
  subst hs ht; unfold State.LowestFree Slot.Cancellable; decide

/-- The twin of that leg, on segment 1. -/
def twinLeg (st : LegState) (o : Option LegOutcome) : LegRecord := { leg st o with role := .twin, segment := 1, busAddr := 0x28 }

/-- The part with a twin WRITE in slot 0. -/
def twinBusy (p w : LegRecord) : State := State.reset.withSlot 0 { transfer p with twin := some w }

theorem test_hyp_cancel_twin (p w : LegRecord) (hp : p = leg .queued none) (hw : w = twinLeg .queued none) (s : State)
    (h : s = twinBusy p w) :
    s.LowestFree 1 ∧ s.slots[0].Cancellable 0x55 ∧ (∀ i : SlotId, i ≠ 0 → ¬ s.slots[i].Cancellable 0x55) ∧
    s.slots[0].primary = some p ∧ s.slots[0].twin = some w ∧ p.slot = 0 ∧ p.role = .primary ∧ w.slot = 0 ∧ w.role = .twin ∧
    p.state = .queued ∧ w.state = .queued ∧ w.delivered = false := by
  subst hp hw h; unfold State.LowestFree Slot.Cancellable; decide

theorem test_hyp_cancel_twin_running (p w : LegRecord) (hp : p = { leg .done (some .acked) with delivered := true })
    (hw : w = { twinLeg .done (some .acked) with delivered := true }) (s : State) (h : s = twinBusy p (twinLeg .queued none)) (t : State)
    (ht : t = twinBusy (leg .queued none) w) :
    s.slots[0].Cancellable 0x55 ∧ t.slots[0].Cancellable 0x55 ∧ s.slots[0].primary = some p ∧ t.slots[0].twin = some w ∧
    p.state = .done ∧ p.delivered = true ∧ p.outcome = some .acked ∧ (twinLeg .queued none).state = .queued ∧
    w.state = .done ∧ w.delivered = true ∧ w.outcome = some .acked ∧ (leg .inProgress none).state = .inProgress ∧
    (twinBusy (leg .inProgress none) (twinLeg .queued none)).slots[0].Cancellable 0x55 ∧
    (twinBusy (leg .queued none) (twinLeg .inProgress none)).slots[0].Cancellable 0x55 := by
  subst hp hw h ht; unfold Slot.Cancellable; decide

/-! ### Witnesses: segments -/

/-- A segment with a leg waiting. -/
def waiting : Segment := { Segment.reset with queue := [{ slot := 0, role := .primary }] }

theorem test_hyp_leg_decision :
    ({ waiting with pendingCfg := some { enable := false, rate := .fast, stretchLimit := 1 } } : Segment).configured.stored.enable = false ∧
    waiting.configured.stored.enable = true ∧ waiting.configured.Free ∧ waiting.configured.queue = { slot := 0, role := .primary } :: [] ∧
    Segment.reset.configured.queue = [] ∧ ¬ ({ waiting with hold := true } : Segment).configured.Free ∧
    waiting.configured.state = .idle ∧ ({ waiting with state := .active } : Segment).configured.state ≠ .idle := by
  unfold Segment.Free; decide

theorem test_hyp_failed_legs (s : State) (h : s = (busy (leg .queued none)).withSeg 0 waiting) :
    s.segs[0].queue = [leg .queued none].map (fun l => { slot := l.slot, role := l.role }) ∧ s.segs[0].queue.Nodup ∧
    (∀ l ∈ [leg .queued none], s.legAt { slot := l.slot, role := l.role } = some l) ∧ s.segs[1].queue = [] := by
  subst h; decide

theorem test_hyp_seg_config :
    (3 : Byte) = byteOf (3 : SegId) ∧ ({ enable := false, rate := .fast, stretchLimit := 1 } : SegConfig).stretchLimit ≠ 0 ∧
    ({ enable := true, rate := .slow, stretchLimit := 255 } : SegConfig).stretchLimit ≠ 0 ∧
    (∀ (n : SegId) (c : SegConfig), c.stretchLimit ≠ 0 →
      ([0, 1, 1, 0] : List Byte) ≠ [byteOf n, boolByte c.enable, c.rate.code, c.stretchLimit]) ∧
    (segmentIs { Segment.reset with state := .faulted }).segs[3].state = .faulted ∧ State.reset.segs[3].state = .idle ∧
    (segmentIs { Segment.reset with state := .off }).segs[3].state = .off ∧
    (segmentIs { Segment.reset with state := .active }).segs[3].state = .active ∧
    (segmentIs { Segment.reset with state := .clearing }).segs[3].state = .clearing := by
  refine ⟨by decide, by decide, by decide, fun n c hc h => ?_, by decide, by decide, by decide, by decide, by decide⟩
  simp only [List.cons.injEq, and_true] at h
  exact hc h.2.2.2.symm

theorem test_hyp_seg_number : ([3] : List Byte) = [byteOf (3 : SegId)] ∧ (∀ n : SegId, ([4] : List Byte) ≠ [byteOf n]) ∧
    (∀ n : SegId, ([0, 0] : List Byte) ≠ [byteOf n]) := by decide

theorem test_hyp_seg_reset (s : State) (h : s = State.reset.withSlot 0 (resetSlotOf 5 3 0)) :
    s.LowestFree 1 ∧ s.slots[0].state = .working ∧ s.slots[0].request = some (.segReset 3) ∧
    (∀ j : SlotId, ¬ (State.reset.slots[j].state = .working ∧ State.reset.slots[j].request = some (.segReset 3))) ∧
    (segmentIs { Segment.reset with state := .off }).segs[3].state = .off ∧ State.reset.segs[3].state ≠ .off ∧
    State.reset.segs[3].inProgress = none ∧ State.reset.segs[3].state ≠ .clearing ∧
    ({ Segment.reset with state := .active, inProgress := some run } : Segment).inProgress.isSome = true ∧
    ({ Segment.reset with state := .clearing } : Segment).inProgress = none := by
  subst h; unfold State.LowestFree; decide

/-! ### Witnesses: watch units and log -/

/-- A setup that every ACKED write meets. -/
def setup (count : Nat) (action : WatchAction) : WatchSetup :=
  { WatchSetup.zeroed with segMask := 15, addrHigh := 0x7F, direction := .any, outcomes := 1, count := count, action := action }

/-- The record of an ACKED write. -/
def record : RecordCopy := (leg .done none).copy 5 0x55 2 .acked (some 7)

theorem test_hyp_watch_set : (setup 255 .pulse).Settable 0 ∧ ({ setup 0 .stage with chained := true } : WatchSetup).Settable 3 ∧
    ({ setup 0 .stage with addrLow := 0x7F } : WatchSetup).Settable 2 ∧
    (∀ (u : UnitId) (w : WatchSetup), w.Settable u → ([] : List Byte) ≠ byteOf u :: w.bytes) := by
  refine ⟨by unfold WatchSetup.Settable; decide, by unfold WatchSetup.Settable; decide, by unfold WatchSetup.Settable; decide,
    fun _ _ _ h => by cases h⟩

theorem test_hyp_watch_rearm (x : WatchUnit) (h : x = { WatchUnit.reset with state := .fired }) :
    x.state ≠ .disabled ∧ WatchUnit.reset.state = .disabled ∧ WatchUnit.reset.setup.chained = false ∧
    ({ setup 0 .notify with chained := true } : WatchSetup).chained = true ∧ ([2] : List Byte) = [byteOf (2 : UnitId)] ∧
    ([3] : List Byte) = [byteOf (3 : UnitId)] := by
  subst h; decide

theorem test_hyp_evt_timer : (State.reset.withUnit 3 { WatchUnit.reset with evtTimer := some 0 }).units[3].evtTimer = some 0 ∧
    (State.reset.withUnit 3 { WatchUnit.reset with evtTimer := some 1 }).units[3].evtTimer ≠ some 0 ∧
    State.reset.units[3].evtTimer ≠ some 0 := by decide

theorem test_hyp_match : (setup 0 .notify).invert = false ∧ ({ setup 0 .notify with invert := true } : WatchSetup).invert = true ∧
    (setup 0 .notify).isMatch record = true ∧ WatchSetup.zeroed.isMatch record = false := by decide

theorem test_hyp_fire (s : State) (h : s = (State.reset.withUnit 2 { WatchUnit.reset with
      setup := setup 1 .freezeLog, state := .armed, countRemaining := 1 }).withUnit 3 { WatchUnit.reset with setup := { setup 0 .holdSegment with chained := true }, state := .waiting }) :
    0 < s.units[2].countRemaining ∧ s.units[3].countRemaining = 0 ∧ s.units[2].setup.isMatch record = true ∧
    s.units[3].setup.isMatch record = true ∧ s.units[3].setup.chained = true ∧ s.units[3].state = .waiting ∧
    ¬ (s.units[1].setup.chained = true ∧ s.units[1].state = .waiting) ∧ s.units[2].setup.action = .freezeLog ∧
    s.units[3].setup.action = .holdSegment ∧ s.units[0].setup.action = .stage ∧ (setup 0 .notify).action = .notify ∧
    (setup 0 .pulse).action = .pulse := by
  subst h; decide

theorem test_hyp_log_read : ([1] : List Byte) = [byteOf 1] ∧ ([4] : List Byte) = [byteOf 4] ∧
    (∀ n : Nat, 1 ≤ n → n ≤ 4 → ([0] : List Byte) ≠ [byteOf n]) ∧ (∀ n : Nat, 1 ≤ n → n ≤ 4 → ([5] : List Byte) ≠ [byteOf n]) := by
  refine ⟨by decide, by decide, fun n h1 h2 => ?_, fun n h1 h2 => ?_⟩
  · have : n = 1 ∨ n = 2 ∨ n = 3 ∨ n = 4 := by omega
    rcases this with rfl | rfl | rfl | rfl <;> decide
  · have : n = 1 ∨ n = 2 ∨ n = 3 ∨ n = 4 := by omega
    rcases this with rfl | rfl | rfl | rfl <;> decide

theorem test_hyp_log_control : ([2] : List Byte) = [LogMode.exceptions.code] ∧ ([0] : List Byte) = [LogMode.off.code] ∧
    (∀ m : LogMode, ([3] : List Byte) ≠ [m.code]) ∧ ([0xFF] : List Byte).length = 1 ∧ ([] : List Byte).length ≠ 1 := by
  refine ⟨by decide, by decide, fun m => ?_, by decide, by decide⟩
  cases m <;> decide

/-- A log of `n` markers in mode ALL. -/
def logOf (n : Nat) : HistoryLog :=
  { entries := List.replicate n (.clockSwitch 0 .backup .loss), mode := .all, frozen := false, lost := false }

theorem test_hyp_offer : (logOf 31).entries.length < 32 ∧ 32 ≤ (logOf 32).entries.length ∧ (logOf 32).frozen = false ∧
    ({ logOf 0 with frozen := true } : HistoryLog).frozen = true ∧ (logOf 0).mode = .all ∧ HistoryLog.reset.mode = .exceptions := by
  decide

/-! ### Witnesses: clock unit -/

/-- The part with the clock unit on a source, in a switch state, with a reference status. -/
def clocked (src : Source) (sw : SwitchState) (st : RefStatus) : State :=
  { State.reset with clock := { ClockUnit.reset with source := src, switch := sw, refStatus := st, selectOwner := some 0 } }

theorem test_hyp_clock_config : ([8] : List Byte) = [byteOf 8] ∧ ([25] : List Byte) = [byteOf 25] ∧
    (State.reset.clock.source = .backup ∧ State.reset.clock.switch = .steady) ∧
    (clocked .reference .steady .present).clock.source = .reference ∧
    (∀ m : Nat, 8 ≤ m → m ≤ 25 → ([7] : List Byte) ≠ [byteOf m]) ∧ (∀ m : Nat, 8 ≤ m → m ≤ 25 → ([26] : List Byte) ≠ [byteOf m]) := by
  refine ⟨by decide, by decide, by decide, by decide, fun m h1 h2 h => ?_, fun m h1 h2 h => ?_⟩ <;>
  · simp only [List.cons.injEq, and_true] at h
    have h3 := congrArg BitVec.toNat h
    have h7 : (7 : Byte).toNat = 7 := rfl
    have h26 : (26 : Byte).toNat = 26 := rfl
    simp only [byteOf, BitVec.toNat_ofNat] at h3
    omega

theorem test_hyp_clock_select : (clocked .backup (.quiescing .reference) .present).clock.switch = .quiescing .reference ∧
    State.reset.clock.switch = .steady ∧ State.reset.clock.refStatus ≠ .present ∧ Source.reference ≠ State.reset.clock.source ∧
    (clocked .backup .steady .present).clock.refStatus = .present ∧ Source.backup ≠ (clocked .reference .steady .present).clock.source ∧
    (∀ t : Source, ([2] : List Byte) ≠ [t.code]) ∧ ([0] : List Byte) = [Source.backup.code] := by
  refine ⟨by decide, by decide, by decide, by decide, by decide, by decide, fun t => ?_, by decide⟩
  cases t <;> decide

theorem test_hyp_reference : State.reset.clock.refStatus = .absent ∧ (clocked .backup .steady .starting).clock.refStatus = .starting ∧
    (clocked .backup .steady .present).clock.source = .backup ∧ (clocked .reference .steady .present).clock.refStatus = .present ∧
    (clocked .reference (.quiescing .backup) .present).clock.switch = .quiescing .backup ∧
    (clocked .backup (.quiescing .reference) .present).clock.source = .backup := by decide

theorem test_hyp_reports (s : State) (h : s = { clocked .backup (.quiescing .reference) .present with
      segs := State.reset.segs.set 3 { Segment.reset with pauseSetting := true, reports := [.quiescent, .withdrawal] } }) :
    s.segs[3].pauseSetting = true ∧ s.segs[2].pauseSetting = false ∧ s.segs[2].reports.head? ≠ some .quiescent ∧
    s.segs[3].reports.head? ≠ some .withdrawal ∧ s.segs[3].reports = .quiescent :: [.withdrawal] ∧
    s.clock.switch = .quiescing .reference ∧ s.clock.awaited.set 3 false = Vector.replicate 4 false ∧
    (Vector.replicate 4 true).set 3 false ≠ Vector.replicate 4 false ∧ State.reset.clock.switch = .steady ∧
    (segmentIs { Segment.reset with reports := [.withdrawal] }).segs[3].reports = .withdrawal :: [] := by
  subst h; decide

/-! ### Witnesses: segment events -/

theorem test_hyp_line_check (s : State) (h : s = segmentIs { waiting with state := .active }) :
    s.segs[3].state = .active ∧ s.segs[3].inProgress = none ∧ s.segs[3].queue = { slot := 0, role := .primary } :: [] ∧
    (high.set 3 ⟨false, true⟩)[3].scl = false ∧ (high.set 3 ⟨true, false⟩)[3].sda = false ∧ high[3].scl = true ∧ high[3].sda = true ∧
    ¬ (State.reset.segs[3].state = .active ∧ State.reset.segs[3].inProgress = none) ∧
    (segmentIs { Segment.reset with state := .active }).segs[3].queue = [] := by
  subst h; decide

/-- A clear record with an owner or none. -/
def clearBy (owner : Option SlotId) : ClearRecord :=
  { purpose := .reset, pulses := 0, rate := .standard, stretchLimit := 100, owner := owner }

/-- A segment in CLEARING. -/
def clearingBy (owner : Option SlotId) : Segment := { Segment.reset with state := .clearing, clear := some (clearBy owner) }

theorem test_hyp_clears : (segmentIs (clearingBy none)).segs[3].state = .clearing ∧
    (segmentIs (clearingBy none)).segs[3].clear = some (clearBy none) ∧ (clearBy none).owner = none ∧
    (segmentIs (clearingBy (some 7))).segs[3].clear = some (clearBy (some 7)) ∧ (clearBy (some 7)).owner = some 7 ∧
    (clearingBy (some 7)).configured.stored.enable = true ∧
    ({ clearingBy (some 7) with pendingCfg := some { enable := false, rate := .fast, stretchLimit := 9 } } :
      Segment).configured.stored.enable = false ∧
    ¬ (State.reset.segs[3].state = .clearing ∧ State.reset.segs[3].clear.isSome = true) := by decide

/-- The readings of the spec's worked clear in three pulses (section 6.6). -/
theorem test_clear_in_three_pulses : clearEnding [false, false, false, true, true, true] = some (3, none) ∧
    clearEnding (List.replicate 10 false) = some (9, some .stuckData) ∧ clearEnding [true, true, true] = some (0, none) ∧
    clearEnding [true, true, false, true, false, true, true, true] = some (2, none) ∧ clearEnding [false, true] = none ∧
    clearWaiting [false, true] = some 1 ∧ clearWaiting [] = some 0 ∧ clearWaiting [true, true, true] = none := by decide

theorem test_stuck_data_faults :
    (after (.busClearEnd 3 (List.replicate 10 false) high) (segmentIs (clearingBy none))).segs[3].lastFault = .stuckData := by decide

theorem test_hyp_clear_readings : (∃ t, ClearReturns 10 (List.replicate 10 false) t) ∧ ClearRunsOn 0 [] [] ∧
    ClearFrees 0 [true, true, true] [.stopBegin, .stopEnd] ∧ (∃ t, ClearRunsOn 9 (List.replicate 9 false ++ [true, true]) t) ∧
    ∃ t, ClearFrees 9 (List.replicate 9 false ++ [true, true, true]) t := by
  have h : ∀ m : Nat, ClearReturns m (List.replicate m false) (triesTrace 0 (List.replicate m [false])) := by
    intro m
    refine ⟨List.replicate m [false], by simp, fun t ht => .inl (List.eq_of_mem_replicate ht), ?_, rfl⟩
    induction m with
    | zero => rfl
    | succ m ih => rw [List.replicate_succ, List.replicate_succ, ih]; rfl
  exact ⟨⟨_, h 10⟩, ⟨by decide, [], [], [], [], h 0, .inl ⟨rfl, rfl⟩, rfl, rfl⟩, ⟨by decide, [], [], h 0, rfl, rfl⟩,
    ⟨_, by decide, _, _, _, _, h 9, .inr (.inr ⟨rfl, rfl⟩), rfl, rfl⟩, ⟨_, by decide, _, _, h 9, rfl, rfl⟩⟩

/-- What the engine did in a clear: the three pulses and the STOP of the worked clear (section 6.6), a STOP that the target broke, and one
held at its step 2. -/
theorem test_trace_of_a_clear :
    (after (.busClearEnd 3 [false, false, false, true, true, true] high) (segmentIs (clearingBy none))).segs[3].clearTrace =
      [.pulse, .pulse, .pulse, .stopBegin, .stopEnd] ∧
    endedClearTrace [true, false, true, true, true] = [.stopBegin, .stopEnd, .pulse, .stopBegin, .stopEnd] ∧
    (after (.busClearTimeout 3 [false, true] high) (segmentIs (clearingBy none))).segs[3].clearTrace = [.pulse, .stopBegin] ∧
    heldClearTrace [false] = [.pulse] := by decide

theorem test_hyp_clear_readings_end_nothing : (∀ t, ¬ ClearReturns 10 [] t) ∧ (∀ m t, ¬ ClearFrees m [] t) ∧
    ∀ m t, ¬ ClearRunsOn m [true, true, true] t := by
  refine ⟨?_, ?_, ?_⟩
  · rintro _ ⟨tries, hl, ht, e, -⟩
    cases tries with
    | nil => cases hl
    | cons t ts => rcases ht t (List.mem_cons_self ..) with rfl | rfl | rfl <;> cases e
  · rintro m _ ⟨-, before, _, -, e, -⟩
    cases before <;> cases e
  · rintro m _ ⟨-, before, _, last, _, ⟨tries, -, ht, rfl, -⟩, hl, e, -⟩
    cases tries with
    | nil => rcases hl with ⟨rfl, -⟩ | ⟨rfl, -⟩ | ⟨rfl, -⟩ <;> cases e
    | cons t ts =>
      have h : false ∈ [true, true, true] := by
        rw [e]; rcases ht t (List.mem_cons_self ..) with rfl | rfl | rfl <;> simp
      simp at h

/-- The part with the WRITE of slot 0 running on segment 3. -/
def running (reset : Bool) (r : Run) : State :=
  (busy (leg .inProgress none)).withSeg 3
    { Segment.reset with state := .active, inProgress := some r, resetRequested := reset }

/-- The fields at a stop boundary of that leg. -/
def noStop : StopFields := { reset := false, cut := false }

theorem test_hyp_leg_end : (running false run).segs[3].inProgress = some run ∧ (running false run).Runs run (leg .inProgress none) [7, 8] ∧
    State.reset.segs[3].inProgress = none ∧ (running true run).segs[3].resetRequested = true ∧
    legEnding (leg .inProgress none) run noStop [7, 8] [.data 1] (.stop true .noField) = none ∧
    ((legEnding (leg .inProgress none) run noStop [7, 8] [.nack] (.stop true .noField)).map fun p => (p.2.2.1, p.2.2.2)) =
      some (.addrNack, .stopped) ∧
    ((legEnding (leg .inProgress none) run noStop [7, 8] [.ack, .ack, .ack, .ack] (.stop false .noField)).map
      fun p => (p.2.2.1, p.2.2.2)) = some (.acked, .held .stopFailed) ∧
    ((legEnding (leg .inProgress none) run noStop [7, 8] [] (.conflict (.bit 1))).map fun p => (p.2.2.1, p.2.2.2)) =
      some (.lineConflict, .held .conflict) ∧
    ((legEnding (leg .inProgress none) run { reset := true, cut := false } [7, 8] [.ack] (.stop true .reset)).map
      fun p => (p.2.2.1, p.2.2.2)) = some (.segmentReset, .stopped) := by
  refine ⟨by decide, Or.inr ⟨rfl, by decide, by decide⟩, by decide, by decide, by decide, by decide, by decide, by decide, by decide⟩

/-- That leg with a CANCEL taken under reset-requested. -/
def cutLate : LegRecord := { leg .inProgress none with cutRequested := true, cutUnderReset := true }

theorem test_hyp_cut_under_reset : run.secondWindow = false ∧ run.orphan = none ∧ run.resetDropped = false ∧
    (running false run).segs[3].resetRequested = false ∧ cutLate.cutUnderReset = true ∧ (leg .inProgress none).cutRequested = false ∧
    ((running true run).withSlot 0 (transfer cutLate)).Runs run cutLate [7, 8] :=
  ⟨by decide, by decide, by decide, by decide, by decide, by decide, Or.inr ⟨rfl, by decide, by decide⟩⟩

/-- The first data byte of `leg` acknowledged, then the STOP with this reading; segment 0 is reset-requested or not. -/
def endUnder (reset : Bool) (l : LegRecord) (read : StopRead) : Option LegOutcome :=
  (legEnding l run (stopFields { Segment.reset with resetRequested := reset } run l) [7, 8] [.ack, .ack, .ack] (.stop true read)).map
    fun p => p.2.2.1

theorem test_cut_and_reset_by_order : endUnder true cutLate .cut = none ∧ endUnder true cutLate .reset = some .segmentReset ∧
    endUnder true { cutLate with cutUnderReset := false } .cut = some .cut ∧
    endUnder true { cutLate with cutUnderReset := false } .reset = some .segmentReset ∧
    endUnder false { cutLate with cutUnderReset := false } .reset = none := by decide

theorem test_cancel_after_reset :
    (after (.cancel 9 [0x55]) ((busy (leg .inProgress none)).withSeg 0
      { Segment.reset with state := .active, inProgress := some run, resetRequested := true })).slots[0].primary = some cutLate := by
  decide

theorem test_trace_of_a_write : endTrace (leg .inProgress none) run [7, 8] [.ack, .ack, .ack, .ack] (.stop true .noField) =
    sendSlots 0x40 ++ sendSlots 1 ++ sendSlots 7 ++ sendSlots 8 ++ [.stopBegin, .stopEnd] := by decide

theorem test_trace_joins_the_segment :
    (after (.legEnd 3 [.nack] (.stop true .noField) high) (running false run)).segs[3].lastTrace =
      sendSlots 0x40 ++ [.stopBegin, .stopEnd] ∧
    (after (.stretchTimeout 3 [] (.bit 2)) (running false run)).segs[3].trace = [.slot true, .slot false, .slot true, .giveUp] := by decide

/-- Where the next leg starts within the LEG_END of one, the trace of the one that ended is kept. -/
theorem test_ended_trace_outlives_the_next_start (s : State)
    (h : s = (running false run).withSeg 3
      { (running false run).segs[3] with trace := [.start], queue := [{ slot := 0, role := .twin }] }) :
    (after (.legEnd 3 [.nack] (.stop true .noField) high) s).segs[3].lastTrace =
      [.start] ++ sendSlots 0x40 ++ [.stopBegin, .stopEnd] ∧
    (after (.legEnd 3 [.nack] (.stop true .noField) high) s).segs[3].trace = [.start] := by subst h; decide

theorem test_start_opens_the_trace : (after (.probe 6 [0, 93] high) exampleMap).segs[1].trace = [.start] := by decide

theorem test_hyp_orphan (o : OrphanLeg) (h : o = { tag := 9, leg := leg .inProgress none, writeData := [7, 8] }) (s : State) :
    s.Runs { run with orphan := some o } (leg .inProgress none) [7, 8] := by
  subst h; exact Or.inl ⟨_, rfl, rfl, rfl⟩

theorem test_hyp_wire_answers : run.Fresh ∧ (leg .inProgress none).readData = [] ∧ 1 ≤ (leg .inProgress none).length ∧
    (leg .inProgress none).kind = .write ∧ (leg .inProgress none).regPhase = true ∧
    ({ leg .inProgress none with kind := .read } : LegRecord).kind = .read ∧ ([5, 6] : List Byte).length = (leg .inProgress none).length ∧
    ({ leg .inProgress none with kind := .probe } : LegRecord).kind = .probe ∧ 1 < (leg .inProgress none).length := by
  unfold Run.Fresh; decide

/-- The READ that goes with that leg. -/
def readLeg : LegRecord := { leg .inProgress none with kind := .read }

theorem test_trace_of_a_read :
    endTrace readLeg run [] [.ack, .ack, .ack, .data 5, .data 6] (.stop true .noField) =
      sendSlots 0x40 ++ sendSlots 1 ++ [.release, .start] ++ sendSlots 0x41 ++ receiveSlots true ++
        receiveSlots false ++ [.stopBegin, .stopEnd] ∧
    endTrace readLeg run [] [.ack, .ack, .ack, .data 5] (.stop true .cut) =
      sendSlots 0x40 ++ sendSlots 1 ++ [.release, .start] ++ sendSlots 0x41 ++ receiveSlots false ++
        [.stopBegin, .stopEnd] := by decide

/-- What the engine did where a target held the clock: at the acknowledge slot of a data byte that more were to follow, at the one where a
CANCEL was read, and in the STOP; and in a conflict at the repeated START. -/
theorem test_trace_of_a_held_read :
    stretchTrace readLeg run [] [.ack, .ack, .ack, .data 5] (.readAck .noField) =
      sendSlots 0x40 ++ sendSlots 1 ++ [.release, .start] ++ sendSlots 0x41 ++ receiveSlots true ++ [.giveUp] ∧
    stretchTrace readLeg run [] [.ack, .ack, .ack, .data 5] (.readAck .cut) =
      sendSlots 0x40 ++ sendSlots 1 ++ [.release, .start] ++ sendSlots 0x41 ++ receiveSlots false ++ [.giveUp] ∧
    stretchTrace readLeg run [] [.nack] (.closingStop .noField) = sendSlots 0x40 ++ [.stopBegin] ∧
    endTrace readLeg run [] [.ack, .ack] (.conflict .repeatedStart) = sendSlots 0x40 ++ sendSlots 1 ++ [.release] := by decide

/-- The rest of a leg on the lines once SCL has risen in the second stretch window (R106, R107). -/
theorem test_trace_after_the_second_window :
    endTrace readLeg run.timeout [] [] (.stop true .noField) = [.stopBegin, .stopEnd] ∧
    endTrace readLeg { run with phase := .stop, decided := some .acked, secondWindow := true } [] [] (.stop true .noField) =
      [.stopEnd] := by decide

theorem test_hyp_stop_fields : ({ reset := true, cut := false } : StopFields).reset = true ∧
    ({ reset := false, cut := true } : StopFields).cut = true ∧ noStop.cut = false ∧ noStop.reset = false ∧ run.orphan = none ∧
    readLeg.kind = .read ∧ readLeg.regPhase = true ∧ 1 ≤ ([5] : List Byte).length ∧ ([5] : List Byte).length < readLeg.length ∧
    ((legEnding readLeg run { reset := false, cut := true } [] [.ack, .ack, .ack, .data 5] (.stop true .cut)).map
      fun p => (p.2.1, p.2.2.1)) = some ([5], .cut) ∧
    ((legEnding readLeg run { reset := true, cut := true } [] [.ack, .ack] (.stop true .cut)).map fun p => p.2.2.1) = some .cut ∧
    legEnding readLeg run { reset := true, cut := true } [] [.ack, .ack, .ack] (.stop true .cut) = none := by
  decide

theorem test_hyp_conflicts : ((0x20#7 ++ 0#1 : Byte).getMsbD 1 = true) ∧ ((0x20#7 ++ 0#1 : Byte).getMsbD 0 = false) ∧
    ((0x20#7 ++ 1#1 : Byte).getMsbD 7 = true) ∧ ([7, 8] : List Byte)[1]? = some 8 ∧ (leg .inProgress none).regIndex.getMsbD 7 = true ∧
    (leg .inProgress none).length = ([7, 8] : List Byte).length ∧
    ((legEnding readLeg run noStop [] [.ack, .ack, .ack, .data 5] (.conflict .readNack)).isNone) = true ∧
    ((legEnding readLeg run noStop [] [.ack, .ack, .ack, .data 5, .data 6] (.conflict .readNack)).isSome) = true := by decide

theorem test_hyp_stretch_places : wireBytes (leg .inProgress none) run [] [.data 1] = none ∧
    (wireBytes (leg .inProgress none) run [] [.ack]).isSome = true ∧
    ((wireBytes readLeg run [] [.ack, .ack, .ack, .data 5]).map fun p => (p.1.count, p.1.secondWindow, p.1.decided)) =
      some (1, false, none) ∧
    ((wireBytes readLeg run [] [.ack, .ack]).map fun p => (p.1.phase, p.1.decided)) = some (.repeatedStart, none) ∧
    closingOutcome (leg .inProgress none) { run with phase := .data } { reset := true, cut := true } .cut = some .cut ∧
    ({ run with phase := .stretchWait, secondWindow := true, decided := some .stretchTimeout } : Run).phase ≠ .stop := by decide

theorem test_hyp_stretch :
    stretchAt (leg .inProgress none) run noStop [] (.readAck .noField) = none ∧
    (stretchAt (leg .inProgress none) run noStop [.ack] (.bit 8)).isSome = true ∧
    (stretchAt (leg .inProgress none) run noStop [.nack] (.closingStop .noField)).isSome = true ∧
    (({ run with orphan := some { tag := 9, leg := leg .inProgress none, writeData := [] } } : Run).orphan).isSome = true ∧
    run.orphan = none := by decide

theorem test_hyp_second_window (r : Run) (h : r = run.timeout) : r.secondWindow = true ∧ r.decided = some .stretchTimeout ∧
    (running false r).segs[3].inProgress = some r ∧ (running false r).segs[3].resetRequested = false ∧
    (running true r).segs[3].resetRequested = true ∧ run.secondWindow = false := by
  subst h; decide

/-! ### Witnesses: link -/

/-- An answered slot 0 whose reply stands at the head of the queue, begun or not, before a notice. -/
def queued (begun : Bool) (last : Bool) : State :=
  { State.reset with
    slots := State.reset.slots.set 0 (({ Slot.freed with state := .working, reqType := some 0x70 } : Slot).answered .ok [1]),
    link := { LinkPort.reset with
      queue := { content := .reply 0, begun := begun } ::
        if last then [] else [{ content := .notice (.clockEvent .referenceGood .backup .present 255), begun := false }] } }

theorem test_hyp_message_begin : State.reset.link.selected = false ∧ State.reset.link.outFrame = none ∧
    State.reset.link.resetInSelect = false ∧
    State.reset.Carries ⟨.notice (.ready .powerOn), false⟩ 0 [0xA0, 0, 0, 0, 0x4E, 0x24, 1] ∧
    (queued false true).Carries ⟨.reply 0, false⟩ 0 [0x70, 0, 0, 0, 1] ∧
    ({ State.reset with link := { LinkPort.reset with queue := [], selected := true } } : State).link.queue = [] := by
  refine ⟨rfl, rfl, rfl, Or.inr ⟨_, 0xA0, rfl, Or.inl ⟨.powerOn, rfl, rfl⟩, by decide⟩,
    Or.inl ⟨0, _, rfl, (show (queued false true).slots[0].reply = some _ from rfl), by decide⟩, rfl⟩

theorem test_hyp_link_in_reset : State.inPowerOnReset.link.rstLow = true ∧ State.inPowerOnReset.attnLow = false ∧
    State.reset.attnLow = true ∧ State.inPowerOnReset.ldo = none := by decide

/-- The part within a select, with an outbound frame of two bytes of which some have been sampled, and this assembler. -/
def linked (sent : Nat) (m : Assembler) : State :=
  { queued true false with
    link := { (queued true false).link with assembler := m, selected := true, outFrame := some { bytes := [0xB7, 7], sent := sent } } }

theorem test_hyp_frame_sent (f g : OutFrame) (hf : f = { bytes := [0xB7, 7], sent := 2 }) (hg : g = { bytes := [0xB7, 7], sent := 1 }) :
    (linked 2 .length).link.outFrame = some f ∧ f.sent = f.bytes.length ∧ (linked 1 .hunt).link.outFrame = some g ∧
    g.sent ≠ g.bytes.length ∧ (linked 2 .length).link.selected = true ∧ State.reset.link.selected = false ∧
    (linked 2 .length).link.queue = { content := .reply 0, begun := true } ::
      [{ content := .notice (.clockEvent .referenceGood .backup .present 255), begun := false }] ∧ State.reset.link.outFrame = none := by
  subst hf hg; decide

theorem test_hyp_inbound : (linked 0 (.body 96 (List.replicate 95 0))).link.selected = true ∧ State.reset.link.selected = false ∧
    (linked 0 .hunt).link.assembler = .hunt ∧ (linked 0 .length).link.assembler = .length ∧
    (linked 0 (.body 96 (List.replicate 95 0))).link.assembler = .body 96 (List.replicate 95 0) ∧
    (List.replicate 95 (0 : Byte)).length + 1 = 96 ∧ (List.replicate 94 (0 : Byte)).length + 1 ≠ 96 ∧ 2 ≤ (2 : Byte).toNat ∧
    (96 : Byte).toNat ≤ 96 ∧ (1 : Byte).toNat < 2 ∧ 96 < (97 : Byte).toNat ∧
    (linked 0 (.crc 2 [0x62, 9] none)).link.assembler = .crc 2 [0x62, 9] none := by decide

theorem test_hyp_crc_wrong : (linked 0 (.crc 2 [0x62, 9] (some 0))).link.assembler = .crc 2 [0x62, 9] (some 0) ∧
    crc16 (byteOf 2 :: [0x62, 9]) ≠ (0x00 : Byte) ++ (0x00 : Byte) := by decide +kernel

theorem test_hyp_good_frame : (linked 0 (.crc 2 [0x62, 9] (some 0x5E))).link.selected = true ∧
    (linked 0 (.crc 2 [0x62, 9] (some 0x5E))).link.assembler = .crc 2 (0x62 :: 9 :: []) (some 0x5E) ∧
    crc16 (byteOf 2 :: 0x62 :: 9 :: []) = (0x5E : Byte) ++ (0x9D : Byte) ∧ Instr.frameBody (.clockStatus 9 []) = some (0x62, 9, []) ∧
    Instr.wires (.clockStatus 9 []) = none ∧
    crc16 (byteOf 2 :: 0x01 :: 9 :: []) = (0x00 : Byte) ++ (0xE4 : Byte) ∧ 0x01 ∉ requestTypes := by decide +kernel

theorem test_hyp_log_control_frame : crc16 (byteOf 4 :: 0x51 :: 9 :: [3, 0]) = (0x50 : Byte) ++ (0x47 : Byte) ∧
    (∀ (op : Byte) (rest : List Byte), ([3, 0] : List Byte) = op :: rest → 3 ≤ op.toNat) ∧
    (linked 0 (.crc 4 [0x51, 9, 3, 0] (some 0x50))).LowestFree 1 := by
  refine ⟨by decide +kernel, fun op rest h => ?_, by unfold State.LowestFree; decide⟩
  cases h; decide

theorem test_good_frame_runs :
    (after (.byteBoundary 0x9D high) (linked 0 (.crc 2 [0x62, 9] (some 0x5E)))).slots[1].result = some .ok := by decide +kernel

theorem test_log_control_frame_is_refused :
    (after (.byteBoundary 0x47 high) (linked 0 (.crc 4 [0x51, 9, 3, 0] (some 0x50)))).slots[1].result = some .badRequest := by
  decide +kernel

theorem test_hyp_raise (n : Notice) (h : n = .clockEvent .referenceLost .backup .absent 1) :
    State.reset.noticeCount n.source = 0 ∧ State.reset.held n.source = none ∧
    (queued false false).link.queue = [{ content := .reply 0, begun := false }] ++
      { content := .notice (.clockEvent .referenceGood .backup .present 255), begun := false } :: [] ∧
    (Notice.clockEvent .referenceGood .backup .present 255).source = n.source ∧
    (∀ x ∈ ([{ content := .reply 0, begun := false }] ++ [] : List OutMessage), OutMessage.isFrom n.source x = false) ∧
    ({ State.reset with clock := { ClockUnit.reset with heldEvent := some n } } : State).held n.source = some n := by
  subst h; decide

theorem test_hyp_delivery (r : CompletionRecord) (hr : r = { record with readData := [] }) (s : State)
    (hs : s = busy (leg .done (some .acked))) :
    s.slots[r.slot].state = .working ∧ r.kind ≠ .read ∧
    (s.slots[r.slot].modLeg r.role fun l => { l with delivered := true }).primary =
      some { leg .done (some .acked) with delivered := true } ∧
    (s.slots[r.slot].modLeg r.role fun l => { l with delivered := true }).twin = none ∧
    ((busy (leg .queued none)).slots[r.slot].modLeg r.role fun l => { l with delivered := true }).primary =
      some { leg .queued none with delivered := true } := by
  subst hr hs; decide

/-- The resolution of a MIRROR_FALLBACK read on S0 with its twin on S1. -/
def fallback : Resolution :=
  { primarySeg := 0, primaryAddr := 0x20, regPhase := true, policy := .mirrorFallback, twin := some (1, 0x28) }

/-- The part with a WORKING MIRROR_FALLBACK read whose primary has just ended. -/
def fallingBack : State :=
  State.reset.withSlot 0
    { transfer { leg .done (some .addrNack) with kind := .read } with
      reqType := some 0x11, request := some (.read 0x100 1 2), resolution := some fallback }

theorem test_hyp_fallback (r : CompletionRecord)
    (hr : r = { ({ leg .done none with kind := .read } : LegRecord).copy 5 0x55 0 .addrNack none with readData := [] }) :
    fallingBack.slots[r.slot].state = .working ∧ r.role = .primary ∧ r.kind = .read ∧ r.outcome ≠ .acked ∧
    (fallingBack.slots[r.slot].modLeg r.role fun l => { l with delivered := true }).primary.isSome = true ∧
    (fallingBack.slots[r.slot].modLeg r.role fun l => { l with delivered := true }).twin = none ∧
    (fallingBack.slots[r.slot].modLeg r.role fun l => { l with delivered := true }).cancelled = false ∧
    (fallingBack.slots[r.slot].modLeg r.role fun l => { l with delivered := true }).resolution = some fallback ∧
    fallback.policy = .mirrorFallback ∧ fallback.twin = some (1, 0x28) ∧
    (fallingBack.slots[r.slot].modLeg r.role fun l => { l with delivered := true }).request = some (.read 0x100 1 2) ∧
    fallingBack.segs[1].Startable ∧ (fallingBack.withSeg 1 { Segment.reset with state := .off }).segs[1].Refuses .segmentOff .segmentOff := by
  subst hr; unfold Segment.Startable Segment.Refuses; decide

theorem test_hyp_reconcile : (leg .done (some .acked)).outcome = some .acked ∧ (leg .done (some .cut)).outcome = some .cut ∧
    (leg .done (some .segmentReset)).outcome = some .segmentReset ∧ (leg .done none).kind ≠ .read := by decide

/-- A part that runs no leg and owns nothing keeps the law of the legs. -/
theorem legLaw_of_idle {s : State} (h1 : ∀ k : SlotId, s.slots[k].primary = none ∧ s.slots[k].twin = none ∧ s.slots[k].resolution = none)
    (h2 : ∀ n : SegId, s.segs[n].queue = [] ∧ s.segs[n].inProgress = none ∧ s.segs[n].clear = none) (h3 : s.clock.selectOwner = none) :
    LegLaw s := by
  have hl : ∀ (k : SlotId) (role : Role), s.slots[k].leg role = none := by
    intro k role; cases role
    · exact (h1 k).1
    · exact (h1 k).2.1
  refine ⟨fun n => ?_, fun n r hr _ => ?_, fun k => ⟨fun role l h => ?_, fun p t h => ?_, fun p res h => ?_, fun _ => h1 k, fun _ role l h => ?_⟩,
    fun n c k h => ?_, fun k h => ?_⟩
  · rw [(h2 n).1]; simp
  · rw [(h2 n).2.1] at hr; cases hr
  · rw [hl] at h; cases h
  · rw [(h1 k).1] at h; cases h
  · rw [(h1 k).1] at h; cases h
  · rw [hl] at h; cases h
  · rw [(h2 n).2.2] at h; cases h
  · rw [h3] at h; cases h

theorem outboundLaw_reset : OutboundLaw State.reset := by
  refine ⟨?_, ?_, ?_, ?_, ?_⟩
  · intro k; revert k; decide
  · intro src; cases src <;> first | decide | (rename_i k; revert k; decide)
  · intro m h; cases h
  · intro src n h
    have hu : ∀ k : UnitId, State.reset.units[k].heldHit = none := by decide
    have hg : ∀ k : SegId, State.reset.segs[k].heldAlert = none := by decide
    cases src <;> simp only [State.held, hu, hg] at h <;> cases h
  · intro m h n hn
    cases h with
    | head => cases hn; decide
    | tail _ h => cases h

theorem test_hyp_laws : step State.reset = .next State.reset ∧ OutboundLaw State.reset ∧ RouteLaw State.reset ∧ LegLaw State.reset := by
  refine ⟨rfl, outboundLaw_reset, fun i h => ?_, legLaw_of_idle (by decide) (by decide) rfl⟩
  have hw : ∀ i : WindowId, State.reset.windows[i].enabled = false := by decide
  rw [hw] at h; cases h

theorem test_hyp_answered : OutboundLaw (queued false true) ∧ LegLaw (queued false true) ∧ (queued false true).slots[0].state = .answered ∧
    0 < (queued false true).replyCount 0 := by
  refine ⟨⟨?_, ?_, ?_, ?_, ?_⟩, legLaw_of_idle (by decide) (by decide) rfl, by decide, by decide⟩
  · intro k; revert k; decide
  · intro src; cases src <;> first | decide | (rename_i k; revert k; decide)
  · intro m h; cases h
  · intro src n h
    have hu : ∀ k : UnitId, (queued false true).units[k].heldHit = none := by decide
    have hg : ∀ k : SegId, (queued false true).segs[k].heldAlert = none := by decide
    cases src <;> simp only [State.held, hu, hg] at h <;> cases h
  · intro m h n hn
    cases h with
    | head => cases hn
    | tail _ h => cases h

/-- The part with the primary of slot 0 running on S0 and its twin queued on S1. -/
def twinRunning : State :=
  ((twinBusy (leg .inProgress none) (twinLeg .queued none)).withSeg 0
    { Segment.reset with state := .active, inProgress := some run }).withSeg 1
    { Segment.reset with state := .active, queue := [{ slot := 0, role := .twin }] }

theorem test_hyp_legs : LegLaw twinRunning ∧ twinRunning.segs[0].inProgress = some run ∧ run.orphan = none ∧
    ({ slot := 0, role := .twin } : LegRef) ∈ twinRunning.segs[1].queue := by
  have h0 : twinRunning.slots[(0 : SlotId)] = { transfer (leg .inProgress none) with twin := some (twinLeg .queued none) } := by decide
  have hk : ∀ k : SlotId, k = 0 ∨ twinRunning.slots[k] = Slot.freed := by decide
  have hq : ∀ n : SegId, twinRunning.segs[n].queue = if n = 1 then [{ slot := 0, role := .twin }] else [] := by decide
  have hr : ∀ n : SegId, twinRunning.segs[n].inProgress = if n = 0 then some run else none := by decide
  have hc : ∀ n : SegId, twinRunning.segs[n].clear = none := by decide
  refine ⟨⟨fun n => ?_, fun n r h ho => ?_, fun k => ?_, fun n c k h => ?_, fun k h => by cases h⟩, by decide, rfl, by decide⟩
  · rw [hq]
    split
    · next e =>
      subst e
      refine ⟨by simp, fun r h => ?_⟩
      simp only [List.mem_singleton] at h
      subst h
      exact ⟨by decide, twinLeg .queued none, by decide, rfl, rfl⟩
    · simp
  · rw [hr] at h
    split at h
    · next e => subst e; cases h; exact ⟨by decide, leg .inProgress none, by decide, rfl, rfl⟩
    · cases h
  · rcases hk k with rfl | e
    · rw [h0]
      refine ⟨fun role l h => ?_, fun p t h ht => ?_, fun p res _ h => (by cases h), fun h => (by cases h), fun h => (by cases h)⟩
      · cases role <;> cases h <;> exact ⟨rfl, rfl⟩
      · cases h; cases ht; decide
    · rw [e]
      exact ⟨fun role l h => (by cases role <;> cases h), fun p t h => (by cases h), fun p res h => (by cases h),
        fun _ => ⟨rfl, rfl, rfl⟩, fun h => (by cases h)⟩
  · rw [hc] at h; cases h

end Sys2Proof.Tests
end

section
/-! The tables of reconciliation and of the transfer reply (R57 to R63): one lemma per row, and O54 from them. -/

namespace Sys2Proof.Machine

/-! ### What a leg's outcome says -/

/-- The names of R58: each outcome that a leg of a slot not cancelled can end with, and the result code named after it. -/
def LegOutcome.names : List (LegOutcome × ResultCode) :=
  [(.acked, .ok), (.addrNack, .addrNack), (.dataNack, .dataNack), (.stretchTimeout, .stretchTimeout),
    (.lineConflict, .lineConflict), (.segmentOff, .segmentOff), (.segmentFaulted, .segmentFaulted), (.segmentReset, .segmentReset)]

theorem LegOutcome.resultCode_of_mem_names {o : LegOutcome} {named : ResultCode} (h : (o, named) ∈ LegOutcome.names) :
    o.resultCode = named :=
  (by decide : ∀ x ∈ LegOutcome.names, x.1.resultCode = x.2) (o, named) h

theorem LegRecord.namedResult_of_outcome {l : LegRecord} {o : LegOutcome} (h : l.outcome = some o) :
    l.namedResult = o.resultCode := by
  unfold LegRecord.namedResult; rw [h]

theorem LegRecord.outcomeByte_of_outcome {l : LegRecord} {o : LegOutcome} (h : l.outcome = some o) :
    l.outcomeByte = o.code := by
  unfold LegRecord.outcomeByte; rw [h]

theorem LegRecord.isAcked_of_outcome {l : LegRecord} {o : LegOutcome} (h : l.outcome = some o) :
    l.isAcked = decide (o = .acked) := by
  simp [LegRecord.isAcked, h]

/-! ### The reconciled result, case by case -/

theorem reconcile_cancelled (policy : TwinPolicy) (p : LegRecord) (twin : Option LegRecord) :
    reconcile true policy p twin = .cancelled := rfl

theorem reconcile_single (policy : TwinPolicy) (p : LegRecord) : reconcile false policy p none = p.namedResult := rfl

/-- A fallback read whose primary failed takes its twin's success, else the primary's code (R61). -/
theorem reconcile_fallback {p : LegRecord} (t : LegRecord) (hk : p.kind = .read) (hp : p.isAcked = false) :
    reconcile false .mirrorFallback p (some t) = if t.isAcked then .fromTwin else p.namedResult := by
  simp [reconcile, hk, hp]

/-- Two legs built at acceptance are compared where both succeeded, diverge where one did, and else give the primary's code (R59). -/
theorem reconcile_twoLegs {policy : TwinPolicy} {p : LegRecord} (t : LegRecord)
    (h : ¬ (policy = .mirrorFallback ∧ p.kind = .read)) :
    reconcile false policy p (some t) =
      match p.isAcked, t.isAcked with
      | true, true => if p.kind = .read ∧ policy = .mirrorCompare ∧ p.readData ≠ t.readData then .compareMismatch else .ok
      | true, false => .twinDiverged
      | false, true => .twinDiverged
      | false, false => p.namedResult := by
  have hf : (decide (policy = .mirrorFallback) && decide (p.kind = .read)) = false := by simpa using h
  cases hp : p.isAcked <;> cases ht : t.isAcked <;> simp [reconcile, hf, hp, ht, and_assoc]

/-- Two legs that both ended ACKED (R59, R60). -/
theorem reconcile_bothAcked {policy : TwinPolicy} {p t : LegRecord} (h : ¬ (policy = .mirrorFallback ∧ p.kind = .read))
    (hp : p.isAcked = true) (ht : t.isAcked = true) :
    reconcile false policy p (some t) =
      if p.kind = .read ∧ policy = .mirrorCompare ∧ p.readData ≠ t.readData then .compareMismatch else .ok := by
  rw [reconcile_twoLegs t h, hp, ht]

/-- Two legs of which exactly one ended ACKED (R59). -/
theorem reconcile_oneAcked {policy : TwinPolicy} {p t : LegRecord} (h : ¬ (policy = .mirrorFallback ∧ p.kind = .read))
    (hd : p.isAcked ≠ t.isAcked) : reconcile false policy p (some t) = .twinDiverged := by
  rw [reconcile_twoLegs t h]
  cases hp : p.isAcked <;> cases ht : t.isAcked
  case false.false => exact absurd (hp.trans ht.symm) hd
  case true.true => exact absurd (hp.trans ht.symm) hd
  case false.true => rfl
  case true.false => rfl

/-- Two legs that both failed (R59). -/
theorem reconcile_noneAcked {policy : TwinPolicy} {p t : LegRecord} (h : ¬ (policy = .mirrorFallback ∧ p.kind = .read))
    (hp : p.isAcked = false) (ht : t.isAcked = false) : reconcile false policy p (some t) = p.namedResult := by
  rw [reconcile_twoLegs t h, hp, ht]

/-! ### The reply's fields and its read data -/

theorem replyData_of_not_read (res : ResultCode) {p : LegRecord} (twin : Option LegRecord) (h : p.kind ≠ .read) :
    replyData res p twin = [] := if_pos h

theorem replyData_ok {p : LegRecord} (twin : Option LegRecord) (h : p.kind = .read) : replyData .ok p twin = p.readData :=
  if_neg (not_not_intro h)

theorem replyData_fromTwin {p : LegRecord} (t : LegRecord) (h : p.kind = .read) :
    replyData .fromTwin p (some t) = t.readData := if_neg (not_not_intro h)

theorem replyData_twinDiverged {p : LegRecord} (t : LegRecord) (h : p.kind = .read) :
    replyData .twinDiverged p (some t) = if p.isAcked then p.readData else t.readData := if_neg (not_not_intro h)

theorem replyData_compareMismatch {p : LegRecord} (t : LegRecord) (h : p.kind = .read) :
    replyData .compareMismatch p (some t) = p.readData ++ t.readData := if_neg (not_not_intro h)

/-- A result that names no success carries no read data, whatever the legs hold (R63). -/
theorem replyData_failed {res : ResultCode} (p : LegRecord) (twin : Option LegRecord) (hok : res ≠ .ok) (hft : res ≠ .fromTwin)
    (htd : res ≠ .twinDiverged) (hcm : res ≠ .compareMismatch) : replyData res p twin = [] := by
  unfold replyData
  split
  · rfl
  · split
    · exact absurd rfl hok
    · exact absurd rfl hft
    · exact absurd rfl htd
    · exact absurd rfl hcm
    · rfl

theorem transferFields_single (res : ResultCode) {p : LegRecord} {po : LegOutcome} (hp : p.outcome = some po) :
    transferFields res p none = [po.code, byteOf p.bytes, 0] ++ replyData res p none := by
  unfold transferFields
  rw [LegRecord.outcomeByte_of_outcome hp]
  rfl

theorem transferFields_twin (res : ResultCode) {p t : LegRecord} {po tw : LegOutcome} (hp : p.outcome = some po)
    (ht : t.outcome = some tw) :
    transferFields res p (some t) = [po.code, byteOf p.bytes, 1, tw.code, byteOf t.bytes] ++ replyData res p (some t) := by
  unfold transferFields
  rw [LegRecord.outcomeByte_of_outcome hp]
  simp only [LegRecord.outcomeByte_of_outcome ht]
  rfl

/-- Settles O54, row by row of the tables of R57 to R63. -/
theorem reconciliationFollowsTheTables : Obligations.ReconciliationFollowsTheTables := by
  unfold Obligations.ReconciliationFollowsTheTables
  intro policy p po hpo
  have hpa : p.isAcked = decide (po = .acked) := LegRecord.isAcked_of_outcome hpo
  refine ⟨reconcile_cancelled policy p, fun named hmem => ?results, fun res => transferFields_single res hpo,
    fun t tw htw => ⟨fun res => transferFields_twin res hpo htw, fun hk =>
      ⟨replyData_fromTwin t hk, replyData_compareMismatch t hk, ?diverged⟩⟩,
    fun res twin => ⟨replyData_of_not_read res twin, fun hk hres => hres ▸ replyData_ok twin hk, replyData_failed p twin⟩⟩
  case diverged =>
    rw [replyData_twinDiverged t hk, hpa]
    simp only [decide_eq_true_eq]
  case results =>
    have hname : p.namedResult = named :=
      (LegRecord.namedResult_of_outcome hpo).trans (LegOutcome.resultCode_of_mem_names hmem)
    refine ⟨(reconcile_single policy p).trans hname, fun t tw htw => ?_⟩
    have hta : t.isAcked = decide (tw = .acked) := LegRecord.isAcked_of_outcome htw
    refine ⟨fun hpol hk hp => ?fallback, fun hn => ⟨fun hp ht => ?bothAcked, fun hd => ?oneAcked, fun hp ht => ?noneAcked⟩⟩
    case fallback =>
      have h := reconcile_fallback t hk (hpa.trans (decide_eq_false hp))
      subst hpol
      exact ⟨fun ht => by rw [h, hta, if_pos (decide_eq_true ht)],
        fun ht => by rw [h, hta, if_neg (ne_true_of_eq_false (decide_eq_false ht)), hname]⟩
    case bothAcked =>
      have h := reconcile_bothAcked hn (hpa.trans (decide_eq_true hp)) (hta.trans (decide_eq_true ht))
      exact ⟨fun hdiff => h.trans (if_pos hdiff), fun hsame => h.trans (if_neg hsame)⟩
    case oneAcked =>
      exact reconcile_oneAcked hn fun e => hd (decide_eq_decide.mp (hpa.symm.trans (e.trans hta)))
    case noneAcked =>
      rw [reconcile_noneAcked hn (hpa.trans (decide_eq_false hp)) (hta.trans (decide_eq_false ht)), hname]

end Sys2Proof.Machine
end

section
/-! What a record must hold to meet and to match a watch setup (R137, R138): one lemma per test, and O29 from them. -/

namespace Sys2Proof.Machine

/-! ### The six tests, one by one -/

@[simp] theorem agreeUnder_iff (mask a b : Byte) : agreeUnder mask a b = true ↔ a &&& mask = b &&& mask :=
  decide_eq_true_iff

namespace WatchSetup

variable (w : WatchSetup) (r : RecordCopy)

theorem segmentTest_iff : w.segmentTest r = true ↔ w.segMask.getLsbD r.segment = true := Iff.rfl

theorem addressTest_iff :
    w.addressTest r = true ↔ w.addrLow.toNat ≤ r.busAddr.toNat ∧ r.busAddr.toNat ≤ w.addrHigh.toNat := by
  simp only [addressTest, Bool.and_eq_true, decide_eq_true_eq, BitVec.le_def]

theorem directionTest_iff : w.directionTest r = true ↔ w.direction = .any ∨ w.direction = .only r.kind := by
  unfold directionTest
  cases w.direction with
  | any => simp
  | only k => simp

theorem registerTest_iff :
    w.registerTest r = true ↔
      w.regMask = 0 ∨ (r.regPhase = true ∧ r.regIndex &&& w.regMask = w.regValue &&& w.regMask) := by
  simp only [registerTest, Bool.or_eq_true, Bool.and_eq_true, decide_eq_true_eq, agreeUnder_iff]

/-- An absent first byte passes the data test only where the mask asks nothing of it (R137). -/
theorem dataTest_iff :
    w.dataTest r = true ↔
      w.dataMask = 0 ∨ ∃ b : Byte, r.firstByte = some b ∧ b &&& w.dataMask = w.dataValue &&& w.dataMask := by
  unfold dataTest
  cases r.firstByte with
  | none => simp
  | some b => simp

theorem outcomeTest_iff : w.outcomeTest r = true ↔ w.outcomes.getLsbD r.outcome.number = true := Iff.rfl

/-! ### The tests together, and the inversion of their result -/

theorem meets_iff_tests :
    w.meets r = true ↔
      w.segmentTest r = true ∧ w.addressTest r = true ∧ w.directionTest r = true ∧ w.registerTest r = true ∧
        w.dataTest r = true ∧ w.outcomeTest r = true := by
  simp only [meets, Bool.and_eq_true, and_assoc]

variable {w}

theorem isMatch_of_not_inverted (h : w.invert = false) : w.isMatch r = w.meets r := by
  rw [isMatch, h, Bool.bne_false]

theorem isMatch_of_inverted (h : w.invert = true) : w.isMatch r = !w.meets r := by
  rw [isMatch, h, Bool.bne_true]

end WatchSetup

/-- Settles O29, test by test of R137 and then by the two values of the setup's invert field (R138). -/
theorem matchIsTheSixTestsInvertedAsAWhole : Obligations.MatchIsTheSixTestsInvertedAsAWhole := by
  unfold Obligations.MatchIsTheSixTestsInvertedAsAWhole
  intro w r
  refine ⟨?meets, fun plain => ?plain, fun inverted => ?inverted⟩
  case meets =>
    rw [w.meets_iff_tests, w.segmentTest_iff, w.addressTest_iff, w.directionTest_iff, w.registerTest_iff, w.dataTest_iff,
      w.outcomeTest_iff]
  case plain => rw [WatchSetup.isMatch_of_not_inverted r plain]
  case inverted => rw [WatchSetup.isMatch_of_inverted r inverted, Bool.not_eq_true', Bool.not_eq_true]

end Sys2Proof.Machine
end

section
/-! Every step keeps the placement limits of the windows, the bound of the log and the laws of the watch units (O56), and the law of the
clock unit (O57): each law is an `Invariant`, put together from what the single updates do to it. -/

namespace Sys2Proof.Machine

/-! ### Sending a message, and the two resets -/

/-- What FRAME_SENT can do (R191): nothing, drop a frame of no message, or take the head message out of the queue. -/
theorem State.sendWhole_cases (s : State) :
    s.sendWhole = s ∨ s.sendWhole = { s with link := { s.link with outFrame := none } } ∨
      ∃ m rest, s.link.queue = m :: rest ∧
        s.sendWhole = State.afterRemoval { s with link := { s.link with outFrame := none, queue := rest } } m.content := by
  unfold State.sendWhole
  cases s.link.outFrame with
  | none => exact .inl rfl
  | some f =>
    cases hq : s.link.queue with
    | nil => exact .inr (.inl rfl)
    | cons m rest => exact .inr (.inr ⟨m, rest, rfl, rfl⟩)

/-- A predicate kept by changes of the link port and by what follows a removal is kept by FRAME_SENT. -/
theorem State.sendWhole_keeps {P : State → Prop} (link : ∀ s l, l.queue = s.link.queue → P s → P { s with link := l })
    (removal : ∀ (s : State) (m : OutMessage) (rest : List OutMessage) (l : LinkPort), s.link.queue = m :: rest → l.queue = rest →
      P s → P (State.afterRemoval { s with link := l } m.content))
    (s : State) (hs : P s) : P s.sendWhole := by
  obtain e | e | ⟨m, rest, hq, e⟩ := s.sendWhole_cases
  · rw [e]; exact hs
  · rw [e]; exact link s _ rfl hs
  · rw [e]; exact removal s m rest _ hq rfl hs

@[simp] theorem State.afterRemoval_windows (s : State) (c : OutContent) : (s.afterRemoval c).windows = s.windows := by
  cases c <;> simp [State.afterRemoval]

@[simp] theorem State.afterRemoval_log (s : State) (c : OutContent) : (s.afterRemoval c).log = s.log := by
  cases c <;> simp [State.afterRemoval]

/-- The head message begins within the link port. -/
theorem State.beginMessage_link (s : State) : ∃ l : LinkPort, s.beginMessage = { s with link := l } := by
  unfold State.beginMessage
  cases s.link.queue with
  | nil => exact ⟨s.link, rfl⟩
  | cons m rest => exact ⟨_, rfl⟩

/-! ### The placement limits (R22) -/

theorem RouteLaw.quiet : Quiet RouteLaw where
  leg _ _ _ h := h
  offer _ _ h := h
  answer _ _ _ _ h := h.of_windows (by simp)
  work _ _ _ _ _ h := h
  watch _ _ _ _ h := h.of_windows (by simp)
  alert _ _ _ h := h.of_windows (by simp)
  seg _ _ _ _ h := h

theorem RouteLaw.setWindow {s : State} (i : WindowId) (w : Window) (hw : w.enabled = true → w.Lawful) (h : RouteLaw s) :
    RouteLaw (s.setWindow i w) := by
  intro j hj
  rw [State.setWindow_get] at hj ⊢
  by_cases e : j = i
  · rw [if_pos e] at hj ⊢; exact hw hj
  · rw [if_neg e] at hj ⊢; exact h j hj

theorem routeLaw_reset : RouteLaw State.reset := by
  intro i hi
  have none_enabled : ∀ i : WindowId, State.reset.windows[i].enabled = false := by decide
  rw [none_enabled i] at hi
  cases hi

theorem routeInvariant : Invariant RouteLaw where
  toDeliverable := RouteLaw.quiet.deliverable
  toSegmentSteps := RouteLaw.quiet.segmentSteps fun _ _ _ h => h
  toClockSteps := ClockSteps.of_blind RouteLaw.quiet.deliverable RouteLaw.quiet.startDecision (fun _ _ _ h => h) (fun _ _ _ h => h)
    fun _ h => h
  wires _ _ h := h
  take _ _ _ _ _ _ h := h
  clash _ _ _ _ _ h := h.of_windows (by simp)
  link _ _ _ h := h
  log _ _ _ h := h
  unit _ _ _ _ _ h := h
  window _ i w hw h := h.setWindow i w hw
  begin s h := by
    obtain ⟨l, e⟩ := s.beginMessage_link
    rw [e]; exact h
  send := State.sendWhole_keeps (fun _ _ _ h => h) fun _ _ _ _ _ _ h => h.of_windows (by simp)
  soft _ h := h
  power _ _ := routeLaw_reset

/-! ### The bound of the log (R161) -/

theorem LogLaw.of_log {s t : State} (h : LogLaw s) (e : t.log = s.log) : LogLaw t := by
  unfold LogLaw; rw [e]; exact h

theorem LogLaw.quiet : Quiet LogLaw where
  leg _ _ _ h := h
  offer _ e h := HistoryLog.offer_length e h
  answer _ _ _ _ h := h.of_log (by simp)
  work _ _ _ _ _ h := h
  watch _ r u armed h := h.watch r u armed
  alert _ _ _ h := h.of_log (by simp)
  seg _ _ _ _ h := h

theorem logInvariant : Invariant LogLaw where
  toDeliverable := LogLaw.quiet.deliverable
  toSegmentSteps := LogLaw.quiet.segmentSteps fun _ _ _ h => h
  toClockSteps := ClockSteps.of_blind LogLaw.quiet.deliverable LogLaw.quiet.startDecision (fun _ _ _ h => h) (fun _ _ _ h => h)
    fun _ h => h
  wires _ _ h := h
  take _ _ _ _ _ _ h := h
  clash _ _ _ _ _ h := h.of_log (by simp)
  link _ _ _ h := h
  log _ _ hl h := Nat.le_trans hl h
  unit _ _ _ _ _ h := h
  window _ _ _ _ h := h
  begin s h := by
    obtain ⟨l, e⟩ := s.beginMessage_link
    rw [e]; exact h
  send := State.sendWhole_keeps (fun _ _ _ h => h) fun _ _ _ _ _ _ h => h.of_log (by simp)
  soft _ _ := Nat.zero_le 32
  power _ _ := Nat.zero_le 32

/-! ### The watch units (R140, R141, R143, R148) -/

theorem WatchLaw.of_units {s t : State} (h : WatchLaw s) (e : t.units = s.units) : WatchLaw t := by
  intro u; rw [e]; exact h u

theorem WatchLaw.quiet : Quiet WatchLaw where
  leg _ _ _ h := h
  offer _ _ h := h
  answer _ _ _ _ h := h.of_units (by simp)
  work _ _ _ _ _ h := h
  watch _ r u armed h := h.watchUnit r u armed
  alert _ x _ h := h.raise x
  seg _ _ _ _ h := h

/-- An EVT timer that runs down stays within its bound (R148). -/
theorem WatchUnit.lawful_tick {x : WatchUnit} {u : UnitId} (h : x.Lawful u) : x.tick.Lawful u := by
  obtain ⟨hc, hl, hf, hw, hch, ht⟩ := h
  refine ⟨hc, hl, hf, hw, hch, fun t e => ?_⟩
  obtain ⟨t', ht', rfl⟩ := Option.map_eq_some_iff.1 e
  exact Nat.le_trans (Nat.sub_le t' 1) (ht t' ht')

theorem WatchLaw.tick {s : State} (h : WatchLaw s) : WatchLaw { s with units := s.units.map WatchUnit.tick } := by
  intro u
  have e : (s.units.map WatchUnit.tick)[u] = s.units[u].tick := by simp
  show ((s.units.map WatchUnit.tick)[u]).Lawful u
  rw [e]; exact WatchUnit.lawful_tick (h u)

/-- A removal touches the held-over notices alone of the watch units. -/
theorem WatchLaw.afterRemoval {s : State} (c : OutContent) (h : WatchLaw s) : WatchLaw (s.afterRemoval c) := by
  cases c with
  | reply k => exact h
  | notice n => exact h.of_held (s.releaseHeld_units n.source)

theorem WatchLaw.of_reset {s : State} (e : s.units = Vector.replicate 4 WatchUnit.reset) : WatchLaw s := by
  intro u
  have hu : s.units[u] = WatchUnit.reset := by rw [e]; simp
  rw [hu]; exact WatchUnit.lawful_reset u

theorem watchInvariant : Invariant WatchLaw where
  toDeliverable := WatchLaw.quiet.deliverable
  toSegmentSteps := WatchLaw.quiet.segmentSteps fun _ _ _ h => h
  toClockSteps := ClockSteps.of_blind WatchLaw.quiet.deliverable WatchLaw.quiet.startDecision (fun _ _ _ h => h) (fun _ _ _ h => h)
    fun _ h => h.tick
  wires _ _ h := h
  take _ _ _ _ _ _ h := h
  clash _ _ _ _ _ h := h.of_units (by simp)
  link _ _ _ h := h
  log _ _ _ h := h
  unit _ u f _ hf h := h.modUnit u f (hf (h u))
  window _ _ _ _ h := h
  begin s h := by
    obtain ⟨l, e⟩ := s.beginMessage_link
    rw [e]; exact h
  send := State.sendWhole_keeps (fun _ _ _ h => h) fun s m _ l _ _ h =>
    WatchLaw.afterRemoval (s := { s with link := l }) m.content h
  soft _ _ := .of_reset rfl
  power _ _ := .of_reset rfl

/-- Settles O56: each of the three laws is an invariant that does not look at the waiting commands. -/
theorem everyStepKeepsTheRouteLogAndWatchLaws : Obligations.EveryStepKeepsTheRouteLogAndWatchLaws := by
  unfold Obligations.EveryStepKeepsTheRouteLogAndWatchLaws
  intro s t hstep
  exact ⟨fun h => routeInvariant.step (fun _ _ h => h) s t h hstep, fun h => logInvariant.step (fun _ _ h => h) s t h hstep,
    fun h => watchInvariant.step (fun _ _ h => h) s t h hstep⟩

/-! ### The clock unit (R170, R171, R175, R176, R178, R179, R181) -/

/-- A setting of pause-requested is on its way only while a change of source is (R178). -/
theorem ClockLaw.takePause {s : State} (n : SegId) (hp : s.segs[n].pauseSetting = true) (h : ClockLaw s) :
    ClockLaw (s.modSeg n Segment.takePause) := by
  refine ⟨h.1, fun steady => ?_⟩
  obtain ⟨-, noSetting, -⟩ := h.2 steady n
  rw [noSetting] at hp
  cases hp

theorem ClockLaw.afterRemoval {s : State} (c : OutContent) (h : ClockLaw s) : ClockLaw (s.afterRemoval c) := by
  cases c with
  | reply k => exact h
  | notice n => exact h.releaseHeld n.source

/-- The soft reset makes the clock unit steady and every segment unpaused (R183). -/
theorem ClockLaw.softReset {s : State} (h : ClockLaw s) : ClockLaw s.softReset := by
  have steady : s.clock.steady.Lawful := ClockUnit.lawful_steady h.1
  refine ⟨steady, fun _ n => ?_⟩
  have e : s.softReset.segs[n] = s.softSegment s.segs[n] := by simp [State.softReset]
  rw [e]
  unfold State.softSegment
  dsimp only
  split
  · exact Segment.goto_unpaused .idle ⟨rfl, rfl, rfl⟩
  · exact ⟨rfl, rfl, rfl⟩

theorem clockLaw_reset : ClockLaw State.reset := by
  refine ⟨⟨?owner, ?awaited, fun t ht => ?target, fun hs => ?source, ?good, ?gap, ?low, ?high⟩, fun _ => ?unpaused⟩
  case target => cases ht
  case source => cases hs
  case unpaused => unfold Segment.Unpaused; decide
  all_goals decide

theorem clockInvariant : Invariant ClockLaw where
  toDeliverable := clockQuiet.deliverable
  toSegmentSteps := clockQuiet.segmentSteps fun _ n hp h => h.takePause n hp
  toClockSteps := clockSteps
  wires _ _ h := h
  take _ _ _ _ _ _ h := h
  clash _ _ _ _ _ h := ClockLaw.answer _ _ _ h
  link _ _ _ h := h
  log _ _ _ h := h
  unit _ _ _ _ _ h := h
  window _ _ _ _ h := h
  begin s h := by
    obtain ⟨l, e⟩ := s.beginMessage_link
    rw [e]; exact h
  send := State.sendWhole_keeps (fun _ _ _ h => h) fun s m _ l _ _ h =>
    ClockLaw.afterRemoval (s := { s with link := l }) m.content h
  soft _ h := h.softReset
  power _ _ := clockLaw_reset

/-- Settles O57: the clock law is an invariant that does not look at the waiting commands. -/
theorem everyStepKeepsTheClockLaw : Obligations.EveryStepKeepsTheClockLaw := by
  unfold Obligations.EveryStepKeepsTheClockLaw
  intro s t hstep h
  exact clockInvariant.step (fun _ _ h => h) s t h hstep

end Sys2Proof.Machine
end

section
/-! A request command is the delivery of the body that its frame carries (R186, R198; log 5), and what a delivery does with no slot FREE,
with RST_N low and with a type that is not listed (R3, R5, R195): O1 to O7 but for the totality of O2, and O51. -/

namespace Sys2Proof.Machine

/-! ### Commands and the bodies of their frames -/

/-- A request command delivers the body of its frame with the levels it brings. -/
theorem exec_of_frameBody {c : Instr} {type tag : Byte} {payload : List Byte} (h : c.frameBody = some (type, tag, payload)) (s : State) :
    exec c s = .next ((s.reads c).takeBody (type :: tag :: payload)) := by
  cases c <;> cases h <;> rfl

@[simp] theorem ReqType.ofByte_code (t : ReqType) : ReqType.ofByte t.code = some t := by cases t <;> rfl

theorem ReqType.code_of_ofByte {type : Byte} {t : ReqType} (h : ReqType.ofByte type = some t) : t.code = type := by
  simpa using List.find?_some h

theorem State.takeBody_unlisted {type : Byte} (h : type ∉ requestTypes) (tag : Byte) (payload : List Byte) (s : State) :
    s.takeBody (type :: tag :: payload) = s.takeUnknown type tag := by
  have hn : ReqType.ofByte type = none := Option.isNone_iff_eq_none.1 ((ReqType.ofByte_isNone type).2 h)
  simp only [State.takeBody, hn]

theorem exec_unlisted {type : Byte} (h : type ∉ requestTypes) (tag : Byte) (payload : List Byte) (s : State) :
    exec (.unknownType type tag payload) s = .next (s.takeUnknown type tag) :=
  congrArg Host.Outcome.next (if_pos ((ReqType.ofByte_isNone type).2 h))

theorem exec_unknown_listed {type : Byte} (h : type ∈ requestTypes) (tag : Byte) (payload : List Byte) (s : State) :
    exec (.unknownType type tag payload) s = .next s :=
  congrArg Host.Outcome.next (if_neg fun e => (ReqType.ofByte_isNone type).1 e h)

/-- What a delivery of a type and tag is: the taking of a slot, and a screening of what it took. -/
def IsDelivery (type tag : Byte) (f : State → State) : Prop := ∃ screen, ∀ s : State, f s = s.deliver type tag screen

theorem isDelivery_deliver (type tag : Byte) (screen : SlotId → State → State) :
    IsDelivery type tag fun s => s.deliver type tag screen := ⟨screen, fun _ => rfl⟩

theorem isDelivery_takeTransfer {α : Type} (type tag : Byte) (decoded : Option α) (name : α → Request)
    (carryOut : SlotId → α → State → State) : IsDelivery type tag fun s => s.takeTransfer type tag decoded name carryOut :=
  isDelivery_deliver type tag _

theorem isDelivery_takeUnknown (type tag : Byte) : IsDelivery type tag (State.takeUnknown type tag) := isDelivery_deliver type tag _

/-- LOG_CONTROL is delivered by its operation byte (R164). -/
theorem isDelivery_takeLogControl (tag : Byte) (payload : List Byte) :
    IsDelivery ReqType.logControl.code tag (State.takeLogControl tag payload) := by
  cases payload with
  | nil => exact isDelivery_takeUnknown _ tag
  | cons op rest =>
    unfold State.takeLogControl
    by_cases h0 : op = 0
    · simp only [if_pos h0]; exact isDelivery_deliver _ tag _
    by_cases h1 : op = 1
    · simp only [if_neg h0, if_pos h1]; exact isDelivery_deliver _ tag _
    by_cases h2 : op = 2
    · simp only [if_neg h0, if_neg h1, if_pos h2]; exact isDelivery_deliver _ tag _
    · simp only [if_neg h0, if_neg h1, if_neg h2]; exact isDelivery_takeUnknown _ tag

theorem isDelivery_takeRequest (t : ReqType) (tag : Byte) (payload : List Byte) :
    IsDelivery t.code tag (State.takeRequest t tag payload) := by
  cases t
  case write => exact isDelivery_takeTransfer _ tag _ _ _
  case read => exact isDelivery_takeTransfer _ tag _ _ _
  case probe => exact isDelivery_takeTransfer _ tag _ _ _
  case logControl => exact isDelivery_takeLogControl tag payload
  all_goals exact isDelivery_deliver _ tag _

/-- Every good frame is a delivery of its type and tag, whatever its type (R3, R186). -/
theorem isDelivery_takeBody (type tag : Byte) (payload : List Byte) :
    IsDelivery type tag (State.takeBody (type :: tag :: payload)) := by
  cases ht : ReqType.ofByte type with
  | none =>
    have unknown : State.takeBody (type :: tag :: payload) = State.takeUnknown type tag := by
      funext s; simp only [State.takeBody, ht]
    rw [unknown]
    exact isDelivery_takeUnknown type tag
  | some t =>
    have request : State.takeBody (type :: tag :: payload) = State.takeRequest t tag payload := by
      funext s; simp only [State.takeBody, ht]
    rw [request, ← ReqType.code_of_ofByte ht]
    exact isDelivery_takeRequest t tag payload

/-! ### The levels a command brings -/

/-- The levels a command brings change nothing but the lines. -/
theorem State.reads_eq (s : State) (c : Instr) : s.reads c = { s with wires := c.wires.getD s.wires } := by
  unfold State.reads
  cases c.wires <;> rfl

@[simp] theorem State.reads_link (s : State) (c : Instr) : (s.reads c).link = s.link := by rw [State.reads_eq]

@[simp] theorem State.reads_slots (s : State) (c : Instr) : (s.reads c).slots = s.slots := by rw [State.reads_eq]

theorem State.NoneFree.reads {s : State} (h : s.NoneFree) (c : Instr) : (s.reads c).NoneFree := by
  rw [State.reads_eq]; exact h

/-- The levels of a command that brings the ones that stand. -/
theorem State.reads_same {s : State} {c : Instr} (h : ∀ w, c.wires = some w → w = s.wires) : s.reads c = s := by
  unfold State.reads
  cases hw : c.wires with
  | none => rfl
  | some w => rw [h w hw]

/-! ### Deliveries -/

theorem State.takeBody_of_rstLow {s : State} (h : s.link.rstLow = true) (type tag : Byte) (payload : List Byte) :
    s.takeBody (type :: tag :: payload) = s := by
  obtain ⟨screen, hs⟩ := isDelivery_takeBody type tag payload
  rw [hs, State.deliver_of_rstLow h]

theorem State.takeBody_of_none {s : State} (h : s.NoneFree) (type tag : Byte) (payload : List Byte) :
    s.takeBody (type :: tag :: payload) = s.hunting.setOverrun := by
  obtain ⟨screen, hs⟩ := isDelivery_takeBody type tag payload
  rw [hs, State.deliver_of_none h]

theorem State.takeUnknown_of_lowest {s : State} {k : SlotId} (h : s.LowestFree k) (type tag : Byte) :
    s.takeUnknown type tag = s.replied k type tag none .badRequest [] := by
  unfold State.takeUnknown
  rw [State.deliver_of_lowest h, State.took_answer]

/-- A delivery puts the assembler back in HUNT first, so it does not look at it. -/
theorem State.takeBody_hunting {s : State} (h : s.link.rstLow = false) (type tag : Byte) (payload : List Byte) :
    s.hunting.takeBody (type :: tag :: payload) = s.takeBody (type :: tag :: payload) := by
  obtain ⟨screen, hs⟩ := isDelivery_takeBody type tag payload
  rw [hs, hs]
  unfold State.deliver
  rw [if_neg (ne_true_of_eq_false h), if_neg (ne_true_of_eq_false (b := s.hunting.link.rstLow) h)]
  rfl

/-! ### Steps and resets -/

/-- Settles O1, by the two forms of the queue. -/
theorem stepTakesTheFrontCommandOrIdles : Obligations.StepTakesTheFrontCommandOrIdles := by
  unfold Obligations.StepTakesTheFrontCommandOrIdles
  refine ⟨fun c rest s h => ?_, fun s h => ?_⟩
  · unfold step; rw [h]
  · unfold step; rw [h]

theorem State.attnLow_of_rstLow {s : State} (h : s.link.rstLow = true) : s.attnLow = false := by
  simp [State.attnLow, h]

theorem State.ldo_of_rstLow {s : State} (h : s.link.rstLow = true) : s.ldo = none := by
  simp [State.ldo, h]

theorem exec_unknownType_of_rstLow {s : State} (h : s.link.rstLow = true) (type tag : Byte) (payload : List Byte) :
    exec (.unknownType type tag payload) s = .next s := by
  by_cases hl : type ∈ requestTypes
  · exact exec_unknown_listed hl tag payload s
  · rw [exec_unlisted hl, ← State.takeBody_unlisted hl tag payload, State.takeBody_of_rstLow h]

/-- Settles O3: the values of the reset, and what a port in reset leaves alone. -/
theorem powerOnResetPutsEveryBlockAtItsResetValue : Obligations.PowerOnResetPutsEveryBlockAtItsResetValue := by
  unfold Obligations.PowerOnResetPutsEveryBlockAtItsResetValue
  refine ⟨fun s => rfl, rfl, fun s low => ⟨⟨State.attnLow_of_rstLow low, State.ldo_of_rstLow low⟩, ?request,
    exec_unknownType_of_rstLow low, ?byte, ?select, ?frameErr⟩, rfl, rfl⟩
  case request =>
    intro c type tag payload h
    rw [exec_of_frameBody h, State.takeBody_of_rstLow (by rw [State.reads_link]; exact low)]
  case byte => intro b wires; simp [exec, execByteBoundary, low]
  case select => simp [exec, execSelectBegin, low]
  case frameErr => simp [exec, execFrameErr, low]

/-! ### Requests that are discarded or refused before their fields are decoded -/

/-- Settles O4: each request command and UNKNOWN_TYPE is a delivery, and a delivery with no slot FREE sets OVERRUN. -/
theorem fullTableDiscardsTheRequestWithOverrun : Obligations.FullTableDiscardsTheRequestWithOverrun := by
  unfold Obligations.FullTableDiscardsTheRequestWithOverrun
  refine ⟨fun c type tag payload s h full => ?listed, fun type tag payload s h full => ?unlisted⟩
  case listed =>
    rw [exec_of_frameBody h, State.takeBody_of_none (full.reads c), State.reads_eq]
    rfl
  case unlisted =>
    rw [exec_unlisted h, ← State.takeBody_unlisted h tag payload, State.takeBody_of_none full]
    rfl

/-- Settles O5, by whether the type is listed. -/
theorem unknownTypeIsAnsweredBadRequest : Obligations.UnknownTypeIsAnsweredBadRequest := by
  unfold Obligations.UnknownTypeIsAnsweredBadRequest
  refine ⟨fun type tag payload s k unlisted free => ?_, fun type tag payload s listed => exec_unknown_listed listed tag payload s⟩
  rw [exec_unlisted unlisted, State.takeUnknown_of_lowest free]

/-- A transfer in the lowest FREE slot whose tag is live is refused before its fields are looked at (R5 step 2). -/
theorem State.takeTransfer_of_live {α : Type} {s : State} {k : SlotId} (h : s.LowestFree k) {tag : Byte} (live : s.TagLive tag)
    (type : Byte) (decoded : Option α) (name : α → Request) (carryOut : SlotId → α → State → State) :
    s.takeTransfer type tag decoded name carryOut = s.replied k type tag none .tagInUse [] := by
  unfold State.takeTransfer
  rw [State.deliver_of_lowest h, if_pos ((State.tagClash_took h type tag).2 live), State.took_answer]

/-- One whose tag is not live is refused where its fields do not decode (R5 step 3). -/
theorem State.takeTransfer_of_malformed {α : Type} {s : State} {k : SlotId} (h : s.LowestFree k) {tag : Byte}
    (dead : ¬ s.TagLive tag) (type : Byte) {decoded : Option α} (bad : decoded = none) (name : α → Request)
    (carryOut : SlotId → α → State → State) :
    s.takeTransfer type tag decoded name carryOut = s.replied k type tag none .badRequest [] := by
  unfold State.takeTransfer
  rw [State.deliver_of_lowest h, if_neg fun e => dead ((State.tagClash_took h type tag).1 e), bad, State.screened_none]

/-- Settles O6, for each kind of transfer. -/
theorem transferWithALiveTagIsRefused : Obligations.TransferWithALiveTagIsRefused := by
  unfold Obligations.TransferWithALiveTagIsRefused
  intro kind tag payload wires s k free live
  have hw : (s.withWires wires).LowestFree k := free
  cases kind with
  | read => exact congrArg Host.Outcome.next (State.takeTransfer_of_live hw live _ _ _ _)
  | write => exact congrArg Host.Outcome.next (State.takeTransfer_of_live hw live _ _ _ _)
  | probe => exact congrArg Host.Outcome.next (State.takeTransfer_of_live hw live _ _ _ _)

/-- Settles O7: a payload that no fields spell does not decode. -/
theorem malformedTransferIsRefused : Obligations.MalformedTransferIsRefused := by
  unfold Obligations.MalformedTransferIsRefused
  intro kind tag payload wires s k free dead bad
  have hw : (s.withWires wires).LowestFree k := free
  cases kind with
  | read =>
    refine congrArg Host.Outcome.next (State.takeTransfer_of_malformed hw dead _ ?_ _ _)
    refine Option.eq_none_iff_forall_ne_some.2 fun ⟨t, reg, n⟩ hd => ?_
    obtain ⟨hp, hn⟩ := decodeRead_some hd
    exact bad ⟨.read, t, reg, [], n⟩ rfl ⟨fun e => (by cases e), fun _ => hn⟩ hp
  | write =>
    refine congrArg Host.Outcome.next (State.takeTransfer_of_malformed hw dead _ ?_ _ _)
    refine Option.eq_none_iff_forall_ne_some.2 fun ⟨t, reg, data⟩ hd => ?_
    obtain ⟨hp, hn⟩ := decodeWrite_some hd
    exact bad ⟨.write, t, reg, data, 0⟩ rfl ⟨fun _ => hn, fun e => (by cases e)⟩ hp
  | probe =>
    refine congrArg Host.Outcome.next (State.takeTransfer_of_malformed hw dead _ ?_ _ _)
    refine Option.eq_none_iff_forall_ne_some.2 fun t hd => ?_
    exact bad ⟨.probe, t, 0, [], 0⟩ rfl ⟨fun e => (by cases e), fun e => (by cases e)⟩ (decodeProbe_some hd)

/-! ### Good frames -/

/-- A LOG_CONTROL whose operation is none of the three is refused like an unlisted type (R164). -/
theorem State.takeLogControl_other {payload : List Byte} (h : ∀ (op : Byte) (rest : List Byte), payload = op :: rest → 3 ≤ op.toNat)
    (tag : Byte) (s : State) : s.takeLogControl tag payload = s.takeUnknown 0x51 tag := by
  cases payload with
  | nil => rfl
  | cons op rest =>
    have h3 := h op rest rfl
    have not_listed : ∀ n : Byte, n.toNat < 3 → op ≠ n := fun n hn e => by rw [e] at h3; omega
    unfold State.takeLogControl
    dsimp only
    rw [if_neg (not_listed 0 (by decide)), if_neg (not_listed 1 (by decide)), if_neg (not_listed 2 (by decide))]
    rfl

theorem State.takeBody_logControl (tag : Byte) (payload : List Byte) (s : State) :
    s.takeBody (0x51 :: tag :: payload) = s.takeLogControl tag payload := rfl

/-- The byte that completes a good frame delivers its body (R186). -/
theorem exec_byteBoundary_of_good {b hi type tag : Byte} {payload : List Byte} {len : Nat} {wires : Wires} {s a : State}
    (selected : s.link.selected = true) (high : s.link.rstLow = false)
    (assembler : s.link.assembler = .crc len (type :: tag :: payload) (some hi))
    (good : crc16 (byteOf len :: type :: tag :: payload) = hi ++ b) (ha : a = (s.withWires wires).outboundByte) :
    exec (.byteBoundary b wires) s = .next (a.takeBody (type :: tag :: payload)) := by
  have hlink : a.link = { s.link with outFrame := s.link.outFrame.map OutFrame.sample } := by rw [ha]; rfl
  have taken : a.inboundByte b = a.hunting.takeBody (type :: tag :: payload) := by
    have ht : a.link.assembler.take b = (.hunt, .frame (type :: tag :: payload)) := by
      rw [hlink]
      simp only [assembler, Assembler.take]
      rw [if_pos (show _ = word16 hi b from good)]
    unfold State.inboundByte
    rw [ht]
    rfl
  have ready : (s.link.selected && !s.link.rstLow) = true := by rw [selected, high]; rfl
  rw [← State.takeBody_hunting (by rw [hlink]; exact high), ← taken, ha]
  exact congrArg Host.Outcome.next (if_pos ready)

/-- Settles O51: the frame's body is delivered on the state with the outbound byte sampled, as its command delivers it. -/
theorem goodFrameIsItsRequest : Obligations.GoodFrameIsItsRequest := by
  unfold Obligations.GoodFrameIsItsRequest
  refine ⟨fun b hi type tag payload len wires s a selected high assembler good ha => ?frame, by decide +kernel⟩
  have delivered := exec_byteBoundary_of_good selected high assembler good (wires := wires) (a := a) (by rw [ha]; rfl)
  have hw : a.wires = wires := by rw [ha]
  refine ⟨fun c hc hwires => ?request, fun unlisted => ?unlisted, fun hlog hop => ?logControl⟩
  case request => rw [delivered, exec_of_frameBody hc, State.reads_same (by rw [hw]; exact hwires)]
  case unlisted => rw [delivered, exec_unlisted unlisted, State.takeBody_unlisted unlisted]
  case logControl =>
    subst hlog
    refine ⟨fun full => ?full, fun k free => ?free⟩
    case full => rw [delivered, State.takeBody_of_none full]; rfl
    case free => rw [delivered, State.takeBody_logControl, State.takeLogControl_other hop, State.takeUnknown_of_lowest free]

end Sys2Proof.Machine
end

section
/-! Every step keeps the laws of the slots, of the live tags and of the outbound queue (O59) and the laws of the segments and of the legs
(O58); what those laws say of queues and replies (O58 to O60); and the reset state meets every law (O55). -/

namespace Sys2Proof.Machine

/-! ### The segments (R72, R73, R82, R84, R92, R120) -/

/-- A segment is lawful after a soft reset (R90): a line check ends in IDLE, a leg in progress and a bus clear run on. -/
theorem Segment.lawful_soft {g : Segment} (s : State) (h : g.Lawful) : (s.softSegment g).Lawful := by
  obtain ⟨hq, hrun, hclear, hdrive, hreset, henable, hoff, hcfg⟩ := h
  unfold State.softSegment
  dsimp only
  split
  case isTrue checking =>
    have hc : g.state = .active ∧ g.inProgress = none := by simpa [Segment.checking] using checking
    exact Segment.lawful_idle (by simp [hc.2]) rfl (henable (.inr hc.1)) rfl
  case isFalse =>
    exact ⟨fun _ => rfl, by simpa using hrun, by simpa using hclear, hdrive, by simp, henable, hoff, fun _ => rfl⟩

theorem SegLaw.softReset {s : State} (h : SegLaw s) : SegLaw s.softReset := by
  refine h.of_segs fun n hn => ?_
  have e : s.softReset.segs[n] = s.softSegment s.segs[n] := by simp [State.softReset]
  rw [e]; exact Segment.lawful_soft s hn

theorem SegLaw.mapSegs {s : State} (f : Segment → Segment) (hf : ∀ g : Segment, g.Lawful → (f g).Lawful) (h : SegLaw s) :
    SegLaw { s with segs := s.segs.map f } := by
  refine h.of_segs fun n hn => ?_
  have e : (s.segs.map f)[n] = f s.segs[n] := by simp
  show ((s.segs.map f)[n]).Lawful
  rw [e]; exact hf _ hn

theorem SegLaw.afterRemoval {s : State} (c : OutContent) (h : SegLaw s) : SegLaw (s.afterRemoval c) := by
  cases c with
  | reply k => exact h
  | notice n => exact h.releaseHeld n.source

theorem segLaw_reset : SegLaw State.reset := by
  unfold SegLaw Segment.Lawful
  decide

theorem segInvariant : Invariant SegLaw where
  toDeliverable := segDeliverable
  toSegmentSteps := segSteps
  toClockSteps := ClockSteps.of_blind segDeliverable (fun _ n h => h.startDecision n) (fun _ _ _ h => h)
    (fun _ f hf h => h.mapSegs f fun g => (hf g).2) fun _ h => h
  wires _ _ h := h
  take _ _ _ _ _ _ h := h
  clash _ _ _ _ _ h := SegLaw.answer _ _ _ h
  link _ _ _ h := h
  log _ _ _ h := h
  unit _ _ _ _ _ h := h
  window _ _ _ _ h := h
  begin s h := by
    obtain ⟨l, e⟩ := s.beginMessage_link
    rw [e]; exact h
  send := State.sendWhole_keeps (fun _ _ _ h => h) fun s m _ l _ _ h => SegLaw.afterRemoval (s := { s with link := l }) m.content h
  soft _ h := h.softReset
  power _ _ := segLaw_reset

/-! ### The slots (R1, R13) -/

theorem SlotLaw.of_slots {s t : State} (h : SlotLaw s) (e : t.slots = s.slots) : SlotLaw t := by
  intro k; rw [e]; exact h k

/-- A WORKING slot whose state, tag, type, result and reply stand is as lawful as before. -/
theorem Slot.lawful_keepsHead {x : Slot} {f : Slot → Slot} (hf : KeepsHead f) (hw : x.state = .working) (h : x.Lawful) :
    (f x).Lawful := by
  obtain ⟨state, tag, type, result, reply⟩ := hf x
  obtain ⟨-, htype, hreply, hfields⟩ := h
  unfold Slot.Lawful
  rw [state, tag, type, result, reply, hw] at *
  exact ⟨fun e => (by cases e), htype, hreply, hfields⟩

theorem SlotLaw.quiet : Quiet SlotLaw where
  leg _ r f h := h.modLeg r f
  offer _ _ h := h
  answer _ k res fields h := h.answer k res fields
  work _ k f hw hf h := h.modSlot k f (Slot.lawful_keepsHead hf hw (h k))
  watch _ _ _ _ h := h.of_slots (by simp)
  alert _ _ _ h := h.of_slots (by simp)
  seg _ _ _ _ h := h

theorem SlotLaw.take {s : State} (k : SlotId) (type tag : Byte) (h : SlotLaw s) :
    SlotLaw (s.modSlot k fun _ => Slot.taken type tag) := h.modSlot k _ (Slot.lawful_taken type tag)

theorem SlotLaw.afterRemoval {s : State} (c : OutContent) (h : SlotLaw s) : SlotLaw (s.afterRemoval c) := by
  cases c with
  | reply k => exact h.modSlot k _ Slot.lawful_freed
  | notice n => exact h.of_slots (State.releaseHeld_slots _ _)

theorem SlotLaw.of_freed {s : State} (e : s.slots = Vector.replicate 8 Slot.freed) : SlotLaw s := by
  intro k
  have hk : s.slots[k] = Slot.freed := by rw [e]; simp
  rw [hk]; exact Slot.lawful_freed

theorem slotInvariant : Invariant SlotLaw where
  toDeliverable := SlotLaw.quiet.deliverable
  toSegmentSteps := SlotLaw.quiet.segmentSteps fun _ _ _ h => h
  toClockSteps := ClockSteps.of_blind SlotLaw.quiet.deliverable SlotLaw.quiet.startDecision (fun _ _ _ h => h) (fun _ _ _ h => h)
    fun _ h => h
  wires _ _ h := h
  take _ k type tag _ _ h := h.take k type tag
  clash _ k type tag _ h := (h.take k type tag).answer k _ _
  link _ _ _ h := h
  log _ _ _ h := h
  unit _ _ _ _ _ h := h
  window _ _ _ _ h := h
  begin s h := by
    obtain ⟨l, e⟩ := s.beginMessage_link
    rw [e]; exact h
  send := State.sendWhole_keeps (fun _ _ _ h => h) fun s m _ l _ _ h => SlotLaw.afterRemoval (s := { s with link := l }) m.content h
  soft _ _ := .of_freed rfl
  power _ _ := .of_freed rfl

/-! ### The live tags (R6) -/

theorem liveShrinks_modSlot (s : State) (k : SlotId) (f : Slot → Slot)
    (hf : (f s.slots[k]).liveTag = true → s.slots[k].liveTag = true ∧ (f s.slots[k]).tag = s.slots[k].tag) :
    LiveShrinks s (s.modSlot k f) := by
  intro j hj
  rw [State.modSlot_get] at hj ⊢
  by_cases e : j = k
  · subst e; rw [if_pos rfl] at hj ⊢; exact hf hj
  · rw [if_neg e] at hj ⊢; exact ⟨hj, rfl⟩

theorem Slot.liveTag_modLeg (x : Slot) (r : Role) (f : LegRecord → LegRecord) : (x.modLeg r f).liveTag = x.liveTag := by
  simp [Slot.liveTag]

theorem Slot.liveTag_keepsHead {f : Slot → Slot} (hf : KeepsHead f) (x : Slot) : (f x).liveTag = x.liveTag := by
  obtain ⟨state, -, type, result, -⟩ := hf x
  simp only [Slot.liveTag, state, type, result]

@[simp] theorem Slot.liveTag_freed : Slot.freed.liveTag = false := rfl

theorem LiveTagLaw.quiet : Quiet LiveTagLaw where
  leg s r f h := h.shrink <| liveShrinks_modSlot s r.slot (fun x => x.modLeg r.role f) fun hl =>
    ⟨(Slot.liveTag_modLeg _ _ _).symm.trans hl, Slot.modLeg_tag _ _ _⟩
  offer _ _ h := h
  answer s k res fields h := h.shrink (liveShrinks_answer s k res fields)
  work s k f _ hf h := h.shrink <| liveShrinks_modSlot s k f fun hl => ⟨(Slot.liveTag_keepsHead hf _).symm.trans hl, (hf _).2.1⟩
  watch _ _ _ _ h := h.of_slots (by simp)
  alert _ _ _ h := h.of_slots (by simp)
  seg _ _ _ _ h := h

/-- A request is taken into a FREE slot: of a type that is no transfer, or with a tag that is not live (R5, R6). -/
theorem LiveTagLaw.take {s : State} (k : SlotId) (type tag : Byte)
    (fresh : transferType type = true → ∀ j, j ≠ k → s.slots[j].liveTag = true → s.slots[j].tag ≠ tag) (h : LiveTagLaw s) :
    LiveTagLaw (s.modSlot k fun _ => Slot.taken type tag) := by
  intro i j hij hi hj
  rw [State.modSlot_get] at hi hj ⊢
  rw [State.modSlot_get]
  by_cases ei : i = k
  · have ej : j ≠ k := fun e => hij (ei.trans e.symm)
    rw [if_pos ei] at hi ⊢
    rw [if_neg ej] at hj ⊢
    exact (fresh ((transferType_eq type).2 (by simpa [Slot.taken] using hi.1)) j ej ((Slot.liveTag_iff _).2 hj)).symm
  · rw [if_neg ei] at hi ⊢
    by_cases ej : j = k
    · rw [if_pos ej] at hj ⊢
      exact fresh ((transferType_eq type).2 (by simpa [Slot.taken] using hj.1)) i ei ((Slot.liveTag_iff _).2 hi)
    · rw [if_neg ej] at hj ⊢
      exact h i j hij hi hj

/-- A slot answered TAG_IN_USE holds no live tag (R6). -/
theorem liveShrinks_clash (s : State) (k : SlotId) (type tag : Byte) :
    LiveShrinks s ((s.modSlot k fun _ => Slot.taken type tag).answer k .tagInUse []) := by
  intro j hj
  rw [State.answer_get] at hj ⊢
  by_cases e : j = k
  · rw [if_pos ⟨e, by simp [Slot.taken]⟩, Slot.liveTag_iff] at hj
    simp [Slot.HoldsLiveTag] at hj
  · rw [if_neg fun x => e x.1, State.modSlot_get, if_neg e] at hj ⊢
    exact ⟨hj, rfl⟩

theorem LiveTagLaw.afterRemoval {s : State} (c : OutContent) (h : LiveTagLaw s) : LiveTagLaw (s.afterRemoval c) := by
  cases c with
  | reply k => exact h.shrink (liveShrinks_modSlot s k _ fun hl => by simp at hl)
  | notice n => exact h.of_slots (State.releaseHeld_slots _ _)

theorem LiveTagLaw.of_freed {s : State} (e : s.slots = Vector.replicate 8 Slot.freed) : LiveTagLaw s := by
  intro j k _ hj
  have dead : s.slots[j] = Slot.freed := by rw [e]; simp
  rw [dead, ← Slot.liveTag_iff] at hj
  simp at hj

theorem liveTagInvariant : Invariant LiveTagLaw where
  toDeliverable := LiveTagLaw.quiet.deliverable
  toSegmentSteps := LiveTagLaw.quiet.segmentSteps fun _ _ _ h => h
  toClockSteps := ClockSteps.of_blind LiveTagLaw.quiet.deliverable LiveTagLaw.quiet.startDecision (fun _ _ _ h => h)
    (fun _ _ _ h => h) fun _ h => h
  wires _ _ h := h
  take _ k type tag _ fresh h := h.take k type tag fresh
  clash s k type tag _ h := h.shrink (liveShrinks_clash s k type tag)
  link _ _ _ h := h
  log _ _ _ h := h
  unit _ _ _ _ _ h := h
  window _ _ _ _ h := h
  begin s h := by
    obtain ⟨l, e⟩ := s.beginMessage_link
    rw [e]; exact h
  send := State.sendWhole_keeps (fun _ _ _ h => h) fun s m _ l _ _ h =>
    LiveTagLaw.afterRemoval (s := { s with link := l }) m.content h
  soft _ _ := .of_freed rfl
  power _ _ := .of_freed rfl

/-! ### The outbound queue (R189, R192, R194) -/

theorem OutboundLaw.quiet : Quiet OutboundLaw where
  leg _ r f h := h.slot r.slot _ (by simp)
  offer _ _ h := h.of_same rfl (fun _ => Iff.rfl) fun q => (by cases q <;> rfl)
  answer _ k res fields h := h.answer k res fields
  work s k f _ hf h := h.slot k f (by rw [(hf s.slots[k]).1])
  watch _ r u armed h := h.watchUnit r u armed
  alert _ x hx h := h.raise x hx
  seg _ n f hf h := h.seg n f fun g => (hf g).1

/-- The clock unit, the map of the segments and the units may change where what they hold over stands. -/
theorem OutboundLaw.of_held {s t : State} (hq : t.link.queue = s.link.queue) (hs : t.slots = s.slots)
    (hu : ∀ u : UnitId, t.units[u].heldHit = s.units[u].heldHit) (hg : ∀ n : SegId, t.segs[n].heldAlert = s.segs[n].heldAlert)
    (hc : t.clock.heldEvent = s.clock.heldEvent) (h : OutboundLaw s) : OutboundLaw t := by
  refine h.of_same hq (fun k => by rw [hs]) fun q => ?_
  cases q with
  | watch u => exact hu u
  | segment n => exact hg n
  | clock => exact hc
  | reset => rfl

/-- A queue of READY alone, with no slot ANSWERED and nothing held over, is lawful: so both resets leave it (R195, R196). -/
theorem OutboundLaw.of_ready {s : State} {why : ReadyReason} (hq : s.link.queue = [{ content := .notice (.ready why), begun := false }])
    (hk : ∀ k : SlotId, s.slots[k].state = .free) (hh : ∀ q, s.held q = none) : OutboundLaw s := by
  refine ⟨fun k => ?replies, fun q => ?notices, ?begun, fun q n hn => ?held, fun m hm n hn => ?counts⟩
  case replies =>
    have hc : s.slots[k].state ≠ .answered := by rw [hk k]; decide
    rw [if_neg hc, State.replyCount, hq]
    rfl
  case notices => unfold State.noticeCount; rw [hq]; exact List.countP_le_length
  case begun => rw [hq]; simp
  case held => rw [hh] at hn; cases hn
  case counts =>
    rw [hq, List.mem_singleton] at hm
    subst hm
    cases hn
    exact ⟨Nat.le_refl 1, show 1 ≤ 255 by decide⟩

/-- The head message begins (R190): marks alone change, and that of the head only. -/
theorem OutboundLaw.beginMessage {s : State} (h : OutboundLaw s) : OutboundLaw s.beginMessage := by
  obtain ⟨replies, notices, begun, held, counts⟩ := h
  unfold State.beginMessage
  cases hq : s.link.queue with
  | nil => exact ⟨replies, notices, begun, held, counts⟩
  | cons m rest =>
    unfold State.replyCount at replies
    unfold State.noticeCount at notices
    rw [hq] at replies notices begun held counts
    refine ⟨replies, notices, begun, fun q n hn => ?held, fun x hx n hn => ?counts⟩
    case held =>
      have hn' : s.held q = some n := by rw [← hn]; cases q <;> rfl
      obtain ⟨hsrc, h1, h255, x, hx, hfrom, hbegun⟩ := held q n hn'
      rcases List.mem_cons.1 hx with rfl | hx
      · exact ⟨hsrc, h1, h255, _, List.mem_cons_self, hfrom, rfl⟩
      · exact ⟨hsrc, h1, h255, x, List.mem_cons_of_mem _ hx, hfrom, hbegun⟩
    case counts =>
      rcases List.mem_cons.1 hx with rfl | hx
      · exact counts m List.mem_cons_self n hn
      · exact counts x (List.mem_cons_of_mem _ hx) n hn

theorem State.softReset_held (s : State) (q : NoticeSource) : s.softReset.held q = none := by
  cases q with
  | watch u => simp [State.held, State.softReset, WatchUnit.reset]
  | segment n =>
    have e : s.softReset.segs[n] = s.softSegment s.segs[n] := by simp [State.softReset]
    show s.softReset.segs[n].heldAlert = none
    rw [e]
    unfold State.softSegment
    dsimp only
    split <;> rfl
  | clock => rfl
  | reset => rfl

theorem State.reset_held (q : NoticeSource) : State.reset.held q = none := by
  cases q with
  | watch u => simp [State.held, State.reset, WatchUnit.reset]
  | segment n => simp [State.held, State.reset, Segment.reset]
  | clock => rfl
  | reset => rfl

/-- The state after power-on reset, with any levels and waiting commands, has a lawful queue. -/
theorem outboundLaw_power (w : Wires) (q : List Instr) : OutboundLaw { State.reset with wires := w, pending := q } :=
  .of_ready (why := .powerOn) rfl (fun k => by simp [State.reset, Slot.freed]) fun q => by rw [← State.reset_held q]; cases q <;> rfl

theorem outboundInvariant : Invariant OutboundLaw where
  toDeliverable := OutboundLaw.quiet.deliverable
  toSegmentSteps := OutboundLaw.quiet.segmentSteps fun _ n _ h => h.seg n _ fun _ => rfl
  toClockSteps := ClockSteps.of_blind OutboundLaw.quiet.deliverable OutboundLaw.quiet.startDecision
    (fun s _ hc h => h.of_held (s := s) rfl rfl (fun _ => rfl) (fun _ => rfl) hc)
    (fun s f hf h => h.of_held (s := s) rfl rfl (fun _ => rfl) (fun n => by simp [hf]) rfl)
    fun s h => h.of_held (s := s) rfl rfl (fun u => by simp [WatchUnit.tick]) (fun _ => rfl) rfl
  wires _ _ h := h.of_held rfl rfl (fun _ => rfl) (fun _ => rfl) rfl
  take s k type tag free _ h := h.slot k _ (by rw [free]; simp [Slot.taken])
  clash s k type tag free h := (h.slot k (fun _ => Slot.taken type tag) (by rw [free]; simp [Slot.taken])).answer k _ _
  link _ _ hq h := h.of_held hq rfl (fun _ => rfl) (fun _ => rfl) rfl
  log _ _ _ h := h.of_held rfl rfl (fun _ => rfl) (fun _ => rfl) rfl
  unit _ u f hf _ h := h.unit u f hf
  window _ _ _ _ h := h.of_held rfl rfl (fun _ => rfl) (fun _ => rfl) rfl
  begin _ h := h.beginMessage
  send := State.sendWhole_keeps (fun _ _ hq h => h.of_held hq rfl (fun _ => rfl) (fun _ => rfl) rfl)
    fun _ _ _ l hq hl h => h.removeHead hq l hl
  soft s _ := .of_ready (why := .soft) rfl (fun k => by simp [State.softReset, Slot.freed]) s.softReset_held
  power s _ := outboundLaw_power s.wires s.pending

/-! ### The legs (R42, R46, R72, R75) -/

/-- A part that holds no leg, runs none and owns nothing keeps the law of the legs. -/
theorem LegLaw.of_idle {s : State} (hs : ∀ k : SlotId, s.slots[k] = Slot.freed) (hg : ∀ n : SegId, s.segs[n] = Segment.reset)
    (hc : s.clock.selectOwner = none) : LegLaw s := by
  refine ⟨fun n => ?queues, fun n r hr => ?runs, fun k => ?slots, fun n c k hk => ?clears, fun k hk => ?select⟩
  case queues => rw [hg n]; exact ⟨List.nodup_nil, fun r hr => by cases hr⟩
  case runs => rw [hg n] at hr; cases hr
  case slots =>
    rw [hs k]
    exact ⟨fun role l hl => (by cases role <;> cases hl), fun p t hp => (by cases hp), fun p res hp => (by cases hp),
      fun _ => ⟨rfl, rfl, rfl⟩, fun ha => (by cases ha)⟩
  case clears => rw [hg n] at hk; cases hk
  case select => rw [hc] at hk; cases hk

theorem legLaw_power (w : Wires) (q : List Instr) : LegLaw { State.reset with wires := w, pending := q } :=
  .of_idle (fun k => by simp [State.reset]) (fun n => by simp [State.reset]) rfl

theorem LegLawBut.ite {s a : State} (c : Prop) [Decidable c] (ha : c → LegLawBut none a) (h : LegLawBut none s) :
    LegLawBut none (if c then a else s) := by
  by_cases hc : c
  · rw [if_pos hc]; exact ha hc
  · rw [if_neg hc]; exact h

theorem LegLawBut.iteNot {s a : State} (c : Prop) [Decidable c] (ha : ¬ c → LegLawBut none a) (h : LegLawBut none s) :
    LegLawBut none (if c then s else a) := by
  by_cases hc : c
  · rw [if_pos hc]; exact h
  · rw [if_neg hc]; exact ha hc

theorem ClockUnit.edge_selectOwner (c : ClockUnit) : c.edge.selectOwner = c.selectOwner := by
  unfold ClockUnit.edge
  cases c.refStatus <;> rfl

/-- STRETCH_TIMEOUT keeps the law of the legs: the run it stores is that of the leg in progress (R106). -/
theorem LegLawBut.stretch {s : State} (n : SegId) (bytes : List WireByte) (place : StretchPlace) (h : LegLawBut none s) :
    LegLawBut none (s.withRun n fun r leg =>
      match stretchAt leg.1 r (stopFields s.segs[n] r leg.1) bytes place with
      | none => s
      | some p => (s.traced n (stretchTrace leg.1 r leg.2 bytes place)).storeRun n p.1 p.2) := by
  refine h.withRun n _ fun r leg hr => ?_
  cases hp : stretchAt leg.1 r (stopFields s.segs[n] r leg.1) bytes place with
  | none => exact h
  | some p =>
    obtain ⟨sameLeg, sameOrphan⟩ := stretchAt_leg hp
    exact (h.traced n _).storeRun (State.traced_run _ hr) sameLeg sameOrphan p.2

/-- SECOND_STRETCH_WINDOW_END keeps the law of the legs (R106, R107). -/
theorem LegLawBut.secondWindowEnd {s : State} (n : SegId) (w : Wires) (h : LegLawBut none s) :
    LegLawBut none (s.withRun n fun r leg => (s.withWires w).endStuckLeg n r leg) :=
  h.withRun n _ fun _ leg hr => LegLawBut.endStuckLeg (s := s.withWires w) hr leg (h.beside (.withWires s w))

theorem LegLawBut.referenceLost {s : State} (w : Wires) (h : LegLawBut none s) :
    LegLawBut none (match s.clock.refStatus with
      | .absent => s
      | .starting => { s with clock := s.clock.lost }
      | .present => ({ s.withWires w with clock := s.clock.lost }).lossFallback.raiseClockEvent .referenceLost) := by
  have lost : LegLawBut none { s with clock := s.clock.lost } := h.beside (.of_eq rfl rfl rfl)
  cases s.clock.refStatus with
  | absent => exact h
  | starting => exact lost
  | present =>
    have before : LegLawBut none { s.withWires w with clock := s.clock.lost } := h.beside (.of_eq rfl rfl rfl)
    exact before.lossFallback.beside (.raiseClockEvent _ _)

theorem LegLawBut.selectBegin {s : State} (h : LegLawBut none s) :
    LegLawBut none ({ s with link := { s.link with selected := true, resetInSelect := false, outFrame := none } } : State).chooseByte :=
  (h.beside (.of_eq rfl rfl rfl)).beside (.chooseByte _)

/-- A request command keeps the law of the legs as the body of its frame does. -/
theorem LegLawBut.request {s : State} {c : Instr} {body : Byte × Byte × List Byte} (hbody : c.frameBody = some body) (hr : RouteLaw s)
    (h : LegLawBut none s) : ∃ t, Machine.exec c s = .next t ∧ LegLawBut none t := by
  refine ⟨_, exec_of_frameBody hbody s, LegLawBut.takeBody _ (hr.of_windows ?_) ?_⟩
  · rw [State.reads_eq]
  · rw [State.reads_eq]; exact h.beside (.of_eq rfl rfl rfl)

/-- Every command keeps the law of the legs; the windows give the two legs of a transfer their segments, and the outbound queue says
that a reply sent is that of an ANSWERED slot. -/
theorem LegLawBut.exec {s : State} (c : Instr) (hr : RouteLaw s) (ho : OutboundLaw s) (h : LegLawBut none s) :
    ∃ t, Machine.exec c s = .next t ∧ LegLawBut none t := by
  have wired : ∀ w, LegLawBut none (s.withWires w) := fun w => h.beside (.withWires s w)
  cases c
  case lineCheckEnd n w => exact ⟨_, rfl, h.ite _ fun _ => (wired w).recheck n⟩
  case lineCheckTimeout n w => exact ⟨_, rfl, h.ite _ fun _ => (wired w).faultEntry n .stuckClock⟩
  case legEnd n bytes finish w => exact ⟨_, rfl, h.legEnd n bytes finish w⟩
  case stretchTimeout n bytes place => exact ⟨_, rfl, h.stretch n bytes place⟩
  case secondStretchWindowEnd n w => exact ⟨_, rfl, h.secondWindowEnd n w⟩
  case busClearEnd n reads w => exact ⟨_, rfl, h.clearEnd n reads w⟩
  case busClearTimeout n reads w => exact ⟨_, rfl, h.clearTimeout n reads w⟩
  case evtTimerExpiry u => exact ⟨_, rfl, h.ite _ fun _ => h.beside (.modUnit _ _ _)⟩
  case timeBaseTick => exact ⟨_, rfl, h.beside (.of_eq rfl rfl rfl)⟩
  case referenceEdge => exact ⟨_, rfl, h.beside (.of_eq (s := s) rfl rfl s.clock.edge_selectOwner)⟩
  case referenceGood => exact ⟨_, rfl, h.ite _ fun _ => (h.beside (.of_eq rfl rfl rfl)).beside (.raiseClockEvent _ _)⟩
  case referenceLost w => exact ⟨_, rfl, h.referenceLost w⟩
  case pauseRequested n => exact ⟨_, rfl, h.ite _ fun _ => h.beside (.modSeg _ _ _ fun _ => ⟨rfl, rfl, rfl⟩)⟩
  case quiescenceReport n w => exact ⟨_, rfl, h.ite _ fun _ => ((wired w).beside (.dropReport _ n)).takeReport n⟩
  case withdrawal n => exact ⟨_, rfl, h.ite _ fun _ => (h.beside (.dropReport s n)).beside (.takeWithdrawal _ n)⟩
  case selectBegin => exact ⟨_, rfl, h.iteNot _ fun _ => h.selectBegin⟩
  case selectRelease => exact ⟨_, rfl, h.ite _ fun _ => (h.releaseFrame ho.answered_of_reply).beside (.of_eq rfl rfl rfl)⟩
  case frameErr => exact ⟨_, rfl, h.iteNot _ fun _ => h.beside (.of_eq rfl rfl rfl)⟩
  case messageBegin => exact ⟨_, rfl, h.beside (.chooseByte s)⟩
  case frameSent => exact ⟨_, rfl, h.sendWhole ho.answered_of_reply⟩
  case powerOnReset => exact ⟨_, rfl, legLawBut_none.2 (legLaw_power _ _)⟩
  case byteBoundary b w =>
    exact ⟨_, rfl, h.ite _ fun _ => LegLawBut.inboundByte b (hr.of_windows rfl) (h.beside (.of_eq rfl rfl rfl))⟩
  case unknownType type tag payload => exact ⟨_, rfl, h.ite _ fun _ => h.takeUnknown type tag⟩
  all_goals exact h.request rfl hr

theorem LegLaw.step {s t : State} (hstep : Machine.step s = .next t) (hr : RouteLaw s) (ho : OutboundLaw s) (h : LegLaw s) :
    LegLaw t := by
  cases hq : s.pending with
  | nil =>
    rw [stepTakesTheFrontCommandOrIdles.2 s hq] at hstep
    cases hstep
    exact h
  | cons c rest =>
    have h' : LegLawBut none { s with pending := rest } := (legLawBut_none.2 h).beside (.of_eq rfl rfl rfl)
    obtain ⟨t', ht', hlaw⟩ :=
      LegLawBut.exec (s := { s with pending := rest }) c hr (ho.of_held (s := s) rfl rfl (fun _ => rfl) (fun _ => rfl) rfl) h'
    rw [stepTakesTheFrontCommandOrIdles.1 c rest s hq, ht'] at hstep
    obtain rfl := Host.Outcome.next.inj hstep
    exact legLawBut_none.1 hlaw

/-! ### What the law of the legs says of the queues (R48, R75) -/

/-- A reference names a leg on one segment and in one state. -/
theorem State.LegIn.unique {s : State} {r : LegRef} {m n : SegId} {a b : LegState} (h : s.LegIn r m a) (k : s.LegIn r n b) :
    m = n ∧ a = b := by
  obtain ⟨-, l, hl, rfl, rfl⟩ := h
  obtain ⟨-, l', hl', rfl, rfl⟩ := k
  rw [hl] at hl'
  cases hl'
  exact ⟨rfl, rfl⟩

/-- Two legs of one slot are never on one segment (R46). -/
theorem LegLaw.role_unique {s : State} (h : LegLaw s) {k : SlotId} {n : SegId} {a b : Role} {x y : LegState}
    (ha : s.LegIn ⟨k, a⟩ n x) (hb : s.LegIn ⟨k, b⟩ n y) : a = b := by
  obtain ⟨-, apart, -, -, -⟩ := h.2.2.1 k
  obtain ⟨-, la, hla, sa, -⟩ := ha
  obtain ⟨-, lb, hlb, sb, -⟩ := hb
  cases a with
  | primary =>
    cases b with
    | primary => rfl
    | twin => exact absurd (sa.trans sb.symm) (apart la lb hla hlb)
  | twin =>
    cases b with
    | primary => exact absurd (sb.trans sa.symm) (apart lb la hlb hla)
    | twin => rfl

/-- A queue holds at most one leg of each of the eight slots (R48). -/
theorem LegLaw.queue_length {s : State} (h : LegLaw s) (n : SegId) : s.segs[n].queue.length ≤ 8 := by
  obtain ⟨distinct, queued⟩ := h.1 n
  have slots_distinct : (s.segs[n].queue.map LegRef.slot).Nodup := by
    refine List.pairwise_map.2 (distinct.imp_of_mem fun {q r} hq hr apart e => apart ?_)
    obtain ⟨k, a⟩ := q
    obtain ⟨j, b⟩ := r
    cases e
    rw [h.role_unique (queued _ hq) (queued _ hr)]
  have bound := slots_distinct.length_le_of_subset (l₂ := List.finRange 8) fun k _ => List.mem_finRange k
  rw [List.length_map, List.length_finRange] at bound
  exact bound

/-- Settles O58: the law of the segments is an invariant, every command keeps that of the legs, and a leg is queued or in progress on the
one segment that its record names. -/
theorem everyStepKeepsTheSegmentLaw : Obligations.EveryStepKeepsTheSegmentLaw := by
  unfold Obligations.EveryStepKeepsTheSegmentLaw
  refine ⟨fun s t hstep => ⟨fun h => segInvariant.step (fun _ _ h => h) s t h hstep, fun hr ho h => h.step hstep hr ho⟩,
    fun s h => ⟨h.queue_length, fun n r => List.nodup_iff_count.1 (h.1 n).1 r, fun m n r hmn hm hn => ?twoQueues, fun m r hr ho => ?running⟩⟩
  case twoQueues => exact hmn (((h.1 m).2 r hm).unique ((h.1 n).2 r hn)).1
  case running =>
    have inProgress := h.2.1 m r hr ho
    refine ⟨fun n hq => ?_, fun n q hq hqo e => ?_⟩
    · cases (((h.1 n).2 r.leg hq).unique inProgress).2
    · have other := h.2.1 n q hq hqo
      rw [e] at other
      exact (other.unique inProgress).1

/-! ### What the laws say of replies (R55, R189) -/

/-- A leg that is queued or in progress is one of a WORKING slot. -/
theorem State.LegIn.slot_ne {s : State} {r : LegRef} {n : SegId} {st : LegState} (hr : s.LegIn r n st) {k : SlotId}
    (hk : s.slots[k].state = .answered) : r.slot ≠ k := by
  intro e
  rw [← e, hr.1] at hk
  cases hk

/-- Settles O59: three invariants, and the law of the legs at an ANSWERED slot. -/
theorem everyStepKeepsTheSlotAndOutboundLaws : Obligations.EveryStepKeepsTheSlotAndOutboundLaws := by
  unfold Obligations.EveryStepKeepsTheSlotAndOutboundLaws
  refine ⟨fun s t hstep => ⟨fun h => slotInvariant.step (fun _ _ h => h) s t h hstep,
    fun h => liveTagInvariant.step (fun _ _ h => h) s t h hstep,
    fun h => outboundInvariant.step (fun _ _ h => h.of_held rfl rfl (fun _ => rfl) (fun _ => rfl) rfl) s t h hstep⟩,
    fun s ho h k hk => ?replies⟩
  have answered : s.slots[k].state = .answered := hk.elim id (ho.answered_of_reply k)
  obtain ⟨-, -, -, -, done⟩ := h.2.2.1 k
  exact ⟨done answered, fun n => ⟨fun r hr => ((h.1 n).2 r hr).slot_ne answered, fun q hq hqo => (h.2.1 n q hq hqo).slot_ne answered⟩⟩

/-- The ten sources of notices (R189). -/
def NoticeSource.all : List NoticeSource :=
  (List.finRange 4).map NoticeSource.watch ++ (List.finRange 4).map NoticeSource.segment ++ [.clock, .reset]

theorem NoticeSource.mem_all (q : NoticeSource) : q ∈ NoticeSource.all := by
  cases q <;> simp [NoticeSource.all]

/-- Each message is the reply of a slot or a notice of a source. -/
theorem OutMessage.reply_or_notice (m : OutMessage) :
    (∃ k : SlotId, m.content = .reply k) ∨ ∃ q : NoticeSource, OutMessage.isFrom q m = true := by
  obtain ⟨content, begun⟩ := m
  cases content with
  | reply k => exact .inl ⟨k, rfl⟩
  | notice n => exact .inr ⟨n.source, by simp [OutMessage.isFrom]⟩

/-- A list whose every element is of one of some classes, each of which has at most one, is no longer than the classes are many. -/
theorem length_le_of_countP_le_one {α β : Type} (p : β → α → Bool) (classes : List β) (l : List α)
    (one : ∀ b ∈ classes, l.countP (p b) ≤ 1) (covered : ∀ a ∈ l, ∃ b ∈ classes, p b a = true) : l.length ≤ classes.length := by
  induction classes generalizing l with
  | nil =>
    cases l with
    | nil => exact Nat.le_refl _
    | cons a l => obtain ⟨b, hb, -⟩ := covered a List.mem_cons_self; cases hb
  | cons b bs ih =>
    have split : l.length = l.countP (p b) + (l.filter fun a => !p b a).length := by
      rw [List.length_eq_countP_add_countP (p b), List.countP_eq_length_filter (p := fun a => decide ¬p b a = true)]
      simp
    have rest := ih (l.filter fun a => !p b a)
      (fun c hc => Nat.le_trans (List.Sublist.countP_le List.filter_sublist) (one c (List.mem_cons_of_mem _ hc)))
      (fun a ha => by
        obtain ⟨hal, hab⟩ := List.mem_filter.1 ha
        obtain ⟨c, hc, hca⟩ := covered a hal
        rcases List.mem_cons.1 hc with rfl | hc
        · simp [hca] at hab
        · exact ⟨c, hc, hca⟩)
    have head := one b List.mem_cons_self
    simp only [List.length_cons]
    omega

/-- What a message can be: the reply of a slot, or a notice of a source. -/
def OutMessage.isOf (m : OutMessage) : SlotId ⊕ NoticeSource → Bool
  | .inl k => decide (m.content = .reply k)
  | .inr q => OutMessage.isFrom q m

/-- Settles O60: a reply for each of the eight slots at most, and a notice of each of the ten sources at most. -/
theorem outboundQueueHoldsAtMostEighteen : Obligations.OutboundQueueHoldsAtMostEighteen := by
  unfold Obligations.OutboundQueueHoldsAtMostEighteen
  rintro s ⟨replies, notices, -, -, -⟩
  refine length_le_of_countP_le_one (fun b m => OutMessage.isOf m b)
    ((List.finRange 8).map Sum.inl ++ NoticeSource.all.map Sum.inr) s.link.queue (fun b _ => ?one) fun m _ => ?covered
  case one =>
    cases b with
    | inl k =>
      have count := replies k
      unfold State.replyCount at count
      show List.countP (fun m : OutMessage => decide (m.content = .reply k)) s.link.queue ≤ 1
      rw [count]
      split <;> decide
    | inr q => exact notices q
  case covered =>
    obtain ⟨k, hk⟩ | ⟨q, hq⟩ := m.reply_or_notice
    · exact ⟨.inl k, by simp, by simp [OutMessage.isOf, hk]⟩
    · exact ⟨.inr q, by simp [NoticeSource.mem_all], hq⟩

/-- Settles O55, law by law. -/
theorem resetStateMeetsEveryLaw : Obligations.ResetStateMeetsEveryLaw := by
  unfold Obligations.ResetStateMeetsEveryLaw
  exact ⟨routeLaw_reset, Nat.zero_le 32, .of_reset rfl, clockLaw_reset, segLaw_reset, .of_freed rfl, .of_freed rfl,
    outboundLaw_power _ _, legLaw_power _ _⟩

/-! ### Every command answers -/

/-- The waiting commands are no part of what a command works on (log 17): that they are some list is an invariant. -/
theorem pendingInvariant (q : List Instr) : Invariant fun s => s.pending = q := by
  have quiet : Quiet fun s : State => s.pending = q :=
    { leg := fun _ _ _ h => h, offer := fun _ _ h => h, answer := fun _ _ _ _ h => by simpa using h, work := fun _ _ _ _ _ h => h,
      watch := fun _ _ _ _ h => by simpa using h, alert := fun _ _ _ h => by simpa using h, seg := fun _ _ _ _ h => h }
  exact
    { toDeliverable := quiet.deliverable
      toSegmentSteps := quiet.segmentSteps fun _ _ _ h => h
      toClockSteps := ClockSteps.of_blind quiet.deliverable quiet.startDecision (fun _ _ _ h => h) (fun _ _ _ h => h) fun _ h => h
      wires := fun _ _ h => h
      take := fun _ _ _ _ _ _ h => h
      clash := fun _ _ _ _ _ h => by simpa using h
      link := fun _ _ _ h => h
      log := fun _ _ _ h => h
      unit := fun _ _ _ _ _ h => h
      window := fun _ _ _ _ h => h
      begin := fun s h => by
        obtain ⟨l, e⟩ := s.beginMessage_link
        rw [e]; exact h
      send := State.sendWhole_keeps (fun _ _ _ h => h) fun s m _ l _ _ h => by
        cases m.content with
        | reply k => exact h
        | notice n => exact (State.releaseHeld_pending _ _).trans h
      soft := fun _ h => h
      power := fun _ h => h }

/-- Settles O2: every arm of `exec` answers a next state, and none looks at the waiting commands. -/
theorem everyCommandAnswersAndKeepsTheQueue : Obligations.EveryCommandAnswersAndKeepsTheQueue := by
  unfold Obligations.EveryCommandAnswersAndKeepsTheQueue
  intro c s
  have answers : ∃ t, exec c s = .next t := by cases c <;> exact ⟨_, rfl⟩
  obtain ⟨t, ht⟩ := answers
  exact ⟨t, ht, (pendingInvariant s.pending).exec c s t rfl ht⟩

end Sys2Proof.Machine
end

section
/-! The requests that one block answers at once: STATUS, the route map, the watch units, the history log and CLOCK_CONFIG, CLOCK_SELECT
and CLOCK_STATUS (O8, O10 to O12, O24 to O27, O32, O33, O35 to O37). Each is screened in the lowest FREE slot and carried out there. -/

namespace Sys2Proof.Machine

/-! ### Screening in the lowest FREE slot -/

/-- A request whose fields decode is carried out in the lowest FREE slot, which keeps them (R3, R5). -/
theorem State.deliver_decoded {α : Type} {s : State} {k : SlotId} (h : s.LowestFree k) (type tag : Byte) {decoded : Option α} {x : α}
    (hd : decoded = some x) (name : α → Request) (carryOut : SlotId → α → State → State) :
    s.deliver type tag (fun k a => State.screened k decoded name (carryOut k) a) = carryOut k x (s.took k type tag (some (name x))) := by
  subst hd
  rw [State.deliver_of_lowest h, State.screened_some]

/-- A request whose fields do not decode is answered BAD_REQUEST, and its slot holds none of them (R5, log 37). -/
theorem State.deliver_refused {α : Type} {s : State} {k : SlotId} (h : s.LowestFree k) (type tag : Byte) {decoded : Option α}
    (hd : ∀ x, decoded ≠ some x) (name : α → Request) (carryOut : SlotId → α → State → State) :
    s.deliver type tag (fun k a => State.screened k decoded name (carryOut k) a) = s.replied k type tag none .badRequest [] := by
  obtain rfl := Option.eq_none_iff_forall_ne_some.2 hd
  rw [State.deliver_of_lowest h, State.screened_none]

/-! ### STATUS (R14, R15) -/

/-- Of the FREE slots one is taken. -/
theorem State.freeCount_took {s : State} {k : SlotId} (h : s.slots[k].state = .free) (type tag : Byte) (req : Option Request) :
    (s.took k type tag req).freeCount = s.freeCount - 1 := by
  have split := List.perm_cons_erase (List.mem_finRange k)
  have taken : (s.took k type tag req).slots[k].state ≠ .free := by rw [State.took_get]; nofun
  have others : ((List.finRange 8).erase k).countP (fun j => (s.took k type tag req).slots[j].state = .free) =
      ((List.finRange 8).erase k).countP (fun j => s.slots[j].state = .free) := by
    refine List.countP_congr fun j hj => ?_
    have apart : j ≠ k := ((List.nodup_finRange 8).mem_erase_iff.1 hj).1
    rw [State.took_other s apart]
  unfold State.freeCount
  rw [split.countP_eq, split.countP_eq, List.countP_cons_of_neg (by simpa using taken), List.countP_cons_of_pos (by simpa using h), others]
  rfl

theorem State.statusFields_took {s : State} {k : SlotId} (h : s.slots[k].state = .free) (type tag : Byte) (req : Option Request) :
    (s.took k type tag req).statusFields =
      [0x4E, 0x24, 0x01, byteOf ((List.finRange 8).countP (fun j : SlotId => s.slots[j].state = .free) - 1),
        byteOf s.link.queue.length, s.link.flags.byte, s.clock.source.code, s.segs[0].state.code, s.segs[1].state.code,
        s.segs[2].state.code, s.segs[3].state.code] := by
  unfold State.statusFields
  rw [State.freeCount_took h]
  rfl

/-- Settles O8. -/
theorem statusReportsAndClearsTheFlags : Obligations.StatusReportsAndClearsTheFlags := by
  unfold Obligations.StatusReportsAndClearsTheFlags
  intro tag payload s k h
  refine ⟨fun clear hp => congrArg Host.Outcome.next ?ok, fun hn => congrArg Host.Outcome.next ?refused⟩
  case ok =>
    subst hp
    refine (State.deliver_decoded h _ tag (boolOfByte_boolByte clear) _ _).trans ?_
    unfold State.carryStatus
    rw [State.statusFields_took h.2.1]
    cases clear with
    | false => exact State.took_answer s _ _ _ _ _ _
    | true => exact State.took_answer s.clearFlags _ _ _ _ _ _
  case refused => exact State.deliver_refused h _ tag (fun c e => hn c (decodeStatus_some e)) _ _

/-! ### The route map (R21 to R25) -/

/-- Settles O10. -/
theorem routeSetReplacesTheWindow : Obligations.RouteSetReplacesTheWindow := by
  unfold Obligations.RouteSetReplacesTheWindow
  intro tag payload s k h
  refine ⟨fun i w v enabled hp hv => ?decoded, fun hn => congrArg Host.Outcome.next ?refused⟩
  case decoded =>
    subst hp hv
    have decodes : decodeRouteSet (byteOf i :: w.fieldBytes) = some (i, w) := by
      rw [decodeRouteSet_bytes, ← enabled]
    have carried := State.deliver_decoded h ReqType.routeSet.code tag decodes (fun f => .routeSet f.1 f.2) State.carryRouteSet
    refine ⟨fun lawful => congrArg Host.Outcome.next (carried.trans ?_), fun lawful => congrArg Host.Outcome.next (carried.trans ?_)⟩
    · exact (if_pos ((Window.placed_iff w).2 lawful)).trans (State.took_answer (s.setWindow i w.stored) _ _ _ _ _ _)
    · exact (if_neg fun e => lawful ((Window.placed_iff w).1 e)).trans (State.took_answer s _ _ _ _ _ _)
  case refused =>
    exact State.deliver_refused h _ tag (fun f e => (decodeRouteSet_some e).elim (hn f.1)) _ _

/-- Settles O11. -/
theorem routeGetReturnsTheWindow : Obligations.RouteGetReturnsTheWindow := by
  unfold Obligations.RouteGetReturnsTheWindow
  intro tag payload s k h
  refine ⟨fun i hp => congrArg Host.Outcome.next ?ok, fun hn => congrArg Host.Outcome.next ?refused⟩
  case ok =>
    subst hp
    exact (State.deliver_decoded h _ tag (decodeOne_byteOf (by decide) i) _ State.carryRouteGet).trans (State.took_answer s _ _ _ _ _ _)
  case refused => exact State.deliver_refused h _ tag (fun i e => hn i (decodeOne_some e)) _ _

/-- Settles O12. -/
theorem routeDisableKeepsTheOtherFields : Obligations.RouteDisableKeepsTheOtherFields := by
  unfold Obligations.RouteDisableKeepsTheOtherFields
  intro tag payload s k h
  refine ⟨fun i hp => congrArg Host.Outcome.next ?ok, fun hn => congrArg Host.Outcome.next ?refused⟩
  case ok =>
    subst hp
    exact (State.deliver_decoded h _ tag (decodeOne_byteOf (by decide) i) _ State.carryRouteDisable).trans
      (State.took_answer (s.setWindow i { s.windows[i] with enabled := false }) _ _ _ _ _ _)
  case refused => exact State.deliver_refused h _ tag (fun i e => hn i (decodeOne_some e)) _ _

/-! ### The watch units (R151 to R154) -/

/-- A setup that a unit takes is chained on a unit with a predecessor alone, so `chained` alone says where WATCH_SET puts the unit. -/
theorem WatchSetup.Settable.initialState {w : WatchSetup} {u : UnitId} (h : w.Settable u) :
    w.initialState u = if w.chained = true then .waiting else .armed := by
  obtain ⟨-, -, successor⟩ := h
  unfold WatchSetup.initialState
  cases hc : w.chained with
  | false => rfl
  | true => rcases successor hc with rfl | rfl <;> rfl

/-- Settles O24. -/
theorem watchSetLoadsTheUnit : Obligations.WatchSetLoadsTheUnit := by
  unfold Obligations.WatchSetLoadsTheUnit
  intro tag payload s k h
  refine ⟨fun u w st settable hp hst => congrArg Host.Outcome.next ?ok, fun hn => congrArg Host.Outcome.next ?refused⟩
  case ok =>
    subst hp
    rw [← settable.initialState] at hst
    subst hst
    exact (State.deliver_decoded h _ tag (decodeWatchSet_bytes u w settable) _ State.carryWatchSet).trans
      (State.took_answer (s.modUnit u fun x => x.set u w) _ _ _ _ _ _)
  case refused =>
    refine State.deliver_refused h _ tag (fun f e => ?_) _ _
    obtain ⟨hp, settable⟩ := decodeWatchSet_some e
    exact hn f.1 f.2 settable hp

/-- Settles O25. -/
theorem watchGetReturnsTheUnit : Obligations.WatchGetReturnsTheUnit := by
  unfold Obligations.WatchGetReturnsTheUnit
  intro tag payload s k h
  refine ⟨fun u hp => congrArg Host.Outcome.next ?ok, fun hn => congrArg Host.Outcome.next ?refused⟩
  case ok =>
    subst hp
    exact (State.deliver_decoded h _ tag (decodeOne_byteOf (by decide) u) _ State.carryWatchGet).trans (State.took_answer s _ _ _ _ _ _)
  case refused => exact State.deliver_refused h _ tag (fun u e => hn u (decodeOne_some e)) _ _

/-- Settles O27. -/
theorem watchDisableKeepsTheSetup : Obligations.WatchDisableKeepsTheSetup := by
  unfold Obligations.WatchDisableKeepsTheSetup
  intro tag payload s k h
  refine ⟨fun u hp => congrArg Host.Outcome.next ?ok, fun hn => congrArg Host.Outcome.next ?refused⟩
  case ok =>
    subst hp
    exact (State.deliver_decoded h _ tag (decodeOne_byteOf (by decide) u) _ State.carryWatchDisable).trans
      (State.took_answer (s.setWatchState u .disabled) _ _ _ _ _ _)
  case refused => exact State.deliver_refused h _ tag (fun u e => hn u (decodeOne_some e)) _ _

/-! ### The history log (R163 to R167) -/

theorem LogEntry.bytes16_length (e : LogEntry) : e.bytes16.length = 16 := by
  cases e <;> rfl

/-- Settles O32. -/
theorem logReadTakesTheOldestEntries : Obligations.LogReadTakesTheOldestEntries := by
  unfold Obligations.LogReadTakesTheOldestEntries
  intro tag payload s k h
  refine ⟨fun n h1 h4 hp => congrArg Host.Outcome.next ?ok, fun hn => congrArg Host.Outcome.next ?refused, LogEntry.bytes16_length⟩
  case ok =>
    subst hp
    exact (State.deliver_decoded h _ tag (decodeLogRead_byteOf ⟨h1, h4⟩) _ State.carryLogRead).trans
      (State.took_answer { s with log := s.log.read n } _ _ _ _ _ _)
  case refused =>
    refine State.deliver_refused h _ tag (fun n e => ?_) _ _
    obtain ⟨hp, h1, h4⟩ := decodeLogRead_some e
    exact hn n h1 h4 hp

/-- Settles O33. -/
theorem logControlOperations : Obligations.LogControlOperations := by
  unfold Obligations.LogControlOperations
  intro tag rest s k h
  refine ⟨fun m hp => congrArg Host.Outcome.next ?mode, fun hn => congrArg Host.Outcome.next ?noMode,
    fun m hp => ⟨congrArg Host.Outcome.next ?resume, congrArg Host.Outcome.next ?clear⟩,
    fun hn => ⟨congrArg Host.Outcome.next ?noResume, congrArg Host.Outcome.next ?noClear⟩⟩
  case mode =>
    subst hp
    exact (State.deliver_decoded h _ tag (LogMode.ofByte_code m) _ State.carrySetMode).trans
      (State.took_answer { s with log := { s.log with mode := m } } _ _ _ _ _ _)
  case noMode => exact State.deliver_refused h _ tag (fun m e => hn m (decodeSetMode_some e)) _ _
  case resume =>
    subst hp
    exact (State.deliver_decoded h _ tag (decoded := decodeAnyMode [m]) rfl _ State.carryResume).trans
      (State.took_answer { s with log := { s.log with frozen := false } } _ _ _ _ _ _)
  case clear =>
    subst hp
    exact (State.deliver_decoded h _ tag (decoded := decodeAnyMode [m]) rfl _ State.carryClear).trans
      (State.took_answer { s with log := { s.log with entries := [], lost := false } } _ _ _ _ _ _)
  case noResume => exact State.deliver_refused h _ tag (fun m e => hn (by rw [decodeAnyMode_some e]; rfl)) _ _
  case noClear => exact State.deliver_refused h _ tag (fun m e => hn (by rw [decodeAnyMode_some e]; rfl)) _ _

/-! ### The clock requests (R176, R181, R182) -/

/-- Settles O35. -/
theorem clockConfigReplacesTheFrequency : Obligations.ClockConfigReplacesTheFrequency := by
  unfold Obligations.ClockConfigReplacesTheFrequency
  intro tag payload s k h
  refine ⟨fun m h8 h25 hp => ?decoded, fun hn => congrArg Host.Outcome.next ?refused⟩
  case decoded =>
    subst hp
    have carried := State.deliver_decoded h ReqType.clockConfig.code tag (decodeClockConfig_byteOf ⟨h8, h25⟩) (fun f => .clockConfig f)
      State.carryClockConfig
    have settled : (s.clock.source = .backup && s.clock.switch = .steady) = true ↔ s.clock.source = .backup ∧ s.clock.switch = .steady := by
      simp
    refine ⟨fun free => congrArg Host.Outcome.next (carried.trans ?_), fun busy => congrArg Host.Outcome.next (carried.trans ?_)⟩
    · exact (if_pos (settled.2 free)).trans (State.took_answer { s with clock := { s.clock with frequency := m } } _ _ _ _ _ _)
    · exact (if_neg fun e => busy (settled.1 e)).trans (State.took_answer s _ _ _ _ _ _)
  case refused =>
    refine State.deliver_refused h _ tag (fun m e => ?_) _ _
    obtain ⟨hp, h8, h25⟩ := decodeClockConfig_some e
    exact hn m h8 h25 hp

theorem State.carryClockSelect_quiescing {s : State} {u : Source} (h : s.clock.switch = .quiescing u) (k : SlotId) (t : Source) :
    s.carryClockSelect k t = s.answer k .busy [u.code] := by
  unfold State.carryClockSelect; rw [h]

theorem State.carryClockSelect_steady {s : State} (h : s.clock.switch = .steady) (k : SlotId) (t : Source) :
    s.carryClockSelect k t =
      if t = s.clock.source then s.answer k .ok (s.selectFields t)
      else if t = .reference ∧ s.clock.refStatus ≠ .present then s.answer k .notPresent [s.clock.refStatus.code]
      else s.beginSwitch k t := by
  unfold State.carryClockSelect; rw [h]; simp

/-- Settles O36. -/
theorem clockSelectBeginsTheChange : Obligations.ClockSelectBeginsTheChange := by
  unfold Obligations.ClockSelectBeginsTheChange
  intro tag payload s k h
  refine ⟨fun t hp => ?decoded, fun hn => congrArg Host.Outcome.next ?refused⟩
  case decoded =>
    subst hp
    have carried := State.deliver_decoded h ReqType.clockSelect.code tag (Source.ofByte_code t) (fun t => .clockSelect t)
      State.carryClockSelect
    refine ⟨fun u quiescing => congrArg Host.Outcome.next (carried.trans ?_), fun steady => ?_⟩
    · exact (State.carryClockSelect_quiescing (s := s.took k _ tag _) quiescing k t).trans (State.took_answer s _ _ _ _ _ _)
    have decided := State.carryClockSelect_steady (s := s.took k ReqType.clockSelect.code tag (some (.clockSelect t))) steady k t
    refine ⟨fun active => congrArg Host.Outcome.next (carried.trans (decided.trans ?_)),
      fun other reference absent => congrArg Host.Outcome.next (carried.trans (decided.trans ?_)),
      fun other present => congrArg Host.Outcome.next (carried.trans (decided.trans ?_))⟩
    · exact (if_pos active).trans (State.took_answer s _ _ _ _ _ _)
    · exact (if_neg other).trans ((if_pos ⟨reference, absent⟩).trans (State.took_answer s _ _ _ _ _ _))
    · exact (if_neg other).trans (if_neg fun ⟨reference, absent⟩ => absent (present reference))
  case refused => exact State.deliver_refused h _ tag (fun t e => hn t (decodeClockSelect_some e)) _ _

/-- Settles O37. -/
theorem clockStatusShowsTheClockUnit : Obligations.ClockStatusShowsTheClockUnit := by
  unfold Obligations.ClockStatusShowsTheClockUnit
  intro tag payload s k h
  refine ⟨fun hp => congrArg Host.Outcome.next ?ok, fun hn => congrArg Host.Outcome.next ?refused⟩
  case ok =>
    subst hp
    refine (State.deliver_decoded h _ tag (decoded := decodeEmpty []) rfl _ State.carryClockStatus).trans
      ((State.took_answer s _ _ _ _ _ _).trans (congrArg (s.replied k _ tag _ .ok) ?_))
    show s.clock.statusFields = _
    unfold ClockUnit.statusFields
    cases s.clock.switch <;> rfl
  case refused => exact State.deliver_refused h _ tag (fun _ e => hn (decodeEmpty_some e)) _ _

end Sys2Proof.Machine
end

section
/-! The watch units, the history log and the clock unit by themselves: WATCH_REARM, what a unit does with a record, the log's offer, the
time base, the reference monitor and the change of source (O26, O28, O30, O31, O34, O38 to O40). -/

namespace Sys2Proof.Machine

/-! ### WATCH_REARM (R153) -/

theorem WatchState.rearmed_eq (x : WatchState) : x.rearmed = if x = .fired then .armed else x := by cases x <;> rfl

theorem WatchState.rewaited_eq (x : WatchState) : x.rewaited = if x = .armed ∨ x = .fired then .waiting else x := by
  cases x <;> rfl

/-- The two units of a chain: the second alone has a predecessor, and each is the other's partner (R143, R153). -/
theorem chain_units {first second : UnitId} (h : (first = 0 ∧ second = 1) ∨ (first = 2 ∧ second = 3)) :
    chainPartner first = second ∧ chainPartner second = first ∧ first ≠ second ∧
      hasPredecessor first = false ∧ hasPredecessor second = true := by
  rcases h with ⟨rfl, rfl⟩ | ⟨rfl, rfl⟩ <;> decide

theorem exec_watchRearm_disabled {s : State} {k : SlotId} (h : s.LowestFree k) (tag : Byte) {u : UnitId}
    (hu : s.units[u].state = .disabled) :
    exec (.watchRearm tag [byteOf u]) s = .next (s.replied k 0x42 tag (some (.watchRearm u)) .badRequest []) := by
  refine congrArg Host.Outcome.next ?_
  exact (State.deliver_decoded h _ tag (decodeOne_byteOf (by decide) u) _ State.carryWatchRearm).trans
    ((if_pos hu).trans (State.took_answer s _ _ _ _ _ _))

/-- WATCH_REARM of a unit that is not DISABLED, by what its rearm makes of the unit and its partner. -/
theorem exec_watchRearm {s a : State} {k : SlotId} (h : s.LowestFree k) (tag : Byte) {u v : UnitId} {x y : WatchState}
    (hu : s.units[u].state ≠ .disabled) (hv : chainPartner u = v)
    (ha : (s.took k 0x42 tag (some (.watchRearm u))).rearm u = a.took k 0x42 tag (some (.watchRearm u)))
    (hx : a.units[u].state = x) (hy : a.units[v].state = y) :
    exec (.watchRearm tag [byteOf u]) s =
      .next (a.replied k 0x42 tag (some (.watchRearm u)) .ok [byteOf u, x.code, y.code]) := by
  subst hv hx hy
  refine congrArg Host.Outcome.next ?_
  refine (State.deliver_decoded h _ tag (decodeOne_byteOf (by decide) u) _ State.carryWatchRearm).trans ((if_neg hu).trans ?_)
  show ((s.took k 0x42 tag (some (.watchRearm u))).rearm u).answer k .ok
    [byteOf u, ((s.took k 0x42 tag (some (.watchRearm u))).rearm u).units[u].state.code,
      ((s.took k 0x42 tag (some (.watchRearm u))).rearm u).units[chainPartner u].state.code] = _
  rw [ha]
  exact State.took_answer a _ _ _ _ _ _

/-- Settles O26: a chain has one unit with a predecessor, and its `chained` field says whether a rearm reaches the partner. -/
theorem watchRearmFollowsTheChain : Obligations.WatchRearmFollowsTheChain := by
  unfold Obligations.WatchRearmFollowsTheChain
  intro tag payload s k h
  refine ⟨fun hn => congrArg Host.Outcome.next ?refused, fun u hp hu => ?disabled, fun first second pair x y hx hy => ?chain⟩
  case refused => exact State.deliver_refused h _ tag (fun u e => hn u (decodeOne_some e)) _ _
  case disabled => subst hp; exact exec_watchRearm_disabled h tag hu
  case chain =>
    obtain ⟨partner, partner', apart, noPredecessor, predecessor⟩ := chain_units pair
    have head : ∀ a : State, a.chainedSuccessor first ≠ true := by
      intro a; unfold State.chainedSuccessor; rw [noPredecessor]; nofun
    have tail : ∀ a : State, a.units = s.units → (a.chainedSuccessor second = true ↔ s.units[second].setup.chained = true) := by
      intro a ha; unfold State.chainedSuccessor; rw [predecessor, ha]; simp
    rw [← WatchState.rearmed_eq] at hx
    simp only [← WatchState.rearmed_eq, ← WatchState.rewaited_eq] at hy
    refine ⟨fun chained => ?_, fun unchained => ?_⟩
    · rw [if_pos chained] at hy
      have reached := fun a ha => (tail a ha).2 chained
      refine ⟨fun hp live => ?_, fun hp live => ?_⟩
      · subst hp
        refine exec_watchRearm (v := second) h tag live partner
          ((State.rearm_eq _ first second partner).trans ((if_neg (head _)).trans ((if_pos (reached _ rfl)).trans ?_))) ?_ ?_
        · rw [hx, hy]; rfl
        · rw [State.withUnit_other _ apart, State.withUnit_get]
        · rw [State.withUnit_get]
      · subst hp
        refine exec_watchRearm (v := first) h tag live partner'
          ((State.rearm_eq _ second first partner').trans ((if_pos (reached _ rfl)).trans ?_)) ?_ ?_
        · rw [hx, hy]; rfl
        · rw [State.withUnit_other _ (Ne.symm apart), State.withUnit_get]
        · rw [State.withUnit_get]
    · rw [if_neg (by rw [unchained]; nofun)] at hy
      have unreached : ∀ a : State, a.units = s.units → a.chainedSuccessor second ≠ true :=
        fun a ha e => by rw [(tail a ha).1 e] at unchained; cases unchained
      refine ⟨fun hp live => ?_, fun hp live => ?_⟩
      · subst hp
        refine exec_watchRearm (v := second) h tag live partner
          ((State.rearm_eq _ first second partner).trans ((if_neg (head _)).trans ((if_neg (unreached _ rfl)).trans ?_))) ?_ ?_
        · rw [hx]; rfl
        · rw [State.withUnit_get]
        · rw [State.withUnit_other _ (Ne.symm apart)]
      · subst hp
        refine exec_watchRearm (v := first) h tag live partner'
          ((State.rearm_eq _ second first partner').trans ((if_neg (unreached _ rfl)).trans ((if_neg (head _)).trans ?_))) ?_ ?_
        · rw [hy]; rfl
        · rw [State.withUnit_get]
        · rw [State.withUnit_other _ apart]

/-! ### The time base and the EVT timers (R148, R173) -/

theorem State.evtHigh_iff (s : State) : s.evtHigh = true ↔ ∃ u : UnitId, s.units[u].evtTimer.isSome = true := by
  unfold State.evtHigh
  simp only [Bool.or_eq_true, or_assoc]
  constructor
  · rintro (e | e | e | e)
    · exact ⟨0, e⟩
    · exact ⟨1, e⟩
    · exact ⟨2, e⟩
    · exact ⟨3, e⟩
  · rintro ⟨u, e⟩
    match u, e with
    | 0, e => exact .inl e
    | 1, e => exact .inr (.inl e)
    | 2, e => exact .inr (.inr (.inl e))
    | 3, e => exact .inr (.inr (.inr e))

/-- Settles O28. -/
theorem timeBaseTickAndEvtTimers : Obligations.TimeBaseTickAndEvtTimers := by
  unfold Obligations.TimeBaseTickAndEvtTimers
  refine ⟨fun _ => rfl, fun u s => ⟨fun down => congrArg Host.Outcome.next ?down, fun running => congrArg Host.Outcome.next ?running⟩,
    State.evtHigh_iff⟩
  case down => exact if_pos down
  case running => exact if_neg running

/-! ### A unit takes a record (R139 to R147) -/

/-- Settles O31. -/
theorem unitsTakeARecordInOrder : Obligations.UnitsTakeARecordInOrder := by
  unfold Obligations.UnitsTakeARecordInOrder
  intro s r
  rfl

/-- What a fire's action does before the unit goes to FIRED (R144 to R147). -/
def State.firedAction (s : State) (u : UnitId) (r : RecordCopy) : State :=
  match s.units[u].setup.action with
  | .stage => s
  | .pulse => s
  | .notify => s.raiseHit u r
  | .freezeLog => (s.raiseHit u r).freezeLog
  | .holdSegment => (s.raiseHit u r).setHold r.segment

theorem State.watchAction_eq (s : State) (u : UnitId) (r : RecordCopy) :
    s.watchAction u r =
      if s.units[u].setup.action = .pulse then s.firedAction u r else (s.firedAction u r).setWatchState u .fired := by
  unfold State.watchAction State.firedAction
  cases s.units[u].setup.action <;> rfl

/-- The successor of a fire: a chained one that is WAITING goes to ARMED (R142, R143). -/
theorem State.armSuccessor_some (s : State) {u v : UnitId} (h : successor u = some v) :
    s.armSuccessor u =
      if s.units[v].setup.chained = true ∧ s.units[v].state = .waiting then s.withUnit v { s.units[v] with state := .armed } else s := by
  unfold State.armSuccessor
  simp only [h]
  rw [State.modUnit_eq]
  by_cases hc : s.units[v].setup.chained = true ∧ s.units[v].state = .waiting
  · rw [if_pos hc, if_pos (by simpa using hc)]
  · rw [if_neg hc, if_neg (by simpa using hc), State.withUnit_self]

theorem State.armSuccessor_none (s : State) {u : UnitId} (h : successor u = none) : s.armSuccessor u = s := by
  unfold State.armSuccessor; rw [h]

theorem State.watchUnit_skips (s : State) (u : UnitId) (r : RecordCopy) (armed : Bool)
    (h : armed = false ∨ s.units[u].setup.isMatch r = false) : State.watchUnit r u armed s = s := by
  unfold State.watchUnit
  refine if_neg ?_
  rw [Bool.and_eq_true]
  rintro ⟨ha, hm⟩
  rcases h with e | e
  · rw [e] at ha; cases ha
  · rw [e] at hm; cases hm

theorem State.watchUnit_counts (s : State) (u : UnitId) (r : RecordCopy) (hm : s.units[u].setup.isMatch r = true)
    (hc : 0 < s.units[u].countRemaining) :
    State.watchUnit r u true s = s.withUnit u { s.units[u] with countRemaining := s.units[u].countRemaining - 1 } := by
  unfold State.watchUnit
  rw [hm]
  exact if_pos hc

theorem State.watchUnit_fires (s : State) (u : UnitId) (r : RecordCopy) (hm : s.units[u].setup.isMatch r = true)
    (hc : s.units[u].countRemaining = 0) : State.watchUnit r u true s = s.fire u r := by
  unfold State.watchUnit
  rw [hm]
  exact if_neg (Nat.not_lt.2 (Nat.le_of_eq hc))

/-- Settles O30: a fire by its four steps. -/
theorem matchingRecordCountsOrFires : Obligations.MatchingRecordCountsOrFires := by
  unfold Obligations.MatchingRecordCountsOrFires
  intro s u r armed
  refine ⟨s.watchUnit_skips u r armed, fun ha hm => ?_⟩
  subst ha
  refine ⟨s.watchUnit_counts u r hm, fun hc => ?fires⟩
  let w : WatchUnit := { s.units[u] with evtTimer := some 8 }
  let a : State := (s.withUnit u w).offer (.watchFire r.time u w.setup.action r.tag r.segment r.busAddr)
  let b : State := a.armSuccessor u
  have fired : State.watchUnit r u true s = b.watchAction u r := by
    rw [s.watchUnit_fires u r hm hc]
    unfold State.fire
    simp only [State.fireMarker, State.modUnit_eq, State.withUnit_get]
    rfl
  have unit : a.units[u] = w := State.withUnit_get s u w
  have action : b.units[u].setup.action = w.setup.action := by rw [State.armSuccessor_self, unit]
  have acts := b.watchAction_eq u r
  rw [action] at acts
  refine ⟨w, a, b, b.firedAction u r, rfl, rfl, ⟨fun noSuccessor => ?_, fun v pair => ?_⟩, fun e => ?_, fun e => ?_, fun e => ?_,
    fun e => ?_, fun e => ?_, fun e => ?_⟩
  · rcases noSuccessor with rfl | rfl <;> rfl
  · have next : successor u = some v := by rcases pair with ⟨rfl, rfl⟩ | ⟨rfl, rfl⟩ <;> rfl
    have same : a.units[v] = s.units[v] := State.withUnit_other s (Ne.symm (successor_ne next)) w
    have armed := a.armSuccessor_some next
    rw [same] at armed
    exact ⟨fun waits => armed.trans (if_pos waits), fun waits => armed.trans (if_neg waits)⟩
  · unfold State.firedAction
    rw [action]
    rcases e with e | e <;> rw [e]
  · unfold State.firedAction State.raiseHit
    rw [action, e]
  · unfold State.firedAction State.raiseHit State.freezeLog
    rw [action, e, State.raise_log]
  · unfold State.firedAction State.raiseHit
    rw [action, e]
    rfl
  · rw [fired, acts, if_pos e]
  · rw [fired, acts, if_neg e]
    rfl

/-! ### The offer of a log record (R160, R161) -/

/-- The mode EXCEPTIONS admits every record but a leg's that ended ACKED (R160). -/
theorem LogMode.admits_iff (m : LogMode) (e : LogEntry) :
    m.admits e = true ↔ (m = .all ∨ (m = .exceptions ∧
      ¬ ∃ t tag role seg addr dir rp idx len n first, e = .leg t tag role seg addr dir rp idx len n .acked first)) := by
  cases m with
  | off => simp [LogMode.admits]
  | all => simp [LogMode.admits]
  | exceptions =>
    cases e with
    | leg t tag role seg addr dir rp idx len n o first => simp [LogMode.admits, LegOutcome.isException]
    | clockSwitch | segmentFault | segmentReset | watchFire => simp [LogMode.admits]

theorem HistoryLog.offer_dropped (l : HistoryLog) (e : LogEntry) (h : l.frozen = true ∨ l.mode.admits e = false) : l.offer e = l := by
  unfold HistoryLog.offer
  refine if_neg ?_
  rcases h with h | h <;> rw [h] <;> simp

theorem HistoryLog.offer_written (l : HistoryLog) (e : LogEntry) (hf : l.frozen = false) (hm : l.mode.admits e = true) :
    l.offer e = if 32 ≤ l.entries.length then { l with entries := l.entries.drop 1 ++ [e], lost := true }
      else { l with entries := l.entries ++ [e] } := by
  obtain ⟨-, -, written⟩ | ⟨frozen | refused, -⟩ := l.offer_cases e
  · exact written
  · rw [hf] at frozen; cases frozen
  · rw [hm] at refused; cases refused

/-- Settles O34. -/
theorem offeredRecordIsWrittenOrDropped : Obligations.OfferedRecordIsWrittenOrDropped := by
  unfold Obligations.OfferedRecordIsWrittenOrDropped
  intro s e admitted h
  have same : admitted = s.log.mode.admits e := by
    rw [← LogMode.admits_iff] at h
    exact Bool.eq_iff_iff.2 h
  subst same
  refine ⟨fun dropped => ?dropped, fun thawed admits => ⟨fun room => ?room, fun full => ?full⟩⟩
  case dropped =>
    unfold State.offer
    rw [s.log.offer_dropped e dropped]
  case room =>
    unfold State.offer
    rw [s.log.offer_written e thawed admits, if_neg (Nat.not_le.2 room)]
  case full =>
    unfold State.offer
    rw [s.log.offer_written e thawed admits, if_pos full]

/-! ### The reference monitor (R171, R172, R175, R179) -/

theorem ClockUnit.edge_of_absent {c : ClockUnit} (h : c.refStatus = .absent) :
    c.edge = { c with refStatus := .starting, goodTimer := some 2000, gapTimer := some 15 } := by
  unfold ClockUnit.edge; rw [h]; rfl

theorem ClockUnit.edge_of_not_absent {c : ClockUnit} (h : c.refStatus ≠ .absent) : c.edge = { c with gapTimer := some 15 } := by
  unfold ClockUnit.edge
  split
  · next absent => exact absurd absent h
  · rfl
  · rfl

/-- Settles O38. -/
theorem referenceEdgesMakeItPresent : Obligations.ReferenceEdgesMakeItPresent := by
  unfold Obligations.ReferenceEdgesMakeItPresent
  intro s
  have edge : exec .referenceEdge s = .next { s with clock := s.clock.edge } := rfl
  refine ⟨fun h => ?_, fun h => ?_, fun h => congrArg Host.Outcome.next (if_pos h), fun h => congrArg Host.Outcome.next (if_neg h)⟩
  · rw [edge, ClockUnit.edge_of_absent h]
  · rw [edge, ClockUnit.edge_of_not_absent h]

/-- The end of a change of source in the words of the statements (R178 steps 3 and 4). -/
theorem State.endSwitch_eq (s : State) (t : Source) (res : ResultCode) : s.endSwitch t res = s.switchEnded t res := by
  have unpause : Segment.unpause = fun g => { g with pauseRequested := false, pauseSetting := false, reports := [] } := rfl
  unfold State.endSwitch State.switchEnded
  cases s.clock.selectOwner <;>
    simp only [State.decideAll, State.unpauseAll, ClockUnit.steady, noSegments, State.selectFields, unpause]

theorem exec_referenceLost_present {s : State} (w : Wires) (h : s.clock.refStatus = .present) :
    exec (.referenceLost w) s =
      .next (({ s with wires := w, clock := s.clock.lost } : State).lossFallback.raiseClockEvent .referenceLost) := by
  show Host.Outcome.next _ = _
  rw [h]
  rfl

/-- The CLOCK_EVENT of a loss, by the clock unit as the fallback leaves it. -/
theorem State.raiseClockEvent_eq {s : State} {x : Source} {y : RefStatus} (hx : s.clock.source = x) (hy : s.clock.refStatus = y)
    (e : ClockEventKind) : s.raiseClockEvent e = s.raise (.clockEvent e x y 1) := by
  subst hx hy; rfl

/-- Settles O39. -/
theorem referenceLossFallsBack : Obligations.ReferenceLossFallsBack := by
  unfold Obligations.ReferenceLossFallsBack
  intro s a wires
  refine ⟨fun h => ?absent, fun h => ?starting, fun h ha => ?present⟩
  case absent => show Host.Outcome.next _ = _; rw [h]
  case starting => show Host.Outcome.next _ = _; rw [h]; rfl
  case present =>
    have lost := exec_referenceLost_present wires h
    rw [show ({ s with wires := wires, clock := s.clock.lost } : State) = a from ha.symm] at lost
    have source : a.clock.source = s.clock.source := by rw [ha]
    have switch : a.clock.switch = s.clock.switch := by rw [ha]
    have status : a.clock.refStatus = .absent := by rw [ha]
    have time : a.clock.timeBase = s.clock.timeBase := by rw [ha]
    unfold State.lossFallback at lost
    rw [source, switch] at lost
    refine ⟨fun hsrc hsw => ?_, fun hsrc hsw => ?_, fun hsrc hsw => ?_, fun hsrc hsw => ?_⟩ <;> rw [hsrc, hsw] at lost <;>
      refine lost.trans (congrArg Host.Outcome.next ?_)
    · exact State.raiseClockEvent_eq (source.trans hsrc) status _
    · refine (State.raiseClockEvent_eq (s := a.setSource .backup .loss) rfl status _).trans ?_
      rw [← time]; rfl
    · have clock := State.endSwitch_clock (a.setSource .backup .loss) .backup .ok
      refine (State.raiseClockEvent_eq (x := .backup) (y := .absent) (by rw [clock]; rfl) (by rw [clock]; exact status) _).trans ?_
      rw [State.endSwitch_eq, ← time]; rfl
    · have clock := State.endSwitch_clock a .reference .clockLost
      refine (State.raiseClockEvent_eq (s := a.endSwitch .reference .clockLost) (x := .backup) (y := .absent)
        (by rw [clock]; exact source.trans hsrc) (by rw [clock]; exact status) _).trans ?_
      rw [State.endSwitch_eq]

/-! ### The change of source (R177, R178) -/

theorem SegState.quiescent_iff (x : SegState) : x.quiescent = true ↔ x = .off ∨ x = .idle ∨ x = .faulted := by
  cases x <;> simp [SegState.quiescent]

theorem Segment.takePause_eq (g : Segment) :
    g.takePause =
      { g with
        pauseRequested := true, pauseSetting := false,
        reports := g.reports ++ if g.state = .off ∨ g.state = .idle ∨ g.state = .faulted then [.quiescent] else [] } := by
  unfold Segment.takePause
  simp only [SegState.quiescent_iff]
  split <;> simp

theorem State.dropReport_eq {s : State} {n : SegId} {x : Report} {rest : List Report} (h : s.segs[n].reports = x :: rest) :
    s.dropReport n = s.withSeg n { s.segs[n] with reports := rest } := by
  unfold State.dropReport
  rw [State.modSeg_eq, h]
  rfl

theorem State.takeWithdrawal_of_steady {s : State} (h : s.clock.switch = .steady) (n : SegId) : s.takeWithdrawal n = s := by
  unfold State.takeWithdrawal; rw [h]

theorem State.takeWithdrawal_of_quiescing {s : State} {t : Source} (h : s.clock.switch = .quiescing t) (n : SegId) :
    s.takeWithdrawal n = s.setAwaited n true := by
  unfold State.takeWithdrawal; rw [h]

theorem State.takeReport_of_steady {s : State} (h : s.clock.switch = .steady) (n : SegId) : s.takeReport n = s := by
  unfold State.takeReport; rw [h]

theorem State.takeReport_of_quiescing {s : State} {t : Source} (h : s.clock.switch = .quiescing t) (n : SegId) :
    s.takeReport n =
      if s.clock.awaited.set n false = noSegments then ((s.setAwaited n false).setSource t .select).switchEnded t .ok
      else s.setAwaited n false := by
  rw [← State.endSwitch_eq]
  unfold State.takeReport
  simp only [h]
  rfl

/-- Settles O40. -/
theorem reportsCompleteTheChangeOfSource : Obligations.ReportsCompleteTheChangeOfSource := by
  unfold Obligations.ReportsCompleteTheChangeOfSource
  intro s n wires
  refine ⟨fun h => congrArg Host.Outcome.next ?taken, fun h => congrArg Host.Outcome.next ?settled,
    fun h => congrArg Host.Outcome.next (if_neg h), fun h => congrArg Host.Outcome.next (if_neg h), fun rest a ha => ⟨fun h => ?withdrawal, fun h => ?report⟩⟩
  case taken =>
    refine (if_pos h).trans ?_
    rw [State.modSeg_eq, Segment.takePause_eq]
  case settled => exact if_neg (by rw [h]; nofun)
  case withdrawal =>
    have dropped : s.dropReport n = a := (State.dropReport_eq h).trans ha.symm
    have taken : exec (.withdrawal n) s = .next (a.takeWithdrawal n) := by
      rw [← dropped]; exact congrArg Host.Outcome.next (if_pos (by rw [h]; rfl))
    have clock : a.clock = s.clock := by rw [ha]; rfl
    refine ⟨fun steady => ?_, fun t quiescing => ?_⟩
    · rw [taken, State.takeWithdrawal_of_steady (clock ▸ steady)]
    · rw [taken, State.takeWithdrawal_of_quiescing (clock ▸ quiescing)]
      unfold State.setAwaited
      rw [clock]
  case report =>
    have dropped : (s.withWires wires).dropReport n = a.withWires wires := by
      rw [ha]; exact State.dropReport_eq (s := s.withWires wires) h
    have taken : exec (.quiescenceReport n wires) s = .next ((a.withWires wires).takeReport n) := by
      rw [← dropped]; exact congrArg Host.Outcome.next (if_pos (by rw [h]; rfl))
    have clock : (a.withWires wires).clock = s.clock := by rw [ha]; rfl
    refine ⟨fun steady => ?_, fun t quiescing => ?_⟩
    · exact taken.trans (congrArg Host.Outcome.next (State.takeReport_of_steady (clock ▸ steady) n))
    have decided := State.takeReport_of_quiescing (s := a.withWires wires) (clock ▸ quiescing) n
    unfold State.setAwaited State.setSource at decided
    rw [clock] at decided
    refine ⟨fun more => ?_, fun last => ?_⟩
    · exact taken.trans (congrArg Host.Outcome.next (decided.trans (if_neg more)))
    · exact taken.trans (congrArg Host.Outcome.next (decided.trans (if_pos last)))

end Sys2Proof.Machine
end

section
/-! The link port: messages begun and sent, inbound bytes, raised notices (O48 to O50, O52), and RESET, the soft reset (O9). -/

namespace Sys2Proof.Machine

/-! ### Messages begun (R190) -/

theorem State.messageBody_of_carries {s : State} {m : OutMessage} {status : Byte} {body : List Byte} (h : s.Carries m status body) :
    s.messageBody m.content status = body := by
  rcases h with ⟨k, r, hm, hr, rfl⟩ | ⟨n, type, hm, typed, rfl⟩
  · unfold State.messageBody
    rw [hm]
    simp only [hr]
    rfl
  · have byte : n.typeByte = type := by
      rcases typed with ⟨_, rfl, rfl⟩ | ⟨_, _, _, _, rfl, rfl⟩ | ⟨_, _, _, _, rfl, rfl⟩ | ⟨_, _, _, _, rfl, rfl⟩ <;> rfl
    subst byte
    unfold State.messageBody
    rw [hm]
    rfl

theorem State.linkStatus_cons {s : State} {m : OutMessage} {rest : List OutMessage} (h : s.link.queue = m :: rest) :
    s.linkStatus = boolByte s.link.flags.overrun ||| (boolByte s.link.flags.frameErr <<< 1) |||
      (boolByte s.link.flags.truncated <<< 2) ||| (boolByte (decide (rest ≠ [])) <<< 3) := by
  have more : decide (1 < s.link.queue.length) = decide (rest ≠ []) := by
    rw [h]
    cases rest <;> simp
  unfold State.linkStatus
  rw [more]
  rfl

/-- The head message begins with the body that it carries. -/
theorem State.beginMessage_begins {s : State} {m : OutMessage} {rest : List OutMessage} {body : List Byte}
    (hq : s.link.queue = m :: rest) (h : s.Carries m s.linkStatus body) : s.beginMessage = s.begins m rest body := by
  unfold State.beginMessage
  rw [hq]
  simp only [State.messageBody_of_carries h]
  rfl

theorem State.beginMessage_of_empty {s : State} (h : s.link.queue = []) : s.beginMessage = s := by
  unfold State.beginMessage; rw [h]

theorem State.chooseByte_begins {s : State} (hs : s.link.selected = true) (hf : s.link.outFrame = none)
    (hr : s.link.resetInSelect = false) : s.chooseByte = s.beginMessage := by
  unfold State.chooseByte; rw [hs, hf, hr]; rfl

theorem State.chooseByte_waits {s : State}
    (h : s.link.selected = false ∨ s.link.outFrame.isSome = true ∨ s.link.resetInSelect = true ∨ s.link.queue = []) :
    s.chooseByte = s := by
  by_cases hc : (s.link.selected && s.link.outFrame.isNone && !s.link.resetInSelect) = true
  · unfold State.chooseByte
    rw [if_pos hc]
    simp only [Bool.and_eq_true, Bool.not_eq_true', Option.isNone_iff_eq_none] at hc
    obtain ⟨⟨selected, noFrame⟩, noReset⟩ := hc
    rcases h with e | e | e | e
    · rw [selected] at e; cases e
    · rw [noFrame] at e; cases e
    · rw [noReset] at e; cases e
    · exact State.beginMessage_of_empty e
  · exact if_neg hc

theorem exec_selectBegin {s : State} (hs : s.link.selected = false) (hr : s.link.rstLow = false) :
    exec .selectBegin s =
      .next (({ s with link := { s.link with selected := true, resetInSelect := false, outFrame := none } } : State).beginMessage) := by
  refine congrArg Host.Outcome.next ((if_neg (by rw [hs, hr]; nofun)).trans ?_)
  exact State.chooseByte_begins rfl rfl rfl

/-- Settles O48. -/
theorem selectAndMessageBeginSendTheHead : Obligations.SelectAndMessageBeginSendTheHead := by
  unfold Obligations.SelectAndMessageBeginSendTheHead
  intro s a ha
  refine ⟨fun h => congrArg Host.Outcome.next (if_pos ?none), fun hs hr hq => ?empty, fun h => congrArg Host.Outcome.next (State.chooseByte_waits h),
    fun m rest status body hq hst carries => ?head⟩
  case none => simpa using h
  case empty =>
    rw [exec_selectBegin hs hr, ← ha]
    exact congrArg Host.Outcome.next (State.beginMessage_of_empty (by rw [ha]; exact hq))
  case head =>
    rw [hst, ← State.linkStatus_cons hq] at carries
    refine ⟨fun hs hr => ?_, fun hs hf hr => ?_⟩
    · rw [exec_selectBegin hs hr, ← ha]
      have same : a.Carries m a.linkStatus body := by rw [ha]; exact carries
      exact congrArg Host.Outcome.next (State.beginMessage_begins (by rw [ha]; exact hq) same)
    · exact congrArg Host.Outcome.next ((State.chooseByte_begins hs hf hr).trans (State.beginMessage_begins hq carries))

/-! ### Messages sent and frames cut (R187, R191, R192) -/

theorem State.sendWhole_of_none {s : State} (h : s.link.outFrame = none) : s.sendWhole = s := by
  unfold State.sendWhole; rw [h]

theorem State.sendWhole_of_empty {s : State} {f : OutFrame} (h : s.link.outFrame = some f) (hq : s.link.queue = []) :
    s.sendWhole = { s with link := { s.link with outFrame := none } } := by
  unfold State.sendWhole
  rw [h, hq]

/-- The removal of a message in the words of the statements (R12, R191). -/
theorem State.afterRemoval_sent (s : State) (m : OutMessage) (rest : List OutMessage) :
    State.afterRemoval { s with link := { s.link with outFrame := none, queue := rest } } m.content = s.sent m rest := by
  unfold State.afterRemoval State.sent
  cases m.content with
  | reply k => rfl
  | notice n =>
    have held : ({ s with link := { s.link with outFrame := none, queue := rest } } : State).held n.source = s.held n.source := by
      cases n.source <;> rfl
    unfold State.releaseHeld
    simp only [held]
    cases s.held n.source with
    | none => rfl
    | some h => cases n.source <;> rfl

theorem State.sendWhole_of_cons {s : State} {f : OutFrame} {m : OutMessage} {rest : List OutMessage} (h : s.link.outFrame = some f)
    (hq : s.link.queue = m :: rest) : s.sendWhole = s.sent m rest := by
  rw [← State.afterRemoval_sent]
  unfold State.sendWhole
  rw [h, hq]

/-- A partial inbound frame is discarded with TRUNCATED, and the assembler stands in HUNT (R187). -/
theorem State.truncate_eq (s : State) :
    s.truncate = { s with link := { s.link with
      assembler := .hunt,
      flags := { s.link.flags with truncated := s.link.flags.truncated || decide (s.link.assembler ≠ .hunt) } } } := by
  unfold State.truncate Assembler.hunting
  by_cases h : s.link.assembler = .hunt
  · simp only [h, decide_true, if_true, ne_eq, not_true_eq_false, decide_false, Bool.or_false]
    rw [← h]
  · simp only [h, decide_false, ne_eq, not_false_eq_true, decide_true, Bool.or_true]
    rfl

theorem exec_selectRelease {s : State} (h : s.link.selected = true) :
    exec .selectRelease s =
      .next { s.truncate.releaseFrame with link := { s.truncate.releaseFrame.link with selected := false, resetInSelect := false } } :=
  congrArg Host.Outcome.next (if_pos h)

theorem State.releaseFrame_of_none {s : State} (h : s.link.outFrame = none) : s.releaseFrame = s := by
  unfold State.releaseFrame; rw [h]

theorem State.releaseFrame_of_part {s : State} {f : OutFrame} (h : s.link.outFrame = some f) (hf : f.sent ≠ f.bytes.length) :
    s.releaseFrame = { s with link := { s.link with outFrame := none } } := by
  unfold State.releaseFrame
  rw [h]
  exact if_neg (by simpa [OutFrame.whole] using hf)

theorem State.releaseFrame_of_whole {s : State} {f : OutFrame} (h : s.link.outFrame = some f) (hf : f.sent = f.bytes.length) :
    s.releaseFrame = s.sendWhole := by
  unfold State.releaseFrame
  rw [h]
  exact if_pos (by simpa [OutFrame.whole] using hf)

/-- Settles O49. -/
theorem messageLeavesWhenItsFrameIsSent : Obligations.MessageLeavesWhenItsFrameIsSent := by
  unfold Obligations.MessageLeavesWhenItsFrameIsSent
  intro s a f m rest
  refine ⟨fun h => congrArg Host.Outcome.next (State.sendWhole_of_none h), fun h hq => congrArg Host.Outcome.next (State.sendWhole_of_empty h hq),
    fun h hq => congrArg Host.Outcome.next (State.sendWhole_of_cons h hq), fun h => congrArg Host.Outcome.next (if_neg (by rw [h]; nofun)),
    fun hs ha => ?released⟩
  have released := exec_selectRelease hs
  rw [State.truncate_eq, ← ha] at released
  have frame : a.link.outFrame = s.link.outFrame := by rw [ha]
  have queue : a.link.queue = s.link.queue := by rw [ha]
  rw [← frame, ← queue]
  refine ⟨fun h => ?_, fun h part => ?_, fun h whole hq => ?_, fun h whole hq => ?_⟩
  · rw [released, State.releaseFrame_of_none h]
  · rw [released, State.releaseFrame_of_part h part]
  · rw [released, State.releaseFrame_of_whole h whole, State.sendWhole_of_cons h hq]
  · rw [released, State.releaseFrame_of_whole h whole, State.sendWhole_of_empty h hq]

/-! ### Inbound bytes (R184 to R186) -/

theorem exec_byteBoundary {s : State} (b : Byte) (w : Wires) (hs : s.link.selected = true) (hr : s.link.rstLow = false) :
    exec (.byteBoundary b w) s = .next ((s.withWires w).outboundByte.inboundByte b) :=
  congrArg Host.Outcome.next (if_pos (by rw [hs, hr]; rfl))

theorem State.inboundByte_nothing {s : State} {b : Byte} {m : Assembler} (h : s.link.assembler.take b = (m, .nothing)) :
    s.inboundByte b = { s with link := { s.link with assembler := m } } := by
  unfold State.inboundByte
  rw [h]
  rfl

theorem State.inboundByte_frameErr {s : State} {b : Byte} (h : s.link.assembler.take b = (.hunt, .frameErr)) :
    s.inboundByte b = { s with link := { s.link with assembler := .hunt, flags := { s.link.flags with frameErr := true } } } := by
  unfold State.inboundByte
  rw [h]
  rfl

/-- Settles O50: the assembler's moves, state by state. -/
theorem inboundBytesBuildFrames : Obligations.InboundBytesBuildFrames := by
  unfold Obligations.InboundBytesBuildFrames
  intro b wires s a bad take ha hbad htake
  refine ⟨fun h => congrArg Host.Outcome.next (if_neg (by rw [h]; nofun)), fun h => congrArg Host.Outcome.next (if_pos h),
    fun h => congrArg Host.Outcome.next (if_neg ?outside), fun hs hr => ?inside⟩
  case outside => rcases h with h | h <;> rw [h] <;> simp
  case inside =>
    have received : exec (.byteBoundary b wires) s = .next (a.inboundByte b) := by rw [exec_byteBoundary b wires hs hr, ha]; rfl
    have assembler : a.link.assembler = s.link.assembler := by rw [ha]
    have stored : ∀ m, a.link.assembler.take b = (m, .nothing) → exec (.byteBoundary b wires) s = .next (take m) := by
      intro m h
      rw [received, State.inboundByte_nothing h, htake]
    have wrong : a.link.assembler.take b = (.hunt, .frameErr) → exec (.byteBoundary b wires) s = .next bad := by
      intro h
      rw [received, State.inboundByte_frameErr h, hbad]
    rw [← assembler]
    refine ⟨fun h marker => stored _ ?_, fun h other => stored _ ?_, fun h low high => stored _ ?_, fun h out => wrong ?_,
      fun len bytes h => ⟨fun more => stored _ ?_, fun full => stored _ ?_⟩, fun len bytes h => stored _ ?_, fun len bytes hi h bad => wrong ?_⟩ <;>
      rw [h] <;> unfold Assembler.take
    · exact congrArg (·, InboundEvent.nothing) (if_pos marker)
    · exact congrArg (·, InboundEvent.nothing) (if_neg other)
    · simp only [low, high, and_self, if_true]
    · exact if_neg (by omega)
    · simp only [List.length_append, List.length_singleton, more, if_false]
    · simp only [List.length_append, List.length_singleton, full, if_true]
    · rfl
    · exact congrArg (Prod.mk Assembler.hunt) (if_neg bad)

/-! ### Raised notices (R193, R194) -/

theorem OutMessage.refresh_other {n : Notice} {m : OutMessage} (h : OutMessage.isFrom n.source m = false) : m.refresh n = m := by
  unfold OutMessage.isFrom at h
  unfold OutMessage.refresh
  cases hm : m.content with
  | reply k => rfl
  | notice old =>
    rw [hm] at h
    exact if_neg (by simpa using h)

theorem OutMessage.refresh_notice {n old : Notice} {m : OutMessage} (hm : m.content = .notice old) (h : old.source = n.source) :
    m.refresh n = { content := .notice (n.withCount (min 255 (old.count + 1))), begun := m.begun } := by
  unfold OutMessage.refresh
  rw [hm]
  exact if_pos h

theorem State.attnLow_iff (s : State) : s.attnLow = true ↔ s.link.queue ≠ [] ∧ s.link.rstLow = false := by
  unfold State.attnLow
  simp [and_comm]

/-- A notice whose source has one queued that has begun is held over (R194). -/
theorem State.raise_of_begun {s : State} {n : Notice} {m : OutMessage} (h : s.link.queue.find? (OutMessage.isFrom n.source) = some m)
    (hb : m.begun = true) : s.raise n = s.holdOver n := by
  unfold State.raise
  rw [h]
  exact if_pos hb

/-- Settles O52. -/
theorem raisedNoticeIsAppendedFoldedOrHeld : Obligations.RaisedNoticeIsAppendedFoldedOrHeld := by
  unfold Obligations.RaisedNoticeIsAppendedFoldedOrHeld
  intro s n
  refine ⟨fun none_queued none_held => ?appended, fun front back m old hq hm hsrc others => ?queued, s.attnLow_iff⟩
  case appended =>
    have absent : s.link.queue.find? (OutMessage.isFrom n.source) = none := by
      rw [List.find?_eq_none]
      exact List.countP_eq_zero.1 none_queued
    unfold State.raise
    rw [absent, none_held]
    rfl
  case queued =>
    have mine : OutMessage.isFrom n.source m = true := by
      unfold OutMessage.isFrom
      rw [hm]
      exact decide_eq_true hsrc
    have found : s.link.queue.find? (OutMessage.isFrom n.source) = some m := by
      rw [hq, List.find?_append, List.find?_eq_none.2 fun x hx => ?_, List.find?_cons_of_pos mine]
      · rfl
      · rw [others x (List.mem_append_left back hx)]; nofun
    refine ⟨fun waiting => ?folded, fun begun => ⟨fun none_held => ?first, fun h some_held => ?again⟩⟩
    case folded =>
      have unchanged : ∀ l : List OutMessage, (∀ x ∈ l, x ∈ front ++ back) → l.map (OutMessage.refresh n) = l := fun l hl =>
        (List.map_congr_left (g := id) fun x hx => OutMessage.refresh_other (others x (hl x hx))).trans (List.map_id l)
      unfold State.raise
      rw [found]
      simp only [waiting, Bool.false_eq_true, if_false]
      rw [hq, List.map_append, List.map_cons, unchanged front fun x hx => List.mem_append_left back hx,
        unchanged back fun x hx => List.mem_append_right front hx, OutMessage.refresh_notice hm hsrc, waiting]
    case first =>
      rw [State.raise_of_begun found begun]
      unfold State.holdOver
      rw [none_held]
    case again =>
      rw [State.raise_of_begun found begun]
      unfold State.holdOver
      rw [some_held]
      rfl

/-! ### RESET (R16, R90, R115, R134) -/

/-- A segment after a soft reset, but for the end of a line check (R90). -/
def State.softened (s : State) (g : Segment) : Segment :=
  { g with
    queue := [], pendingCfg := none, hold := false, pauseRequested := false, resetRequested := false, pauseSetting := false,
    reports := [], heldAlert := none,
    inProgress := g.inProgress.map fun r => { r with orphan := s.orphanOf r, resetDropped := r.resetDropped || g.resetRequested },
    clear := g.clear.map fun c => { c with owner := none } }

theorem State.softSegment_checking (s : State) {g : Segment} (h : g.state = .active ∧ g.inProgress = none) :
    s.softSegment g =
      { s.softened g with state := .idle, clear := none, drive := { sclLow := false, sdaLow := false } } := by
  have checks : g.checking = true := by simp [Segment.checking, h.1, h.2]
  unfold State.softSegment
  rw [if_pos checks]
  exact Segment.rest_eq_rests _ rfl

theorem State.softSegment_other (s : State) {g : Segment} (h : ¬ (g.state = .active ∧ g.inProgress = none)) :
    s.softSegment g = s.softened g := by
  have checks : ¬ g.checking = true := by simpa [Segment.checking] using h
  unfold State.softSegment
  rw [if_neg checks]
  rfl

theorem State.softReset_get (s : State) (n : SegId) : s.softReset.segs[n] = s.softSegment s.segs[n] := by
  simp [State.softReset]

/-- An orphan keeps the tag, leg record and write data of the slot that was freed (R115). -/
theorem State.orphanOf_leg {s : State} {r : Run} {l : LegRecord} (h : r.orphan = none) (hl : s.slots[r.leg.slot].leg r.leg.role = some l) :
    s.orphanOf r = some { tag := s.slots[r.leg.slot].tag, leg := l, writeData := s.slots[r.leg.slot].writeData } := by
  unfold State.orphanOf State.legAt
  rw [h, hl]

theorem State.orphanOf_orphan {s : State} {r : Run} (h : r.orphan.isSome = true) : s.orphanOf r = r.orphan := by
  obtain ⟨o, ho⟩ := Option.isSome_iff_exists.1 h
  unfold State.orphanOf
  rw [ho]

/-- Settles O9. -/
theorem resetIsTheSoftReset : Obligations.ResetIsTheSoftReset := by
  unfold Obligations.ResetIsTheSoftReset
  intro tag payload s k h
  refine ⟨fun hp => congrArg Host.Outcome.next ?refused, fun hp => ⟨(s.took k 0x7F tag (some .reset)).softReset, ?taken, ⟨rfl, rfl, rfl, rfl⟩,
    fun u => ?units, rfl, rfl, rfl, fun n => ?segments⟩⟩
  case refused => exact State.deliver_refused h _ tag (fun _ e => hp (decodeEmpty_some e)) _ _
  case taken =>
    subst hp
    exact congrArg Host.Outcome.next (State.deliver_decoded h _ tag (decoded := decodeEmpty []) rfl _ State.carryReset)
  case units => exact Vector.getElem_replicate _
  case segments =>
    rw [State.softReset_get, show (s.took k 0x7F tag (some .reset)).segs[n] = s.segs[n] from rfl]
    by_cases checks : s.segs[n].state = .active ∧ s.segs[n].inProgress = none
    · rw [State.softSegment_checking (s.took k 0x7F tag (some .reset)) checks]
      refine ⟨⟨rfl, rfl, rfl, rfl, rfl, rfl, rfl, rfl, rfl, rfl, rfl, rfl, rfl⟩, fun _ => ⟨rfl, ?_, rfl⟩, fun e => absurd checks e,
        fun r l hr => ?_, fun r hr => ?_⟩
      · show s.segs[n].inProgress.map _ = none
        rw [checks.2]; rfl
      · rw [checks.2] at hr; cases hr
      · rw [checks.2] at hr; cases hr
    · rw [State.softSegment_other (s.took k 0x7F tag (some .reset)) checks]
      refine ⟨⟨rfl, rfl, rfl, rfl, rfl, rfl, rfl, rfl, rfl, rfl, rfl, rfl, rfl⟩, fun e => absurd e checks, fun _ => ⟨rfl, rfl, rfl⟩,
        fun r l hr hro apart hl => ?_, fun r hr hro => ?_⟩
      · have same : (s.took k 0x7F tag (some .reset)).slots[r.leg.slot] = s.slots[r.leg.slot] := State.took_other s apart _ _ _
        have copied := State.orphanOf_leg (s := s.took k 0x7F tag (some .reset)) hro (by rw [same]; exact hl)
        rw [same] at copied
        show s.segs[n].inProgress.map _ = _
        rw [hr, Option.map_some, copied]
      · have kept := State.orphanOf_orphan (s := s.took k 0x7F tag (some .reset)) hro
        show s.segs[n].inProgress.map _ = _
        rw [hr, Option.map_some, kept]

end Sys2Proof.Machine
end

section
/-! Transfers: the delivery of a completion record (O53), what an accepted transfer does with its legs (O14 to O16), and a transfer that
no window takes (O13). -/

namespace Sys2Proof.Machine

/-! ### Settled legs and the twin of a fallback read -/

theorem LegRecord.settled_iff (l : LegRecord) : l.settled = true ↔ l.state = .done ∧ l.delivered = true := by
  simp [LegRecord.settled]

/-- A slot whose every leg is DONE and delivered is settled (R54 step 2). -/
theorem Slot.allSettled_true {x : Slot} {p : LegRecord} (hp : x.primary = some p)
    (h : ∀ (role : Role) (l : LegRecord), x.leg role = some l → l.state = .done ∧ l.delivered = true) : x.allSettled = true := by
  have primary : p.settled = true := p.settled_iff.2 (h .primary p hp)
  unfold Slot.allSettled
  rw [hp]
  cases ht : x.twin with
  | none => simp only [primary, Bool.true_and]
  | some t =>
    have twin : t.settled = true := t.settled_iff.2 (h .twin t ht)
    simp only [primary, twin, Bool.true_and]

theorem Slot.wantsTwin_iff (x : Slot) (r : CompletionRecord) :
    x.wantsTwin r = true ↔ (r.role = .primary ∧ r.kind = .read ∧ x.policy = .mirrorFallback ∧ r.outcome ≠ .acked ∧ x.cancelled = false ∧
      x.twin = none) ∧ x.state = .working := by
  simp [Slot.wantsTwin, and_assoc]

theorem Slot.wantsTwin_false {x : Slot} {r : CompletionRecord}
    (h : ¬ (r.role = .primary ∧ r.kind = .read ∧ x.policy = .mirrorFallback ∧ r.outcome ≠ .acked ∧ x.cancelled = false ∧
      x.twin = none)) : x.wantsTwin r = false := by
  rw [← Bool.not_eq_true, Slot.wantsTwin_iff]
  exact fun e => h e.1

/-- A twin's record never calls for another leg (R49). -/
theorem State.consume_twin (s : State) {r : CompletionRecord} (h : r.role = .twin) : (s.consume r).2 = [] := by
  rw [State.consume_plain s r (Slot.wantsTwin_false fun e => by rw [h] at e; cases e.1)]

/-- The completion record of a leg that ends without reaching the wire (R51). -/
def LegRecord.unsent (l : LegRecord) (time : Time) (tag : Byte) (o : LegOutcome) : CompletionRecord :=
  { l.copy time tag 0 o none with readData := [] }

theorem Segment.Refuses.state {g : Segment} {o : LegOutcome} {res : ResultCode} (h : g.Refuses o res) :
    g.state = .off ∧ o = .segmentOff ∨ g.state = .faulted ∧ o = .segmentFaulted := by
  obtain ⟨state, out, -⟩ | ⟨state, out, -⟩ := h
  · exact .inl ⟨state, out⟩
  · exact .inr ⟨state, out⟩

/-- A refused leg did not succeed, and its result is the one named after its outcome (R47, R58). -/
theorem Segment.Refuses.named {g : Segment} {o : LegOutcome} {res : ResultCode} (h : g.Refuses o res) :
    o ≠ .acked ∧ o.resultCode = res ∧ res ≠ .ok ∧ res ≠ .fromTwin ∧ res ≠ .twinDiverged ∧ res ≠ .compareMismatch := by
  obtain ⟨-, rfl, rfl⟩ | ⟨-, rfl, rfl⟩ := h <;> decide

/-- A leg on a segment out of service ends at once, and its record is the one of R51 (R47). -/
theorem State.placeLeg_refused (s : State) {k : SlotId} {role : Role} {l : LegRecord} {n : SegId} {o : LegOutcome} {res : ResultCode}
    {time : Time} {tag : Byte} (hl : s.legAt ⟨k, role⟩ = some l) (hk : l.slot = k) (hr : l.role = role) (hn : l.segment = n)
    (h : s.segs[n].Refuses o res) (htime : s.clock.timeBase = time) (htag : s.slots[k].tag = tag) :
    s.placeLeg ⟨k, role⟩ = (s.modLeg ⟨k, role⟩ fun x => x.finish o 0 [], [l.unsent time tag o]) := by
  subst hk hr htime htag
  exact State.placeLeg_ends s _ hl hn h.state

/-- Settles O53: the four ways of a record through its slot. -/
theorem recordIsLoggedReconciledAndWatched : Obligations.RecordIsLoggedReconciledAndWatched := by
  unfold Obligations.RecordIsLoggedReconciledAndWatched
  intro s b r x working hx hb
  have xworking : x.state = .working := by rw [hx, Slot.modLeg_state]; exact working
  refine ⟨fun plain => ?plain, fun p t res n addr target reg length hrole hkind failed hp noTwin live hres hpol htwin hreq ht => ?fallback⟩
  case plain =>
    have noneWanted : x.wantsTwin r = false := Slot.wantsTwin_false plain
    refine ⟨fun ⟨role, l, hl, unsettled⟩ => ?waits, fun p hp settled => ?closes⟩
    case waits =>
      have stays : l.settled = false := by rw [← Bool.not_eq_true, l.settled_iff]; exact unsettled
      have consumed := State.consume_open s r hx.symm noneWanted (Slot.allSettled_false hl stays)
      rw [deliverAll_one (by rw [consumed]), consumed, hb]
    case closes =>
      have consumed := State.consume_closes s r hx.symm noneWanted xworking hp (Slot.allSettled_true hp settled)
      rw [deliverAll_one (by rw [consumed]), consumed, hb, State.closes_withSlot]
  case fallback =>
    have wanted : x.wantsTwin r = true := by
      have policy : x.policy = .mirrorFallback := by unfold Slot.policy; rw [hres]; exact hpol
      exact (x.wantsTwin_iff r).2 ⟨⟨hrole, hkind, policy, failed, live, noTwin⟩, xworking⟩
    have shape : x.request.bind Request.legShape = some (.read, reg, length) := by rw [hreq]; rfl
    have leg : res.twinLeg r.slot (.read, reg, length) = some t := by
      unfold Resolution.twinLeg newLeg
      rw [htwin, ht]
      simp
    have segment : t.segment = n := by rw [ht]
    have built : (s.offer r.toRecordCopy.logEntry).withSlot r.slot { x with twin := some t } = b.withSlot r.slot { x with twin := some t } := by
      rw [hb, State.withSlot_withSlot]
    have stored : (b.withSlot r.slot { x with twin := some t }).legAt ⟨r.slot, .twin⟩ = some t := by
      unfold State.legAt
      rw [State.withSlot_get]
      rfl
    have segs : b.segs = s.segs := by rw [hb]; rfl
    refine ⟨fun joins => ?joins, fun o code refused => ?refused⟩
    case joins =>
      have placed := State.placeLeg_accepts (b.withSlot r.slot { x with twin := some t }) ⟨r.slot, .twin⟩ stored segment
        (by rw [State.withSlot_segs, segs]; exact joins)
      have consumed := State.consume_builds s r hx.symm wanted hres shape leg ((congrArg (State.placeLeg · ⟨r.slot, .twin⟩) built).trans placed)
        (State.accepts_unsettled _ _ _ stored (by rw [ht]; nofun))
      rw [deliverAll_one (by rw [consumed]), consumed]
    case refused =>
      have placed := State.placeLeg_refused (b.withSlot r.slot { x with twin := some t }) stored (by rw [ht]) (by rw [ht]) segment
        (by rw [State.withSlot_segs, segs]; exact refused) (time := s.clock.timeBase) (tag := x.tag) (by rw [hb]; rfl)
        (by rw [State.withSlot_get])
      have ended : (b.withSlot r.slot { x with twin := some t }).modLeg ⟨r.slot, .twin⟩ (fun l => l.finish o 0 []) =
          b.withSlot r.slot { x with twin := some (t.failed o) } := by
        unfold State.modLeg
        rw [State.modSlot_eq, State.withSlot_get, State.withSlot_withSlot]
        rfl
      rw [ended] at placed
      have undelivered : (t.failed o).settled = false := by rw [ht]; rfl
      have consumed := State.consume_builds s r hx.symm wanted hres shape leg ((congrArg (State.placeLeg · ⟨r.slot, .twin⟩) built).trans placed)
        (by rw [State.withSlot_get]; exact Slot.allSettled_false (role := .twin) rfl undelivered)
      exact deliverAll_then consumed (State.consume_twin _ (congrArg LegRecord.role ht))

/-! ### Transfers that no window takes (R27, R29, R30) -/

theorem State.acceptTransfer_unrouted {s : State} {t : Target} (h : s.Unrouted t) (k : SlotId) (shape : Kind × Byte × Nat)
    (data : List Byte) : s.acceptTransfer k t shape data = s.answer k .noRoute [] := by
  unfold State.acceptTransfer
  rw [State.matching_of_unrouted h]

theorem State.acceptTransfer_forbidden {s : State} {t : Target} {i : WindowId} {shape : Kind × Byte × Nat} (h : s.Matches t i)
    (hp : ¬ s.windows[i].Permits shape.1) (k : SlotId) (data : List Byte) :
    s.acceptTransfer k t shape data = s.answer k .directionDenied [] := by
  unfold State.acceptTransfer
  rw [State.matching_of_matches h]
  exact if_neg fun e => hp ((Window.permits_iff _ _).1 e)

/-- Settles O13. -/
theorem unmappedOrForbiddenTransferBuildsNoLeg : Obligations.UnmappedOrForbiddenTransferBuildsNoLeg := by
  unfold Obligations.UnmappedOrForbiddenTransferBuildsNoLeg
  intro f tag wires s k hf h ht
  have answered := State.took_answer { s with wires := wires } k f.kind.typeByte tag (some f.request)
  refine ⟨fun unrouted => ?unrouted, fun i found forbidden => ?forbidden⟩
  case unrouted =>
    rw [TransferForm.exec_accepts f tag wires s k hf h ht,
      State.acceptTransfer_unrouted (s := State.took { s with wires := wires } k _ tag _) unrouted, answered]
  case forbidden =>
    rw [TransferForm.exec_accepts f tag wires s k hf h ht,
      State.acceptTransfer_forbidden (s := State.took { s with wires := wires } k _ tag _) (shape := (f.kind, _)) found forbidden, answered]

/-! ### Legs that join their segments (R45, R47, R74) -/

/-- The delivery after the placing of legs that ended or joined, by what each placing gave. -/
theorem State.placeLegs_eq {s a b : State} {k : SlotId} {rs ts : List CompletionRecord} (hp : s.placeLeg ⟨k, .primary⟩ = (a, rs))
    (ht : a.placeLeg ⟨k, .twin⟩ = (b, ts)) : s.placeLegs k = (b, rs ++ ts) := by
  unfold State.placeLegs
  rw [hp]
  simp only [ht]

/-- A leg start leaves the other leg of its slot. -/
theorem State.legStarts_legAt (s : State) (n : SegId) (rest : List LegRef) {k : SlotId} {a b : Role} (h : b ≠ a) :
    (s.legStarts n ⟨k, a⟩ rest).legAt ⟨k, b⟩ = s.legAt ⟨k, b⟩ := by
  have apart : (⟨k, b⟩ : LegRef) ≠ ⟨k, a⟩ := fun e => h (congrArg LegRef.role e)
  unfold State.legStarts
  split
  · rfl
  · split
    · rfl
    · exact (State.legAt_modLeg s ⟨k, a⟩ ⟨k, b⟩ _).trans (if_neg apart)

/-- Settles O14. -/
theorem transferLegsJoinTheirQueues : Obligations.TransferLegsJoinTheirQueues := by
  unfold Obligations.TransferLegsJoinTheirQueues
  intro f tag wires s k i hf h ht found permits waits
  refine ⟨fun single => ?single, fun double apart twinWaits => ?double⟩
  case single =>
    have placed := State.placeLeg_waits (f.stored tag wires s k s.windows[i] none) ⟨k, .primary⟩ (f.stored_primary ..) rfl rfl waits
    rw [f.exec_places tag wires s k i none hf h ht found permits (.inl ⟨single, rfl⟩),
      State.placeLegs_eq placed (State.placeLeg_none _ _ (f.stored_twin ..))]
    rfl
  case double =>
    have placed := State.placeLeg_waits (f.stored tag wires s k s.windows[i] (some (f.twinOf k s.windows[i]))) ⟨k, .primary⟩
      (f.stored_primary ..) rfl rfl waits
    rw [f.exec_places tag wires s k i _ hf h ht found permits (.inr ⟨double, rfl⟩),
      State.placeLegs_eq placed
        (State.placeLeg_waits _ ⟨k, .twin⟩ (f.stored_twin ..) rfl (State.withSeg_other _ apart _) twinWaits)]
    rfl

/-- Settles O15. -/
theorem transferStartsOnAnIdleSegment : Obligations.TransferStartsOnAnIdleSegment := by
  unfold Obligations.TransferStartsOnAnIdleSegment
  intro f tag wires s k i n hf h ht found permits hn
  subst hn
  refine ⟨fun single idle empty free none_pending enabled => ?single, fun m double hm apart joins twinJoins => ?double⟩
  case single =>
    have placed := State.placeLeg_starts (f.stored tag wires s k s.windows[i] none) ⟨k, .primary⟩ (f.stored_primary ..) rfl rfl idle
      empty free none_pending enabled
    have absent : (State.legStarts (State.withSeg (f.stored tag wires s k s.windows[i] none) s.windows[i].primarySeg
        { s.segs[s.windows[i].primarySeg] with queue := [⟨k, .primary⟩] }) s.windows[i].primarySeg ⟨k, .primary⟩ []).legAt ⟨k, .twin⟩ = none :=
      (State.legStarts_legAt _ _ _ (by decide)).trans (f.stored_twin ..)
    rw [f.exec_places tag wires s k i none hf h ht found permits (.inl ⟨single, rfl⟩),
      State.placeLegs_eq placed (State.placeLeg_none _ _ absent)]
    rfl
  case double =>
    subst hm
    have placed := State.placeLeg_accepts (f.stored tag wires s k s.windows[i] (some (f.twinOf k s.windows[i]))) ⟨k, .primary⟩
      (f.stored_primary ..) rfl joins
    have twinPlaced := State.placeLeg_accepts (n := s.windows[i].twinSeg)
      ((f.stored tag wires s k s.windows[i] (some (f.twinOf k s.windows[i]))).accepts s.windows[i].primarySeg ⟨k, .primary⟩) ⟨k, .twin⟩
      ((State.accepts_legAt _ _ _ (by decide)).trans (f.stored_twin ..)) rfl
      (by rw [State.accepts_other _ _ _ apart]; exact twinJoins)
    rw [f.exec_places tag wires s k i _ hf h ht found permits (.inr ⟨double, rfl⟩), State.placeLegs_eq placed twinPlaced]
    rfl

/-! ### Legs on segments out of service (R47, R49, R50, R54) -/

theorem State.modLeg_withSlot (s : State) (k : SlotId) (x : Slot) (role : Role) (g : LegRecord → LegRecord) :
    (s.withSlot k x).modLeg ⟨k, role⟩ g = s.withSlot k (x.modLeg role g) := by
  unfold State.modLeg
  rw [State.modSlot_eq, State.withSlot_get, State.withSlot_withSlot]

theorem Segment.Refuses.not_joins {g : Segment} {o : LegOutcome} {res : ResultCode} (h : g.Refuses o res) :
    ¬ (g.Waits ∨ g.Startable) := by
  have out : g.state = .off ∨ g.state = .faulted := h.state.imp And.left And.left
  rintro ((e | e | ⟨e, -⟩) | ⟨e, -⟩) <;> rw [e] at out <;> simp at out

@[simp] theorem State.accepts_clock (s : State) (n : SegId) (r : LegRef) : (s.accepts n r).clock = s.clock := by
  unfold State.accepts State.legStarts
  (repeat' split) <;> rfl

theorem State.accepts_tag (s : State) (n : SegId) (k : SlotId) (role : Role) :
    (s.accepts n ⟨k, role⟩).slots[k].tag = s.slots[k].tag := by
  rcases s.accepts_slots n ⟨k, role⟩ with e | e
  · rw [e]
  · rw [e]
    simp

/-- The leg that has just joined a segment is still there. -/
theorem State.accepts_leg_ne (s : State) (n : SegId) (r : LegRef) {l : LegRecord} (hl : s.legAt r = some l) :
    (s.accepts n r).legAt r ≠ none := by
  unfold State.legAt at hl ⊢
  rcases s.accepts_slots n r with e | e
  · rw [e, hl]; nofun
  · have stored : (s.slots.set r.slot (s.slots[r.slot].modLeg r.role fun l => { l with state := .inProgress }))[r.slot] =
        s.slots[r.slot].modLeg r.role fun l => { l with state := .inProgress } := by simp
    rw [e, stored, Slot.modLeg_leg, if_pos rfl, hl]
    nofun

/-- Where one leg of a slot has just joined its segment, the record of the other is only noted in the slot (R54). -/
theorem State.consume_beside_joined (s : State) (n : SegId) (k : SlotId) (x : Slot) {a b : Role} (apart : a ≠ b) {l : LegRecord}
    {r : CompletionRecord} (hk : r.slot = k) (hr : r.role = b) (hl : x.leg a = some l) (hd : l.state ≠ .done) :
    ((s.withSlot k x).accepts n ⟨k, a⟩).consume r =
      (State.watchRecord
        (((s.withSlot k (x.modLeg b fun l => { l with delivered := true })).accepts n ⟨k, a⟩).offer r.toRecordCopy.logEntry)
        r.toRecordCopy, []) := by
  subst hk hr
  have moved := State.accepts_withSlot s n r.slot x apart fun l => { l with delivered := true }
  have slot : ((s.withSlot r.slot x).accepts n ⟨r.slot, a⟩).slots[r.slot].modLeg r.role (fun l => { l with delivered := true }) =
      ((s.withSlot r.slot (x.modLeg r.role fun l => { l with delivered := true })).accepts n ⟨r.slot, a⟩).slots[r.slot] := by
    rw [← moved, State.modLeg_get, if_pos rfl]
  have joined : (s.withSlot r.slot (x.modLeg r.role fun l => { l with delivered := true })).legAt ⟨r.slot, a⟩ = some l := by
    unfold State.legAt
    rw [State.withSlot_get, Slot.modLeg_leg, if_neg apart]
    exact hl
  have noTwinWanted : (((s.withSlot r.slot (x.modLeg r.role fun l => { l with delivered := true })).accepts n ⟨r.slot, a⟩).slots[r.slot]).wantsTwin r =
      false := by
    refine Slot.wantsTwin_false fun ⟨primary, _, _, _, _, none_twin⟩ => ?_
    cases a with
    | primary => exact apart primary.symm
    | twin => exact State.accepts_leg_ne _ n _ joined none_twin
  rw [State.consume_open _ r slot noTwinWanted (State.accepts_unsettled _ _ ⟨r.slot, a⟩ joined hd), ← State.offer_withSlot, ← slot]
  congr 3

/-- Two legs that both failed give the primary's code, under every policy (R59, R61). -/
theorem reconcile_bothFailed (policy : TwinPolicy) {p t : LegRecord} (hp : p.isAcked = false) (ht : t.isAcked = false) :
    reconcile false policy p (some t) = p.namedResult := by
  by_cases fallback : policy = .mirrorFallback ∧ p.kind = .read
  · obtain ⟨rfl, read⟩ := fallback
    rw [reconcile_fallback t read hp, ht]
    rfl
  · exact reconcile_noneAcked fallback hp ht

end Sys2Proof.Machine
end

section
/-! Legs of an accepted transfer on segments out of service (O16). -/

namespace Sys2Proof.Machine

/-! ### What the two legs give when both fail at once (R47, R59, R61, R62) -/

theorem transferFields_refused_single {l : LegRecord} {o : LegOutcome} {g : Segment} {res : ResultCode} (h : g.Refuses o res) :
    transferFields res (l.ended o 0 []) none = [o.code, 0, 0] := by
  obtain ⟨-, -, notOk, notTwin, notDiverged, notMismatch⟩ := h.named
  rw [transferFields_single (po := o) res rfl, replyData_failed _ _ notOk notTwin notDiverged notMismatch]
  rfl

theorem transferFields_refused_both {l t : LegRecord} {o x : LegOutcome} {g : Segment} {res : ResultCode} (h : g.Refuses o res) :
    transferFields res (l.ended o 0 []) (some (t.ended x 0 [])) = [o.code, 0, 1, x.code, 0] := by
  obtain ⟨-, -, notOk, notTwin, notDiverged, notMismatch⟩ := h.named
  rw [transferFields_twin (po := o) (tw := x) res rfl rfl, replyData_failed _ _ notOk notTwin notDiverged notMismatch]
  rfl

theorem LegRecord.isAcked_ended {l : LegRecord} {o : LegOutcome} (h : o ≠ .acked) (bytes : Nat) (buf : List Byte) :
    (l.ended o bytes buf).isAcked = false :=
  (LegRecord.isAcked_of_outcome (l := l.ended o bytes buf) rfl).trans (decide_eq_false h)

/-- The result of a transfer whose legs were all refused is the one named after the primary's outcome. -/
theorem reconcile_refused {l : LegRecord} {o : LegOutcome} {g : Segment} {res : ResultCode} (h : g.Refuses o res) (policy : TwinPolicy) :
    reconcile false policy (l.ended o 0 []) none = res ∧
      ∀ (t : LegRecord) (x : LegOutcome), x ≠ .acked → reconcile false policy (l.ended o 0 []) (some (t.ended x 0 [])) = res := by
  obtain ⟨failed, name, -⟩ := h.named
  have named : (l.ended o 0 []).namedResult = res := (LegRecord.namedResult_of_outcome (l := l.ended o 0 []) rfl).trans name
  exact ⟨named, fun t x hx =>
    (reconcile_bothFailed policy (LegRecord.isAcked_ended failed 0 []) (LegRecord.isAcked_ended hx 0 [])).trans named⟩

section

variable {f : TransferForm} {tag : Byte} {s a : State} {k : SlotId} {w : Window} {l : LegRecord} {time : Time}

/-- The slot of an accepted transfer with its primary in any condition. -/
abbrev TransferForm.slotWith (f : TransferForm) (tag : Byte) (w : Window) (p : LegRecord) (twin : Option LegRecord) : Slot :=
  f.slot tag (w.resolutionOf f.target) p twin

/-- The part with such a slot. -/
abbrev TransferForm.holding (f : TransferForm) (tag : Byte) (w : Window) (a : State) (k : SlotId) (p : LegRecord)
    (twin : Option LegRecord) : State :=
  a.withSlot k (f.slotWith tag w p twin)

/-- A refused primary ends in its slot, and its record is produced (R47). -/
theorem TransferForm.place_primary_refused {n : SegId} {o : LegOutcome} {res : ResultCode} (hk : l.slot = k) (hr : l.role = .primary)
    (hn : l.segment = n) (h : a.segs[n].Refuses o res) (htime : a.clock.timeBase = time) (twin : Option LegRecord) :
    (f.holding tag w a k l twin).placeLeg ⟨k, .primary⟩ = (f.holding tag w a k (l.failed o) twin, [l.unsent time tag o]) := by
  have stored : (f.holding tag w a k l twin).legAt ⟨k, .primary⟩ = some l := by
    unfold State.legAt; rw [State.withSlot_get]; rfl
  rw [State.placeLeg_refused _ (tag := tag) stored hk hr hn (by rw [State.withSlot_segs]; exact h) htime (by rw [State.withSlot_get]; rfl),
    State.modLeg_withSlot]
  rfl

/-- A refused twin ends in its slot, and its record is produced (R47). -/
theorem TransferForm.place_twin_refused {n : SegId} {o : LegOutcome} {res : ResultCode} (hk : l.slot = k) (hr : l.role = .twin)
    (hn : l.segment = n) (h : a.segs[n].Refuses o res) (htime : a.clock.timeBase = time) (p : LegRecord) :
    (f.holding tag w a k p (some l)).placeLeg ⟨k, .twin⟩ = (f.holding tag w a k p (some (l.failed o)), [l.unsent time tag o]) := by
  have stored : (f.holding tag w a k p (some l)).legAt ⟨k, .twin⟩ = some l := by
    unfold State.legAt; rw [State.withSlot_get]; rfl
  rw [State.placeLeg_refused _ (tag := tag) stored hk hr hn (by rw [State.withSlot_segs]; exact h) htime (by rw [State.withSlot_get]; rfl),
    State.modLeg_withSlot]
  rfl

theorem TransferForm.place_twin_none (p : LegRecord) :
    (f.holding tag w a k p none).placeLeg ⟨k, .twin⟩ = (f.holding tag w a k p none, []) :=
  State.placeLeg_none _ _ (by unfold State.legAt; rw [State.withSlot_get]; rfl)

/-- The record of the only leg answers its slot, where it calls for no twin (R54, R58). -/
theorem TransferForm.consume_alone (a : State) {o : LegOutcome} {n : Segment} {res : ResultCode} (hk : l.slot = k)
    (hr : l.role = .primary) (hn : n.Refuses o res) (hp : w.policy ≠ .mirrorFallback) :
    (f.holding tag w a k (l.failed o) none).consume (l.unsent time tag o) =
      (((a.offer (l.copy time tag 0 o none).logEntry).closes k (f.slotWith tag w (l.ended o 0 []) none) res
        [o.code, 0, 0]).watchRecord (l.copy time tag 0 o none), []) := by
  have consumed := State.consume_single (f.holding tag w a k (l.failed o) none) (l.copy time tag 0 o none) []
    (l := l) (o := o) (bytes := 0) (buf := []) hk hr (State.withSlot_get ..) rfl rfl rfl (.inr (.inl hp)) (reconcile_refused hn _).1
  rw [transferFields_refused_single hn, State.offer_withSlot, State.closes_withSlot] at consumed
  exact consumed

/-- The primary's record is only noted where the slot holds a twin that is not settled (R54). -/
theorem TransferForm.consume_primary (a : State) {o : LegOutcome} {t : LegRecord} (hk : l.slot = k) (hr : l.role = .primary)
    (ht : t.settled = false) :
    (a.withSlot k (f.slotWith tag w (l.failed o) (some t))).consume (l.unsent time tag o) =
      (((a.offer (l.copy time tag 0 o none).logEntry).withSlot k (f.slotWith tag w (l.ended o 0 []) (some t))).watchRecord
        (l.copy time tag 0 o none), []) := by
  subst hk
  have slot : ((a.withSlot l.slot (f.slotWith tag w (l.failed o) (some t))).slots[(l.unsent time tag o).slot]).modLeg (l.unsent time tag o).role
      (fun l => { l with delivered := true }) = f.slotWith tag w (l.ended o 0 []) (some t) := by
    show ((a.withSlot l.slot _).slots[l.slot]).modLeg l.role _ = _
    rw [State.withSlot_get, hr]
    rfl
  rw [State.consume_open _ _ slot (Slot.wantsTwin_false fun e => by cases e.2.2.2.2.2) (Slot.allSettled_false (role := .twin) rfl ht)]
  show (((State.offer _ _).withSlot l.slot _).watchRecord _, _) = _
  rw [State.offer_withSlot, State.withSlot_withSlot]
  rfl

/-- The twin's record answers a slot whose two legs both failed (R54, R59, R61). -/
theorem TransferForm.consume_last (b : State) {o x : LegOutcome} {t : LegRecord} {n m : Segment} {res other : ResultCode} (hk : t.slot = k)
    (hr : t.role = .twin) (hb : b.slots[k] = f.slotWith tag w (l.ended o 0 []) (some (t.failed x))) (hn : n.Refuses o res)
    (hm : m.Refuses x other) :
    b.consume (t.unsent time tag x) =
      (((b.offer (t.copy time tag 0 x none).logEntry).closes k (f.slotWith tag w (l.ended o 0 []) (some (t.ended x 0 []))) res
        [o.code, 0, 1, x.code, 0]).watchRecord (t.copy time tag 0 x none), []) := by
  subst hk
  have slot : (b.slots[(t.unsent time tag x).slot]).modLeg (t.unsent time tag x).role (fun l => { l with delivered := true }) =
      f.slotWith tag w (l.ended o 0 []) (some (t.ended x 0 [])) := by
    show (b.slots[t.slot]).modLeg t.role _ = _
    rw [hb, hr]
    rfl
  have settled : (f.slotWith tag w (l.ended o 0 []) (some (t.ended x 0 []))).allSettled = true := rfl
  rw [State.consume_closes _ _ slot (Slot.wantsTwin_false fun e => by cases e.2.2.2.2.2) rfl rfl settled]
  have result := (reconcile_refused (l := l) hn w.policy).2 t x hm.named.1
  show (((State.offer _ _).closes t.slot _ (reconcile false w.policy (l.ended o 0 []) (some (t.ended x 0 [])))
    (transferFields (reconcile false w.policy (l.ended o 0 []) (some (t.ended x 0 []))) (l.ended o 0 []) (some (t.ended x 0 [])))).watchRecord _, _) = _
  rw [result, transferFields_refused_both hn]
  rfl

/-- The record of a refused primary has the twin of a MIRROR_FALLBACK read built, which joins its segment or is refused too (R47, R49,
R50). -/
theorem TransferForm.deliver_fallback (a : State) {o : LegOutcome} (hk : l.slot = k) (hr : l.role = .primary) (hl : l.kind = .read)
    (ho : o ≠ .acked) (hf : f.kind = .read) (hp : w.policy = .mirrorFallback) (htime : a.clock.timeBase = time) :
    ((a.segs[w.twinSeg].Waits ∨ a.segs[w.twinSeg].Startable) →
      deliverAll (f.holding tag w a k (l.failed o) none, [l.unsent time tag o]) =
        ((f.holding tag w (a.offer (l.copy time tag 0 o none).logEntry) k (l.ended o 0 []) (some (f.twinOf k w))).accepts w.twinSeg
          ⟨k, .twin⟩).watchRecord (l.copy time tag 0 o none)) ∧
    ∀ (x : LegOutcome) (code : ResultCode), a.segs[w.twinSeg].Refuses x code →
      deliverAll (f.holding tag w a k (l.failed o) none, [l.unsent time tag o]) =
        deliverAll ((f.holding tag w (a.offer (l.copy time tag 0 o none).logEntry) k (l.ended o 0 [])
          (some ((f.twinOf k w).failed x))).watchRecord (l.copy time tag 0 o none), [(f.twinOf k w).unsent time tag x]) := by
  subst hk htime
  have slot : (f.holding tag w a l.slot (l.failed o) none).slots[l.slot] = f.slotWith tag w (l.failed o) none := State.withSlot_get ..
  have noted : f.slotWith tag w (l.ended o 0 []) none =
      ((f.holding tag w a l.slot (l.failed o) none).slots[l.slot]).modLeg l.role fun l => { l with delivered := true } := by
    rw [slot, hr]; rfl
  have twin : f.twinOf l.slot w =
      { slot := l.slot, role := .twin, segment := w.twinSeg, busAddr := w.addressOf w.twinBus f.target, kind := .read,
        regPhase := w.regPhase, regIndex := f.reg, length := f.asked, state := .queued, outcome := none, bytes := 0, readData := [],
        cutRequested := false, cutUnderReset := false, delivered := false } := by
    simp [TransferForm.twinOf, TransferForm.leg, TransferForm.legIndex, TransferForm.legLength, hf]
  have request : f.request = .read f.target f.reg f.asked := by unfold TransferForm.request; rw [hf]
  have place : (w.resolutionOf f.target).twin = some (w.twinSeg, w.addressOf w.twinBus f.target) := if_neg (by rw [hp]; nofun)
  have logged : f.holding tag w (a.offer (l.copy a.clock.timeBase tag 0 o none).logEntry) l.slot (l.ended o 0 []) none =
      ((f.holding tag w a l.slot (l.failed o) none).offer (l.copy a.clock.timeBase tag 0 o none).logEntry).withSlot l.slot
        (f.slotWith tag w (l.ended o 0 []) none) := by
    rw [State.offer_withSlot]; exact (State.withSlot_withSlot ..).symm
  have stored : ∀ t, (f.holding tag w (a.offer (l.copy a.clock.timeBase tag 0 o none).logEntry) l.slot (l.ended o 0 []) none).withSlot l.slot
      (f.slotWith tag w (l.ended o 0 []) (some t)) =
        f.holding tag w (a.offer (l.copy a.clock.timeBase tag 0 o none).logEntry) l.slot (l.ended o 0 []) (some t) :=
    fun t => State.withSlot_withSlot ..
  obtain ⟨joins, refused⟩ := (recordIsLoggedReconciledAndWatched (f.holding tag w a l.slot (l.failed o) none) _
    (l.unsent a.clock.timeBase tag o) _ (congrArg Slot.state slot) noted logged).2 (l.ended o 0 []) (f.twinOf l.slot w)
    (w.resolutionOf f.target) w.twinSeg (w.addressOf w.twinBus f.target) f.target f.reg f.asked hr hl ho rfl rfl rfl rfl hp place
    (congrArg some request) twin
  refine ⟨fun hj => (joins hj).trans ?_, fun x code hx => (refused x code hx).trans ?_⟩
  · exact congrArg (fun b => (State.accepts b w.twinSeg ⟨l.slot, .twin⟩).watchRecord (l.copy a.clock.timeBase tag 0 o none)) (stored _)
  · exact congrArg (fun b => deliverAll (State.watchRecord b (l.copy a.clock.timeBase tag 0 o none),
      [(f.twinOf l.slot w).unsent a.clock.timeBase tag x])) (stored _)

end

/-- Settles O16: each placing is a refusal or a joining, and the records are delivered in their order. -/
theorem legOnASegmentOutOfServiceEndsAtOnce : Obligations.LegOnASegmentOutOfServiceEndsAtOnce := by
  unfold Obligations.LegOnASegmentOutOfServiceEndsAtOnce
  intro f tag wires s k i n m o x res other a l t hf h ht found permits hn hm ha hl htw
  subst hn hm
  obtain ⟨pslot, prole, pseg⟩ : l.slot = k ∧ l.role = .primary ∧ l.segment = s.windows[i].primarySeg := by rw [hl]; exact ⟨rfl, rfl, rfl⟩
  obtain ⟨tslot, trole, tseg⟩ : t.slot = k ∧ t.role = .twin ∧ t.segment = s.windows[i].twinSeg := by rw [htw]; exact ⟨rfl, rfl, rfl⟩
  have kind : l.kind = f.kind := by rw [hl]; rfl
  have fresh : l.state ≠ .done ∧ t.state ≠ .done := by rw [hl, htw]; exact ⟨nofun, nofun⟩
  have segs : a.segs = s.segs := by rw [ha]
  have time : a.clock.timeBase = s.clock.timeBase := by rw [ha]
  have places : ∀ w, (f.Single s.windows[i].policy ∧ w = none ∨ ¬ f.Single s.windows[i].policy ∧ w = some t) →
      exec (f.command tag wires) s = .next (deliverAll ((f.holding tag s.windows[i] a k l w).placeLegs k)) := by
    intro w hw
    rw [htw] at hw
    rw [f.exec_places tag wires s k i w hf h ht found permits hw, ha, hl]
    rfl
  rw [← segs]
  refine ⟨fun single refused => ⟨fun noFallback => ?alone, fun fallback joins => ?fallbackJoins⟩, fun double refused joins => ?twinJoins,
    fun double joins refused => ?primaryJoins, fun both refused twinRefused => ?bothRefused⟩
  case alone =>
    rw [places none (.inl ⟨single, rfl⟩), State.placeLegs_eq (TransferForm.place_primary_refused pslot prole pseg refused time none)
      (TransferForm.place_twin_none _)]
    have consumed := TransferForm.consume_alone (f := f) (tag := tag) (time := s.clock.timeBase) a pslot prole refused noFallback
    rw [List.append_nil, deliverAll_one (by rw [consumed]), consumed]
  case fallbackJoins =>
    obtain ⟨read, -⟩ := single.resolve_left (by rw [fallback]; nofun)
    rw [places none (.inl ⟨single, rfl⟩), State.placeLegs_eq (TransferForm.place_primary_refused pslot prole pseg refused time none)
      (TransferForm.place_twin_none _), List.append_nil]
    exact congrArg Host.Outcome.next (htw ▸ (TransferForm.deliver_fallback a pslot prole (kind.trans read) refused.named.1 read fallback time).1 joins)
  case twinJoins =>
    have joined := State.placeLeg_accepts (n := s.windows[i].twinSeg) (f.holding tag s.windows[i] a k (l.failed o) (some t)) ⟨k, .twin⟩ (l := t)
      (by unfold State.legAt; rw [State.withSlot_get]; rfl) tseg joins
    rw [places (some t) (.inr ⟨double, rfl⟩),
      State.placeLegs_eq (TransferForm.place_primary_refused pslot prole pseg refused time (some t)) joined, List.append_nil]
    have consumed := State.consume_beside_joined a s.windows[i].twinSeg k (f.slotWith tag s.windows[i] (l.failed o) (some t))
      (a := .twin) (b := .primary) (r := l.unsent s.clock.timeBase tag o) (by decide) pslot prole rfl fresh.2
    exact congrArg Host.Outcome.next ((deliverAll_one (congrArg Prod.snd consumed)).trans (congrArg Prod.fst consumed))
  case primaryJoins =>
    have apart : s.windows[i].twinSeg ≠ s.windows[i].primarySeg := fun e => refused.not_joins (by rw [e]; exact joins)
    have joined := State.placeLeg_accepts (n := s.windows[i].primarySeg) (f.holding tag s.windows[i] a k l (some t)) ⟨k, .primary⟩ (l := l)
      (by unfold State.legAt; rw [State.withSlot_get]; rfl) pseg joins
    have ended := State.placeLeg_refused ((f.holding tag s.windows[i] a k l (some t)).accepts s.windows[i].primarySeg ⟨k, .primary⟩)
      (time := s.clock.timeBase) (tag := tag)
      ((State.accepts_legAt _ _ _ (by decide)).trans (by unfold State.legAt; rw [State.withSlot_get]; rfl)) tslot trole tseg
      (by rw [State.accepts_other _ _ _ apart]; exact refused) (by rw [State.accepts_clock]; exact time)
      (by rw [State.accepts_tag, State.withSlot_get]; rfl)
    rw [State.accepts_withSlot _ _ _ _ (by decide)] at ended
    rw [places (some t) (.inr ⟨double, rfl⟩), State.placeLegs_eq joined ended, List.nil_append]
    have consumed := State.consume_beside_joined a s.windows[i].primarySeg k (f.slotWith tag s.windows[i] l (some (t.failed x)))
      (a := .primary) (b := .twin) (r := t.unsent s.clock.timeBase tag x) (by decide) tslot trole rfl fresh.1
    exact congrArg Host.Outcome.next ((deliverAll_one (congrArg Prod.snd consumed)).trans (congrArg Prod.fst consumed))
  case bothRefused =>
    have noted : exec (f.command tag wires) s = .next (deliverAll
        ((f.holding tag s.windows[i] (a.offer (l.copy s.clock.timeBase tag 0 o none).logEntry) k (l.ended o 0 [])
          (some (t.failed x))).watchRecord (l.copy s.clock.timeBase tag 0 o none), [t.unsent s.clock.timeBase tag x])) := by
      by_cases single : f.Single s.windows[i].policy
      · have fallback := both.resolve_left (not_not_intro single)
        obtain ⟨read, -⟩ := single.resolve_left (by rw [fallback]; nofun)
        rw [places none (.inl ⟨single, rfl⟩), State.placeLegs_eq (TransferForm.place_primary_refused pslot prole pseg refused time none)
          (TransferForm.place_twin_none _), List.append_nil]
        exact congrArg Host.Outcome.next
          (htw ▸ (TransferForm.deliver_fallback a pslot prole (kind.trans read) refused.named.1 read fallback time).2 x other twinRefused)
      · have consumed := TransferForm.consume_primary (f := f) (tag := tag) (time := s.clock.timeBase) (w := s.windows[i]) (o := o)
          (t := t.failed x) a pslot prole (by rw [htw]; rfl)
        rw [places (some t) (.inr ⟨single, rfl⟩),
          State.placeLegs_eq (TransferForm.place_primary_refused pslot prole pseg refused time (some t))
            (TransferForm.place_twin_refused tslot trole tseg twinRefused time _), List.singleton_append,
          deliverAll_cons _ (by rw [consumed]), consumed]
    have last := TransferForm.consume_last (f := f) (tag := tag) (time := s.clock.timeBase) (w := s.windows[i]) (l := l) (o := o) (x := x) (t := t)
      ((f.holding tag s.windows[i] (a.offer (l.copy s.clock.timeBase tag 0 o none).logEntry) k (l.ended o 0 [])
        (some (t.failed x))).watchRecord (l.copy s.clock.timeBase tag 0 o none)) tslot trole
      (by rw [State.watchRecord_slots]; exact State.withSlot_get ..) refused twinRefused
    rw [noted, deliverAll_one (by rw [last]), last]

end Sys2Proof.Machine
end

section
/-! CANCEL (O17): the WORKING transfer with the tag is found, each of its legs is treated by its state, and the records that this
produces are delivered. -/

namespace Sys2Proof.Machine

/-! ### The transfer that a CANCEL names (R64) -/

theorem Slot.cancellable_iff (x : Slot) (tag : Byte) :
    (x.state = .working && x.tag = tag &&
      match x.reqType with
      | none => false
      | some t => transferType t) = true ↔ x.Cancellable tag := by
  unfold Slot.Cancellable
  cases x.reqType with
  | none => simp
  | some t => simp [transferType_eq, and_assoc]

theorem State.findTransfer_none {s : State} {tag : Byte} (h : ∀ j : SlotId, ¬ s.slots[j].Cancellable tag) : s.findTransfer tag = none := by
  unfold State.findTransfer
  rw [List.find?_eq_none]
  intro j _ found
  exact h j (((s.slots[j]).cancellable_iff tag).1 found)

theorem State.findTransfer_some {s : State} {tag : Byte} {j : SlotId} (hj : s.slots[j].Cancellable tag)
    (h : ∀ i : SlotId, i ≠ j → ¬ s.slots[i].Cancellable tag) : s.findTransfer tag = some j := by
  cases hf : s.findTransfer tag with
  | none =>
    unfold State.findTransfer at hf
    exact absurd (((s.slots[j]).cancellable_iff tag).2 hj) (List.find?_eq_none.1 hf j (List.mem_finRange j))
  | some i =>
    by_cases e : i = j
    · rw [e]
    · have holds := List.find?_some (p := fun j : SlotId => s.slots[j].state = .working && s.slots[j].tag = tag &&
        match s.slots[j].reqType with
        | none => false
        | some t => transferType t) hf
      exact absurd (((s.slots[i]).cancellable_iff tag).1 holds) (h i e)

/-- The CANCEL that is being carried out is no transfer, and the slot it took was FREE. -/
theorem State.took_cancellable {s : State} {k : SlotId} (h : s.slots[k].state = .free) (tag : Byte) (req : Option Request) (x : Byte)
    (j : SlotId) : (s.took k 0x13 tag req).slots[j].Cancellable x ↔ s.slots[j].Cancellable x := by
  by_cases e : j = k
  · subst e
    rw [State.took_get]
    constructor
    · rintro ⟨-, -, type | type | type⟩ <;> cases type
    · rintro ⟨state, -⟩
      rw [h] at state
      cases state
  · rw [State.took_other s e]

/-! ### One leg of the cancelled slot (R65) -/

theorem Slot.modLeg_none {x : Slot} {role : Role} (h : x.leg role = none) (f : LegRecord → LegRecord) : x.modLeg role f = x := by
  cases role with
  | primary =>
    have e : x.primary = none := h
    simp only [Slot.modLeg, e, Option.map_none]
    rw [← e]
  | twin =>
    have e : x.twin = none := h
    simp only [Slot.modLeg, e, Option.map_none]
    rw [← e]

theorem Slot.modLeg_some {x : Slot} {role : Role} {l : LegRecord} (h : x.leg role = some l) {f g : LegRecord → LegRecord}
    (e : f l = g l) : x.modLeg role f = x.modLeg role g := by
  cases role with
  | primary =>
    have hl : x.primary = some l := h
    unfold Slot.modLeg
    simp only [hl, Option.map_some, e]
  | twin =>
    have hl : x.twin = some l := h
    unfold Slot.modLeg
    simp only [hl, Option.map_some, e]

theorem Slot.modLeg_id (x : Slot) (role : Role) : x.modLeg role id = x := by
  cases role <;> unfold Slot.modLeg <;> simp

section

variable {A : State} {j : SlotId} {X : Slot} {role : Role} {l : LegRecord}

theorem State.withSlot_legAt (A : State) (j : SlotId) (X : Slot) (role : Role) : (A.withSlot j X).legAt ⟨j, role⟩ = X.leg role := by
  unfold State.legAt
  rw [State.withSlot_get]

/-- A leg that is not QUEUED is cut-requested where it is IN_PROGRESS, and left otherwise. -/
theorem State.cancelLeg_stays {Y : Slot} (h : ∀ l, X.leg role = some l → l.state ≠ .queued) (hY : X.modLeg role A.cutsIfRunning = Y) :
    (A.withSlot j X).cancelLeg ⟨j, role⟩ = (A.withSlot j Y, []) := by
  subst hY
  unfold State.cancelLeg
  rw [State.withSlot_legAt]
  cases hl : X.leg role with
  | none => rw [Slot.modLeg_none hl]
  | some l =>
    cases hs : l.state with
    | queued => exact absurd hs (h l hl)
    | inProgress =>
      simp only [hs]
      rw [State.modLeg_withSlot, Slot.modLeg_some hl (g := A.cutsIfRunning)]
      unfold State.cutsIfRunning
      rw [if_pos hs]
      rfl
    | done =>
      simp only [hs]
      have left : A.cutsIfRunning l = id l := if_neg (by rw [hs]; nofun)
      rw [Slot.modLeg_some hl left, Slot.modLeg_id]

/-- A QUEUED leg leaves its queue as NOT_SENT, and its record is produced. -/
theorem State.cancelLeg_queued {Y : Slot} {time : Time} {tag : Byte} (hl : X.leg role = some l) (hj : l.slot = j) (hr : l.role = role)
    (hs : l.state = .queued) (hY : (X.modLeg role fun l => l.failed .notSent) = Y) (htime : A.clock.timeBase = time) (htag : X.tag = tag) :
    (A.withSlot j X).cancelLeg ⟨j, role⟩ = ((A.unqueues l).withSlot j Y, [l.unsent time tag .notSent]) := by
  subst hj hr hY htime htag
  have kept : ((A.withSlot l.slot X).modSeg l.segment fun g => { g with queue := g.queue.erase ⟨l.slot, l.role⟩ }) =
      (A.unqueues l).withSlot l.slot X := rfl
  have leg : ((A.unqueues l).withSlot l.slot X).legAt ⟨l.slot, l.role⟩ = some l := (State.withSlot_legAt ..).trans hl
  unfold State.cancelLeg
  rw [State.withSlot_legAt, hl]
  simp only [hs]
  rw [kept]
  unfold State.failLeg
  rw [leg]
  simp only [State.modLeg_withSlot]
  congr 2
  unfold State.completionOf
  rw [State.withSlot_get]
  rfl

/-- A record of a cancelled slot that is not settled by it is only noted there (R54). -/
theorem State.consume_cancelled_open {r : CompletionRecord} {q : Role} {Y : Slot} (hj : r.slot = j) (hr : r.role = role)
    (hY : (X.modLeg role fun l => { l with delivered := true }) = Y) (hc : Y.cancelled = true) (hl : Y.leg q = some l)
    (hs : l.settled = false) :
    (A.withSlot j X).consume r =
      (State.watchRecord ((A.withSlot j Y).offer r.toRecordCopy.logEntry) r.toRecordCopy, []) := by
  subst hj hr
  have slot : ((A.withSlot r.slot X).slots[r.slot]).modLeg r.role (fun l => { l with delivered := true }) = Y := by
    rw [State.withSlot_get, hY]
  have noTwin : Y.wantsTwin r = false := Slot.wantsTwin_false fun ⟨_, _, _, _, live, _⟩ => by rw [hc] at live; cases live
  rw [State.consume_open _ r slot noTwin (Slot.allSettled_false hl hs), State.offer_withSlot, State.withSlot_withSlot]
  rfl

/-- A record of a cancelled slot that is settled by it answers it CANCELLED (R54, R57). -/
theorem State.consume_cancelled_closes {b : State} {r : CompletionRecord} {p : LegRecord} {Y : Slot} {f : List Byte} (hj : r.slot = j)
    (hr : r.role = role) (hX : b.slots[j] = X) (hY : (X.modLeg role fun l => { l with delivered := true }) = Y)
    (hw : Y.state = .working) (hc : Y.cancelled = true) (hp : Y.primary = some p) (hs : Y.allSettled = true)
    (hf : transferFields .cancelled p Y.twin = f) :
    b.consume r = (State.watchRecord ((b.offer r.toRecordCopy.logEntry).closes j Y .cancelled f) r.toRecordCopy, []) := by
  subst hj hr hf
  have slot : (b.slots[r.slot]).modLeg r.role (fun l => { l with delivered := true }) = Y := by rw [hX, hY]
  have noTwin : Y.wantsTwin r = false := Slot.wantsTwin_false fun ⟨_, _, _, _, live, _⟩ => by rw [hc] at live; cases live
  rw [State.consume_closes _ r slot noTwin hw hp hs, hc]
  rfl

theorem transferFields_cancelled_single {p : LegRecord} {po : LegOutcome} (hp : p.outcome = some po) :
    transferFields .cancelled p none = [po.code, byteOf p.bytes, 0] := by
  rw [transferFields_single _ hp, replyData_failed (res := .cancelled) _ _ nofun nofun nofun nofun]
  rfl

theorem transferFields_cancelled_twin {p t : LegRecord} {po tw : LegOutcome} (hp : p.outcome = some po) (ht : t.outcome = some tw) :
    transferFields .cancelled p (some t) = [po.code, byteOf p.bytes, 1, tw.code, byteOf t.bytes] := by
  rw [transferFields_twin _ hp ht, replyData_failed (res := .cancelled) _ _ nofun nofun nofun nofun]
  rfl

end

/-! ### CANCEL carried out -/

/-- The CANCEL of a transfer that is there, by what it makes of that transfer (R65, R67). -/
theorem exec_cancel_found {s t : State} {k j : SlotId} (h : s.LowestFree k) (tag : Byte) {x : Byte} (hj : s.slots[j].Cancellable x)
    (only : ∀ i : SlotId, i ≠ j → ¬ s.slots[i].Cancellable x) (ht : (s.took k 0x13 tag (some (.cancel x))).cancelSlot j = t)
    {answered : Bool} (ha : answered = true ↔ t.slots[j].state = .answered) :
    exec (.cancel tag [x]) s = .next (t.closes k t.slots[k] .ok [x, boolByte answered]) := by
  have apart : k ≠ j := fun e => by
    have working := hj.1
    rw [← e, h.2.1] at working
    cases working
  have found : (s.took k 0x13 tag (some (.cancel x))).findTransfer x = some j :=
    State.findTransfer_some ((State.took_cancellable h.2.1 ..).2 hj) fun i hi e => only i hi ((State.took_cancellable h.2.1 ..).1 e)
  have own : t.slots[k] = { Slot.freed with state := .working, tag := tag, reqType := some 0x13, request := some (.cancel x) } := by
    rw [← ht]
    exact State.cancelSlot_legless ⟨rfl, rfl, rfl⟩ _ apart (State.took_get ..)
  have flag : decide (t.slots[j].state = .answered) = answered := by
    rw [Bool.eq_iff_iff, decide_eq_true_iff]
    exact ha.symm
  refine congrArg Host.Outcome.next ((State.deliver_decoded h _ tag (decoded := decodeCancel [x]) rfl _ State.carryCancel).trans ?_)
  unfold State.carryCancel
  rw [show (s.took k ReqType.cancel.code tag (some (.cancel x))).findTransfer x = some j from found]
  show State.answer (State.cancelSlot (s.took k 0x13 tag (some (.cancel x))) j) k .ok
    [x, boolByte (decide ((State.cancelSlot (s.took k 0x13 tag (some (.cancel x))) j).slots[j].state = .answered))] = _
  rw [ht, flag, State.answer_closes _ _ _ _ (by rw [own])]

theorem deliverAll_consumed {s a : State} {r : CompletionRecord} (h : s.consume r = (a, [])) : deliverAll (s, [r]) = a := by
  rw [deliverAll_one (by rw [h]), h]

theorem deliverAll_consumed_cons {s a : State} {r : CompletionRecord} (rs : List CompletionRecord) (h : s.consume r = (a, [])) :
    deliverAll (s, r :: rs) = deliverAll (a, rs) := by
  rw [deliverAll_cons rs (by rw [h]), h]

/-- A cancelled slot with its legs in any condition. -/
abbrev Slot.cancelledWith (x : Slot) (p t : Option LegRecord) : Slot := { x with cancelled := true, primary := p, twin := t }

theorem State.cancelLegs_eq {s a b : State} {j : SlotId} {rs ts : List CompletionRecord} (hp : s.cancelLeg ⟨j, .primary⟩ = (a, rs))
    (ht : a.cancelLeg ⟨j, .twin⟩ = (b, ts)) : s.cancelLegs j = (b, rs ++ ts) := by
  unfold State.cancelLegs
  rw [hp]
  simp only [ht]

theorem State.cancelSlot_eq {s : State} {j : SlotId} {x : Slot} (h : s.slots[j] = x) :
    s.cancelSlot j = deliverAll ((s.withSlot j (x.cancelledWith x.primary x.twin)).cancelLegs j) := by
  unfold State.cancelSlot
  rw [State.modSlot_eq, h]

theorem State.unqueues_resetRequested (A : State) (q : LegRecord) (n : SegId) :
    ((A.unqueues q).segs[n]).resetRequested = (A.segs[n]).resetRequested := by
  unfold State.unqueues
  by_cases e : n = q.segment
  · subst e
    rw [State.withSeg_get]
  · rw [State.withSeg_other _ e]

theorem State.unqueues_cuts (A : State) (q l : LegRecord) : (A.unqueues q).cuts l = A.cuts l := by
  unfold State.cuts
  rw [State.unqueues_resetRequested]

theorem State.cutsIfRunning_running (A : State) {l : LegRecord} (h : l.state = .inProgress) : A.cutsIfRunning l = A.cuts l := if_pos h

theorem State.cuts_unsettled (A : State) {l : LegRecord} (h : l.state = .inProgress) : (A.cuts l).settled = false := by
  rw [← Bool.not_eq_true, LegRecord.settled_iff]
  rintro ⟨done, -⟩
  rw [show (A.cuts l).state = l.state from rfl, h] at done
  cases done

theorem State.cutsIfRunning_done (A : State) {l : LegRecord} (h : l.state = .done) : A.cutsIfRunning l = l := if_neg (by rw [h]; nofun)

/-- A cancelled transfer whose last record has been delivered is ANSWERED. -/
theorem State.closes_watched (b : State) (j : SlotId) (Y : Slot) (res : ResultCode) (f : List Byte) (r : RecordCopy) :
    true = true ↔ (((b.closes j Y res f).watchRecord r).slots[j]).state = .answered := by
  have slot : ((b.closes j Y res f).watchRecord r).slots[j] = Y.answered res f := by
    rw [State.watchRecord_slots]
    simp [State.closes]
  rw [slot]
  exact ⟨fun _ => rfl, fun _ => rfl⟩

/-- A cancelled transfer with a leg still running stays WORKING. -/
theorem State.open_watched (A : State) (j : SlotId) {Y : Slot} (hY : Y.state = .working) (e : LogEntry) (r : RecordCopy) :
    false = true ↔ ((((A.withSlot j Y).offer e).watchRecord r).slots[j]).state = .answered := by
  have slot : (((A.withSlot j Y).offer e).watchRecord r).slots[j] = Y := by
    rw [State.watchRecord_slots]
    exact State.withSlot_get A j Y
  rw [slot, hY]
  exact ⟨nofun, nofun⟩

/-- A change of one slot and the taking of another do not meet. -/
theorem State.took_withSlot (s : State) {j k : SlotId} (h : k ≠ j) (type tag : Byte) (req : Option Request) (Y : Slot) :
    (s.took k type tag req).withSlot j Y = (s.withSlot j Y).took k type tag req := by
  unfold State.took State.withSlot
  simp only
  rw [Vector.set_comm _ _ fun e => h (Fin.ext e)]

section

variable {a : State} {j : SlotId} {x : Slot} {p w : LegRecord} {time : Time} {tag : Byte} (hx : a.slots[j] = x) (hp : x.primary = some p)
  (hw : x.twin = some w) (htime : a.clock.timeBase = time) (htag : x.tag = tag)
include hx hp hw htime htag

/-- Two QUEUED legs both leave their queues, and their records answer the transfer (R65; log 13). -/
theorem State.cancelSlot_queuedBoth (working : x.state = .working) (pslot : p.slot = j) (prole : p.role = .primary) (wslot : w.slot = j) (wrole : w.role = .twin)
    (pq : p.state = .queued) (wq : w.state = .queued) (fresh : w.delivered = false) :
    a.cancelSlot j =
      State.watchRecord
        (((State.watchRecord
            ((((a.unqueues p).unqueues w).withSlot j
              (x.cancelledWith (some (p.ended .notSent 0 [])) (some (w.failed .notSent)))).offer (p.copy time tag 0 .notSent none).logEntry)
            (p.copy time tag 0 .notSent none)).offer (w.copy time tag 0 .notSent none).logEntry).closes j
          (x.cancelledWith (some (p.ended .notSent 0 [])) (some (w.ended .notSent 0 []))) .cancelled [6, 0, 1, 6, 0])
        (w.copy time tag 0 .notSent none) := by
  have cancels := State.cancelSlot_eq hx
  rw [hp, hw] at cancels
  have legs := State.cancelLegs_eq
    (State.cancelLeg_queued (A := a) (j := j) (role := .primary) (X := x.cancelledWith (some p) (some w))
      (Y := x.cancelledWith (some (p.failed .notSent)) (some w)) rfl pslot prole pq rfl htime htag)
    (State.cancelLeg_queued (role := .twin) (Y := x.cancelledWith (some (p.failed .notSent)) (some (w.failed .notSent))) rfl
      wslot wrole wq rfl htime htag)
  rw [legs, List.singleton_append] at cancels
  have unsettled : (w.failed .notSent).settled = false := by
    rw [← Bool.not_eq_true, LegRecord.settled_iff]
    rintro ⟨-, delivered⟩
    rw [show (w.failed .notSent).delivered = w.delivered from rfl, fresh] at delivered
    cases delivered
  have first := State.consume_cancelled_open (A := (a.unqueues p).unqueues w) (j := j) (role := .primary) (q := .twin)
    (X := x.cancelledWith (some (p.failed .notSent)) (some (w.failed .notSent)))
    (Y := x.cancelledWith (some (p.ended .notSent 0 [])) (some (w.failed .notSent)))
    (r := p.unsent time tag .notSent) pslot prole rfl rfl rfl unsettled
  have second := State.consume_cancelled_closes (j := j) (role := .twin) (p := p.ended .notSent 0 [])
    (X := x.cancelledWith (some (p.ended .notSent 0 [])) (some (w.failed .notSent)))
    (Y := x.cancelledWith (some (p.ended .notSent 0 [])) (some (w.ended .notSent 0 [])))
    (b := ((((a.unqueues p).unqueues w).withSlot j (x.cancelledWith (some (p.ended .notSent 0 []))
      (some (w.failed .notSent)))).offer (p.copy time tag 0 .notSent none).logEntry).watchRecord
        (p.copy time tag 0 .notSent none))
    (r := w.unsent time tag .notSent) wslot wrole (by rw [State.watchRecord_slots]; exact State.withSlot_get ..) rfl working rfl
    rfl rfl (transferFields_cancelled_twin (po := .notSent) (tw := .notSent) rfl rfl)
  exact cancels.trans ((deliverAll_consumed_cons _ first).trans (deliverAll_consumed second))

/-- A QUEUED primary leaves its queue, and its twin on the wires is cut-requested (R65). -/
theorem State.cancelSlot_queuedRunning (pslot : p.slot = j) (prole : p.role = .primary)
    (pq : p.state = .queued) (wr : w.state = .inProgress) :
    a.cancelSlot j =
      State.watchRecord
        (((a.unqueues p).withSlot j (x.cancelledWith (some (p.ended .notSent 0 [])) (some (a.cuts w)))).offer
          (p.copy time tag 0 .notSent none).logEntry) (p.copy time tag 0 .notSent none) := by
  have cancels := State.cancelSlot_eq hx
  rw [hp, hw] at cancels
  have legs := State.cancelLegs_eq
    (State.cancelLeg_queued (A := a) (j := j) (role := .primary) (X := x.cancelledWith (some p) (some w))
      (Y := x.cancelledWith (some (p.failed .notSent)) (some w)) rfl pslot prole pq rfl htime htag)
    (State.cancelLeg_stays (role := .twin) (Y := x.cancelledWith (some (p.failed .notSent)) (some (a.cuts w)))
      (by rintro l ⟨⟩; rw [wr]; nofun) (by rw [← State.unqueues_cuts a p, ← State.cutsIfRunning_running _ wr]; rfl))
  rw [legs, List.append_nil] at cancels
  have first := State.consume_cancelled_open (A := a.unqueues p) (j := j) (role := .primary) (q := .twin)
    (X := x.cancelledWith (some (p.failed .notSent)) (some (a.cuts w)))
    (Y := x.cancelledWith (some (p.ended .notSent 0 [])) (some (a.cuts w)))
    (r := p.unsent time tag .notSent) pslot prole rfl rfl rfl (State.cuts_unsettled a wr)
  exact cancels.trans (deliverAll_consumed first)

/-- A QUEUED twin leaves its queue, and its primary on the wires is cut-requested (R65). -/
theorem State.cancelSlot_runningQueued (wslot : w.slot = j) (wrole : w.role = .twin)
    (pr : p.state = .inProgress) (wq : w.state = .queued) :
    a.cancelSlot j =
      State.watchRecord
        (((a.unqueues w).withSlot j (x.cancelledWith (some (a.cuts p)) (some (w.ended .notSent 0 [])))).offer
          (w.copy time tag 0 .notSent none).logEntry) (w.copy time tag 0 .notSent none) := by
  have cancels := State.cancelSlot_eq hx
  rw [hp, hw] at cancels
  have legs := State.cancelLegs_eq
    (State.cancelLeg_stays (A := a) (j := j) (role := .primary) (X := x.cancelledWith (some p) (some w))
      (Y := x.cancelledWith (some (a.cuts p)) (some w))
      (by rintro l ⟨⟩; rw [pr]; nofun) (by rw [← State.cutsIfRunning_running _ pr]; rfl))
    (State.cancelLeg_queued (role := .twin) (Y := x.cancelledWith (some (a.cuts p)) (some (w.failed .notSent))) rfl
      wslot wrole wq rfl htime htag)
  rw [legs, List.nil_append] at cancels
  have first := State.consume_cancelled_open (A := a.unqueues w) (j := j) (role := .twin) (q := .primary)
    (X := x.cancelledWith (some (a.cuts p)) (some (w.failed .notSent)))
    (Y := x.cancelledWith (some (a.cuts p)) (some (w.ended .notSent 0 [])))
    (r := w.unsent time tag .notSent) wslot wrole rfl rfl rfl (State.cuts_unsettled a pr)
  exact cancels.trans (deliverAll_consumed first)

/-- A QUEUED twin leaves its queue where its primary has ended before, and its record answers the transfer (R65). -/
theorem State.cancelSlot_doneQueued {o : LegOutcome} (working : x.state = .working) (wslot : w.slot = j) (wrole : w.role = .twin)
    (pd : p.state = .done) (pdel : p.delivered = true) (po : p.outcome = some o)
    (wq : w.state = .queued) :
    a.cancelSlot j =
      State.watchRecord
        (((a.unqueues w).offer (w.copy time tag 0 .notSent none).logEntry).closes j
          (x.cancelledWith (some p) (some (w.ended .notSent 0 []))) .cancelled [o.code, byteOf p.bytes, 1, 6, 0])
        (w.copy time tag 0 .notSent none) := by
  have cancels := State.cancelSlot_eq hx
  rw [hp, hw] at cancels
  have legs := State.cancelLegs_eq
    (State.cancelLeg_stays (A := a) (j := j) (role := .primary) (X := x.cancelledWith (some p) (some w))
      (Y := x.cancelledWith (some p) (some w))
      (by rintro l ⟨⟩; rw [pd]; nofun) (by show x.cancelledWith (some (a.cutsIfRunning p)) _ = _; rw [State.cutsIfRunning_done _ pd]))
    (State.cancelLeg_queued (role := .twin) (Y := x.cancelledWith (some p) (some (w.failed .notSent))) rfl
      wslot wrole wq rfl htime htag)
  rw [legs, List.nil_append] at cancels
  have settled : (x.cancelledWith (some p) (some (w.ended .notSent 0 []))).allSettled = true :=
    Slot.allSettled_true rfl fun
      | .primary, _, rfl => ⟨pd, pdel⟩
      | .twin, _, rfl => ⟨rfl, rfl⟩
  have closes := State.consume_cancelled_closes (j := j) (role := .twin) (p := p) (X := x.cancelledWith (some p) (some (w.failed .notSent)))
    (Y := x.cancelledWith (some p) (some (w.ended .notSent 0 [])))
    (b := (a.unqueues w).withSlot j (x.cancelledWith (some p) (some (w.failed .notSent))))
    (r := w.unsent time tag .notSent) wslot wrole (State.withSlot_get ..) rfl working rfl rfl settled
    (transferFields_cancelled_twin (tw := .notSent) po rfl)
  rw [State.offer_withSlot, State.closes_withSlot] at closes
  exact cancels.trans (deliverAll_consumed closes)

/-- A QUEUED primary leaves its queue where its twin has ended before, and its record answers the transfer (R65). -/
theorem State.cancelSlot_queuedDone {o : LegOutcome} (working : x.state = .working) (pslot : p.slot = j) (prole : p.role = .primary)
    (wd : w.state = .done) (wdel : w.delivered = true) (wo : w.outcome = some o)
    (pq : p.state = .queued) :
    a.cancelSlot j =
      State.watchRecord
        (((a.unqueues p).offer (p.copy time tag 0 .notSent none).logEntry).closes j
          (x.cancelledWith (some (p.ended .notSent 0 [])) (some w)) .cancelled [6, 0, 1, o.code, byteOf w.bytes])
        (p.copy time tag 0 .notSent none) := by
  have cancels := State.cancelSlot_eq hx
  rw [hp, hw] at cancels
  have legs := State.cancelLegs_eq
    (State.cancelLeg_queued (A := a) (j := j) (role := .primary) (X := x.cancelledWith (some p) (some w))
      (Y := x.cancelledWith (some (p.failed .notSent)) (some w)) rfl pslot prole pq rfl htime htag)
    (State.cancelLeg_stays (role := .twin) (Y := x.cancelledWith (some (p.failed .notSent)) (some w))
      (by rintro l ⟨⟩; rw [wd]; nofun)
      (by show x.cancelledWith _ (some ((a.unqueues p).cutsIfRunning w)) = _; rw [State.cutsIfRunning_done _ wd]))
  rw [legs, List.append_nil] at cancels
  have settled : (x.cancelledWith (some (p.ended .notSent 0 [])) (some w)).allSettled = true :=
    Slot.allSettled_true rfl fun
      | .primary, _, rfl => ⟨rfl, rfl⟩
      | .twin, _, rfl => ⟨wd, wdel⟩
  have closes := State.consume_cancelled_closes (j := j) (role := .primary) (p := p.ended .notSent 0 [])
    (X := x.cancelledWith (some (p.failed .notSent)) (some w))
    (Y := x.cancelledWith (some (p.ended .notSent 0 [])) (some w))
    (b := (a.unqueues p).withSlot j (x.cancelledWith (some (p.failed .notSent)) (some w)))
    (r := p.unsent time tag .notSent) pslot prole (State.withSlot_get ..) rfl working rfl rfl settled
    (transferFields_cancelled_twin (po := .notSent) rfl wo)
  rw [State.offer_withSlot, State.closes_withSlot] at closes
  exact cancels.trans (deliverAll_consumed closes)

end

/-- Settles O17: leg by leg, and record by record. -/
theorem cancelEndsOrCutsTheTransfer : Obligations.CancelEndsOrCutsTheTransfer := by
  unfold Obligations.CancelEndsOrCutsTheTransfer
  intro tag payload s k h
  refine ⟨fun hn => congrArg Host.Outcome.next ?refused, fun x hp => ?decoded⟩
  case refused => exact State.deliver_refused h _ tag (fun x e => hn (by rw [decodeCancel_some e]; rfl)) _ _
  case decoded =>
    subst hp
    refine ⟨fun none_there => congrArg Host.Outcome.next ?absent, fun j hj only => ?found⟩
    case absent =>
      have nothing : (s.took k ReqType.cancel.code tag (some (.cancel x))).findTransfer x = none :=
        State.findTransfer_none fun j e => none_there j ((State.took_cancellable h.2.1 ..).1 e)
      refine (State.deliver_decoded h _ tag (decoded := decodeCancel [x]) rfl _ State.carryCancel).trans ?_
      unfold State.carryCancel
      rw [nothing]
      exact State.took_answer s _ _ _ _ _ _
    case found =>
      have apart : k ≠ j := fun e => by
        have working := hj.1
        rw [← e, h.2.1] at working
        cases working
      have same : (s.took k 0x13 tag (some (.cancel x))).slots[j] = s.slots[j] := State.took_other s (Ne.symm apart) ..
      have cancels := State.cancelSlot_eq same
      have working := hj.1
      have tagged := hj.2.1
      refine ⟨fun unqueued => ?cut, fun l hl noTwin queued hslot hrole => ?alone, fun p w a rp rw_ hp hw pslot prole wslot wrole ha hrp hrw => ?both⟩
      case cut =>
        have legs := State.cancelLegs_eq
          (State.cancelLeg_stays (A := s.took k 0x13 tag (some (.cancel x))) (j := j) (role := .primary)
            (X := s.slots[j].cancelledWith s.slots[j].primary s.slots[j].twin) (unqueued .primary) rfl)
          (State.cancelLeg_stays (role := .twin) (unqueued .twin) rfl)
        rw [legs] at cancels
        have took := State.took_withSlot s apart 0x13 tag (some (.cancel x))
          (s.slots[j].cancelledWith (s.slots[j].primary.map s.cutsIfRunning) (s.slots[j].twin.map s.cutsIfRunning))
        have working' : false = true ↔ ((State.took (s.withSlot j (s.slots[j].cancelledWith (s.slots[j].primary.map s.cutsIfRunning)
            (s.slots[j].twin.map s.cutsIfRunning))) k 0x13 tag (some (.cancel x))).slots[j]).state = .answered := by
          rw [State.took_other _ (Ne.symm apart), State.withSlot_get, working]
          exact ⟨nofun, nofun⟩
        refine (exec_cancel_found h tag hj only (cancels.trans took) working').trans (congrArg Host.Outcome.next ?_)
        exact (State.answer_closes _ _ _ _ (by rw [State.took_get])).symm.trans (State.took_answer ..)
      case alone =>
        have leg := State.cancelLeg_queued (A := s.took k 0x13 tag (some (.cancel x))) (j := j) (role := .primary)
          (X := s.slots[j].cancelledWith (some l) none) rfl hslot hrole queued rfl rfl tagged
        have legs := State.cancelLegs_eq leg (State.cancelLeg_stays (role := .twin) nofun rfl)
        rw [hl, noTwin, legs, List.append_nil] at cancels
        have closes := State.consume_cancelled_closes (j := j) (role := .primary) (p := l.ended .notSent 0 [])
          (b := ((s.took k 0x13 tag (some (.cancel x))).unqueues l).withSlot j (s.slots[j].cancelledWith (some (l.failed .notSent)) none))
          (Y := s.slots[j].cancelledWith (some (l.ended .notSent 0 [])) none) (r := l.unsent s.clock.timeBase x .notSent) hslot hrole
          (State.withSlot_get ..) rfl working rfl rfl rfl (transferFields_cancelled_single (po := .notSent) rfl)
        have removed : (s.took k 0x13 tag (some (.cancel x))).unqueues l =
            (s.took k 0x13 tag (some (.cancel x))).withSeg l.segment
              { s.segs[l.segment] with queue := s.segs[l.segment].queue.erase { slot := j, role := .primary } } := by
          unfold State.unqueues
          rw [hslot, hrole]
          rfl
        rw [State.offer_withSlot, State.closes_withSlot] at closes
        have ended : ({ s.slots[j] with cancelled := true, primary := some (l.ended .notSent 0 []) } : Slot) =
            s.slots[j].cancelledWith (some (l.ended .notSent 0 [])) none := by rw [← noTwin]
        refine ⟨_, rfl, exec_cancel_found h tag hj only (answered := true) ?_ (State.closes_watched ..)⟩
        rw [ended, ← removed]
        exact cancels.trans ((deliverAll_one (congrArg Prod.snd closes)).trans (congrArg Prod.fst closes))
      case both =>
        have own : a.slots[j] = s.slots[j] := by rw [ha]; exact same
        have time : a.clock.timeBase = s.clock.timeBase := by rw [ha]; rfl
        have cuts : ∀ l, a.cuts l = s.cuts l := fun l => by rw [ha]; rfl
        have carried : ∀ {t : State} {b : Bool}, a.cancelSlot j = t → (b = true ↔ t.slots[j].state = .answered) →
            exec (.cancel tag [x]) s = .next (t.closes k t.slots[k] .ok [x, boolByte b]) := by
          intro t b ht hb
          rw [ha] at ht
          exact exec_cancel_found h tag hj only ht hb
        subst hrp hrw
        refine ⟨fun pq wq fresh => ?queuedBoth, fun pq wr => ?queuedRunning, fun pr wq => ?runningQueued, fun o pd pdel po wq => ?doneQueued,
          fun o wd wdel wo pq => ?queuedDone⟩
        case queuedBoth =>
          have done := State.cancelSlot_queuedBoth own hp hw time tagged working pslot prole wslot wrole pq wq fresh
          exact ⟨_, rfl, carried (b := true) done (State.closes_watched ..)⟩
        case queuedRunning =>
          have done := State.cancelSlot_queuedRunning own hp hw time tagged pslot prole pq wr
          rw [cuts] at done
          exact ⟨_, rfl, carried (b := false) done (State.open_watched _ j (Y := s.slots[j].cancelledWith _ _) working _ _)⟩
        case runningQueued =>
          have done := State.cancelSlot_runningQueued own hp hw time tagged wslot wrole pr wq
          rw [cuts] at done
          exact ⟨_, rfl, carried (b := false) done (State.open_watched _ j (Y := s.slots[j].cancelledWith _ _) working _ _)⟩
        case doneQueued =>
          have done := State.cancelSlot_doneQueued own hp hw time tagged working wslot wrole pd pdel po wq
          rw [← hp] at done
          exact ⟨_, rfl, carried (b := true) done (State.closes_watched ..)⟩
        case queuedDone =>
          have done := State.cancelSlot_queuedDone own hp hw time tagged working pslot prole wd wdel wo pq
          rw [← hw] at done
          exact ⟨_, rfl, carried (b := true) done (State.closes_watched ..)⟩

end Sys2Proof.Machine
end

section
/-! The segments (O18 to O23): leg decisions, the legs that an event fails, and SEG_CONFIG, SEG_STATUS, SEG_RESET and SEG_RESUME. -/

namespace Sys2Proof.Machine

/-! ### The decisions of a segment (R77, R78) -/

/-- Settles O18. -/
theorem legDecisionFollowsItsOrder : Obligations.LegDecisionFollowsItsOrder := by
  unfold Obligations.LegDecisionFollowsItsOrder
  intro s n g hg
  subst hg
  refine ⟨fun disabled => s.decideNext_off n disabled,
    fun enabled => ⟨fun r rest hq hf => s.decideNext_start n r rest enabled hq hf, fun kept => s.decideNext_idle n enabled kept⟩,
    fun idle => ⟨fun kept => s.decideStart_stays n (Or.inr kept), fun r rest hq hf => s.decideStart_starts n idle ?_ hf⟩,
    fun busy => s.decideStart_stays n (Or.inl busy)⟩
  have queue : s.segs[n].queue = r :: rest := hq
  rw [queue]
  exact List.cons_ne_nil r rest

/-! ### Legs that an event fails (R76) -/

/-- Where the record of a leg stands. -/
abbrev LegRecord.ref (l : LegRecord) : LegRef := { slot := l.slot, role := l.role }

theorem State.failLeg_eq {s : State} {l : LegRecord} (h : s.legAt l.ref = some l) (o : LegOutcome) :
    s.failLeg l.ref o = (s.modLeg l.ref fun x => x.finish o 0 [], [s.completionOf l.ref l o 0 none []]) := by
  unfold State.failLeg
  rw [h]

theorem State.failLeg_legAt_other (s : State) {r q : LegRef} (h : q ≠ r) (o : LegOutcome) : (s.failLeg r o).1.legAt q = s.legAt q := by
  unfold State.failLeg
  split
  · rfl
  · rw [State.legAt_modLeg, if_neg h]

theorem State.failLeg_tag (s : State) (r : LegRef) (o : LegOutcome) (k : SlotId) : (s.failLeg r o).1.slots[k].tag = s.slots[k].tag := by
  unfold State.failLeg
  split
  · rfl
  · rw [State.modLeg_get]
    split
    · exact Slot.modLeg_tag ..
    · rfl

/-- Failing legs touches no other leg. -/
theorem State.failLegs_legAt_other (o : LegOutcome) (q : LegRef) (rs : List LegRef) (s : State) (h : q ∉ rs) :
    (State.failLegs o rs s).1.legAt q = s.legAt q := by
  induction rs generalizing s with
  | nil => rfl
  | cons r rs ih =>
    obtain ⟨apart, rest⟩ := not_or.1 (mt List.mem_cons.2 h)
    exact (ih _ rest).trans (s.failLeg_legAt_other apart o)

/-- Legs that stand where their references say are failed one by one, with their records in order. -/
theorem State.failLegs_recorded (o : LegOutcome) (legs : List LegRecord) (s : State) (once : (legs.map LegRecord.ref).Nodup)
    (there : ∀ l ∈ legs, s.legAt l.ref = some l) :
    (State.failLegs o (legs.map LegRecord.ref) s).2.map CompletionRecord.toRecordCopy =
        legs.map (fun l => l.copy s.clock.timeBase s.slots[l.slot].tag 0 o none) ∧
      ∀ l ∈ legs, (State.failLegs o (legs.map LegRecord.ref) s).1.legAt l.ref = some (l.finish o 0 []) := by
  induction legs generalizing s with
  | nil => exact ⟨rfl, nofun⟩
  | cons l legs ih =>
    obtain ⟨first, rest⟩ := List.forall_mem_cons.1 there
    obtain ⟨apart, restOnce⟩ := List.nodup_cons.1 once
    have later : ∀ x ∈ legs, (s.failLeg l.ref o).1.legAt x.ref = some x := fun x hx =>
      (s.failLeg_legAt_other (fun e : x.ref = l.ref => apart (e ▸ List.mem_map_of_mem hx)) o).trans (rest x hx)
    obtain ⟨records, ended⟩ := ih (s.failLeg l.ref o).1 restOnce later
    refine ⟨?records, List.forall_mem_cons.2 ⟨?first, ended⟩⟩
    case records =>
      have own : (s.failLeg l.ref o).2.map CompletionRecord.toRecordCopy = [l.copy s.clock.timeBase s.slots[l.slot].tag 0 o none] := by
        rw [State.failLeg_eq first]
        rfl
      show ((s.failLeg l.ref o).2 ++ _).map CompletionRecord.toRecordCopy = _
      rw [List.map_append, own, records]
      simp only [State.failLeg_clock, State.failLeg_tag]
      rfl
    case first =>
      refine (State.failLegs_legAt_other o l.ref _ _ apart).trans ?_
      rw [State.failLeg_eq first, State.legAt_modLeg, if_pos rfl, first]
      rfl

/-- Settles O19, by induction on the queue. -/
theorem failedQueuedLegsAreRecordedInQueueOrder : Obligations.FailedQueuedLegsAreRecordedInQueueOrder := by
  unfold Obligations.FailedQueuedLegsAreRecordedInQueueOrder
  intro s n o legs queue once there
  have recorded := State.failLegs_recorded o legs (s.withSeg n { s.segs[n] with queue := [] }) (queue ▸ once) there
  have failed : s.failQueue n o = State.failLegs o (legs.map LegRecord.ref) (s.withSeg n { s.segs[n] with queue := [] }) := by
    rw [← queue]
    rfl
  rw [failed]
  refine ⟨?emptied, recorded.1, recorded.2, fun empty => ?none_queued⟩
  case emptied => rw [State.failLegs_segs, State.withSeg_get]
  case none_queued =>
    have same : s.modSeg n (fun g => { g with queue := [] }) = s := by
      rw [State.modSeg_eq, ← empty]
      exact s.withSeg_self n
    unfold State.failQueued State.failQueue
    rw [empty, same]
    rfl

/-! ### SEG_STATUS (R87) -/

theorem append_congr {a b c d : List Byte} (h : a = b) (k : c = d) : a ++ c = b ++ d := by rw [h, k]

/-- Settles O21. -/
theorem segStatusShowsTheSegment : Obligations.SegStatusShowsTheSegment := by
  unfold Obligations.SegStatusShowsTheSegment
  intro tag payload s k h
  refine ⟨fun n g a hp hg ha => congrArg Host.Outcome.next ?ok, fun hn => congrArg Host.Outcome.next ?refused⟩
  case ok =>
    subst hp hg ha
    refine (State.deliver_decoded h _ tag (decodeOne_byteOf (by decide) n) _ State.carrySegStatus).trans
      ((State.took_answer s _ _ _ _ _ _).trans ?_)
    refine congrArg (s.replied k 0x31 tag (some (.segStatus n)) .ok) (append_congr (append_congr (append_congr
      (append_congr (append_congr rfl ?pending) rfl) ?running) rfl) rfl)
    case pending =>
      show s.segs[n].pendingBytes = _
      unfold Segment.pendingBytes
      cases s.segs[n].pendingCfg <;> rfl
    case running =>
      show (s.took k 0x31 tag (some (.segStatus n))).inProgressBytes s.segs[n] = _
      unfold State.inProgressBytes
      cases s.segs[n].inProgress with
      | none => rfl
      | some r =>
        cases ho : r.orphan with
        | some o => simp only [ho]; rfl
        | none => cases hl : (s.took k 0x31 tag (some (.segStatus n))).legAt r.leg <;> simp only [ho, hl]
  case refused => exact State.deliver_refused h _ tag (fun i e => hn i (decodeOne_some e)) _ _

/-! ### SEG_RESUME (R88) -/

section

variable {a : State} {k : SlotId} {x : Slot} {n : SegId} {c : SegConfig}

/-- SEG_RESUME of a slot that is WORKING and holds no leg. -/
theorem State.carrySegResume_eq (own : a.slots[k] = x) (legless : x.Legless) (working : x.state = .working) {t : State}
    (ht : (a.withSeg n { a.segs[n] with hold := false }).decideStart n = t) :
    a.carrySegResume k n = t.closes k t.slots[k] .ok [byteOf n, boolByte a.segs[n].hold] := by
  subst ht
  have kept : ((a.withSeg n { a.segs[n] with hold := false }).decideStart n).slots[k] = x := State.decideStart_legless legless _ n own
  exact State.answer_closes _ _ _ _ ((congrArg Slot.state kept).trans working)

/-! ### SEG_CONFIG (R82, R83, R86) -/

/-- SEG_CONFIG with enable yes in IDLE or OFF (R82). -/
theorem State.carrySegConfig_enables (quiet : a.segs[n].state = .idle ∨ a.segs[n].state = .off) (enabled : c.enable = true) :
    a.carrySegConfig k (n, c) =
      (a.withSeg n ((a.segs[n].store c).rests .idle)).answer k .ok [byteOf n, 0, boolByte a.segs[n].pendingCfg.isSome, 0, 1] := by
  have atOnce : a.configAtOnce n c = a.withSeg n ((a.segs[n].store c).rests .idle) := by
    unfold State.configAtOnce
    simp only [enabled, if_true, State.modSeg_eq, State.withSeg_get, State.withSeg_withSeg,
      Segment.rest_eq_rests _ (rfl : SegState.idle.quiescent = true)]
  have carried : a.carrySegConfig k (n, c) = a.applyConfig k n c := by
    unfold State.carrySegConfig
    rcases quiet with h | h <;> simp only [h]
  rw [carried]
  unfold State.applyConfig State.configFields Segment.failedBy
  simp only [atOnce, State.withSeg_get, if_pos enabled]
  rfl

/-- SEG_CONFIG with enable no in IDLE or OFF (R82). -/
theorem State.carrySegConfig_disables (own : a.slots[k] = x) (legless : x.Legless) (working : x.state = .working)
    (quiet : a.segs[n].state = .idle ∨ a.segs[n].state = .off) (disabled : c.enable = false) {t : State}
    (ht : (a.withSeg n ((a.segs[n].store c).rests .off)).failQueued n .segmentOff = t) :
    a.carrySegConfig k (n, c) = t.closes k t.slots[k] .ok
      [byteOf n, 0, boolByte a.segs[n].pendingCfg.isSome, byteOf a.segs[n].queue.length, t.segs[n].state.code] := by
  have atOnce : a.configAtOnce n c = t := by
    rw [← ht]
    unfold State.configAtOnce State.switchOff State.failQueued
    simp only [disabled, Bool.false_eq_true, if_false, State.modSeg_eq, State.withSeg_get, State.withSeg_withSeg,
      Segment.rest_eq_rests _ (rfl : SegState.off.quiescent = true)]
  have carried : a.carrySegConfig k (n, c) = a.applyConfig k n c := by
    unfold State.carrySegConfig
    rcases quiet with h | h <;> simp only [h]
  have kept : t.slots[k] = x := ht ▸ State.failQueued_legless legless _ n .segmentOff own
  rw [carried]
  unfold State.applyConfig State.configFields Segment.failedBy
  rw [atOnce, disabled]
  exact State.answer_closes _ _ _ _ ((congrArg Slot.state kept).trans working)

/-- SEG_CONFIG with enable yes in ACTIVE or CLEARING (R83). -/
theorem State.carrySegConfig_defers (busy : a.segs[n].state = .active ∨ a.segs[n].state = .clearing) (enabled : c.enable = true) :
    a.carrySegConfig k (n, c) =
      (a.withSeg n { a.segs[n] with pendingCfg := some c }).answer k .ok
        [byteOf n, 1, boolByte a.segs[n].pendingCfg.isSome, 0, a.segs[n].state.code] := by
  have pending : a.configPending n c = a.withSeg n { a.segs[n] with pendingCfg := some c } := if_pos enabled
  have carried : a.carrySegConfig k (n, c) = a.deferConfig k n c := by
    unfold State.carrySegConfig
    rcases busy with h | h <;> simp only [h]
  rw [carried]
  unfold State.deferConfig State.configFields Segment.failedBy
  simp only [pending, State.withSeg_get, if_pos enabled]
  rfl

/-- SEG_CONFIG with enable no in ACTIVE or CLEARING (R83). -/
theorem State.carrySegConfig_failsQueue (own : a.slots[k] = x) (legless : x.Legless) (working : x.state = .working)
    (busy : a.segs[n].state = .active ∨ a.segs[n].state = .clearing) (disabled : c.enable = false) {t : State}
    (ht : (a.withSeg n { a.segs[n] with pendingCfg := some c }).failQueued n .segmentOff = t) :
    a.carrySegConfig k (n, c) = t.closes k t.slots[k] .ok
      [byteOf n, 1, boolByte a.segs[n].pendingCfg.isSome, byteOf a.segs[n].queue.length, t.segs[n].state.code] := by
  have pending : a.configPending n c = t := by
    rw [← ht]
    exact if_neg (by rw [disabled]; nofun)
  have carried : a.carrySegConfig k (n, c) = a.deferConfig k n c := by
    unfold State.carrySegConfig
    rcases busy with h | h <;> simp only [h]
  have kept : t.slots[k] = x := ht ▸ State.failQueued_legless legless _ n .segmentOff own
  rw [carried]
  unfold State.deferConfig State.configFields Segment.failedBy
  rw [pending, disabled]
  exact State.answer_closes _ _ _ _ ((congrArg Slot.state kept).trans working)

/-- SEG_CONFIG in FAULTED (R82). -/
theorem State.carrySegConfig_faulted (faulted : a.segs[n].state = .faulted) :
    a.carrySegConfig k (n, c) =
      if c.enable then a.answer k .stillFaulted [byteOf n]
      else (a.withSeg n (a.segs[n].store c)).answer k .ok [byteOf n, 0, boolByte a.segs[n].pendingCfg.isSome, 0, 4] := by
  unfold State.carrySegConfig State.configFaulted State.configFields
  simp only [faulted, State.modSeg_eq, State.withSeg_get]
  rw [show (a.segs[n].store c).state = .faulted from faulted]
  rfl

end

/-- Settles O23. -/
theorem segResumeClearsHold : Obligations.SegResumeClearsHold := by
  unfold Obligations.SegResumeClearsHold
  intro tag payload wires s k h
  have free : (s.withWires wires).LowestFree k := h
  refine ⟨fun hn => congrArg Host.Outcome.next ?refused, fun n hp => ⟨_, rfl, congrArg Host.Outcome.next ?resumed⟩⟩
  case refused => exact State.deliver_refused free _ tag (fun i e => hn i (decodeOne_some e)) _ _
  case resumed =>
    subst hp
    exact (State.deliver_decoded free _ tag (decodeOne_byteOf (by decide) n) _ State.carrySegResume).trans
      (State.carrySegResume_eq (State.took_get ..) ⟨rfl, rfl, rfl⟩ rfl rfl)

/-- The part with a SEG_CONFIG in its slot and the lines as read with it. -/
abbrev State.configuring (s : State) (wires : Wires) (k : SlotId) (tag : Byte) (n : SegId) (c : SegConfig) : State :=
  State.took { s with wires := wires } k 0x30 tag (some (.segConfig n c))

/-- A SEG_CONFIG whose fields decode is carried out on the part with its slot taken (R81). -/
theorem exec_segConfig_decoded {s : State} {k : SlotId} (h : s.LowestFree k) (tag : Byte) (wires : Wires) (n : SegId) (c : SegConfig)
    (hc : c.stretchLimit ≠ 0) {t : State}
    (ht : State.carrySegConfig k (n, c) (s.configuring wires k tag n c) = t) :
    exec (.segConfig tag [byteOf n, boolByte c.enable, c.rate.code, c.stretchLimit] wires) s = .next t := by
  have free : (s.withWires wires).LowestFree k := h
  exact congrArg Host.Outcome.next
    ((State.deliver_decoded free _ tag (decodeSegConfig_bytes n c hc) (fun f => .segConfig f.1 f.2) State.carrySegConfig).trans ht)

/-- Settles O20, by the state of the segment and the enable. -/
theorem segConfigGoesByTheSegmentState : Obligations.SegConfigGoesByTheSegmentState := by
  unfold Obligations.SegConfigGoesByTheSegmentState
  intro tag payload wires s k h
  have free : (s.withWires wires).LowestFree k := h
  refine ⟨fun hn => congrArg Host.Outcome.next ?refused, fun n c g stored pending hc hp hg hstored hpending => ?decoded⟩
  case refused =>
    exact State.deliver_refused free _ tag (fun f e => hn f.1 f.2 (decodeSegConfig_some e).2 (decodeSegConfig_some e).1) _ _
  case decoded =>
    subst hp hg hstored hpending
    refine ⟨fun faulted enabled => exec_segConfig_decoded h tag wires n c hc ?refuses,
      fun faulted disabled => exec_segConfig_decoded h tag wires n c hc ?stores,
      fun quiet enabled => exec_segConfig_decoded h tag wires n c hc ?enables,
      fun busy enabled => exec_segConfig_decoded h tag wires n c hc ?defers,
      fun quiet disabled => ⟨_, rfl, exec_segConfig_decoded h tag wires n c hc ?disables⟩,
      fun busy disabled => ⟨_, rfl, exec_segConfig_decoded h tag wires n c hc ?failsQueue⟩⟩
    case refuses =>
      exact (State.carrySegConfig_faulted (a := s.configuring wires k tag n c) faulted).trans
        ((if_pos enabled).trans (State.took_answer ..))
    case stores =>
      exact (State.carrySegConfig_faulted (a := s.configuring wires k tag n c) faulted).trans
        ((if_neg (by rw [disabled]; nofun)).trans
        (State.took_answer (State.withSeg { s with wires := wires } n _) ..))
    case enables =>
      exact (State.carrySegConfig_enables (a := s.configuring wires k tag n c) quiet enabled).trans
        (State.took_answer (State.withSeg { s with wires := wires } n _) ..)
    case defers =>
      exact (State.carrySegConfig_defers (a := s.configuring wires k tag n c) busy enabled).trans
        (State.took_answer (State.withSeg { s with wires := wires } n _) ..)
    case disables =>
      exact State.carrySegConfig_disables (a := s.configuring wires k tag n c) (State.took_get ..) ⟨rfl, rfl, rfl⟩ rfl quiet disabled rfl
    case failsQueue =>
      exact State.carrySegConfig_failsQueue (a := s.configuring wires k tag n c) (State.took_get ..) ⟨rfl, rfl, rfl⟩ rfl busy disabled rfl

/-! ### SEG_RESET (R128 to R130, R132) -/

/-- A bus clear begins from any state (R120). -/
theorem State.beginClear_eq (s : State) (n : SegId) (p : ClearPurpose) (owner : Option SlotId) :
    s.beginClear n p owner = s.withSeg n (s.segs[n].withdrawn.clearing p owner) := by
  have report : s.segs[n].reportFor .clearing =
      if s.segs[n].pauseRequested = true ∧ (s.segs[n].state = .off ∨ s.segs[n].state = .idle ∨ s.segs[n].state = .faulted)
        then [.withdrawal] else [] := by
    unfold Segment.reportFor
    simp only [← SegState.quiescent_iff]
    cases s.segs[n].pauseRequested <;> cases s.segs[n].state.quiescent <;> rfl
  unfold State.beginClear
  rw [State.modSeg_eq]
  refine congrArg (s.withSeg n) ?_
  unfold Segment.rest Segment.goto Segment.withdrawn Segment.clearing
  rw [report]
  rfl

theorem State.beginResetClear_eq (s : State) (n : SegId) (owner : Option SlotId) :
    s.beginResetClear n owner = s.withSeg n (s.segs[n].configured.withdrawn.clearing .reset owner) := by
  unfold State.beginResetClear
  rw [State.beginClear_eq, State.modSeg_eq, State.withSeg_get, State.withSeg_withSeg, Segment.applyPending_eq]

theorem Slot.isResetOf_iff (x : Slot) (n : SegId) : x.isResetOf n = true ↔ x.state = .working ∧ x.request = some (.segReset n) := by
  unfold Slot.isResetOf
  rw [Bool.and_eq_true, decide_eq_true_iff, decide_eq_true_iff]

theorem State.resetBusy_iff (a : State) (k : SlotId) (n : SegId) :
    a.resetBusy k n = true ↔ ∃ j : SlotId, j ≠ k ∧ a.slots[j].state = .working ∧ a.slots[j].request = some (.segReset n) := by
  unfold State.resetBusy
  rw [List.any_eq_true]
  constructor
  · rintro ⟨j, -, found⟩
    obtain ⟨apart, reset⟩ := Bool.and_eq_true_iff.1 found
    exact ⟨j, decide_eq_true_iff.1 apart, (Slot.isResetOf_iff _ n).1 reset⟩
  · rintro ⟨j, apart, reset⟩
    exact ⟨j, List.mem_finRange j, Bool.and_eq_true_iff.2 ⟨decide_eq_true_iff.2 apart, (Slot.isResetOf_iff _ n).2 reset⟩⟩

/-- A SEG_RESET being taken finds another of its segment where the part holds one (R128). -/
theorem State.resetBusy_took {s : State} {k : SlotId} (h : s.slots[k].state = .free) (type tag : Byte) (req : Option Request) (n : SegId) :
    (s.took k type tag req).resetBusy k n = true ↔
      ∃ j : SlotId, s.slots[j].state = .working ∧ s.slots[j].request = some (.segReset n) := by
  rw [State.resetBusy_iff]
  constructor
  · rintro ⟨j, apart, reset⟩
    rw [State.took_other s apart] at reset
    exact ⟨j, reset⟩
  · rintro ⟨j, reset⟩
    have apart : j ≠ k := by
      rintro rfl
      rw [h] at reset
      cases reset.1
    exact ⟨j, apart, by rw [State.took_other s apart]; exact reset⟩

/-- The part with a SEG_RESET in progress in a slot, and the assembler back in HUNT. -/
abbrev State.resetting (s : State) (k : SlotId) (tag : Byte) (n : SegId) (failed : Nat) : State :=
  State.withSlot { s with link := { s.link with assembler := .hunt } } k (resetSlotOf tag n failed)

/-- The account of a SEG_RESET opens in the slot that took it (R132). -/
theorem State.took_resetting (s : State) (k : SlotId) (tag : Byte) (n : SegId) (failed : Nat) :
    ((s.took k 0x32 tag (some (.segReset n))).modSlot k fun x => { x with resetAccount := some { legsFailed := failed, leg := .noLeg } }) =
      s.resetting k tag n failed := by
  rw [State.modSlot_eq, State.took_get]
  exact State.withSlot_withSlot { s with link := { s.link with assembler := .hunt } } k _ _

/-- A SEG_RESET ends in a WORKING slot that holds its account (R131, R132, R159). -/
theorem State.finishReset_closes {a : State} {k : SlotId} {x : Slot} {account : ResetAccount} (own : a.slots[k] = x)
    (working : x.state = .working) (hx : x.resetAccount = some account) (n : SegId) (res : ResultCode) (pulses : Nat) (st : SegState) :
    a.finishReset n k res pulses st =
      (a.offer (.segmentReset a.clock.timeBase n x.tag res)).closes k x res
        [byteOf n, byteOf account.legsFailed, account.leg.code, byteOf pulses, st.code] := by
  subst own
  unfold State.finishReset
  rw [hx]
  exact State.answer_closes _ _ _ _ working

/-- SEG_RESET of an OFF segment ends at once (R129, R132). -/
theorem State.carrySegReset_off {s : State} {k : SlotId} {n : SegId} (tag : Byte)
    (alone : (s.took k 0x32 tag (some (.segReset n))).resetBusy k n = false) (off : s.segs[n].state = .off) :
    (s.took k 0x32 tag (some (.segReset n))).carrySegReset k n =
      (State.offer (State.withSeg { s with link := { s.link with assembler := .hunt } } n { s.segs[n] with hold := false })
        (.segmentReset s.clock.timeBase n tag .ok)).closes k (resetSlotOf tag n 0) .ok [byteOf n, 0, 0, 0, 0] := by
  have own : ((s.resetting k tag n 0).withSeg n { s.segs[n] with hold := false }).slots[k] = resetSlotOf tag n 0 :=
    State.withSlot_get ..
  refine (if_neg (by rw [alone]; nofun)).trans ((if_pos (show s.segs[n].state = .off from off)).trans ?_)
  rw [State.took_resetting]
  refine (State.finishReset_closes
    (a := (s.resetting k tag n 0).withSeg n { s.segs[n] with hold := false }) own rfl rfl n .ok 0 .off).trans ?_
  exact State.closes_withSlot (State.offer (State.withSeg { s with link := { s.link with assembler := .hunt } } n
    { s.segs[n] with hold := false }) (.segmentReset s.clock.timeBase n tag .ok)) ..

/-- SEG_RESET of a segment that is not OFF fails its queue, and goes on by what the segment does (R129, R130). -/
theorem State.carrySegReset_proceeds {s : State} {k : SlotId} {n : SegId} (tag : Byte)
    (alone : (s.took k 0x32 tag (some (.segReset n))).resetBusy k n = false) (on : s.segs[n].state ≠ .off) {b : State}
    (hb : (s.resetting k tag n s.segs[n].queue.length).failQueued n .segmentReset = b) :
    (s.took k 0x32 tag (some (.segReset n))).carrySegReset k n = (b.withSeg n { b.segs[n] with hold := false }).resetProceed k n := by
  subst hb
  refine (if_neg (by rw [alone]; nofun)).trans ((if_neg (show ¬ s.segs[n].state = .off from on)).trans ?_)
  unfold State.resetQueue
  rw [show (s.took k 0x32 tag (some (.segReset n))).segs[n].queue.length = s.segs[n].queue.length from rfl, State.took_resetting]
  rfl

section

variable {b : State} {n : SegId} {g : Segment} (k : SlotId)

theorem State.resetProceed_running (running : g.inProgress.isSome = true) :
    (b.withSeg n g).resetProceed k n = b.withSeg n { g with resetRequested := true } := by
  unfold State.resetProceed
  rw [State.withSeg_get, if_pos running, State.modSeg_eq, State.withSeg_get, State.withSeg_withSeg]

theorem State.resetProceed_clearing (idle : g.inProgress = none) (clearing : g.state = .clearing) :
    (b.withSeg n g).resetProceed k n = b.withSeg n { g with clear := g.clear.map fun c => { c with owner := some k } } := by
  unfold State.resetProceed
  rw [State.withSeg_get, if_neg (by rw [idle]; nofun), if_pos clearing, State.modSeg_eq, State.withSeg_get, State.withSeg_withSeg]

theorem State.resetProceed_clears (idle : g.inProgress = none) (quiet : g.state ≠ .clearing) :
    (b.withSeg n g).resetProceed k n = b.withSeg n (g.configured.withdrawn.clearing .reset (some k)) := by
  unfold State.resetProceed
  rw [State.withSeg_get, if_neg (by rw [idle]; nofun), if_neg quiet, State.beginResetClear_eq, State.withSeg_get, State.withSeg_withSeg]

end

/-- Settles O22. -/
theorem segResetFailsTheQueueAndClearsTheBus : Obligations.SegResetFailsTheQueueAndClearsTheBus := by
  unfold Obligations.SegResetFailsTheQueueAndClearsTheBus
  intro tag payload wires s k h
  have free : (s.withWires wires).LowestFree k := h
  refine ⟨fun hn => congrArg Host.Outcome.next ?refused, fun n hp => ?decoded⟩
  case refused => exact State.deliver_refused free _ tag (fun i e => hn i (decodeOne_some e)) _ _
  case decoded =>
    subst hp
    have carried : ∀ {t : State}, ((s.withWires wires).took k 0x32 tag (some (.segReset n))).carrySegReset k n = t →
        exec (.segReset tag [byteOf n] wires) s = .next t := fun ht =>
      congrArg Host.Outcome.next
        ((State.deliver_decoded free _ tag (decodeOne_byteOf (by decide) n) (fun n => .segReset n) State.carrySegReset).trans ht)
    have busy := State.resetBusy_took (s := s.withWires wires) h.2.1 0x32 tag (some (.segReset n)) n
    refine ⟨fun other => carried ?busy, fun none_other => ?alone⟩
    case busy => exact (if_pos (busy.2 other)).trans (State.took_answer ..)
    case alone =>
      have alone : ((s.withWires wires).took k 0x32 tag (some (.segReset n))).resetBusy k n = false :=
        Bool.eq_false_iff.2 fun e => (busy.1 e).elim none_other
      refine ⟨fun off => carried (State.carrySegReset_off (s := s.withWires wires) tag alone off), fun on => ?on⟩
      have proceeds := State.carrySegReset_proceeds (s := s.withWires wires) tag alone on rfl
      exact ⟨_, _, rfl, rfl, fun running => carried (proceeds.trans (State.resetProceed_running k running)),
        fun idle clearing => carried (proceeds.trans (State.resetProceed_clearing k idle clearing)),
        fun idle quiet => carried (proceeds.trans (State.resetProceed_clears k idle quiet))⟩

end Sys2Proof.Machine
end

section
/-! Line checks and bus clears (O41 to O43): what the readings of SDA make of a clear, and how checks and clears end. -/

namespace Sys2Proof.Machine

/-! ### The line check that waits (R118, R119) -/

theorem Segment.checking_iff (g : Segment) : g.checking = true ↔ g.state = .active ∧ g.inProgress = none := by
  unfold Segment.checking
  rw [Bool.and_eq_true, decide_eq_true_iff, Option.isNone_iff_eq_none]

/-- A segment that is ACTIVE has nothing to withdraw (R177). -/
theorem Segment.withdrawn_active {g : Segment} (h : g.state = .active) : g.withdrawn = g := by
  have nothing : ¬ (g.pauseRequested = true ∧ (g.state = .off ∨ g.state = .idle ∨ g.state = .faulted)) := by
    rw [h]
    rintro ⟨-, e | e | e⟩ <;> cases e
  unfold Segment.withdrawn
  rw [if_neg nothing, List.append_nil]

/-- The head leg of an ACTIVE segment starts (R77 step 3). -/
theorem State.beginRun_eq {s : State} {n : SegId} {r : LegRef} {rest : List LegRef} (hq : s.segs[n].queue = r :: rest)
    (ha : s.segs[n].state = .active) :
    s.beginRun n =
      (s.withSlot r.slot (s.slots[r.slot].modLeg r.role fun l => { l with state := .inProgress })).withSeg n
        { s.segs[n].started r rest with clear := s.segs[n].clear } := by
  unfold State.beginRun
  rw [hq]
  refine congrArg (State.withSeg (s.modLeg r fun l => { l with state := .inProgress }) n) ?_
  unfold Segment.started
  rw [← ha]
  rfl

theorem checkLines_clockHeld {l : Levels} (h : l.scl = false) : checkLines l = .clockHeld := by
  unfold checkLines
  rw [h]
  rfl

theorem checkLines_dataHeld {l : Levels} (h : l.scl = true) (hd : l.sda = false) : checkLines l = .dataHeld := by
  unfold checkLines
  rw [h, hd]
  rfl

theorem checkLines_pass {l : Levels} (h : l.scl = true) (hd : l.sda = true) : checkLines l = .pass := by
  unfold checkLines
  rw [h, hd]
  rfl

/-- LINE_CHECK_END of a segment in a line check. -/
theorem exec_lineCheckEnd {s : State} {n : SegId} (h : s.segs[n].state = .active ∧ s.segs[n].inProgress = none) (wires : Wires) :
    exec (.lineCheckEnd n wires) s = .next ((s.withWires wires).recheck n) :=
  congrArg Host.Outcome.next (if_pos ((Segment.checking_iff _).2 h))

section

variable {a : State} {n : SegId}

theorem State.recheck_clockHeld (scl : a.wires[n].scl = false) : a.recheck n = a := by
  unfold State.recheck
  rw [checkLines_clockHeld scl]

theorem State.recheck_dataHeld (scl : a.wires[n].scl = true) (sda : a.wires[n].sda = false) :
    a.recheck n = a.beginClear n .lineCheck none := by
  unfold State.recheck
  rw [checkLines_dataHeld scl sda]

theorem State.recheck_pass (scl : a.wires[n].scl = true) (sda : a.wires[n].sda = true) :
    a.recheck n = if a.segs[n].queue.isEmpty then a.decideNext n else a.beginRun n := by
  unfold State.recheck
  rw [checkLines_pass scl sda]

end

/-- Settles O41, by what the check reads. -/
theorem lineCheckReadsTheLines : Obligations.LineCheckReadsTheLines := by
  unfold Obligations.LineCheckReadsTheLines
  intro s n wires
  refine ⟨fun other => congrArg Host.Outcome.next (if_neg (mt (Segment.checking_iff _).1 other)), fun active idle => ?checking⟩
  have carried := exec_lineCheckEnd ⟨active, idle⟩ wires
  refine ⟨fun scl => carried.trans (congrArg Host.Outcome.next (State.recheck_clockHeld (a := s.withWires wires) scl)),
    fun scl sda => carried.trans (congrArg Host.Outcome.next ((State.recheck_dataHeld (a := s.withWires wires) scl sda).trans ?held)),
    fun scl sda => ⟨fun empty => ?none_queued, fun r rest hq => ?starts⟩⟩
  case held =>
    refine (State.beginClear_eq (s.withWires wires) n .lineCheck none).trans ?_
    exact congrArg (fun g : Segment => (s.withWires wires).withSeg n (g.clearing .lineCheck none)) (Segment.withdrawn_active active)
  case none_queued =>
    refine carried.trans (congrArg Host.Outcome.next ((State.recheck_pass (a := s.withWires wires) scl sda).trans (if_pos ?_)))
    show s.segs[n].queue.isEmpty = true
    rw [empty]
    rfl
  case starts =>
    refine carried.trans (congrArg Host.Outcome.next ((State.recheck_pass (a := s.withWires wires) scl sda).trans ((if_neg ?_).trans
      (State.beginRun_eq (s := s.withWires wires) hq active))))
    show ¬ s.segs[n].queue.isEmpty = true
    rw [hq]
    nofun

/-! ### The readings of a bus clear (R120 to R122) -/

/-- A bus clear with `m` pulses given, at most nine, before the reading of SDA that decides whether its STOP follows. -/
def ClearRun.awaiting (m : Nat) : ClearRun := { stage := if m = 0 then .first else .pulse, pulses := m }

/-- A bus clear that has come to its next pulse `m` times: the tenth time it has failed. -/
def ClearRun.returned (m : Nat) : ClearRun := if m ≤ 9 then .awaiting m else { stage := .stuckData, pulses := 9 }

theorem ClearRun.returned_of_le {m : Nat} (h : m ≤ 9) : ClearRun.returned m = .awaiting m := if_pos h

theorem ClearRun.pulseOn_eq {c : ClearRun} {m : Nat} (hc : c.pulses = m) (h : m ≤ 9) : c.pulseOn = .returned (m + 1) := by
  subst hc
  unfold ClearRun.pulseOn ClearRun.returned
  by_cases more : c.pulses < Config.maxPulses
  · have nine : c.pulses < 9 := more
    rw [if_pos more, if_pos (show c.pulses + 1 ≤ 9 by omega)]
    rfl
  · have nine : c.pulses = 9 := Nat.le_antisymm h (Nat.not_lt.1 more)
    rw [if_neg more, if_neg (show ¬ c.pulses + 1 ≤ 9 by omega), ← nine]

theorem ClearRun.awaiting_read (m : Nat) (high : Bool) :
    (ClearRun.awaiting m).read high = some (if high then { stage := .stop, pulses := m } else (ClearRun.awaiting m).pulseOn) := by
  unfold ClearRun.awaiting ClearRun.read
  by_cases e : m = 0
  · simp only [if_pos e]
  · simp only [if_neg e]

theorem ClearRun.stop_read (m : Nat) (high : Bool) :
    ({ stage := .stop, pulses := m } : ClearRun).read high =
      some (if high then { stage := .finalCheck, pulses := m } else ({ stage := .stop, pulses := m } : ClearRun).pulseOn) := rfl

theorem ClearRun.finalCheck_read (m : Nat) (high : Bool) :
    ({ stage := .finalCheck, pulses := m } : ClearRun).read high =
      some (if high then { stage := .freed, pulses := m } else ({ stage := .finalCheck, pulses := m } : ClearRun).pulseOn) := rfl

theorem ClearStage.stop_symbols : ClearStage.stop.symbols = [.stopBegin, .stopEnd] := rfl

theorem ClearStage.finalCheck_symbols : ClearStage.finalCheck.symbols = [] := rfl

theorem ClearStage.stop_heldSymbols : ClearStage.stop.heldSymbols = [.stopBegin] := rfl

theorem ClearStage.finalCheck_heldSymbols : ClearStage.finalCheck.heldSymbols = [] := rfl

theorem ClearRun.awaiting_symbols (m : Nat) : (ClearRun.awaiting m).stage.symbols = lastPulse m := by
  unfold ClearRun.awaiting lastPulse
  by_cases e : m = 0
  · simp only [if_pos e]
    rfl
  · simp only [if_neg e]
    rfl

theorem ClearRun.awaiting_heldSymbols (m : Nat) : (ClearRun.awaiting m).stage.heldSymbols = lastPulse m := by
  unfold ClearRun.awaiting lastPulse
  by_cases e : m = 0
  · simp only [if_pos e]
    rfl
  · simp only [if_neg e]
    rfl

/-- Readings can be taken in two parts. -/
theorem ClearRun.reads_append {c d : ClearRun} {xs : List Bool} (h : c.reads xs = some d) (ys : List Bool) :
    c.reads (xs ++ ys) = d.reads ys := by
  induction xs generalizing c with
  | nil => cases h; rfl
  | cons x xs ih =>
    simp only [ClearRun.reads] at h
    rw [List.cons_append, ClearRun.reads]
    cases hx : c.read x with
    | none => rw [hx] at h; cases h
    | some e => rw [hx] at h; exact ih h

/-- So can what the engine does in their course. -/
theorem ClearRun.trace_append {c d : ClearRun} {xs : List Bool} (h : c.reads xs = some d) (after : ClearRun → List BusSymbol)
    (ys : List Bool) : c.trace after (xs ++ ys) = c.trace (fun _ => []) xs ++ d.trace after ys := by
  induction xs generalizing c with
  | nil => cases h; rfl
  | cons x xs ih =>
    simp only [ClearRun.reads] at h
    rw [List.cons_append, ClearRun.trace, ClearRun.trace]
    cases hx : c.read x with
    | none => rw [hx] at h; cases h
    | some e =>
      rw [hx] at h
      simp only [ih h, List.append_assoc]

/-- The readings with which a bus clear comes to its next pulse. -/
abbrev IsTry (t : List Bool) : Prop := t = [false] ∨ t = [true, false] ∨ t = [true, true, false]

/-- One such try (R120, R121, R122). -/
theorem ClearRun.awaiting_try {m : Nat} (h : m ≤ 9) {t : List Bool} (ht : IsTry t) :
    (ClearRun.awaiting m).reads t = some (.returned (m + 1)) ∧
      (ClearRun.awaiting m).trace (fun _ => []) t = lastPulse m ++ if t = [false] then [] else [.stopBegin, .stopEnd] := by
  have goesOn : (ClearRun.awaiting m).pulseOn = .returned (m + 1) := ClearRun.pulseOn_eq rfl h
  have fromStop : ({ stage := .stop, pulses := m } : ClearRun).pulseOn = .returned (m + 1) := ClearRun.pulseOn_eq rfl h
  have fromCheck : ({ stage := .finalCheck, pulses := m } : ClearRun).pulseOn = .returned (m + 1) := ClearRun.pulseOn_eq rfl h
  have symbols := ClearRun.awaiting_symbols m
  rcases ht with rfl | rfl | rfl
  · simp [ClearRun.reads, ClearRun.trace, ClearRun.awaiting_read, goesOn, symbols]
  · simp [ClearRun.reads, ClearRun.trace, ClearRun.awaiting_read, ClearRun.stop_read, fromStop, symbols, ClearStage.stop_symbols]
  · simp [ClearRun.reads, ClearRun.trace, ClearRun.awaiting_read, ClearRun.stop_read, ClearRun.finalCheck_read, fromCheck, symbols,
      ClearStage.stop_symbols, ClearStage.finalCheck_symbols]

theorem ClearRun.returned_tries (tries : List (List Bool)) (m : Nat) (h : m + tries.length ≤ 10) (ht : ∀ t ∈ tries, IsTry t) :
    (ClearRun.returned m).reads tries.flatten = some (.returned (m + tries.length)) ∧
      (ClearRun.returned m).trace (fun _ => []) tries.flatten = triesTrace m tries := by
  induction tries generalizing m with
  | nil => exact ⟨rfl, rfl⟩
  | cons t tries ih =>
    rw [List.length_cons] at h
    obtain ⟨first, rest⟩ := List.forall_mem_cons.1 ht
    obtain ⟨reads, trace⟩ := ClearRun.awaiting_try (show m ≤ 9 by omega) first
    obtain ⟨restReads, restTrace⟩ := ih (m + 1) (by omega) rest
    rw [ClearRun.returned_of_le (show m ≤ 9 by omega), List.flatten_cons, ClearRun.reads_append reads, ClearRun.trace_append reads,
      restReads, restTrace, trace, List.length_cons, Nat.add_right_comm m, Nat.add_assoc]
    exact ⟨rfl, rfl⟩

theorem ClearReturns.reads {m : Nat} (h : m ≤ 10) {xs : List Bool} {trace : List BusSymbol} (hr : ClearReturns m xs trace) :
    ClearRun.begun.reads xs = some (.returned m) ∧ ClearRun.begun.trace (fun _ => []) xs = trace := by
  obtain ⟨tries, length, isTry, rfl, rfl⟩ := hr
  have start := ClearRun.returned_tries tries 0 (by omega) isTry
  rw [Nat.zero_add, length] at start
  exact start

/-- The tenth return ends a clear with STUCK_DATA after nine pulses (R121). -/
theorem ClearReturns.ends {reads : List Bool} {trace : List BusSymbol} (h : ClearReturns 10 reads trace) :
    clearEnding reads = some (9, some .stuckData) ∧ endedClearTrace reads = trace := by
  obtain ⟨stuck, traced⟩ := h.reads (Nat.le_refl 10)
  refine ⟨?_, traced⟩
  unfold clearEnding
  rw [stuck]
  rfl

/-- A clear that frees the lines succeeds (R122). -/
theorem ClearFrees.ends {pulses : Nat} {reads : List Bool} {trace : List BusSymbol} (h : ClearFrees pulses reads trace) :
    clearEnding reads = some (pulses, none) ∧ endedClearTrace reads = trace := by
  obtain ⟨few, before, done, returns, rfl, rfl⟩ := h
  obtain ⟨reaches, traced⟩ := returns.reads (by omega)
  rw [ClearRun.returned_of_le few] at reaches
  constructor
  · unfold clearEnding
    rw [ClearRun.reads_append reaches]
    simp [ClearRun.reads, ClearRun.awaiting_read, ClearRun.stop_read, ClearRun.finalCheck_read]
  · unfold endedClearTrace
    rw [ClearRun.trace_append reaches, traced]
    simp [ClearRun.trace, ClearRun.awaiting_read, ClearRun.stop_read, ClearRun.finalCheck_read, ClearRun.awaiting_symbols,
      ClearStage.stop_symbols, ClearStage.finalCheck_symbols]

/-- A clear that waits for SCL runs on (R120, R121, R122). -/
theorem ClearRunsOn.waits {pulses : Nat} {reads : List Bool} {trace : List BusSymbol} (h : ClearRunsOn pulses reads trace) :
    clearWaiting reads = some pulses ∧ heldClearTrace reads = trace := by
  obtain ⟨few, before, done, after, stop, returns, where_, rfl, rfl⟩ := h
  obtain ⟨reaches, traced⟩ := returns.reads (by omega)
  rw [ClearRun.returned_of_le few] at reaches
  unfold clearWaiting heldClearTrace
  rw [ClearRun.reads_append reaches, ClearRun.trace_append reaches, traced]
  rcases where_ with ⟨rfl, rfl⟩ | ⟨rfl, rfl⟩ | ⟨rfl, rfl⟩
  · refine ⟨?_, by simp [ClearRun.trace, ClearRun.awaiting_heldSymbols]⟩
    unfold ClearRun.awaiting
    by_cases e : pulses = 0 <;> simp [ClearRun.reads, e]
  · constructor <;> simp [ClearRun.reads, ClearRun.trace, ClearRun.awaiting_read, ClearRun.awaiting_symbols, ClearStage.stop_heldSymbols]
  · constructor <;> simp [ClearRun.reads, ClearRun.trace, ClearRun.awaiting_read, ClearRun.stop_read, ClearRun.awaiting_symbols,
      ClearStage.stop_symbols, ClearStage.finalCheck_heldSymbols]

/-- Where readings of SDA leave a bus clear, in the words of the statements. -/
inductive ClearLeft : List Bool → ClearRun → Prop
  | returned {m : Nat} {xs : List Bool} {done : List BusSymbol} : m ≤ 9 → ClearReturns m xs done → ClearLeft xs (.awaiting m)
  | stop {m : Nat} {xs : List Bool} {done : List BusSymbol} : m ≤ 9 → ClearReturns m xs done →
      ClearLeft (xs ++ [true]) { stage := .stop, pulses := m }
  | finalCheck {m : Nat} {xs : List Bool} {done : List BusSymbol} : m ≤ 9 → ClearReturns m xs done →
      ClearLeft (xs ++ [true, true]) { stage := .finalCheck, pulses := m }
  | freed {m : Nat} {xs : List Bool} {trace : List BusSymbol} : ClearFrees m xs trace → ClearLeft xs { stage := .freed, pulses := m }
  | stuckData {xs : List Bool} {trace : List BusSymbol} : ClearReturns 10 xs trace → ClearLeft xs { stage := .stuckData, pulses := 9 }

/-- One try more. -/
theorem ClearReturns.snoc {m : Nat} {xs t : List Bool} {done : List BusSymbol} (h : ClearReturns m xs done) (ht : IsTry t) :
    ∃ more, ClearReturns (m + 1) (xs ++ t) more := by
  obtain ⟨tries, length, isTry, rfl, -⟩ := h
  refine ⟨_, tries ++ [t], by rw [List.length_append, length]; rfl, ?_, by rw [List.flatten_append]; simp, rfl⟩
  intro x hx
  rcases List.mem_append.1 hx with hx | hx
  · exact isTry x hx
  · rw [List.mem_singleton.1 hx]
    exact ht

theorem ClearLeft.next_pulse {m : Nat} {xs t : List Bool} {done : List BusSymbol} (few : m ≤ 9) (h : ClearReturns m xs done) (ht : IsTry t) :
    ClearLeft (xs ++ t) (.returned (m + 1)) := by
  obtain ⟨more, returns⟩ := h.snoc ht
  by_cases e : m + 1 ≤ 9
  · rw [ClearRun.returned_of_le e]
    exact .returned e returns
  · obtain rfl : m = 9 := by omega
    exact .stuckData returns

/-- One reading more. -/
theorem ClearLeft.read {xs : List Bool} {c d : ClearRun} {b : Bool} (h : ClearLeft xs c) (hd : c.read b = some d) :
    ClearLeft (xs ++ [b]) d := by
  cases h with
  | returned few returns =>
    rw [ClearRun.awaiting_read] at hd
    cases b with
    | true => cases hd; exact .stop few returns
    | false =>
      cases hd
      rw [if_neg Bool.false_ne_true, ClearRun.pulseOn_eq rfl few]
      exact .next_pulse few returns (.inl rfl)
  | stop few returns =>
    rw [List.append_assoc]
    cases b with
    | true => cases hd; exact .finalCheck few returns
    | false =>
      cases hd
      rw [if_neg Bool.false_ne_true, ClearRun.pulseOn_eq rfl few]
      exact .next_pulse few returns (.inr (.inl rfl))
  | finalCheck few returns =>
    rw [List.append_assoc]
    cases b with
    | true => cases hd; exact .freed ⟨few, _, _, returns, rfl, rfl⟩
    | false =>
      cases hd
      rw [if_neg Bool.false_ne_true, ClearRun.pulseOn_eq rfl few]
      exact .next_pulse few returns (.inr (.inr rfl))
  | freed => cases hd
  | stuckData => cases hd

theorem ClearLeft.reads {xs : List Bool} {c d : ClearRun} (h : ClearLeft xs c) (ys : List Bool) (hd : c.reads ys = some d) :
    ClearLeft (xs ++ ys) d := by
  induction ys generalizing xs c with
  | nil => cases hd; rw [List.append_nil]; exact h
  | cons y ys ih =>
    simp only [ClearRun.reads] at hd
    cases hy : c.read y with
    | none => rw [hy] at hd; cases hd
    | some e =>
      rw [hy] at hd
      have rest := ih (h.read hy) hd
      rw [List.append_assoc] at rest
      exact rest

/-- Readings that a clear takes leave it in one of these places. -/
theorem ClearLeft.of_reads {xs : List Bool} {c : ClearRun} (h : ClearRun.begun.reads xs = some c) : ClearLeft xs c :=
  ClearLeft.reads (xs := []) (c := .awaiting 0) (.returned (Nat.zero_le 9) ⟨[], rfl, nofun, rfl, rfl⟩) xs h

/-- Readings that neither fail a clear nor free the lines do not end it. -/
theorem clearEnding_none {reads : List Bool} (stuck : ∀ trace, ¬ ClearReturns 10 reads trace)
    (freed : ∀ pulses trace, ¬ ClearFrees pulses reads trace) : clearEnding reads = none := by
  unfold clearEnding
  cases hc : ClearRun.begun.reads reads with
  | none => rfl
  | some c =>
    cases ClearLeft.of_reads hc with
    | @returned m _ _ few returns =>
      unfold ClearRun.awaiting
      by_cases e : m = 0 <;> simp [e]
    | stop => rfl
    | finalCheck => rfl
    | freed frees => exact absurd frees (freed _ _)
    | stuckData returns => exact absurd returns (stuck _)

/-- Readings after which no wait for SCL can be. -/
theorem clearWaiting_none {reads : List Bool} (h : ∀ pulses trace, ¬ ClearRunsOn pulses reads trace) : clearWaiting reads = none := by
  unfold clearWaiting
  cases hc : ClearRun.begun.reads reads with
  | none => rfl
  | some c =>
    cases ClearLeft.of_reads hc with
    | returned few returns => exact absurd ⟨few, _, _, [], [], returns, .inl ⟨rfl, rfl⟩, (List.append_nil _).symm, rfl⟩ (h _ _)
    | stop few returns => exact absurd ⟨few, _, _, _, _, returns, .inr (.inl ⟨rfl, rfl⟩), rfl, rfl⟩ (h _ _)
    | finalCheck few returns => exact absurd ⟨few, _, _, _, _, returns, .inr (.inr ⟨rfl, rfl⟩), rfl, rfl⟩ (h _ _)
    | freed => rfl
    | stuckData => rfl

/-! ### How checks and clears end (R123, R125, R131) -/

/-- A segment enters FAULTED (R125). -/
theorem State.faultEntry_eq (s : State) (n : SegId) (cause : FaultCause) : s.faultEntry n cause = s.faults n cause := by
  unfold State.faultEntry State.faults
  simp only [State.modSeg_eq, State.failQueued_clock, Segment.rest_eq_rests _ (rfl : SegState.faulted.quiescent = true)]
  rfl

/-- A SEG_RESET ends (R131, R132). -/
theorem State.finishReset_eq (s : State) (n : SegId) (k : SlotId) (res : ResultCode) (pulses : Nat) (st : SegState) :
    s.finishReset n k res pulses st = s.resetEnds n k res pulses st := by
  unfold State.finishReset State.resetEnds
  cases s.slots[k].resetAccount <;> rfl

/-- A bus clear fails: its SEG_RESET, where it has an owner, is answered STILL_FAULTED (R123, R131). -/
theorem State.clearFails_eq (a : State) (n : SegId) (c : ClearRecord) (cause : FaultCause) (pulses : Nat) :
    (c.owner = none → a.clearFails n c cause pulses = a.faults n cause) ∧
      ∀ k : SlotId, c.owner = some k →
        a.clearFails n c cause pulses = (a.faults n cause).resetEnds n k .stillFaulted pulses .faulted := by
  unfold State.clearFails
  rw [State.faultEntry_eq]
  refine ⟨fun unowned => ?_, fun k owned => ?_⟩
  · simp only [unowned]
  · simp only [owned]
    exact State.finishReset_eq ..

/-- A clear that no SEG_RESET owns ends in the between-legs decision (R123). -/
theorem State.clearSucceeds_unowned (a : State) (n : SegId) {c : ClearRecord} (unowned : c.owner = none) (pulses : Nat) :
    a.clearSucceeds n c pulses = (a.withSeg n { a.segs[n] with clear := some { c with pulses := pulses } }).decideNext n := by
  unfold State.clearSucceeds
  simp only [unowned]
  rfl

/-- A clear that a SEG_RESET owns applies the pending configuration and answers it (R131, R132). -/
theorem State.clearSucceeds_owned (a : State) (n : SegId) {c : ClearRecord} {k : SlotId} (owned : c.owner = some k) (pulses : Nat)
    {g : Segment} (hg : g = { a.segs[n].configured with clear := some { c with pulses := pulses } }) :
    (g.stored.enable = true →
        a.clearSucceeds n c pulses = ((a.withSeg n (g.rests .idle)).decideStart n).resetEnds n k .ok pulses .idle) ∧
      (g.stored.enable = false →
        a.clearSucceeds n c pulses = ((a.withSeg n (g.rests .off)).failQueued n .segmentOff).resetEnds n k .ok pulses .off) := by
  have applied : ((a.modSeg n fun x => { x with clear := some { c with pulses } }).modSeg n Segment.applyPending) = a.withSeg n g := by
    rw [State.modSeg_eq, State.modSeg_eq, State.withSeg_get, State.withSeg_withSeg, Segment.applyPending_eq, hg]
    rfl
  have carried : a.clearSucceeds n c pulses = (a.modSeg n fun x => { x with clear := some { c with pulses } }).resetSucceeds n k pulses := by
    unfold State.clearSucceeds
    split
    · next unowned =>
      rw [owned] at unowned
      cases unowned
    · next other =>
      rw [owned] at other
      cases other
      rfl
  rw [carried]
  unfold State.resetSucceeds
  simp only [applied, State.withSeg_get]
  refine ⟨fun enabled => ?_, fun disabled => ?_⟩
  · rw [if_pos enabled, State.finishReset_eq, State.modSeg_eq, State.withSeg_get, State.withSeg_withSeg,
      Segment.rest_eq_rests _ (rfl : SegState.idle.quiescent = true)]
  · rw [if_neg (by rw [disabled]; nofun), State.finishReset_eq]
    unfold State.switchOff State.failQueued
    rw [State.modSeg_eq, State.withSeg_get, State.withSeg_withSeg, Segment.rest_eq_rests _ (rfl : SegState.off.quiescent = true)]

theorem State.withClear_clearing {s : State} {n : SegId} {c : ClearRecord} (hs : s.segs[n].state = .clearing)
    (hc : s.segs[n].clear = some c) (f : ClearRecord → State) : s.withClear n f = f c := by
  unfold State.withClear
  rw [hc]
  exact if_pos hs

theorem State.withClear_other {s : State} {n : SegId} (h : ¬ (s.segs[n].state = .clearing ∧ s.segs[n].clear.isSome = true))
    (f : ClearRecord → State) : s.withClear n f = s := by
  unfold State.withClear
  cases hc : s.segs[n].clear with
  | none => rfl
  | some c => exact if_neg fun clearing => h ⟨clearing, by rw [hc]; rfl⟩

section

variable {s : State} {n : SegId} {c : ClearRecord} (hs : s.segs[n].state = .clearing) (hc : s.segs[n].clear = some c) {reads : List Bool}
  (wires : Wires)
include hs hc

theorem exec_busClearEnd_none (h : clearEnding reads = none) : exec (.busClearEnd n reads wires) s = .next { s with wires := wires } := by
  refine congrArg Host.Outcome.next ((State.withClear_clearing hs hc _).trans ?_)
  rw [h]
  rfl

theorem exec_busClearEnd_fails {pulses : Nat} {cause : FaultCause} {trace : List BusSymbol}
    (h : clearEnding reads = some (pulses, some cause) ∧ endedClearTrace reads = trace) {a : State}
    (ha : a = State.withSeg { s with wires := wires } n { s.segs[n] with clearTrace := trace }) :
    exec (.busClearEnd n reads wires) s = .next (a.clearFails n c cause pulses) := by
  obtain ⟨ends, rfl⟩ := h
  subst ha
  refine congrArg Host.Outcome.next ((State.withClear_clearing hs hc _).trans ?_)
  rw [ends]
  rfl

theorem exec_busClearEnd_succeeds {pulses : Nat} {trace : List BusSymbol}
    (h : clearEnding reads = some (pulses, none) ∧ endedClearTrace reads = trace) {a : State}
    (ha : a = State.withSeg { s with wires := wires.set n { scl := true, sda := true } } n { s.segs[n] with clearTrace := trace }) :
    exec (.busClearEnd n reads wires) s = .next (a.clearSucceeds n c pulses) := by
  obtain ⟨ends, rfl⟩ := h
  subst ha
  refine congrArg Host.Outcome.next ((State.withClear_clearing hs hc _).trans ?_)
  rw [ends]
  rfl

theorem exec_busClearTimeout_none (h : clearWaiting reads = none) :
    exec (.busClearTimeout n reads wires) s = .next { s with wires := wires } := by
  refine congrArg Host.Outcome.next ((State.withClear_clearing hs hc _).trans ?_)
  rw [h]
  rfl

theorem exec_busClearTimeout_fails {pulses : Nat} {trace : List BusSymbol}
    (h : clearWaiting reads = some pulses ∧ heldClearTrace reads = trace) {a : State}
    (ha : a = State.withSeg { s with wires := wires } n { s.segs[n] with clearTrace := trace }) :
    exec (.busClearTimeout n reads wires) s = .next (a.clearFails n c .stuckClock pulses) := by
  obtain ⟨waits, rfl⟩ := h
  subst ha
  refine congrArg Host.Outcome.next ((State.withClear_clearing hs hc _).trans ?_)
  rw [waits]
  rfl

end

/-- Settles O42, by the readings of the clear. -/
theorem failedChecksAndClearsEnterFaulted : Obligations.FailedChecksAndClearsEnterFaulted := by
  unfold Obligations.FailedChecksAndClearsEnterFaulted
  intro s n wires reads
  refine ⟨fun active idle => congrArg Host.Outcome.next ?checked,
    fun other => congrArg Host.Outcome.next (if_neg (mt (Segment.checking_iff _).1 other)), fun c hs hc => ⟨fun trace a ha => ⟨fun stuck =>
      ?stuck, fun pulses waits => ?waits⟩, fun stuck freed => ?unended, fun ended => ?no_wait⟩, fun other => ?no_clear⟩
  case checked => exact (if_pos ((Segment.checking_iff _).2 ⟨active, idle⟩)).trans (State.faultEntry_eq (s.withWires wires) n .stuckClock)
  case stuck =>
    have carried := exec_busClearEnd_fails hs hc wires stuck.ends ha
    obtain ⟨unowned, owned⟩ := a.clearFails_eq n c .stuckData 9
    exact ⟨fun h => carried.trans (congrArg Host.Outcome.next (unowned h)),
      fun k h => carried.trans (congrArg Host.Outcome.next (owned k h))⟩
  case waits =>
    have carried := exec_busClearTimeout_fails hs hc wires waits.waits ha
    obtain ⟨unowned, owned⟩ := a.clearFails_eq n c .stuckClock pulses
    exact ⟨fun h => carried.trans (congrArg Host.Outcome.next (unowned h)),
      fun k h => carried.trans (congrArg Host.Outcome.next (owned k h))⟩
  case unended => exact exec_busClearEnd_none hs hc wires (clearEnding_none stuck freed)
  case no_wait => exact exec_busClearTimeout_none hs hc wires (clearWaiting_none ended)
  case no_clear =>
    exact ⟨congrArg Host.Outcome.next (State.withClear_other other _), congrArg Host.Outcome.next (State.withClear_other other _)⟩

/-- Settles O43. -/
theorem successfulClearReturnsToService : Obligations.SuccessfulClearReturnsToService := by
  unfold Obligations.SuccessfulClearReturnsToService
  intro s n wires reads pulses trace c a g hs hc frees ha hg
  have carried := exec_busClearEnd_succeeds hs hc wires frees.ends rfl
  refine ⟨fun unowned => ?unowned, fun k owned => ?owned⟩
  case unowned =>
    refine carried.trans (congrArg Host.Outcome.next ((State.clearSucceeds_unowned _ n unowned pulses).trans ?_))
    rw [ha, State.withSeg_get, State.withSeg_withSeg]
  case owned =>
    obtain ⟨enabled, disabled⟩ := State.clearSucceeds_owned
      (State.withSeg { s with wires := wires.set n { scl := true, sda := true } } n { s.segs[n] with clearTrace := trace }) n owned pulses
      (g := g) (by rw [hg, State.withSeg_get]; rfl)
    rw [State.withSeg_withSeg] at enabled disabled
    rw [ha, State.withSeg_withSeg, State.withSeg_withSeg]
    exact ⟨fun h => carried.trans (congrArg Host.Outcome.next (enabled h)), fun h => carried.trans (congrArg Host.Outcome.next (disabled h))⟩

end Sys2Proof.Machine
end

section
/-! The bytes of a leg on the wires and its outcome (O45): the run record that each course of answers leaves, and the reading at the
last stop boundary. -/

namespace Sys2Proof.Machine

/-! ### The run record after the bytes of a leg (R98 to R103) -/

theorem Run.Fresh.undecided {r : Run} (h : r.Fresh) : r.decided = none := by
  obtain ⟨-, -, -, undecided, -⟩ := h
  exact undecided

theorem Run.Fresh.window {r : Run} (h : r.Fresh) : r.secondWindow = false := by
  obtain ⟨-, -, -, -, window⟩ := h
  exact window

/-- The second stretch window is no matter of a byte. -/
theorem wireByte_secondWindow {l : LegRecord} {r : Run} {buf : List Byte} {w : WireByte} {p : Run × List Byte}
    (h : wireByte l r buf w = some p) : p.1.secondWindow = r.secondWindow := by
  have counts : (r.countByte l).secondWindow = r.secondWindow := by
    unfold Run.countByte
    dsimp only
    split <;> rfl
  unfold wireByte at h
  split at h
  · cases h
  · split at h
    · cases h
      show (ite _ _ _ : Run).secondWindow = _
      split
      · rfl
      · split <;> rfl
    · cases h; rfl
    · cases h
      show (ite _ _ _ : Run).secondWindow = _
      split <;> rfl
    · cases h; rfl
    · cases h; rfl
    · cases h; rfl
    · split at h
      · cases h; exact counts
      · cases h
    · split at h
      · cases h; rfl
      · cases h
    · split at h
      · cases h; exact counts
      · cases h
    · cases h

theorem wireBytes_secondWindow {l : LegRecord} (ws : List WireByte) {r : Run} {buf : List Byte} {p : Run × List Byte}
    (h : wireBytes l r buf ws = some p) : p.1.secondWindow = r.secondWindow := by
  induction ws generalizing r buf with
  | nil => cases h; rfl
  | cons w ws ih =>
    simp only [wireBytes] at h
    cases hw : wireByte l r buf w with
    | none => rw [hw] at h; cases h
    | some q =>
      rw [hw] at h
      exact (ih h).trans (wireByte_secondWindow hw)

theorem wireBytes_one {l : LegRecord} {r : Run} {buf : List Byte} {w : WireByte} {p : Run × List Byte} (h : wireByte l r buf w = some p) :
    wireBytes l r buf [w] = some p := by
  rw [wireBytes, h]
  rfl

/-- Bytes one after another. -/
theorem wireBytes_then {l : LegRecord} {r q : Run} {buf more : List Byte} {xs : List WireByte} (h : wireBytes l r buf xs = some (q, more))
    (ys : List WireByte) : wireBytes l r buf (xs ++ ys) = wireBytes l q more ys := by
  rw [wireBytes_append, h]

/-- A leg whose `c` data bytes have been completed and counted, from its START on: with the last of them it is ACKED (R44, R101, R102). -/
def Run.afterData (r : Run) (l : LegRecord) (c : Nat) : Run :=
  { r with
    phase := if c = l.length then .stop else .data, dataPos := c, bitPos := 8, count := c,
    decided := if c = l.length then some .acked else none }

section

variable {l : LegRecord} {r : Run} {c : Nat}

theorem Run.afterData_of_lt (h : c < l.length) :
    r.afterData l c = { r with phase := .data, dataPos := c, bitPos := 8, count := c, decided := none } := by
  unfold Run.afterData
  simp only [if_neg (Nat.ne_of_lt h)]

theorem Run.afterData_full : r.afterData l l.length =
    { r with phase := .stop, dataPos := l.length, bitPos := 8, count := l.length, decided := some .acked } := by
  unfold Run.afterData
  simp only [if_true]

theorem Run.afterData_inData (h : c < l.length) : (r.afterData l c).InData c := by
  rw [Run.afterData_of_lt h]
  exact ⟨rfl, rfl, rfl⟩

theorem Run.afterData_countByte (h : c < l.length) : (r.afterData l c).countByte l = r.afterData l (c + 1) := by
  rw [Run.afterData_of_lt h]
  unfold Run.countByte Run.afterData
  dsimp only
  by_cases e : c + 1 = l.length
  · simp only [if_pos e]
    rfl
  · simp only [if_neg e]
    rfl

theorem Run.afterData_zero (hr : r.Fresh) (h : 1 ≤ l.length) : r.goOn .data = r.afterData l 0 := by
  cases r
  obtain ⟨rfl, rfl, rfl, rfl, rfl⟩ := hr
  exact (Run.afterData_of_lt h).symm

/-! ### The courses of a leg from its START -/

section

variable (hr : r.Fresh) (buf : List Byte)
include hr

theorem wireBytes_register (hk : l.kind ≠ .probe) (hp : l.regPhase = true) :
    wireBytes l r buf [.ack] = some (r.goOn .register, buf) := (Reaches.register hr hk hp buf).wire

theorem wireBytes_repeatedStart (hk : l.kind = .read) (hp : l.regPhase = true) :
    wireBytes l r buf [.ack, .ack] = some (r.goOn .repeatedStart, buf) := (Reaches.repeatedStart hr hk hp buf).wire

theorem wireByte_address (hk : l.kind ≠ .probe) (hp : l.regPhase = false) :
    wireByte l r buf .ack = some (r.goOn .data, buf) := by
  obtain ⟨phase, -, -, undecided, -⟩ := hr
  unfold wireByte Run.bytePhase LegRecord.firstPhase
  rw [undecided, phase]
  cases kind : l.kind with
  | probe => exact absurd kind hk
  | write => simp [hp]
  | read => simp [hp]

theorem wireByte_probe (hk : l.kind = .probe) : wireByte l r buf .ack = some (r.decide .acked, buf) := by
  obtain ⟨phase, -, -, undecided, -⟩ := hr
  unfold wireByte Run.bytePhase LegRecord.firstPhase
  rw [undecided, phase]
  simp [hk]

/-- The first byte refused. -/
theorem wireByte_addrNack : wireByte l r buf .nack = some (r.decide .addrNack, buf) := by
  obtain ⟨phase, -, -, undecided, -⟩ := hr
  unfold wireByte Run.bytePhase LegRecord.firstPhase
  rw [undecided, phase]
  cases (decide (l.kind = .read) && !l.regPhase) <;> rfl

/-- The register index refused. -/
theorem wireByte_registerNack : wireByte l (r.goOn .register) buf .nack = some (r.decide .dataNack, buf) := by
  have undecided := hr.undecided
  unfold wireByte
  rw [show (r.goOn .register).decided = none from undecided]
  rfl

/-- The address byte after the repeated START refused. -/
theorem wireByte_againNack : wireByte l (r.goOn .repeatedStart) buf .nack = some (r.decide .addrNack, buf) := by
  have undecided := hr.undecided
  unfold wireByte
  rw [show (r.goOn .repeatedStart).decided = none from undecided]
  rfl

/-- All the bytes that open a WRITE or a READ. -/
theorem wireBytes_opening (hk : l.kind ≠ .probe) : wireBytes l r buf l.opening = some (r.goOn .data, buf) := by
  have undecided := hr.undecided
  unfold LegRecord.opening
  cases hp : l.regPhase with
  | false =>
    have address := wireBytes_one (wireByte_address hr buf hk hp)
    cases kind : l.kind with
    | probe => exact absurd kind hk
    | write => exact address
    | read => exact address
  | true =>
    have register := wireBytes_register hr buf hk hp
    cases kind : l.kind with
    | probe => exact absurd kind hk
    | write =>
      refine (wireBytes_then register [.ack]).trans (wireBytes_one ?_)
      unfold wireByte
      rw [show (r.goOn .register).decided = none from undecided]
      simp [Run.bytePhase, Run.goOn, kind]
    | read =>
      refine (wireBytes_then (wireBytes_repeatedStart hr buf kind hp) [.ack]).trans (wireBytes_one ?_)
      unfold wireByte
      rw [show (r.goOn .repeatedStart).decided = none from undecided]
      rfl

/-- The data bytes of a WRITE that the target acknowledges. -/
theorem wireBytes_acks (hk : l.kind = .write) (h : 1 ≤ l.length) (m : Nat) (hm : m ≤ l.length) :
    wireBytes l r buf (l.opening ++ List.replicate m .ack) = some (r.afterData l m, buf) := by
  induction m with
  | zero =>
    rw [List.replicate_zero, List.append_nil, ← Run.afterData_zero hr h]
    exact wireBytes_opening hr buf (by rw [hk]; nofun)
  | succ m ih =>
    rw [List.replicate_succ', ← List.append_assoc, wireBytes_then (ih (by omega))]
    refine wireBytes_one ?_
    rw [wireByte_ack_data (Run.afterData_inData hm) hk hm, Run.afterData_countByte hm]

omit hr in
theorem wireByte_dataNack (hk : l.kind = .write) {m : Nat} (hm : m < l.length) :
    wireByte l (r.afterData l m) buf .nack = some ({ r.afterData l m with dataPos := m + 1 }.decide .dataNack, buf) := by
  rw [Run.afterData_of_lt hm]
  simp [wireByte, Run.bytePhase, hk, hm]

/-- A data byte of a WRITE that the target refuses. -/
theorem wireBytes_dataNack (hk : l.kind = .write) {m : Nat} (hm : m < l.length) :
    wireBytes l r buf (l.opening ++ List.replicate m .ack ++ [.nack]) =
      some ({ r.afterData l m with dataPos := m + 1 }.decide .dataNack, buf) := by
  rw [wireBytes_then (wireBytes_acks hr buf hk (by omega) m (by omega))]
  exact wireBytes_one (wireByte_dataNack buf hk hm)

omit hr in
/-- The data bytes of a READ, after `c` of them. -/
theorem wireBytes_receivedAfter (hk : l.kind = .read) (data : List Byte) (c : Nat) (hd : c + data.length ≤ l.length) :
    wireBytes l (r.afterData l c) buf (data.map WireByte.data) = some (r.afterData l (c + data.length), buf ++ data) := by
  induction data generalizing c buf with
  | nil =>
    rw [List.append_nil]
    rfl
  | cons b data ih =>
    rw [List.length_cons] at hd
    have more : c < l.length := by omega
    rw [List.map_cons, wireBytes, wireByte_data (Run.afterData_inData more) hk more, Run.afterData_countByte more]
    refine (ih (buf ++ [b]) (c + 1) (by omega)).trans ?_
    rw [List.append_assoc, List.length_cons, Nat.add_assoc, Nat.add_comm 1]
    rfl

/-- The data bytes of a READ. -/
theorem wireBytes_received (hk : l.kind = .read) (h : 1 ≤ l.length) (data : List Byte) (hd : data.length ≤ l.length) :
    wireBytes l r buf (l.opening ++ data.map WireByte.data) = some (r.afterData l data.length, buf ++ data) := by
  have opened := wireBytes_opening hr buf (l := l) (by rw [hk]; nofun)
  rw [Run.afterData_zero hr h] at opened
  rw [wireBytes_then opened, wireBytes_receivedAfter buf hk data 0 (by omega), Nat.zero_add]

end

end

/-! ### The reading at the last stop boundary (R111 to R114) -/

/-- A stop boundary can have read only a field that is set. -/
theorem StopFields.allows_iff (f : StopFields) (read : StopRead) :
    f.allows read = true ↔ (read = .cut → f.cut = true) ∧ (read = .reset → f.reset = true) := by
  cases read <;> simp [StopFields.allows]

section

variable {l : LegRecord} {q : Run} {f : StopFields} {read : StopRead}

/-- An outcome the wire decided stands, but for reset-requested (R113). -/
theorem closingOutcome_decided {o : LegOutcome} (window : q.secondWindow = false) (decided : q.decided = some o)
    (boundary : q.atBoundary l = true) (cut : read = .cut → f.cut = true) (reset : read = .reset → f.reset = true) :
    closingOutcome l q f read = some (if read = .reset then .segmentReset else o) := by
  unfold closingOutcome
  rw [window]
  cases read with
  | noField => exact decided
  | cut => simp [cut, decided]
  | reset => simp [reset, boundary]

/-- A leg that the wire has not decided ends early where the engine read a stop field (R113). -/
theorem closingOutcome_early (window : q.secondWindow = false) (undecided : q.decided = none) (boundary : q.atBoundary l = true)
    (field : read ≠ .noField) (cut : read = .cut → f.cut = true) (reset : read = .reset → f.reset = true) :
    closingOutcome l q f read = some (if read = .reset then .segmentReset else .cut) := by
  unfold closingOutcome
  rw [window]
  cases read with
  | noField => exact absurd rfl field
  | cut => simp [cut, undecided, boundary]
  | reset => simp [reset, boundary]

theorem closingOutcome_noField (window : q.secondWindow = false) (undecided : q.decided = none) : closingOutcome l q f .noField = none := by
  unfold closingOutcome
  rw [window]
  exact undecided

/-- Within a byte the engine goes into no closing STOP. -/
theorem closingOutcome_within (window : q.secondWindow = false) (undecided : q.decided = none) (boundary : q.atBoundary l = false) :
    closingOutcome l q f read = none := by
  unfold closingOutcome
  rw [window]
  cases read with
  | noField => exact undecided
  | cut => simp [undecided, boundary]
  | reset => simp [boundary]

theorem closingOutcome_refused (window : q.secondWindow = false)
    (h : (read = .cut ∧ f.cut = false) ∨ (read = .reset ∧ f.reset = false)) : closingOutcome l q f read = none := by
  unfold closingOutcome
  rw [window]
  rcases h with ⟨rfl, unset⟩ | ⟨rfl, unset⟩ <;> simp [unset]

end

/-! ### The ends of a leg -/

section

variable {l : LegRecord} {r q : Run} {f : StopFields} {wd buf : List Byte} {bytes : List WireByte}

theorem legEnding_stop {read : StopRead} {o : LegOutcome} (wire : wireBytes l r l.readData bytes = some (q, buf))
    (ho : closingOutcome l q f read = some o) (high : Bool) :
    legEnding l r f wd bytes (.stop high read) = some (q, buf, o, if high then .stopped else .held .stopFailed) := by
  unfold legEnding
  rw [wire]
  simp only [ho]

theorem legEnding_stop_none {read : StopRead} (wire : wireBytes l r l.readData bytes = some (q, buf))
    (ho : closingOutcome l q f read = none) (high : Bool) : legEnding l r f wd bytes (.stop high read) = none := by
  unfold legEnding
  rw [wire]
  simp only [ho]

theorem legEnding_conflict {place : ConflictPlace} {p : Run} (wire : wireBytes l r l.readData bytes = some (q, buf))
    (hp : conflictAt l q f wd place = some p) :
    legEnding l r f wd bytes (.conflict place) = some (p, buf, .lineConflict, .held .conflict) := by
  unfold legEnding
  rw [wire]
  simp only [hp]

theorem legEnding_conflict_none {place : ConflictPlace} (wire : wireBytes l r l.readData bytes = some (q, buf))
    (hp : conflictAt l q f wd place = none) : legEnding l r f wd bytes (.conflict place) = none := by
  unfold legEnding
  rw [wire]
  simp only [hp]

/-- A reading that cannot have been ends no leg (R111). -/
theorem legEnding_refused {read : StopRead} (window : r.secondWindow = false)
    (h : (read = .cut ∧ f.cut = false) ∨ (read = .reset ∧ f.reset = false)) (high : Bool) :
    legEnding l r f wd bytes (.stop high read) = none := by
  cases wire : wireBytes l r l.readData bytes with
  | none =>
    unfold legEnding
    rw [wire]
  | some p => exact legEnding_stop_none wire (closingOutcome_refused ((wireBytes_secondWindow bytes wire).trans window) h) high

/-- A 1 of the engine's that reads low is a conflict, and a 0 none (R108). -/
theorem conflictAt_bit {sent : Byte} (undecided : q.decided = none) (hs : engineByte l q wd = some sent) (k : Fin 8) :
    conflictAt l q f wd (.bit k) = if sent.getMsbD k = true then some { q.within l k with decided := some .lineConflict } else none := by
  unfold conflictAt
  rw [undecided, hs]
  rfl

end

/-! ### The outcomes (O45) -/

/-- What a leg goes into its closing STOP with is what it ends with: the premises of `WireAnswersDecideTheOutcome` on a reading. -/
structure StopReading (f : StopFields) (read : StopRead) (high : Bool) (ending : LegEnding) (wire : LegOutcome → LegOutcome)
    (early : LegOutcome) : Prop where
  cut : read = .cut → f.cut = true
  reset : read = .reset → f.reset = true
  ending_eq : ending = if high then .stopped else .held .stopFailed
  wire_eq : ∀ o : LegOutcome, wire o = if read = .reset then .segmentReset else o
  early_eq : early = if read = .reset then .segmentReset else .cut

section

variable {l : LegRecord} {r q : Run} {f : StopFields} {wd buf : List Byte} {bytes : List WireByte} {read : StopRead} {high : Bool}
  {ending : LegEnding} {wire : LegOutcome → LegOutcome} {early : LegOutcome}

/-- A leg that the wire has decided. -/
theorem StopReading.decided (h : StopReading f read high ending wire early) (window : r.secondWindow = false) {o : LegOutcome}
    (bytes_eq : wireBytes l r l.readData bytes = some (q, buf)) (phase : q.phase = .stop) (decided : q.decided = some o) :
    legEnding l r f wd bytes (.stop high read) = some (q, buf, wire o, ending) := by
  rw [h.wire_eq, h.ending_eq]
  refine legEnding_stop bytes_eq (closingOutcome_decided ((wireBytes_secondWindow bytes bytes_eq).trans window) decided ?_ h.cut h.reset) high
  unfold Run.atBoundary
  rw [phase]

/-- A leg that the engine stops early. -/
theorem StopReading.stops (h : StopReading f read high ending wire early) (window : r.secondWindow = false) (field : read ≠ .noField)
    (bytes_eq : wireBytes l r l.readData bytes = some (q, buf)) (undecided : q.decided = none) (boundary : q.atBoundary l = true) :
    legEnding l r f wd bytes (.stop high read) = some (q, buf, early, ending) := by
  rw [h.early_eq, h.ending_eq]
  exact legEnding_stop bytes_eq
    (closingOutcome_early ((wireBytes_secondWindow bytes bytes_eq).trans window) undecided boundary field h.cut h.reset) high

end

theorem Run.atBoundary_write {l : LegRecord} (hk : l.kind = .write) {q : Run} (phase : q.phase = .data) : q.atBoundary l = true := by
  unfold Run.atBoundary
  rw [phase]
  simp [hk]

theorem Run.atBoundary_read {l : LegRecord} (hk : l.kind = .read) {q : Run} (phase : q.phase = .data) :
    q.atBoundary l = !Decidable.decide (q.count = 0) := by
  unfold Run.atBoundary
  rw [phase]
  simp [hk]

section

variable {l : LegRecord} {r : Run} {f : StopFields} {wd data : List Byte} {read : StopRead} {high : Bool} {ending : LegEnding}
  {wire : LegOutcome → LegOutcome} {early : LegOutcome} (fresh : r.Fresh) (unread : l.readData = [])
  (reading : StopReading f read high ending wire early)
include fresh unread reading

/-- An address byte refused ends the leg ADDR_NACK (R101). -/
theorem StopReading.addrNack {pre : List WireByte} (h : pre = [] ∨ (l.kind = .read ∧ l.regPhase = true ∧ pre = [.ack, .ack])) :
    ∃ r' : Run, legEnding l r f wd (pre ++ [.nack]) (.stop high read) = some (r', [], wire .addrNack, ending) ∧
      r'.count = 0 ∧ r'.dataPos = 0 := by
  obtain ⟨-, pos, count, -, window⟩ := id fresh
  have refused : wireBytes l r l.readData (pre ++ [.nack]) = some (r.decide .addrNack, []) := by
    rw [unread]
    rcases h with rfl | ⟨hk, hp, rfl⟩
    · exact wireBytes_one (wireByte_addrNack fresh [])
    · exact (wireBytes_then (wireBytes_repeatedStart fresh [] hk hp) [.nack]).trans (wireBytes_one (wireByte_againNack fresh []))
  exact ⟨_, reading.decided window refused rfl rfl, count, pos⟩

/-- The register index refused ends the leg DATA_NACK (R101). -/
theorem StopReading.registerNack (hk : l.kind ≠ .probe) (hp : l.regPhase = true) :
    ∃ r' : Run, legEnding l r f wd [.ack, .nack] (.stop high read) = some (r', [], wire .dataNack, ending) ∧
      r'.count = 0 ∧ r'.dataPos = 0 := by
  obtain ⟨-, pos, count, -, window⟩ := id fresh
  have refused : wireBytes l r l.readData [.ack, .nack] = some (r.decide .dataNack, []) := by
    rw [unread]
    exact (wireBytes_then (wireBytes_register fresh [] hk hp) [.nack]).trans (wireBytes_one (wireByte_registerNack fresh []))
  exact ⟨_, reading.decided window refused rfl rfl, count, pos⟩

/-- A PROBE acknowledged is ACKED (R103). -/
theorem StopReading.probed (hk : l.kind = .probe) :
    ∃ r' : Run, legEnding l r f wd l.opening (.stop high read) = some (r', [], wire .acked, ending) ∧ r'.count = 0 := by
  obtain ⟨-, -, count, -, window⟩ := id fresh
  have acked : wireBytes l r l.readData l.opening = some (r.decide .acked, []) := by
    unfold LegRecord.opening
    rw [unread, hk]
    exact wireBytes_one (wireByte_probe fresh [] hk)
  exact ⟨_, reading.decided window acked rfl rfl, count⟩

/-- The data bytes of a WRITE decide it (R101). -/
theorem StopReading.written (hk : l.kind = .write) (h : 1 ≤ l.length) :
    (∃ r' : Run, legEnding l r f wd (l.opening ++ List.replicate l.length .ack) (.stop high read) = some (r', [], wire .acked, ending) ∧
        r'.count = l.length ∧ r'.dataPos = l.length) ∧
      ∀ m : Nat, m < l.length →
        ∃ r' : Run, legEnding l r f wd (l.opening ++ List.replicate m .ack ++ [.nack]) (.stop high read) =
          some (r', [], wire .dataNack, ending) ∧ r'.count = m ∧ r'.dataPos = m + 1 := by
  have window := fresh.window
  refine ⟨?acked, fun m hm => ?refused⟩
  case acked =>
    have acks := wireBytes_acks fresh l.readData hk h l.length (Nat.le_refl _)
    rw [Run.afterData_full] at acks
    exact ⟨_, unread ▸ reading.decided window acks rfl rfl, rfl, rfl⟩
  case refused =>
    have nack := wireBytes_dataNack fresh l.readData hk hm
    exact ⟨_, unread ▸ reading.decided window nack rfl rfl, rfl, rfl⟩

/-- A READ with all its bytes received is ACKED (R102). -/
theorem StopReading.received (hk : l.kind = .read) (h : 1 ≤ l.length) (hd : data.length = l.length) :
    ∃ r' : Run, legEnding l r f wd (l.opening ++ data.map WireByte.data) (.stop high read) = some (r', data, wire .acked, ending) ∧
      r'.count = l.length := by
  have got := wireBytes_received fresh l.readData hk h data (Nat.le_of_eq hd)
  rw [hd, Run.afterData_full] at got
  have ended := reading.decided (wd := wd) fresh.window got rfl rfl
  rw [unread, List.nil_append] at ended
  exact ⟨_, ended, rfl⟩

/-- A leg that the engine stops in the bytes before its data (R113). -/
theorem StopReading.stopsInOpening (field : read ≠ .noField) (hk : l.kind ≠ .probe) (hp : l.regPhase = true) {pre : List WireByte}
    (h : pre = [.ack] ∨ pre = [.ack, .ack]) :
    ∃ r' : Run, legEnding l r f wd pre (.stop high read) = some (r', [], early, ending) ∧ r'.count = 0 ∧ r'.dataPos = 0 := by
  obtain ⟨-, pos, count, undecided, window⟩ := id fresh
  have stops : ∀ p : Phase, wireBytes l r l.readData pre = some (r.goOn p, []) → (r.goOn p).atBoundary l = true →
      ∃ r' : Run, legEnding l r f wd pre (.stop high read) = some (r', [], early, ending) ∧ r'.count = 0 ∧ r'.dataPos = 0 :=
    fun p got boundary => ⟨_, reading.stops window field got undecided boundary, count, pos⟩
  rw [unread] at stops
  rcases h with rfl | rfl
  · exact stops .register (wireBytes_register fresh [] hk hp) rfl
  · cases kind : l.kind with
    | probe => exact absurd kind hk
    | read => exact stops .repeatedStart (wireBytes_repeatedStart fresh [] kind hp) rfl
    | write =>
      have opened := wireBytes_opening fresh [] hk
      rw [show l.opening = [.ack, .ack] by unfold LegRecord.opening; rw [kind, hp]] at opened
      exact stops .data opened (Run.atBoundary_write kind rfl)

/-- A WRITE that the engine stops in its data (R113). -/
theorem StopReading.stopsInWrite (field : read ≠ .noField) (hk : l.kind = .write) {m : Nat} (hm : m < l.length) :
    ∃ r' : Run, legEnding l r f wd (l.opening ++ List.replicate m .ack) (.stop high read) = some (r', [], early, ending) ∧
      r'.count = m ∧ r'.dataPos = m := by
  have acks := wireBytes_acks fresh l.readData hk (by omega) m (by omega)
  rw [Run.afterData_of_lt hm] at acks
  exact ⟨_, unread ▸ reading.stops fresh.window field acks rfl (Run.atBoundary_write hk rfl), rfl, rfl⟩

/-- A READ that the engine stops in its data (R112, R113). -/
theorem StopReading.stopsInRead (field : read ≠ .noField) (hk : l.kind = .read) (some_data : 1 ≤ data.length)
    (hd : data.length < l.length) :
    ∃ r' : Run, legEnding l r f wd (l.opening ++ data.map WireByte.data) (.stop high read) = some (r', data, early, ending) ∧
      r'.count = data.length := by
  have got := wireBytes_received fresh l.readData hk (by omega) data (by omega)
  have inData := Run.afterData_inData (r := r) hd
  have boundary : (r.afterData l data.length).atBoundary l = true := by
    rw [Run.atBoundary_read hk inData.phase, inData.count, decide_eq_false (show ¬ data.length = 0 by omega)]
    rfl
  have ended := reading.stops (wd := wd) fresh.window field got inData.decided boundary
  rw [unread, List.nil_append] at ended
  exact ⟨_, ended, inData.count⟩

end

/-- The conflicts of a byte: its 1s, and no 0 (R108, R109). -/
theorem legEnding_bit {l : LegRecord} {r q : Run} {f : StopFields} {wd buf : List Byte} {bytes : List WireByte} {sent : Byte} {m : Nat}
    (bytes_eq : wireBytes l r l.readData bytes = some (q, buf)) (undecided : q.decided = none) (hs : engineByte l q wd = some sent)
    (count : q.count = m) (k : Fin 8) :
    (sent.getMsbD k = true →
        ∃ r' : Run, legEnding l r f wd bytes (.conflict (.bit k)) = some (r', buf, .lineConflict, .held .conflict) ∧ r'.count = m) ∧
      (sent.getMsbD k = false → legEnding l r f wd bytes (.conflict (.bit k)) = none) := by
  have place := conflictAt_bit (f := f) undecided hs k
  refine ⟨fun one => ⟨_, legEnding_conflict bytes_eq (place.trans (if_pos one)), count⟩, fun zero => ?_⟩
  exact legEnding_conflict_none bytes_eq (place.trans (if_neg (by rw [zero]; nofun)))

/-- Settles O45, course by course. -/
theorem wireAnswersDecideTheOutcome : Obligations.WireAnswersDecideTheOutcome := by
  unfold Obligations.WireAnswersDecideTheOutcome
  intro l r writeData data high read fields ending wire early fresh unread hending hwire hearly
  obtain ⟨phase, -, count, undecided, window⟩ := id fresh
  have start : ∀ {bytes : List WireByte} {p : Run × List Byte}, wireBytes l r [] bytes = some p → wireBytes l r l.readData bytes = some p :=
    fun h => by rw [unread]; exact h
  have opened : l.kind = .read → wireBytes l r l.readData l.opening = some (r.goOn .data, l.readData) := fun hk =>
    wireBytes_opening fresh _ (by rw [hk]; nofun)
  refine ⟨fun cut reset => ?ends, ?nothing, fun unset bytes => legEnding_refused window unset high, fun pre sent m k byte => ?bits,
    fun hk hp => ?again, fun hk some_data hd => ⟨fun last => ?readNack, fun k => ?received⟩⟩
  case ends =>
    have reading : StopReading fields read high ending wire early := ⟨cut, reset, hending, hwire, hearly⟩
    refine ⟨fun pre => reading.addrNack fresh unread, reading.registerNack fresh unread, reading.probed fresh unread,
      reading.written fresh unread, reading.received fresh unread,
      fun field => ⟨fun hk hp pre => reading.stopsInOpening fresh unread field hk hp,
        fun hk m hm => reading.stopsInWrite fresh unread field hk hm, fun hk => reading.stopsInRead fresh unread field hk,
        fun hk => ?noBoundary⟩,
      fun nothing_read kinds some_data => ?undecided⟩
    case noBoundary =>
      refine legEnding_stop_none (opened hk) (closingOutcome_within window undecided ?_) high
      exact (Run.atBoundary_read hk rfl).trans (by rw [show (r.goOn .data).count = 0 from count]; rfl)
    case undecided =>
      subst nothing_read
      have notProbe : l.kind ≠ .probe := by rcases kinds with e | e <;> rw [e] <;> nofun
      exact legEnding_stop_none (wireBytes_opening fresh _ notProbe) (closingOutcome_noField window undecided) high
  case nothing =>
    refine legEnding_stop_none rfl (closingOutcome_within window undecided ?_) high
    unfold Run.atBoundary
    rw [phase]
  case bits =>
    rcases byte with ⟨rfl, rfl, rfl⟩ | ⟨hk, hp, rfl, rfl, rfl⟩ | ⟨hk, hp, rfl, rfl, rfl⟩ | ⟨hk, hm, rfl, hs⟩
    · exact legEnding_bit (start rfl) undecided (engineByte_fresh fresh writeData) count k
    · exact legEnding_bit (start (wireBytes_register fresh [] hk hp)) undecided rfl count k
    · exact legEnding_bit (start (wireBytes_repeatedStart fresh [] hk hp)) undecided rfl count k
    · have acks := wireBytes_acks fresh [] hk (by omega) m (by omega)
      have inData := Run.afterData_inData (r := r) hm
      exact legEnding_bit (start acks) inData.decided ((engineByte_data inData hk writeData).trans hs) inData.count k
  case again =>
    refine ⟨_, legEnding_conflict (start (wireBytes_repeatedStart fresh [] hk hp)) (p := { r.goOn .repeatedStart with
      bitPos := 0, decided := some .lineConflict }) ?_, count⟩
    unfold conflictAt
    rw [show (r.goOn .repeatedStart).decided = none from undecided]
    rfl
  case readNack =>
    have got := wireBytes_received fresh [] hk (by omega) data hd
    refine ⟨_, legEnding_conflict (start got) (p := { r.afterData l data.length with bitPos := 8, decided := some .lineConflict }) ?_,
      rfl⟩
    have inAck : (r.afterData l data.length).inReadAck l = true := by
      unfold Run.inReadAck
      rw [hk, show (r.afterData l data.length).count = data.length from rfl, show (r.afterData l data.length).secondWindow = false from window,
        decide_eq_true (show 0 < data.length by omega)]
      rfl
    refine if_pos ?_
    rw [inAck, show (r.afterData l data.length).count = data.length from rfl]
    rcases last with e | e | e <;> simp [e]
  case received =>
    have got := wireBytes_received fresh [] hk (by omega) data hd
    refine legEnding_conflict_none (start got) ?_
    unfold conflictAt
    rcases Nat.lt_or_eq_of_le hd with more | full
    · have inData := Run.afterData_inData (r := r) more
      have none_sent : engineByte l (r.afterData l data.length) writeData = none := by
        unfold engineByte Run.bytePhase
        rw [inData.phase]
        simp [hk]
      simp only [inData.decided, none_sent]
      rfl
    · rw [full, Run.afterData_full]
      rfl

end Sys2Proof.Machine
end

section
/-! The end of a leg (O44, O47): what its run record and its trace become, and how the segment goes on. -/

namespace Sys2Proof.Machine

/-! ### The leg in progress (R91, R115) -/

theorem State.runLeg_of_runs {s : State} {r : Run} {l : LegRecord} {wd : List Byte} (h : s.Runs r l wd) : s.runLeg r = some (l, wd) := by
  unfold State.runLeg
  rcases h with ⟨o, orphan, rfl, rfl⟩ | ⟨owned, leg, rfl⟩
  · rw [orphan]
  · rw [owned, leg]

theorem State.withRun_runs {s : State} {n : SegId} {r : Run} {l : LegRecord} {wd : List Byte} (hr : s.segs[n].inProgress = some r)
    (h : s.Runs r l wd) (f : Run → LegRecord × List Byte → State) : s.withRun n f = f r (l, wd) := by
  unfold State.withRun
  rw [hr]
  simp only [State.runLeg_of_runs h]

theorem State.withRun_none {s : State} {n : SegId} (h : s.segs[n].inProgress = none) (f : Run → LegRecord × List Byte → State) :
    s.withRun n f = s := by
  unfold State.withRun
  rw [h]

/-- A leg in progress ends (R104, R78 step 1). -/
theorem State.endRun_eq (s : State) (n : SegId) (r : Run) (l : LegRecord) (wd buf : List Byte) (o : LegOutcome) :
    s.endRun n r l wd buf o = s.runEnded n r l (firstByteOf l r wd buf) buf o := by
  unfold State.endRun State.runEnded State.completeRun
  cases r.orphan <;> rfl

/-! ### The end of the second stretch window (R106, R125, R130) -/

theorem State.endStuckLeg_closed {s : State} {r : Run} (h : r.secondWindow = false ∨ r.decided = none) (n : SegId)
    (leg : LegRecord × List Byte) : s.endStuckLeg n r leg = s := by
  unfold State.endStuckLeg
  rcases h with h | h
  · rw [h]
  · rw [h]
    cases r.secondWindow <;> rfl

theorem State.endStuckLeg_open {s : State} {r : Run} {o : LegOutcome} (window : r.secondWindow = true) (decided : r.decided = some o)
    (n : SegId) (l : LegRecord) (wd : List Byte) :
    s.endStuckLeg n r (l, wd) =
      (s.runEnded n r l (firstByteOf l r wd l.readData) l.readData o).afterStuckLeg n s.segs[n].resetRequested := by
  unfold State.endStuckLeg
  rw [window, decided]
  exact congrArg (fun a : State => a.afterStuckLeg n s.segs[n].resetRequested) (State.endRun_eq ..)

/-- Settles O47. -/
theorem secondWindowEndEntersFaulted : Obligations.SecondWindowEndEntersFaulted := by
  unfold Obligations.SecondWindowEndEntersFaulted
  intro s n wires
  refine ⟨fun idle => congrArg Host.Outcome.next (State.withRun_none idle _), fun r l wd hr runs => ?running⟩
  have carried : ∀ {t : State}, (s.withWires wires).endStuckLeg n r (l, wd) = t → exec (.secondStretchWindowEnd n wires) s = .next t :=
    fun ht => congrArg Host.Outcome.next ((State.withRun_runs hr runs _).trans ht)
  refine ⟨fun closed => carried (State.endStuckLeg_closed closed n _), fun o b window decided hb => ?ends⟩
  have stuck := State.endStuckLeg_open (s := s.withWires wires) window decided n l wd
  refine ⟨fun free => carried (stuck.trans ?_), fun reset => carried (stuck.trans ?_)⟩
  · rw [hb, ← State.faultEntry_eq]
    exact if_neg (show ¬ s.segs[n].resetRequested = true by rw [free]; nofun)
  · rw [hb, ← State.faultEntry_eq, ← State.beginResetClear_eq]
    exact if_pos (show s.segs[n].resetRequested = true from reset)

/-! ### The end of a leg (R66, R78, R104, R109, R110, R130) -/

section

variable {s : State} {n : SegId} {r : Run} {l : LegRecord} {wd : List Byte} {bytes : List WireByte} {finish : LegFinish}

theorem State.endLeg_none (h : legEnding l r (stopFields s.segs[n] r l) wd bytes finish = none) :
    s.endLeg n r (l, wd) bytes finish = s := by
  unfold State.endLeg
  rw [h]

theorem State.endLeg_some {r' : Run} {buf : List Byte} {o : LegOutcome} {ending : LegEnding}
    (h : legEnding l r (stopFields s.segs[n] r l) wd bytes finish = some (r', buf, o, ending)) {a b : State}
    (ha : a = s.withSeg n { s.segs[n] with trace := s.segs[n].trace ++ endTrace l r wd bytes finish })
    (hb : b = a.runEnded n r' l (firstByteOf l r' wd buf) buf o) :
    s.endLeg n r (l, wd) bytes finish = b.afterLeg n s.segs[n].resetRequested ending := by
  unfold State.endLeg
  rw [h, hb, ha, ← State.endRun_eq]
  rfl

end

/-- A leg that has ended with its lines held: a bus clear (R109, R110). -/
theorem State.afterLeg_held (b : State) (n : SegId) (reset : Bool) (p : ClearPurpose) :
    b.afterLeg n reset (.held p) = b.withSeg n (b.segs[n].withdrawn.clearing p (if reset then b.resetSlot n else none)) :=
  State.beginClear_eq ..

theorem State.afterLeg_stopped (b : State) (n : SegId) : b.afterLeg n false .stopped = b.decideNext n := rfl

theorem State.afterLeg_reset (b : State) (n : SegId) :
    b.afterLeg n true .stopped = b.withSeg n (b.segs[n].configured.withdrawn.clearing .reset (b.resetSlot n)) :=
  State.beginResetClear_eq ..

/-! ### The trace of a leg (R95 to R98) -/

/-- These bytes take a leg from its START to a run record, with these slots in the trace; none of them is received. -/
structure Sends (l : LegRecord) (wd : List Byte) (r : Run) (bytes : List WireByte) (q : Run) (slots : List BusSymbol) : Prop where
  wire : wireBytes l r [] bytes = some (q, [])
  trace : ∀ last, bytesTrace l wd last r [] bytes = slots

theorem Sends.nil (l : LegRecord) (wd : List Byte) (r : Run) : Sends l wd r [] r [] := ⟨rfl, fun _ => rfl⟩

section

variable {l : LegRecord} {wd : List Byte} {r q : Run} {bytes : List WireByte} {slots : List BusSymbol}

/-- The trace goes on with what follows. -/
theorem Sends.append (h : Sends l wd r bytes q slots) (last : List BusSymbol) (more : List WireByte) :
    bytesTrace l wd last r [] (bytes ++ more) = slots ++ bytesTrace l wd last q [] more := by
  cases more with
  | nil => rw [List.append_nil, h.trace, bytesTrace, List.append_nil]
  | cons w ws => rw [bytesTrace_append l wd last w ws bytes r [] h.wire, h.trace]

/-- One byte more that the engine sends. -/
theorem Sends.byte (h : Sends l wd r bytes q slots) {b : Byte} {w : WireByte} {p : Run} (hs : engineByte l q wd = some b)
    (hw : wireByte l q [] w = some (p, [])) (answer : w = .ack ∨ w = .nack) :
    Sends l wd r (bytes ++ [w]) p (slots ++ (q.lead ++ sendSlots b)) := by
  refine ⟨(wireBytes_then h.wire [w]).trans (wireBytes_one hw), fun last => ?_⟩
  rw [h.append, bytesTrace_sent hs hw answer, bytesTrace, List.append_nil]

theorem Sends.of_reaches {p : Phase} (h : Reaches l r [] bytes q p slots) : Sends l wd r bytes q slots := ⟨h.wire, h.trace wd⟩

theorem Sends.register (fresh : r.Fresh) (hk : l.kind ≠ .probe) (hp : l.regPhase = true) :
    Sends l wd r [.ack] (r.goOn .register) l.addressSlots := .of_reaches (Reaches.register fresh hk hp [])

theorem Sends.repeatedStart (fresh : r.Fresh) (hk : l.kind = .read) (hp : l.regPhase = true) :
    Sends l wd r [.ack, .ack] (r.goOn .repeatedStart) (l.addressSlots ++ sendSlots l.regIndex) :=
  .of_reaches (Reaches.repeatedStart fresh hk hp [])

theorem Sends.opening (fresh : r.Fresh) (hk : l.kind ≠ .probe) : Sends l wd r l.opening (r.goOn .data) l.openingSlots := by
  obtain ⟨q, reaches⟩ := Reaches.opening fresh hk []
  exact ⟨wireBytes_opening fresh [] hk, reaches.trace wd⟩

/-- The data bytes of a WRITE that the target acknowledges. -/
theorem Sends.acks (fresh : r.Fresh) (hk : l.kind = .write) (hl : l.length = wd.length) {m : Nat} (some_data : 1 ≤ l.length)
    (hm : m ≤ l.length) :
    Sends l wd r (l.opening ++ List.replicate m .ack) (r.afterData l m) (l.openingSlots ++ (wd.take m).flatMap sendSlots) := by
  refine ⟨wireBytes_acks fresh [] hk some_data m hm, fun last => ?_⟩
  rw [(Sends.opening fresh (by rw [hk]; nofun)).append, Run.afterData_zero fresh some_data,
    bytesTrace_acks hk hl last [] m 0 _ (Run.afterData_inData some_data) (by omega)]
  rfl

/-- The data bytes of a READ, with the slot in which the last of them is answered. -/
theorem bytesTrace_read (fresh : r.Fresh) (hk : l.kind = .read) {data : List Byte} (some_data : 1 ≤ data.length)
    (hd : data.length ≤ l.length) (last : List BusSymbol) :
    bytesTrace l wd last r [] (l.opening ++ data.map WireByte.data) =
      l.openingSlots ++ (List.replicate (data.length - 1) (receiveSlots true)).flatten ++ (List.replicate 8 (.slot false) ++ last) := by
  cases data with
  | nil => cases some_data
  | cons b data =>
    have more : 0 < l.length := by omega
    rw [List.length_cons] at hd
    rw [(Sends.opening fresh (by rw [hk]; nofun)).append, Run.afterData_zero fresh more,
      bytesTrace_received hk wd last data b 0 _ [] (Run.afterData_inData more) (by omega), ← List.append_assoc]
    rfl

/-- A leg's trace up to its STOP (R97). -/
theorem Sends.endTrace_stop (h : Sends l wd r bytes q slots) (unread : l.readData = []) (window : r.secondWindow = false) (high : Bool)
    (read : StopRead) : endTrace l r wd bytes (.stop high read) = slots ++ [.stopBegin, .stopEnd] := by
  have wire : wireBytes l r l.readData bytes = some (q, []) := by rw [unread]; exact h.wire
  have stop : q.closingStop = [.stopBegin, .stopEnd] := by
    unfold Run.closingStop
    rw [show q.secondWindow = false from (wireBytes_secondWindow bytes h.wire).trans window]
    rfl
  refine (traceThen_of wire wd _ _).trans ?_
  rw [unread, h.trace, stop]

/-- A leg's trace up to a conflict in a byte (R109). -/
theorem Sends.endTrace_bit (h : Sends l wd r bytes q slots) (unread : l.readData = []) {b : Byte} (hs : engineByte l q wd = some b)
    (k : Fin 8) : endTrace l r wd bytes (.conflict (.bit k)) = slots ++ (q.lead ++ (sendSlots b).take (k.val + 1)) := by
  have wire : wireBytes l r l.readData bytes = some (q, []) := by rw [unread]; exact h.wire
  refine (traceThen_of wire wd _ _).trans ?_
  rw [unread, h.trace, Run.brokenByte_sent hs]

end

/-- LEG_END of the leg in progress. -/
theorem exec_legEnd {s : State} {n : SegId} {r : Run} {l : LegRecord} {wd : List Byte} (hr : s.segs[n].inProgress = some r)
    (runs : s.Runs r l wd) {bytes : List WireByte} {finish : LegFinish} {wires : Wires} {t : State}
    (ht : (s.withWires wires).endLeg n r (l, wd) bytes finish = t) : exec (.legEnd n bytes finish wires) s = .next t :=
  congrArg Host.Outcome.next ((State.withRun_runs hr runs _).trans ht)

/-- An end that cannot be leaves the leg running (log 1). -/
theorem exec_legEnd_none {s : State} {n : SegId} {r : Run} {l : LegRecord} {wd : List Byte} (hr : s.segs[n].inProgress = some r)
    (runs : s.Runs r l wd) {bytes : List WireByte} {finish : LegFinish}
    (h : legEnding l r (stopFields s.segs[n] r l) wd bytes finish = none) (wires : Wires) :
    exec (.legEnd n bytes finish wires) s = .next { s with wires := wires } :=
  exec_legEnd hr runs (State.endLeg_none (s := s.withWires wires) h)

section

variable {l : LegRecord} {r : Run} {wd data : List Byte} {w : WireByte} (fresh : r.Fresh) (answer : w = .ack ∨ w = .nack)
include fresh answer

/-- The first byte of a leg, answered. -/
theorem Sends.address : ∃ q, Sends l wd r [w] q l.addressSlots := by
  have byte : ∀ {p : Run}, wireByte l r [] w = some (p, []) → ∃ q, Sends l wd r [w] q l.addressSlots := fun hw => by
    have sent := (Sends.nil l wd r).byte (engineByte_fresh fresh wd) hw answer
    rw [fresh.lead] at sent
    exact ⟨_, sent⟩
  rcases answer with rfl | rfl
  · by_cases hk : l.kind = .probe
    · exact byte (wireByte_probe fresh [] hk)
    · cases hp : l.regPhase with
      | true => exact ⟨_, Sends.register fresh hk hp⟩
      | false => exact byte (wireByte_address fresh [] hk hp)
  · exact byte (wireByte_addrNack fresh [])

/-- The register index, answered. -/
theorem Sends.index (hk : l.kind ≠ .probe) (hp : l.regPhase = true) :
    ∃ q, Sends l wd r [.ack, w] q (l.addressSlots ++ sendSlots l.regIndex) := by
  have byte : ∀ {p : Run}, wireByte l (r.goOn .register) [] w = some (p, []) →
      ∃ q, Sends l wd r [.ack, w] q (l.addressSlots ++ sendSlots l.regIndex) := fun hw =>
    ⟨_, (Sends.register fresh hk hp).byte rfl hw answer⟩
  rcases answer with rfl | rfl
  · refine byte (p := if l.kind = .read then r.goOn .repeatedStart else r.goOn .data) ?_
    unfold wireByte
    rw [show (r.goOn .register).decided = none from fresh.undecided]
    rfl
  · exact byte (wireByte_registerNack fresh [])

/-- A data byte of a WRITE, answered. -/
theorem Sends.dataByte (hk : l.kind = .write) (hl : l.length = wd.length) {m : Nat} (hm : m < l.length) :
    ∃ q, Sends l wd r (l.opening ++ List.replicate m .ack ++ [w]) q (l.openingSlots ++ (wd.take (m + 1)).flatMap sendSlots) := by
  have inData := Run.afterData_inData (r := r) hm
  have sent : engineByte l (r.afterData l m) wd = some (wd[m]'(by omega)) :=
    (engineByte_data inData hk wd).trans (List.getElem?_eq_getElem (by omega))
  have slots : l.openingSlots ++ (wd.take m).flatMap sendSlots ++ ((r.afterData l m).lead ++ sendSlots (wd[m]'(by omega))) =
      l.openingSlots ++ (wd.take (m + 1)).flatMap sendSlots := by
    rw [inData.lead, List.take_succ_eq_append_getElem (by omega), List.flatMap_append, List.append_assoc]
    simp
  have before := Sends.acks fresh hk hl (show 1 ≤ l.length by omega) (show m ≤ l.length by omega)
  rcases answer with rfl | rfl
  · exact ⟨_, slots ▸ before.byte sent (wireByte_ack_data inData hk hm []) (.inl rfl)⟩
  · exact ⟨_, slots ▸ before.byte sent (wireByte_dataNack [] hk hm) (.inr rfl)⟩

end

section

variable {l : LegRecord} {r : Run} {wd data : List Byte} {high : Bool} {read : StopRead} (fresh : r.Fresh) (unread : l.readData = [])
include fresh unread

/-- The traces of a READ that ends at its repeated START (R96, R109). -/
theorem endTrace_again (hk : l.kind = .read) (hp : l.regPhase = true) :
    (endTrace l r wd [.ack, .ack] (.conflict .repeatedStart) = l.addressSlots ++ sendSlots l.regIndex ++ [.release]) ∧
      (∀ k : Fin 8, endTrace l r wd [.ack, .ack] (.conflict (.bit k)) =
        l.addressSlots ++ sendSlots l.regIndex ++ [.release, .start] ++ (sendSlots (l.busAddr ++ 1#1)).take (k.val + 1)) ∧
      (endTrace l r wd [.ack, .ack, .nack] (.stop high read) = l.openingSlots ++ [.stopBegin, .stopEnd]) := by
  have before : Sends l wd r [.ack, .ack] (r.goOn .repeatedStart) (l.addressSlots ++ sendSlots l.regIndex) :=
    Sends.repeatedStart fresh hk hp
  refine ⟨?conflict, fun k => ?bit, ?refused⟩
  case conflict =>
    refine (traceThen_of (by rw [unread]; exact before.wire) wd _ _).trans ?_
    rw [unread, before.trace]
  case bit =>
    rw [before.endTrace_bit unread rfl k, ← List.append_assoc]
    rfl
  case refused =>
    have refused := before.byte rfl (wireByte_againNack fresh []) (.inr rfl)
    refine (refused.endTrace_stop unread fresh.window high read).trans (congrArg (· ++ _) ?_)
    unfold LegRecord.openingSlots
    rw [hk, hp, ← List.append_assoc]
    rfl

/-- The traces of a READ that ends in its data (R102, R109). -/
theorem endTrace_read (hk : l.kind = .read) (some_data : 1 ≤ data.length) (hd : data.length ≤ l.length) :
    (endTrace l r wd (l.opening ++ data.map WireByte.data) (.stop high read) =
        l.openingSlots ++ (List.replicate (data.length - 1) (receiveSlots true)).flatten ++ receiveSlots false ++ [.stopBegin, .stopEnd]) ∧
      (endTrace l r wd (l.opening ++ data.map WireByte.data) (.conflict .readNack) =
        l.openingSlots ++ (List.replicate (data.length - 1) (receiveSlots true)).flatten ++ receiveSlots false) := by
  have wire : wireBytes l r l.readData (l.opening ++ data.map WireByte.data) = some (r.afterData l data.length, data) := by
    rw [unread]
    exact wireBytes_received fresh [] hk (by omega) data hd
  have trace := bytesTrace_read (wd := wd) fresh hk some_data hd [.slot false]
  have stop : (r.afterData l data.length).closingStop = [.stopBegin, .stopEnd] := by
    unfold Run.closingStop
    rw [show (r.afterData l data.length).secondWindow = false from fresh.window]
    rfl
  constructor
  · refine (traceThen_of wire wd _ _).trans ?_
    rw [unread, trace, stop]
    rfl
  · refine (traceThen_of wire wd _ _).trans ?_
    rw [unread, trace, List.append_nil]
    rfl

end

/-- A leg in its second stretch window ends with what is left of its STOP (R107). -/
theorem endTrace_secondWindow {r : Run} (window : r.secondWindow = true) (l : LegRecord) (wd : List Byte) (high : Bool) (read : StopRead) :
    endTrace l r wd [] (.stop high read) = if r.phase = .stop then [.stopEnd] else [.stopBegin, .stopEnd] := by
  refine (traceThen_of (l := l) (r := r) (bytes := []) (p := (r, l.readData)) rfl wd _ _).trans ?_
  unfold Run.closingStop
  rw [window]
  by_cases h : r.phase = .stop <;> simp [h, bytesTrace]

/-- Settles O44. -/
theorem legEndDeliversAndGoesOn : Obligations.LegEndDeliversAndGoesOn := by
  unfold Obligations.LegEndDeliversAndGoesOn
  refine ⟨fun s n bytes finish wires => ⟨fun idle => congrArg Host.Outcome.next (State.withRun_none idle _),
    fun r l wd fields hr runs hf => ?ends⟩, fun l r wd data high read last fresh unread answer => ?traces⟩
  case ends =>
    subst hf
    refine ⟨fun none_ends => exec_legEnd_none hr runs none_ends wires, fun high window => ⟨fun hfin owned uncut => ?cut,
      fun hfin unreset undropped => ?reset⟩, fun r' buf o ending a b ends ha hb => ?ended⟩
    case cut =>
      subst hfin
      refine exec_legEnd_none hr runs (legEnding_refused window (.inl ⟨rfl, ?_⟩) high) wires
      unfold stopFields
      rw [owned]
      rcases uncut with e | e <;> simp [e]
    case reset =>
      subst hfin
      refine exec_legEnd_none hr runs (legEnding_refused window (.inr ⟨rfl, ?_⟩) high) wires
      unfold stopFields
      rw [unreset, undropped]
      rfl
    case ended =>
      have carried := exec_legEnd hr runs (State.endLeg_some (s := s.withWires wires) ends ha hb)
      refine ⟨fun hend free => ?stopped, fun hend reset => ?underReset, fun p hend => ?held⟩
      case stopped =>
        subst hend
        rw [carried, show (s.withWires wires).segs[n].resetRequested = false from free]
        rfl
      case underReset =>
        subst hend
        rw [carried, show (s.withWires wires).segs[n].resetRequested = true from reset, State.afterLeg_reset]
      case held =>
        subst hend
        rw [carried, State.afterLeg_held]
        rfl
  case traces =>
    obtain ⟨_, address⟩ := Sends.address (l := l) (wd := wd) fresh answer
    refine ⟨fun r' window => ⟨fun other => (endTrace_secondWindow window ..).trans (if_neg other),
        fun stop => (endTrace_secondWindow window ..).trans (if_pos stop)⟩, fun k => ?start,
      address.endTrace_stop unread fresh.window high read, fun hk hp => ⟨fun k => ?register, ?index⟩, endTrace_again fresh unread,
      fun m hk hl hm => ⟨?written, fun k b hb => ?writing⟩, endTrace_read fresh unread⟩
    case start =>
      refine ((Sends.nil l wd r).endTrace_bit unread (engineByte_fresh fresh wd) k).trans ?_
      rw [fresh.lead]
      rfl
    case register => exact (Sends.register fresh hk hp).endTrace_bit unread rfl k
    case index =>
      obtain ⟨_, index⟩ := Sends.index (wd := wd) fresh answer hk hp
      exact index.endTrace_stop unread fresh.window high read
    case written =>
      obtain ⟨_, written⟩ := Sends.dataByte fresh answer hk hl hm
      exact written.endTrace_stop unread fresh.window high read
    case writing =>
      have inData := Run.afterData_inData (r := r) hm
      refine ((Sends.acks fresh hk hl (show 1 ≤ l.length by omega) (show m ≤ l.length by omega)).endTrace_bit unread
        ((engineByte_data inData hk wd).trans hb) k).trans ?_
      rw [inData.lead]
      rfl

end Sys2Proof.Machine
end

section
/-! The stretch limit (O46): where it can expire, the run record of the second stretch window, and the trace up to it. -/

namespace Sys2Proof.Machine

/-! ### Where the stretch limit expires (R106, R107) -/

section

variable {l : LegRecord} {r q : Run} {f : StopFields} {bytes : List WireByte} {buf : List Byte}
  (wire : wireBytes l r l.readData bytes = some (q, buf))
include wire

/-- In a byte, but not in the acknowledge slot of one that is received. -/
theorem stretchAt_bit (k : Fin 9) (undecided : q.decided = none) (h : ¬ (q.bytePhase l = .data ∧ l.kind = .read ∧ k = 8)) {pos : Nat}
    (hp : (if q.bytePhase l = .data then q.dataPos + 1 else q.dataPos) = pos) :
    stretchAt l r f bytes (.bit k) = some ({ q with
      phase := .stretchWait, bitPos := k, dataPos := pos, decided := some .stretchTimeout, secondWindow := true }, buf) := by
  subst hp
  unfold stretchAt
  rw [wire]
  refine if_neg ?_
  rw [undecided]
  simpa [and_assoc] using h

/-- In the acknowledge slot of a byte received. -/
theorem stretchAt_readAck {read : StopRead} (hk : l.kind = .read) (count : 0 < q.count) (window : q.secondWindow = false)
    (cut : read = .cut → f.cut = true) (reset : read = .reset → f.reset = true) :
    stretchAt l r f bytes (.readAck read) = some ({ q with
      phase := .stretchWait, bitPos := 8, decided := some .stretchTimeout, secondWindow := true }, buf) := by
  have inAck : q.inReadAck l = true := by
    unfold Run.inReadAck
    rw [hk, window, decide_eq_true count]
    rfl
  unfold stretchAt
  rw [wire]
  exact if_pos (by rw [inAck, f.allows_iff read |>.2 ⟨cut, reset⟩]; rfl)

/-- In the repeated START. -/
theorem stretchAt_repeatedStart (undecided : q.decided = none) (phase : q.phase = .repeatedStart) :
    stretchAt l r f bytes .repeatedStart = some ({ q with
      phase := .stretchWait, bitPos := 0, decided := some .stretchTimeout, secondWindow := true }, buf) := by
  unfold stretchAt
  rw [wire]
  exact if_pos (by rw [undecided, phase]; rfl)

/-- In the closing STOP. -/
theorem stretchAt_closingStop {read : StopRead} {o : LegOutcome} (closed : ¬ (q.phase = .stop ∧ q.secondWindow = true))
    (ho : closingOutcome l q f read = some o) :
    stretchAt l r f bytes (.closingStop read) =
      some ({ q with phase := .stop, decided := some o, secondWindow := true }, buf) := by
  unfold stretchAt
  rw [wire]
  refine (if_neg (by rw [Bool.and_eq_true, decide_eq_true_iff]; exact closed)).trans ?_
  simp only [ho]

end

theorem stretchAt_none {l : LegRecord} {r : Run} {bytes : List WireByte} (h : wireBytes l r l.readData bytes = none) (f : StopFields)
    (place : StretchPlace) : stretchAt l r f bytes place = none := by
  unfold stretchAt
  rw [h]

/-- The outcome with which a leg is in its closing STOP. -/
theorem closingOutcome_of {l : LegRecord} {q : Run} {f : StopFields} {read : StopRead} {o : LegOutcome}
    (h : closingOutcome l q f read = some o ∨ (q.secondWindow = true ∧ q.decided = some o) ∨ (read = .noField ∧ q.decided = some o) ∨
      (read = .cut ∧ f.cut = true ∧ q.decided = some o)) : closingOutcome l q f read = some o := by
  rcases h with outcome | ⟨window, decided⟩ | ⟨rfl, decided⟩ | ⟨rfl, cut, decided⟩
  · exact outcome
  · exact (if_pos window).trans decided
  · unfold closingOutcome
    rw [decided]
    cases q.secondWindow <;> rfl
  · unfold closingOutcome
    rw [cut, decided]
    cases q.secondWindow <;> rfl

/-! ### STRETCH_TIMEOUT -/

theorem State.storeRun_eq (a : State) (n : SegId) (r : Run) (buf : List Byte) : a.storeRun n r buf = a.stretched n r buf := by
  have drive : r.stretchDrive = { sclLow := false, sdaLow := decide (r.phase = .stop) } := by
    unfold Run.stretchDrive
    by_cases h : r.phase = .stop <;> simp [h, LineDrive.released]
  unfold State.storeRun State.stretched
  rw [drive]
  cases r.orphan <;> rfl

section

variable {s : State} {n : SegId} {r : Run} {l : LegRecord} {wd : List Byte} (hr : s.segs[n].inProgress = some r) (runs : s.Runs r l wd)
  {bytes : List WireByte} {place : StretchPlace}
include hr runs

theorem exec_stretchTimeout_none (h : stretchAt l r (stopFields s.segs[n] r l) bytes place = none) :
    exec (.stretchTimeout n bytes place) s = .next s := by
  refine congrArg Host.Outcome.next ((State.withRun_runs hr runs _).trans ?_)
  simp only [h]

theorem exec_stretchTimeout {q : Run} {buf : List Byte} (h : stretchAt l r (stopFields s.segs[n] r l) bytes place = some (q, buf))
    {a : State} (ha : a = s.withSeg n { s.segs[n] with trace := s.segs[n].trace ++ stretchTrace l r wd bytes place }) :
    exec (.stretchTimeout n bytes place) s = .next (a.stretched n q buf) := by
  refine congrArg Host.Outcome.next ((State.withRun_runs hr runs _).trans ?_)
  simp only [h]
  rw [State.storeRun_eq, ha]
  rfl

end

/-! ### The trace up to the expiry (R98, R105, R106) -/

section

variable {l : LegRecord} {wd : List Byte} {r q : Run} {bytes : List WireByte} {slots : List BusSymbol} (h : Sends l wd r bytes q slots)
  (unread : l.readData = [])
include h unread

/-- A leg that is held after bytes of its own. -/
theorem Sends.traceThen (last : List BusSymbol) (after : Run → List BusSymbol) :
    Machine.traceThen l r wd bytes last after = slots ++ after q := by
  have wire : wireBytes l r l.readData bytes = some (q, []) := by rw [unread]; exact h.wire
  refine (traceThen_of wire wd _ _).trans ?_
  rw [unread, h.trace]

theorem Sends.stretchTrace_bit {b : Byte} (hs : engineByte l q wd = some b) (k : Fin 9) :
    stretchTrace l r wd bytes (.bit k) = slots ++ (q.lead ++ (sendSlots b).take (k.val + 1) ++ [.giveUp]) := by
  refine (h.traceThen unread _ _).trans ?_
  rw [Run.brokenByte_sent hs]

theorem Sends.stretchTrace_stop (read : StopRead) : stretchTrace l r wd bytes (.closingStop read) = slots ++ [.stopBegin] :=
  h.traceThen unread _ _

end

section

variable {l : LegRecord} {r : Run} {wd data : List Byte} {read : StopRead} (fresh : r.Fresh) (unread : l.readData = [])
include fresh unread

theorem stretchTrace_write (hk : l.kind = .write) (hl : l.length = wd.length) :
    (∀ (m : Nat) (k : Fin 9) (b : Byte), wd[m]? = some b →
        stretchTrace l r wd (l.opening ++ List.replicate m .ack) (.bit k) =
          l.openingSlots ++ (wd.take m).flatMap sendSlots ++ (sendSlots b).take (k.val + 1) ++ [.giveUp]) ∧
      (1 ≤ l.length →
        stretchTrace l r wd (l.opening ++ List.replicate l.length .ack) (.closingStop read) =
          l.openingSlots ++ wd.flatMap sendSlots ++ [.stopBegin]) := by
  refine ⟨fun m k b hb => ?bit, fun some_data => ?stop⟩
  case bit =>
    have hm : m < l.length := by
      rw [hl]
      exact (List.getElem?_eq_some_iff.1 hb).1
    have inData := Run.afterData_inData (r := r) hm
    refine ((Sends.acks fresh hk hl (by omega) (by omega)).stretchTrace_bit unread ((engineByte_data inData hk wd).trans hb) k).trans ?_
    rw [inData.lead, List.nil_append, ← List.append_assoc]
  case stop =>
    refine ((Sends.acks fresh hk hl some_data (Nat.le_refl _)).stretchTrace_stop unread read).trans ?_
    rw [hl, List.take_length]

theorem stretchTrace_read (hk : l.kind = .read) (some_data : 1 ≤ data.length) (hd : data.length ≤ l.length) :
    (stretchTrace l r wd (l.opening ++ data.map WireByte.data) (.readAck read) =
        l.openingSlots ++ (List.replicate (data.length - 1) (receiveSlots true)).flatten ++
          receiveSlots (if read = .noField ∧ data.length < l.length then true else false) ++ [.giveUp]) ∧
      (∀ k : Fin 8, data.length < l.length →
        stretchTrace l r wd (l.opening ++ data.map WireByte.data) (.bit k.castSucc) =
          l.openingSlots ++ (List.replicate data.length (receiveSlots true)).flatten ++ List.replicate (k.val + 1) (.slot false) ++
            [.giveUp]) := by
  have wire : wireBytes l r l.readData (l.opening ++ data.map WireByte.data) = some (r.afterData l data.length, data) := by
    rw [unread]
    exact wireBytes_received fresh [] hk (by omega) data hd
  refine ⟨?ack, fun k more => ?bit⟩
  case ack =>
    have slot : (r.afterData l data.length).readAckSlot l read =
        .slot (if read = .noField ∧ data.length < l.length then true else false) := by
      unfold Run.readAckSlot
      rw [show (r.afterData l data.length).count = data.length from rfl]
      rcases Nat.lt_or_eq_of_le hd with more | full
      · simp [more, Nat.ne_of_lt more]
      · simp [full]
    refine (traceThen_of wire wd _ _).trans ?_
    rw [unread, bytesTrace_read fresh hk some_data hd, slot]
    simp [receiveSlots]
  case bit =>
    have inData := Run.afterData_inData (r := r) more
    have broken : (r.afterData l data.length).brokenByte l wd (k.castSucc.val + 1) = List.replicate (k.val + 1) (.slot false) := by
      unfold Run.brokenByte
      rw [inData.lead, Run.dataSlots_received inData hk, List.nil_append,
        show List.replicate 8 (BusSymbol.slot false) ++ [.slot false] = List.replicate 9 (.slot false) from rfl, List.take_replicate,
        Nat.min_eq_left (by have := k.isLt; simp only [Fin.val_castSucc]; omega)]
      rfl
    have acked : List.replicate data.length (receiveSlots true) = List.replicate (data.length - 1) (receiveSlots true) ++ [receiveSlots true] := by
      rw [← List.replicate_succ', Nat.sub_add_cancel some_data]
    refine (traceThen_of wire wd _ _).trans ?_
    rw [unread, bytesTrace_read fresh hk some_data hd, broken, acked]
    simp [receiveSlots]

end

/-! ### The second stretch window of a leg from its START -/

section

variable {l : LegRecord} {r : Run} {f : StopFields} {data : List Byte} (fresh : r.Fresh) (unread : l.readData = [])
include fresh unread

theorem stretchAt_address (k : Fin 9) :
    stretchAt l r f [] (.bit k) =
      some ({ r with phase := .stretchWait, bitPos := k, decided := some .stretchTimeout, secondWindow := true }, []) := by
  have phase : r.bytePhase l ≠ .data := by
    obtain ⟨phase, -⟩ := fresh
    unfold Run.bytePhase LegRecord.firstPhase
    rw [phase]
    cases (decide (l.kind = .read) && !l.regPhase) <;> nofun
  exact stretchAt_bit (by rw [unread]; rfl) k fresh.undecided (fun h => phase h.1) (if_neg phase)

theorem stretchAt_write (hk : l.kind = .write) (k : Fin 9) {m : Nat} (hm : m < l.length) :
    stretchAt l r f (l.opening ++ List.replicate m .ack) (.bit k) =
      some ({ r with
        phase := .stretchWait, dataPos := m + 1, bitPos := k, count := m, decided := some .stretchTimeout, secondWindow := true }, []) := by
  have inData := Run.afterData_inData (r := r) hm
  have phase : (r.afterData l m).bytePhase l = .data := by
    unfold Run.bytePhase
    rw [inData.phase]
  exact stretchAt_bit (by rw [unread]; exact wireBytes_acks fresh [] hk (by omega) m (by omega)) k inData.decided
    (fun h => by rw [hk] at h; cases h.2.1) (if_pos phase)

theorem stretchAt_read (hk : l.kind = .read) (some_data : 1 ≤ data.length) (hd : data.length ≤ l.length) {read : StopRead}
    (cut : read = .cut → f.cut = true) (reset : read = .reset → f.reset = true) :
    stretchAt l r f (l.opening ++ data.map WireByte.data) (.readAck read) =
      some ({ r with
        phase := .stretchWait, dataPos := data.length, bitPos := 8, count := data.length, decided := some .stretchTimeout,
        secondWindow := true }, data) :=
  stretchAt_readAck (q := r.afterData l data.length)
    (by rw [unread]; exact wireBytes_received fresh [] hk (by omega) data hd) hk some_data fresh.window cut reset

theorem stretchAt_again (hk : l.kind = .read) (hp : l.regPhase = true) :
    stretchAt l r f [.ack, .ack] .repeatedStart =
      some ({ r with phase := .stretchWait, bitPos := 0, decided := some .stretchTimeout, secondWindow := true }, []) :=
  stretchAt_repeatedStart (q := r.goOn .repeatedStart) (by rw [unread]; exact wireBytes_repeatedStart fresh [] hk hp) fresh.undecided rfl

theorem stretchAt_nack :
    stretchAt l r f [.nack] (.closingStop .noField) =
      some ({ r with phase := .stop, bitPos := 8, decided := some .addrNack, secondWindow := true }, []) :=
  stretchAt_closingStop (q := r.decide .addrNack) (by rw [unread]; exact wireBytes_one (wireByte_addrNack fresh []))
    (fun h => by rw [show (r.decide .addrNack).secondWindow = false from fresh.window] at h; cases h.2)
    (closingOutcome_of (.inr (.inr (.inl ⟨rfl, rfl⟩))))

theorem stretchAt_written (hk : l.kind = .write) (some_data : 1 ≤ l.length) :
    stretchAt l r f (l.opening ++ List.replicate l.length .ack) (.closingStop .noField) =
      some ({ r with
        phase := .stop, dataPos := l.length, bitPos := 8, count := l.length, decided := some .acked, secondWindow := true }, []) := by
  have acks := wireBytes_acks fresh [] hk some_data l.length (Nat.le_refl _)
  rw [Run.afterData_full] at acks
  refine stretchAt_closingStop (q := { r with
      phase := .stop, dataPos := l.length, bitPos := 8, count := l.length, decided := some .acked }) (by rw [unread]; exact acks)
    (fun h => ?_) (closingOutcome_of (.inr (.inr (.inl ⟨rfl, rfl⟩))))
  rw [fresh.window] at h
  cases h.2

end

/-- Settles O46: every wait by its place, then the waits and the traces of a leg from its START. -/
theorem stretchTimeoutOpensTheSecondWindow : Obligations.StretchTimeoutOpensTheSecondWindow := by
  unfold Obligations.StretchTimeoutOpensTheSecondWindow
  refine ⟨fun s n bytes place => ⟨fun idle => congrArg Host.Outcome.next (State.withRun_none idle _),
    fun r l wd fields a hr runs hf ha => ?waits⟩, fun l r wd data read fresh unread => ?traces⟩
  case waits =>
    subst hf
    have opens : ∀ {q : Run} {buf : List Byte}, stretchAt l r (stopFields s.segs[n] r l) bytes place = some (q, buf) →
        exec (.stretchTimeout n bytes place) s = .next (a.stretched n q buf) := fun h => exec_stretchTimeout hr runs h ha
    refine ⟨fun none_there => exec_stretchTimeout_none hr runs none_there,
      fun none_there => exec_stretchTimeout_none hr runs (stretchAt_none none_there _ _), fun q buf wire => ?anywhere,
      fun fresh unread => ?fromStart⟩
    case anywhere =>
      refine ⟨fun k hp undecided sends => opens ?bit, fun read hp hk count window cut reset => opens ?ack,
        fun hp undecided phase => opens ?again, fun read o hp closed outcome => opens ?stop⟩
      case bit => rw [hp]; exact stretchAt_bit wire k undecided sends rfl
      case ack => rw [hp]; exact stretchAt_readAck wire hk count window cut reset
      case again => rw [hp]; exact stretchAt_repeatedStart wire undecided phase
      case stop => rw [hp]; exact stretchAt_closingStop wire closed (closingOutcome_of outcome)
    case fromStart =>
      refine ⟨fun k hb hp => opens ?address, fun k m hk hm hb hp => opens ?write, fun data read hk some_data hd hb hp cut reset => opens ?read,
        fun hk hreg hb hp => opens ?again, fun hb hp => opens ?nack, fun hk some_data hb hp => opens ?written⟩
      case address => rw [hb, hp]; exact stretchAt_address fresh unread k
      case write => rw [hb, hp]; exact stretchAt_write fresh unread hk k hm
      case read => rw [hb, hp]; exact stretchAt_read fresh unread hk some_data hd cut reset
      case again => rw [hb, hp]; exact stretchAt_again fresh unread hk hreg
      case nack => rw [hb, hp]; exact stretchAt_nack fresh unread
      case written => rw [hb, hp]; exact stretchAt_written fresh unread hk some_data
  case traces =>
    obtain ⟨_, refused⟩ := Sends.address (l := l) (wd := wd) fresh (.inr rfl)
    refine ⟨fun k => ?start, refused.stretchTrace_stop unread read, fun hk hp => ?again, stretchTrace_write fresh unread,
      stretchTrace_read fresh unread⟩
    case start =>
      refine ((Sends.nil l wd r).stretchTrace_bit unread (engineByte_fresh fresh wd) k).trans ?_
      rw [fresh.lead]
      rfl
    case again => exact (Sends.repeatedStart (wd := wd) fresh hk hp).traceThen unread [.slot true] fun _ => [.release, .giveUp]

end Sys2Proof.Machine
end
